-- ==== Sys2Proof/Word.lean ====
section
/-!
DEFINITION. The words of the Scaris M64 and their plainest arithmetic (00 R1: bit 0 is the least significant bit, values
are little-endian). Anything a repair might have to mend stands under Machine/.
-/
namespace Sys2Proof

/-- A 64-bit scalar register value or virtual address (06 R121, 09 R201). -/
abbrev Word := BitVec 64

/-- A 32-bit instruction word, literal or vector lane (05 R88, 10 R236). -/
abbrev W32 := BitVec 32

/-- One byte. -/
abbrev Byte := BitVec 8

/-- A 2,048-bit vector register value (10 R236). -/
abbrev Vec := BitVec 2048

end Sys2Proof
end

