-- ==== Sys2Proof/Syntax.lean ====
section
/-!
DEFINITION. The instruction set: one constructor of `Instr` for every row of spec/opcode_table.json. The second
part holds the steps of the agents beside the cores (spec/95_what_each_step_holds.md); the table gives them no fields, and
which object such a step is about stands in `State.about`, where the move of the agenda puts it. The first part holds the slot instructions (05 R110), whose fields are already names and never raw codes.
-/
namespace Sys2Proof

/-- The eight slots of a bundle in presence-bit order (05 R89). -/
inductive Slot | c | i0 | i1 | ls | va | vb | mx | en
  deriving DecidableEq, Repr

/-- The two integer slots (07 R167). -/
inductive ISlot | i0 | i1
  deriving DecidableEq, Repr

/-- The two vector slots (10, first paragraph). -/
inductive VSlot | va | vb
  deriving DecidableEq, Repr

/-- What a 6-bit operand code names (05 R105). `own` is a register of the slot's own file, `zero` is code 60: it reads
as 0 and discards a result (05 R106). -/
inductive Opnd
  | own (n : BitVec 5) | flag (n : BitVec 4) | stream (n : BitVec 4)
  | loopIx (k : BitVec 3) | tileIx (k : BitVec 3) | zero | slotId | reuseA | reuseB
  deriving DecidableEq, Repr

/-- How a literal is widened: the b field values 0, 1 and 2 of 05 R100 and R101. -/
inductive Widen | w0 | w1 | w2
  deriving DecidableEq, Repr

/-- A literal word with its widening (05 R100, R101). -/
structure Lit where
  mode : Widen
  val : W32
  deriving DecidableEq, Repr

/-- Operand b: an operand code, or a literal when W = 1 (05 R100, R101). -/
inductive OpB | op (o : Opnd) | lit (l : Lit)
  deriving DecidableEq, Repr

/-- Element types (05 R109), in code order. -/
inductive ElemTy
  | i8 | u8 | i16 | i32 | u32 | f32 | bf16 | f16 | e4m3 | e5m2 | mxf4 | mxf6a | mxf6b | mxi8 | d8 | i4
  deriving DecidableEq, Repr

/-- Integer widths (05 R103): 64-bit, 32-bit sign-extended, 32-bit zero-extended. -/
inductive Width | w64 | s32 | z32
  deriving DecidableEq, Repr

/-- Conditions of CMP and WMON (07 R173, 15 R362), in code order. -/
inductive Cond | eq | ne | lt | ge | ltu | geu | tst | ntst
  deriving DecidableEq, Repr

/-- Where CMP writes: a register, or a flag (07 R173). -/
inductive CmpDst | reg (d : Opnd) | flag (n : BitVec 4)
  deriving DecidableEq, Repr

/-- The flag functions of FOP with the operands each uses (07 R166). -/
inductive FlagExp
  | set | clr | and (a b : Opnd) | or (a b : Opnd) | not (a : Opnd) | xor (a b : Opnd)
  deriving DecidableEq, Repr

/-- The fields of a loop level (07 R153). -/
inductive LoopField | start | last | count | index
  deriving DecidableEq, Repr

/-- The count of LOOP: an immediate 1–63, or an operand (07 R149). -/
inductive LoopCount | imm (n : BitVec 6) | reg (a : Opnd)
  deriving DecidableEq, Repr

/-- Load kinds (09 R225). -/
inductive LoadKind | u8 | u16 | u32 | x64 | i8 | i16 | i32
  deriving DecidableEq, Repr

/-- Store sizes (09 R225). -/
inductive AccSize | b1 | b2 | b4 | b8
  deriving DecidableEq, Repr

/-- Scopes with the codes 1–6 of 09 R230 (00 R6). -/
inductive Scope | core | quad | die | stack | mod | pod
  deriving DecidableEq, Repr

/-- Prefetch levels (09 R234). -/
inductive PrefLevel | l1 | l2 | l3
  deriving DecidableEq, Repr

/-- Rounding modes (08 R185). -/
inductive RMode | ne | tz | up | dn
  deriving DecidableEq, Repr

/-- Region modes (08 R188). -/
inductive AccMode | integer | decimal | binary
  deriving DecidableEq, Repr

/-- Atomic operand types (15 R358). -/
inductive AType | u64 | i64 | u32 | i32
  deriving DecidableEq, Repr

/-- Order and scope of an atomic: the scope field is 0 with the relaxed order (15 R358). The scopes are
`.die`, `.stack`, `.mod` and `.pod`. -/
inductive AScope | die | stack | mod | pod
  deriving DecidableEq, Repr

/-- Order of an atomic with its scope (15 R358). -/
inductive AOrder | relaxed | acq (s : AScope) | rel (s : AScope) | ar (s : AScope)
  deriving DecidableEq, Repr

/-- Order of RED: relaxed or release (15 R361). -/
inductive ROrder | relaxed | rel (s : AScope)
  deriving DecidableEq, Repr

/-- Functions of RED (15 R361). -/
inductive RedFn | add | min | max | and | or | xor | fadd
  deriving DecidableEq, Repr

/-- Functions of VRED and VSCAN (10 R257). -/
inductive VFn | add | min | max | and | or | xor
  deriving DecidableEq, Repr

/-- Quantifier and condition mask of VPOP (10 R247). -/
inductive VQuant | any (c : BitVec 4) | all (c : BitVec 4) | nz
  deriving DecidableEq, Repr

/-- A pair of adjacent registers z(2k), z(2k+1) or w(2k), w(2k+1), by k. -/
abbrev ZPair := BitVec 4
abbrev WPair := BitVec 3

/-- The amount operand of SIGDEC: E = 0 takes an operand, E = 1 an even w register pair (15 R365). -/
inductive SigAmt | plain (b : OpB) | err (p : WPair)
  deriving DecidableEq, Repr

/-- Which words of W-format: fields of a two-operand integer instruction (07 R168). -/
structure IArgs where
  u : ISlot
  w : Width
  d : Opnd
  a : Opnd
  b : OpB
  deriving DecidableEq, Repr

/-- One-operand integer instruction (07 R168). -/
structure IUn where
  u : ISlot
  w : Width
  d : Opnd
  a : Opnd
  deriving DecidableEq, Repr

/-- Two-operand integer instruction of width 64 only (07 R168: BFX, BFI, LEA). -/
structure IArgs64 where
  u : ISlot
  d : Opnd
  a : Opnd
  b : OpB
  deriving DecidableEq, Repr

/-- d, a, b of a scalar housekeeping instruction (05 R112, 09 R227). -/
structure SArgs where
  d : Opnd
  a : Opnd
  b : OpB
  deriving DecidableEq, Repr

/-- XCP: destination slot and index, source (05 R113). -/
structure XArgs where
  dst : Slot
  ix : BitVec 5
  src : Opnd
  deriving DecidableEq, Repr

/-- Typed two-operand vector instruction (10 R242). -/
structure VBin where
  u : VSlot
  t : ElemTy
  p : BitVec 2
  d : Opnd
  a : Opnd
  b : OpB
  deriving DecidableEq, Repr

/-- Typed one-operand vector instruction (10 R242). -/
structure VUn where
  u : VSlot
  t : ElemTy
  p : BitVec 2
  d : Opnd
  a : Opnd
  deriving DecidableEq, Repr

/-- Untyped two-operand vector instruction (10 R242). -/
structure VBit where
  u : VSlot
  p : BitVec 2
  d : Opnd
  a : Opnd
  b : OpB
  deriving DecidableEq, Repr

/-- Untyped one-operand vector instruction (10 R242). -/
structure VBit1 where
  u : VSlot
  p : BitVec 2
  d : Opnd
  a : Opnd
  deriving DecidableEq, Repr

/-- MMA, MMAZ, MMAG: region, streams, type, and the K of a literal (11 R266). -/
structure MArgs where
  ac : BitVec 4
  qa : BitVec 4
  qb : BitVec 4
  t : ElemTy
  k : Option (BitVec 16)
  deriving DecidableEq, Repr

/-- Ring, phaser and sequence instructions: destination, address operand, value operand. -/
structure EArgs where
  d : Opnd
  a : Opnd
  b : OpB
  deriving DecidableEq, Repr

/-- Destination and address of an EN instruction with no b operand. -/
structure EUn where
  d : Opnd
  a : Opnd
  deriving DecidableEq, Repr

/-- EN instruction writing a w pair (`none` discards, code 60). -/
structure PArgs where
  d : Option WPair
  a : Opnd
  b : OpB
  deriving DecidableEq, Repr

/-- Atomics (15 R358). -/
structure AArgs where
  d : Option WPair
  a : Opnd
  b : OpB
  t : AType
  o : AOrder
  deriving DecidableEq, Repr

/-- The instructions and steps of the module, one constructor per row of the opcode table. -/
inductive Instr
  -- C slot (07, 05 R112, R113)
  | cNop
  | br (off : Lit)
  | brt (cond : Opnd) (off : Lit)
  | brf (cond : Opnd) (off : Lit)
  | call (off : Lit)
  | ret
  | jmpi (a : Opnd) (b : OpB)
  | loop (cnt : LoopCount) (off : Lit)
  | lbrk (n : BitVec 3)
  | lcont
  | lrd (d : Opnd) (level : BitVec 3) (f : LoopField)
  | lwr (src : Opnd) (level : BitVec 3) (f : LoopField)
  | yield
  | exit
  | exitK (src : Opnd)
  | trap (code : Byte)
  | eret
  | ckpt
  | ckptT (src : Opnd)
  | ckptL
  | rdsys (d : Opnd) (n : BitVec 6)
  | wrsys (src : Opnd) (n : BitVec 6)
  | cXcp (x : XArgs)
  | cMovl (d : Opnd) (l : Lit)
  | cAdd (p : SArgs)
  | fop (d : BitVec 4) (e : FlagExp)
  -- I0, I1 (07)
  | iNop (u : ISlot)
  | add (p : IArgs)
  | sub (p : IArgs)
  | mul (p : IArgs)
  | mulhs (p : IArgs)
  | mulhu (p : IArgs)
  | divs (p : IArgs)
  | divu (p : IArgs)
  | rems (p : IArgs)
  | remu (p : IArgs)
  | and (p : IArgs)
  | or (p : IArgs)
  | xor (p : IArgs)
  | andn (p : IArgs)
  | shl (p : IArgs)
  | shr (p : IArgs)
  | sar (p : IArgs)
  | ror (p : IArgs)
  | min (p : IArgs)
  | max (p : IArgs)
  | minu (p : IArgs)
  | maxu (p : IArgs)
  | abs (p : IUn)
  | clz (p : IUn)
  | ctz (p : IUn)
  | popc (p : IUn)
  | bfx (p : IArgs64)
  | bfi (p : IArgs64)
  | clmul (p : IArgs)
  | clmulh (p : IArgs)
  | cmp (u : ISlot) (w : Width) (c : Cond) (d : CmpDst) (a : Opnd) (b : OpB)
  | sel (u : ISlot) (w : Width) (k : BitVec 4) (d a b : Opnd)
  | mov (p : IUn)
  | movl (u : ISlot) (d : Opnd) (l : Lit)
  | movh (u : ISlot) (d : Opnd) (l : W32)
  | lea (p : IArgs64)
  | xcp (u : ISlot) (x : XArgs)
  | adds (p : IArgs)
  | bswap (p : IUn)
  | crc32c (narrow : Bool) (p : IArgs64)
  -- LS (09)
  | lsNop
  | ld (k : LoadKind) (d a : Opnd) (b : OpB)
  | st (sz : AccSize) (data a : Opnd) (b : OpB)
  | ldx (k : LoadKind) (d a ix : Opnd)
  | stx (sz : AccSize) (data a ix : Opnd)
  | lsAdd (p : SArgs)
  | lsSub (p : SArgs)
  | lsShl (p : SArgs)
  | lsMovl (d : Opnd) (l : Lit)
  | lsAnd (p : SArgs)
  | lsXcp (x : XArgs)
  | scfg (q : BitVec 4) (word : BitVec 3) (b : OpB)
  | sldd (q : BitVec 4) (a : Opnd) (b : OpB)
  | sstd (q : BitVec 4) (a : Opnd) (b : OpB)
  | srst (q : BitVec 4)
  | sadv (q : BitVec 4) (b : OpB)
  | spos (d : Opnd) (q : BitVec 4)
  | fence
  | phase (s : Scope)
  | cflush (s : Scope) (a : Opnd) (b : OpB)
  | cinv (s : Scope) (a : Opnd) (b : OpB)
  | pref (l : PrefLevel) (a : Opnd) (b : OpB)
  | zfill (a : Opnd) (b : OpB)
  | ldp (d : ZPair) (a : Opnd) (b : OpB)
  -- VA, VB (10)
  | vnop (u : VSlot)
  | vadd (p : VBin)
  | vsub (p : VBin)
  | vmul (p : VBin)
  | vfma (p : VBin)
  | vfms (p : VBin)
  | vmin (p : VBin)
  | vmax (p : VBin)
  | vabs (p : VUn)
  | vneg (p : VUn)
  | vrcp (p : VBit1)
  | vrsq (p : VBit1)
  | vexp2 (p : VBit1)
  | vlog2 (p : VBit1)
  | vand (p : VBit)
  | vor (p : VBit)
  | vxor (p : VBit)
  | vnot (p : VBit1)
  | vshl (p : VBin)
  | vshr (p : VBin)
  | vsar (p : VBin)
  | vcmp (p : VBin)
  | vsel (p : VBit)
  | vcvt (rm : RMode) (src : ElemTy) (p : VUn)
  | vpack (q : BitVec 2) (u : VSlot) (t : ElemTy) (d a : Opnd) (b : OpB)
  | vunpk (q : BitVec 6) (p : VUn)
  | vshuf (p : VBit)
  | vbcst (j : BitVec 6) (p : VBit1)
  | vred (f : VFn) (p : VUn)
  | vscan (f : VFn) (p : VUn)
  | vclmul (p : VBit)
  | vpopc (p : VUn)
  | vclz (p : VUn)
  | vmovl (u : VSlot) (p : BitVec 2) (d : Opnd) (l : Lit)
  | vxcp (u : VSlot) (dst : Slot) (ix : BitVec 5) (lane : BitVec 6) (a : Opnd)
  | vpop (f : VQuant) (u : VSlot) (t : ElemTy) (p d : BitVec 2) (a : Opnd)
  | vany (u : VSlot) (p : BitVec 2) (d : BitVec 4)
  | vall (u : VSlot) (p : BitVec 2) (d : BitVec 4)
  | vidx (p : VBin)
  | vslide (u : VSlot) (n : BitVec 6) (d a : Opnd) (b : OpB)
  | vdot (p : VBin)
  | vsat (p : VUn)
  | vexpm (p : VBit)
  | vround (rm : RMode) (p : VUn)
  | vplj (q : BitVec 1) (u : VSlot) (t : ElemTy) (d a b : Opnd)
  | vpls (q : BitVec 1) (hi : BitVec 1) (u : VSlot) (t : ElemTy) (d a : Opnd)
  | vcomp (p : VBit1)
  -- MX (11)
  | mxNop
  | mma (p : MArgs)
  | mmaz (p : MArgs)
  | mmag (p : MArgs)
  | mzero (ac : BitVec 4) (m : AccMode)
  | mnrm (ac : BitVec 4) (q : BitVec 4) (t : ElemTy) (ov : Bool) (rm : RMode) (scale : Option Byte)
  | mnrmAlign (ac : BitVec 4) (x : BitVec 16)
  | mdrn (ac : BitVec 4) (side : Option (BitVec 4)) (q : BitVec 4) (t : ElemTy) (slot : BitVec 4)
  | mepi (slot : BitVec 4) (off : BitVec 21)
  | mchkOff (ac : BitVec 4)
  | mchkOn (ac : BitVec 4)
  | mld (ac : BitVec 4) (off : BitVec 21)
  | mst (ac : BitVec 4) (off : BitVec 21)
  | mregLo (ac : BitVec 4) (l : W32)
  | mregHi (ac : BitVec 4) (l : W32)
  | mstat (ac : BitVec 4) (w : BitVec 4)
  -- EN (03, 13, 15, 16, 19)
  | enNop
  | btc (p : EUn)
  | btcm (p : EUn)
  | btcg (p : EUn)
  | rinit (loader : Bool) (p : EArgs)
  | racq (p : EUn)
  | rpub (p : EArgs)
  | await (poll : Bool) (p : EUn)
  | rels (p : EArgs)
  | rpois (p : EArgs)
  | aadd (p : AArgs)
  | amin (p : AArgs)
  | amax (p : AArgs)
  | aand (p : AArgs)
  | aor (p : AArgs)
  | axor (p : AArgs)
  | aswp (p : AArgs)
  | acas (p : AArgs)
  | afadd (d : Option WPair) (a : Opnd) (b : OpB) (o : AOrder)
  | red (f : RedFn) (t : AType) (o : ROrder) (a : Opnd) (b : OpB)
  | wmon (d : WPair) (a : Opnd) (v : WPair) (narrow : Bool) (c : Cond) (s : AScope)
  | sigdec (d : Option WPair) (a : Opnd) (amt : SigAmt) (s : AScope)
  | phnew (p : EArgs)
  | phreg (p : EArgs)
  | phdrop (p : EArgs)
  | phsig (p : EArgs)
  | phwait (d a b : Opnd)
  | phsw (d a b : Opnd)
  | phbyt (p : EArgs)
  | phrd (d : Option WPair) (a : Opnd) (k : BitVec 2)
  | phpois (p : EArgs)
  | sqnew (d : Option WPair) (a b : Opnd)
  | sqres (p : PArgs)
  | sqcmt (p : PArgs)
  | sqlen (d : Option WPair) (a : Opnd)
  | sqlenH (p : PArgs)
  | sqfork (t : Bool) (d : Option WPair) (a b : Opnd)
  | sqforkF (t : Bool) (d : Option WPair) (a b : Opnd)
  | sqrel (d : Option WPair) (a : Opnd)
  | sqmap (p : PArgs)
  | sqtierMove (d : Option WPair) (a : Opnd) (b : WPair)
  | sqtierL3 (d : Option WPair) (a : Opnd) (b : WPair)
  | sqtierTile (d : Option WPair) (a : Opnd) (b : WPair)
  | sqtierUnstage (d : Option WPair) (a : Opnd) (b : WPair)
  | attn (p : EUn)
  | launch (d : BitVec 4) (a : Opnd)
  | launchw (d : BitVec 4) (a : Opnd)
  | mupdWrite (p : EUn)
  | mupdCommit (p : EUn)
  | mupdAbort (p : EUn)
  | enXcp (x : XArgs)
  | enMovl (d : Opnd) (l : Lit)
  | enAdd (p : SArgs)
  | strg (p : PArgs)
  | strgBar (p : PArgs)
  -- steps of the launch unit and the queues (03)
  | qtailWrite
  | tailLineInvalidate
  | qcfgWrite
  | qstatClear
  | recordAccept
  | hostSignalPoll
  -- placement and scheduling (04)
  | kernelHandover
  | slicePublish
  | retirementWordArrival
  | sliceBind
  | sliceStart
  | recordAged
  | preemptMark
  | preemptStop
  | contextRecordWrite
  | sliceResume
  | longWaitYield
  | stealRequest
  | stealAccept
  | stealDecline
  | stealOfferTimeout
  | stealVoidReceive
  | stealCommitReceive
  | stealAck
  | kernelComplete
  | dqerrcntWrite
  | deviceQueueEnqueueDone
  -- arrivals at a core (06, 09, 12)
  | instructionFetchFill
  | loadDataArrival
  | streamGroupArrival
  | mxPinComplete
  | pageWalkComplete
  | wiredBarrierReach
  | asyncEngineWrite
  -- budget, checkpoints, power (07, 17)
  | budgetExhausted
  | budgetTrap
  | ckptImageComplete
  | ckptJournalVerified
  | powerFailWarning
  | powerReturn
  | islandTransitionComplete
  | quadIslandIdle
  | idle2retExpiry
  | ret2offExpiry
  | uncoreIdle
  | bdieQuarterIdle
  -- engines (13, 15, 16)
  | bteCommandStart
  | bteCommandComplete
  | ringWalkSlotTaken
  | syncOperationArrival
  | wmonTimeout
  | phaserWaitTimeout
  | flattenCopyComplete
  | sqtierComplete
  | attnRequestStart
  | attnRequestComplete
  -- registers and housekeeping (12, 18, 19)
  | tlbinvWrite
  | tlbinvComplete
  | fqrespWrite
  | registerWrite
  | configApply
  | rasstatClear
  | scrubVisit
  -- mailbox, Cuff, log, firmware (19)
  | restore
  | powerLimit
  | privLaunch
  | sealDram
  | exportRange
  | exportUnit
  | cuffTokenAccrual
  | cuffrateWrite
  | cuffburstWrite
  | logRead
  | logAck
  | fwUpdate
  | status
  | importOpen
  | importClose
  | deepOff
  | perstRelease
  | coldReset
  | firmwareReady
  | firmwareWatchdogExpiry
  -- attestation and links (19)
  | getVersion
  | getCapabilities
  | negotiateAlgorithms
  | getDigests
  | getCertificate
  | challenge
  | getMeasurements
  | keyExchange
  | finish
  | endSession
  | hostLinkReset
  | hostLinkDown
  | podBringup
  | podRouteLoss
  | podRouteRestore
  -- power manager and host link (01 R15, 19 R449)
  | powerManagerThrottle
  | hostLinkUp
  deriving DecidableEq, Repr

end Sys2Proof
end

