-- ==== Sys2Proof/Machine/Codes.lean ====
section
/-!
DEFINITION. The codes of every enumerated field (05 R89, R99 to R113), the sizes and sets of element types (05 R109,
08 R177, 10 R241) and which operand codes each slot accepts (05 R105, R106). Decoder, encoder and well-formedness share them.
-/
namespace Sys2Proof

/-- Slot numbers, which are the presence bits (05 R89). -/
def Slot.code : Slot → BitVec 4
  | .c => 0 | .i0 => 1 | .i1 => 2 | .ls => 3 | .va => 4 | .vb => 5 | .mx => 6 | .en => 7

/-- The slot of a number; numbers above 7 name none and read as slot EN (the decoder refuses them). -/
def Slot.ofCode (n : BitVec 4) : Slot :=
  match n.toNat with
  | 0 => .c | 1 => .i0 | 2 => .i1 | 3 => .ls | 4 => .va | 5 => .vb | 6 => .mx | _ => .en

/-- All slots in PRES order (05 R88). -/
def Slot.all : List Slot := [.c, .i0, .i1, .ls, .va, .vb, .mx, .en]

def ISlot.slot : ISlot → Slot | .i0 => .i0 | .i1 => .i1
def VSlot.slot : VSlot → Slot | .va => .va | .vb => .vb

/-- The vector slots. -/
def Slot.isVec (s : Slot) : Bool := s == .va || s == .vb

/-- Type codes (05 R109). -/
def ElemTy.code : ElemTy → BitVec 4
  | .i8 => 0 | .u8 => 1 | .i16 => 2 | .i32 => 3 | .u32 => 4 | .f32 => 5 | .bf16 => 6 | .f16 => 7
  | .e4m3 => 8 | .e5m2 => 9 | .mxf4 => 10 | .mxf6a => 11 | .mxf6b => 12 | .mxi8 => 13 | .d8 => 14 | .i4 => 15

def ElemTy.ofCode (c : BitVec 4) : ElemTy :=
  match c.toNat with
  | 0 => .i8 | 1 => .u8 | 2 => .i16 | 3 => .i32 | 4 => .u32 | 5 => .f32 | 6 => .bf16 | 7 => .f16
  | 8 => .e4m3 | 9 => .e5m2 | 10 => .mxf4 | 11 => .mxf6a | 12 => .mxf6b | 13 => .mxi8 | 14 => .d8 | _ => .i4

/-- Width of an element in bits (08 R177 to R184). -/
def ElemTy.bits : ElemTy → Nat
  | .i8 | .u8 | .e4m3 | .e5m2 | .mxi8 | .d8 => 8
  | .i16 | .bf16 | .f16 => 16
  | .i32 | .u32 | .f32 => 32
  | .mxf4 | .i4 => 4
  | .mxf6a | .mxf6b => 6

/-- The 6-bit types (08 R182). -/
def ElemTy.is6 : ElemTy → Bool | .mxf6a | .mxf6b => true | _ => false

/-- INT, SINT, FLT and NUM of 10 R241. -/
def ElemTy.isInt : ElemTy → Bool | .i8 | .u8 | .i16 | .i32 | .u32 => true | _ => false
def ElemTy.isSint : ElemTy → Bool | .i8 | .i16 | .i32 => true | _ => false
def ElemTy.isFlt : ElemTy → Bool | .f32 | .bf16 | .f16 => true | _ => false
def ElemTy.isNum (t : ElemTy) : Bool := t.isInt || t.isFlt

/-- Types of VPACK and VUNPK: 4-, 8- or 16-bit, not 6-bit (10 R242). -/
def ElemTy.isPackable (t : ElemTy) : Bool := t.bits == 4 || t.bits == 8 || t.bits == 16

/-- Types of VDOT (10 R242). -/
def ElemTy.isDot : ElemTy → Bool | .i8 | .u8 | .i16 | .bf16 | .f16 => true | _ => false

/-- Types of VSAT (10 R242). -/
def ElemTy.isSat : ElemTy → Bool | .i8 | .u8 | .i16 | .u32 | .i4 => true | _ => false

/-- Types of VRED and VSCAN (10 R242). -/
def ElemTy.isRed : ElemTy → Bool | .i32 | .u32 | .f32 => true | _ => false

/-- Types of the accumulating MX instructions (11 R267). -/
def ElemTy.isMma : ElemTy → Bool
  | .i8 | .u8 | .mxi8 | .d8 | .e4m3 | .e5m2 | .mxf6a | .mxf6b | .i4 | .mxf4 | .bf16 | .f16 => true
  | _ => false

/-- Types MNRM promotes to (11 R266). -/
def ElemTy.isPromote : ElemTy → Bool | .f32 | .bf16 | .d8 => true | _ => false

def Widen.code : Widen → BitVec 6 | .w0 => 0 | .w1 => 1 | .w2 => 2
def Widen.ofCode (b : BitVec 6) : Widen := if b = 1 then .w1 else if b = 2 then .w2 else .w0

def Width.code : Width → BitVec 2 | .w64 => 0 | .s32 => 1 | .z32 => 2
def Width.ofCode (b : BitVec 2) : Width := if b = 1 then .s32 else if b = 2 then .z32 else .w64

def Cond.code : Cond → BitVec 3
  | .eq => 0 | .ne => 1 | .lt => 2 | .ge => 3 | .ltu => 4 | .geu => 5 | .tst => 6 | .ntst => 7
def Cond.ofCode (c : BitVec 3) : Cond :=
  match c.toNat with
  | 0 => .eq | 1 => .ne | 2 => .lt | 3 => .ge | 4 => .ltu | 5 => .geu | 6 => .tst | _ => .ntst

def LoopField.code : LoopField → BitVec 3 | .start => 0 | .last => 1 | .count => 2 | .index => 3
def LoopField.ofCode (c : BitVec 3) : LoopField :=
  match c.toNat with | 0 => .start | 1 => .last | 2 => .count | _ => .index

def LoadKind.code : LoadKind → BitVec 3
  | .u8 => 0 | .u16 => 1 | .u32 => 2 | .x64 => 3 | .i8 => 4 | .i16 => 5 | .i32 => 6
def LoadKind.ofCode (c : BitVec 3) : LoadKind :=
  match c.toNat with | 0 => .u8 | 1 => .u16 | 2 => .u32 | 3 => .x64 | 4 => .i8 | 5 => .i16 | _ => .i32

def AccSize.code : AccSize → BitVec 2 | .b1 => 0 | .b2 => 1 | .b4 => 2 | .b8 => 3
def AccSize.ofCode (c : BitVec 2) : AccSize :=
  match c.toNat with | 0 => .b1 | 1 => .b2 | 2 => .b4 | _ => .b8

/-- Bytes of an access size and of a load kind (09 R225). -/
def AccSize.bytes : AccSize → Nat | .b1 => 1 | .b2 => 2 | .b4 => 4 | .b8 => 8
def LoadKind.bytes : LoadKind → Nat
  | .u8 | .i8 => 1 | .u16 | .i16 => 2 | .u32 | .i32 => 4 | .x64 => 8
def LoadKind.signed : LoadKind → Bool | .i8 | .i16 | .i32 => true | _ => false

/-- Scope codes of LS instructions (09 R230). -/
def Scope.code : Scope → BitVec 6
  | .core => 1 | .quad => 2 | .die => 3 | .stack => 4 | .mod => 5 | .pod => 6
def Scope.ofCode (c : BitVec 6) : Scope :=
  match c.toNat with | 1 => .core | 2 => .quad | 3 => .die | 4 => .stack | 5 => .mod | _ => .pod

def AScope.code : AScope → BitVec 2 | .die => 0 | .stack => 1 | .mod => 2 | .pod => 3
def AScope.ofCode (c : BitVec 2) : AScope :=
  match c.toNat with | 0 => .die | 1 => .stack | 2 => .mod | _ => .pod
def AScope.scope : AScope → Scope | .die => .die | .stack => .stack | .mod => .mod | .pod => .pod

def PrefLevel.code : PrefLevel → BitVec 6 | .l1 => 0 | .l2 => 1 | .l3 => 2
def PrefLevel.ofCode (c : BitVec 6) : PrefLevel := if c = 0 then .l1 else if c = 1 then .l2 else .l3

def RMode.code : RMode → BitVec 2 | .ne => 0 | .tz => 1 | .up => 2 | .dn => 3
def RMode.ofCode (c : BitVec 2) : RMode :=
  match c.toNat with | 0 => .ne | 1 => .tz | 2 => .up | _ => .dn

def AccMode.code : AccMode → BitVec 4 | .integer => 0 | .decimal => 1 | .binary => 2
def AccMode.ofCode (c : BitVec 4) : AccMode := if c = 0 then .integer else if c = 1 then .decimal else .binary

def AType.code : AType → BitVec 2 | .u64 => 0 | .i64 => 1 | .u32 => 2 | .i32 => 3
def AType.ofCode (c : BitVec 2) : AType :=
  match c.toNat with | 0 => .u64 | 1 => .i64 | 2 => .u32 | _ => .i32
def AType.narrow : AType → Bool | .u64 | .i64 => false | _ => true
def AType.bytes (t : AType) : Nat := if t.narrow then 4 else 8

/-- Order and scope fields of an atomic, m[3:0] (15 R358). -/
def AOrder.code : AOrder → BitVec 4
  | .relaxed => 0
  | .acq s => (1 : BitVec 2) ++ s.code
  | .rel s => (2 : BitVec 2) ++ s.code
  | .ar s => (3 : BitVec 2) ++ s.code
def AOrder.ofCode (c : BitVec 4) : AOrder :=
  let s := AScope.ofCode (c.extractLsb' 0 2)
  match (c.extractLsb' 2 2).toNat with
  | 0 => .relaxed | 1 => .acq s | 2 => .rel s | _ => .ar s

def ROrder.code : ROrder → BitVec 4
  | .relaxed => 0
  | .rel s => (2 : BitVec 2) ++ s.code
def ROrder.ofCode (c : BitVec 4) : ROrder :=
  if c.extractLsb' 2 2 = 0 then .relaxed else .rel (AScope.ofCode (c.extractLsb' 0 2))

def RedFn.code : RedFn → BitVec 6
  | .add => 0 | .min => 1 | .max => 2 | .and => 3 | .or => 4 | .xor => 5 | .fadd => 6
def RedFn.ofCode (c : BitVec 6) : RedFn :=
  match c.toNat with | 0 => .add | 1 => .min | 2 => .max | 3 => .and | 4 => .or | 5 => .xor | _ => .fadd

def VFn.code : VFn → BitVec 6
  | .add => 0 | .min => 1 | .max => 2 | .and => 3 | .or => 4 | .xor => 5
def VFn.ofCode (c : BitVec 6) : VFn :=
  match c.toNat with | 0 => .add | 1 => .min | 2 => .max | 3 => .and | 4 => .or | _ => .xor

def VQuant.code : VQuant → BitVec 6
  | .any c => (0 : BitVec 2) ++ c | .all c => (1 : BitVec 2) ++ c | .nz => 0x20
def VQuant.ofCode (f : BitVec 6) : VQuant :=
  let c := f.extractLsb' 0 4
  match (f.extractLsb' 4 2).toNat with | 0 => .any c | 1 => .all c | _ => .nz

/-- The 6-bit code of an operand (05 R105). -/
def Opnd.code : Opnd → BitVec 6
  | .own n => n.setWidth 6
  | .flag n => (1 : BitVec 2) ++ n
  | .stream n => (2 : BitVec 2) ++ n
  | .loopIx k => 48 + k.setWidth 6
  | .tileIx k => 54 + k.setWidth 6
  | .zero => 60
  | .slotId => 61
  | .reuseA => 62
  | .reuseB => 63

/-- The operand a code names (05 R105). Only the C slot reads flags as codes 16–31. -/
def Opnd.ofCode (flags : Bool) (c : BitVec 6) : Opnd :=
  if c < 32 then
    if flags && 16 ≤ c then .flag (c.extractLsb' 0 4) else .own (c.extractLsb' 0 5)
  else if c < 48 then .stream (c.extractLsb' 0 4)
  else if c < 54 then .loopIx ((c - 48).extractLsb' 0 3)
  else if c < 60 then .tileIx ((c - 54).extractLsb' 0 3)
  else if c = 60 then .zero
  else if c = 61 then .slotId
  else if c = 62 then .reuseA
  else .reuseB

/-- Whether a slot may read this operand (05 R105). -/
def Opnd.readable (s : Slot) (o : Opnd) : Bool :=
  match o with
  | .own n => match s with | .c | .en => n < 16 | .mx => false | _ => true
  | .flag _ => s == .c
  | .stream _ => s == .ls || s == .va || s == .vb
  | .loopIx k | .tileIx k => k < 6 && s != .mx
  | .zero | .slotId | .reuseA | .reuseB => s != .mx

/-- Address operands of LS and the b operands R224 and R228 narrow: no stream (09 R224). -/
def Opnd.readableNoStream (s : Slot) (o : Opnd) : Bool :=
  o.readable s && (match o with | .stream _ => false | _ => true)

/-- Whether a slot may name this operand as a destination (05 R106). -/
def Opnd.writable (s : Slot) (o : Opnd) : Bool :=
  match o with
  | .own n => match s with | .c | .en => n < 16 | .mx => false | _ => true
  | .flag _ => s == .c
  | .stream _ => s == .ls || s == .va || s == .vb
  | .zero => s != .mx
  | _ => false

/-- Destinations that are not streams (07 R167, 09 R224, EN). -/
def Opnd.writableNoStream (s : Slot) (o : Opnd) : Bool :=
  o.writable s && (match o with | .stream _ => false | _ => true)

/-- Codes 0–31 only: c or f registers (LRD, RDSYS), or a register of the own file (10 R237 "reads d"). -/
def Opnd.isReg (s : Slot) (o : Opnd) : Bool :=
  match o with | .own _ | .flag _ => o.writable s | _ => false

def OpB.readable (s : Slot) : OpB → Bool | .op o => o.readable s | .lit _ => true
def OpB.readableNoStream (s : Slot) : OpB → Bool | .op o => o.readableNoStream s | .lit _ => true
def OpB.isOp : OpB → Bool | .op _ => true | .lit _ => false

/-- Destinations of XCP (05 R113): not the issuing slot, and the index inside the destination's file. -/
def XArgs.ok (s : Slot) (x : XArgs) : Bool :=
  x.dst != s && x.src.readable s && (match x.dst with | .en | .mx => x.ix < 16 | _ => true)

end Sys2Proof
end

