-- ==== Sys2Proof/WellFormed.lean ====
section
/-!
DEFINITION. Well-formed instructions: exactly those whose words the decoder accepts (05 R91, R99 to R113 and the encoding
tables of chapters 07, 09, 10, 11, 13, 15, 16, 03, 19). Steps of agents have no words and are always well formed.
-/
namespace Sys2Proof

def IArgs.wf (p : IArgs) : Bool :=
  p.d.writable p.u.slot && p.a.readable p.u.slot && p.b.readable p.u.slot

def IUn.wf (p : IUn) : Bool := p.d.writable p.u.slot && p.a.readable p.u.slot

def IArgs64.wf (p : IArgs64) : Bool :=
  p.d.writable p.u.slot && p.a.readable p.u.slot && p.b.readable p.u.slot

def SArgs.wf (s : Slot) (p : SArgs) : Bool := p.d.writable s && p.a.readable s && p.b.readable s

/-- `t` is the type set of 10 R242; `rd` says that the instruction reads d. -/
def VBin.wf (set : ElemTy → Bool) (rd : Bool) (p : VBin) : Bool :=
  set p.t && (if rd then p.d.isReg p.u.slot else p.d.writable p.u.slot) &&
    p.a.readable p.u.slot && p.b.readable p.u.slot

def VUn.wf (set : ElemTy → Bool) (p : VUn) : Bool :=
  set p.t && p.d.writable p.u.slot && p.a.readable p.u.slot

def VBit.wf (p : VBit) : Bool := p.d.writable p.u.slot && p.a.readable p.u.slot && p.b.readable p.u.slot

def VBit1.wf (p : VBit1) : Bool := p.d.writable p.u.slot && p.a.readable p.u.slot

def MArgs.wf (p : MArgs) : Bool := p.t.isMma && p.k != some 0

def EArgs.wf (p : EArgs) : Bool := p.d.writable .en && p.a.readable .en && p.b.readable .en

def EUn.wf (p : EUn) : Bool := p.d.writable .en && p.a.readable .en

def PArgs.wf (p : PArgs) : Bool := p.a.readable .en && p.b.readable .en

def AArgs.wf (p : AArgs) : Bool := p.a.readable .en && p.b.readable .en

/-- Well-formedness of every instruction. -/
def Instr.wf (i : Instr) : Bool :=
  match i with
  | .brt c _ | .brf c _ => c.readable .c
  | .jmpi a b => a.readable .c && b.readable .c
  | .loop cnt _ => match cnt with | .imm n => n != 0 | .reg a => a.readable .c
  | .lbrk n => n != 0 && n < 7
  | .lrd d level _ => d.isReg .c && level < 6
  | .lwr src level _ => src.readable .c && level < 6
  | .exitK src | .ckptT src | .wrsys src _ => src.readable .c
  | .trap code => 0x80 ≤ code
  | .rdsys d _ => d.isReg .c
  | .cXcp x => x.ok .c
  | .cMovl d _ => d.writable .c
  | .cAdd p => p.wf .c
  | .fop _ e =>
    match e with
    | .set | .clr => true
    | .not a => a.readable .c
    | .and a b | .or a b | .xor a b => a.readable .c && b.readable .c
  | .add p | .sub p | .mul p | .mulhs p | .mulhu p | .divs p | .divu p | .rems p | .remu p | .and p | .or p | .xor p
  | .andn p | .shl p | .shr p | .sar p | .ror p | .min p | .max p | .minu p | .maxu p | .clmul p | .clmulh p
  | .adds p => p.wf
  | .abs p | .clz p | .ctz p | .popc p | .mov p | .bswap p => p.wf
  | .bfx p | .bfi p | .lea p | .crc32c _ p => p.wf
  | .cmp u _ _ d a b =>
    (match d with | .reg r => r.writable u.slot | .flag _ => true) && a.readable u.slot && b.readable u.slot
  | .sel u _ _ d a b => d.writable u.slot && a.readable u.slot && b.readable u.slot
  | .movl u d _ | .movh u d _ => d.writable u.slot
  | .xcp u x => x.ok u.slot
  | .ld _ d a b => d.writableNoStream .ls && a.readableNoStream .ls && b.readableNoStream .ls
  | .st _ data a b => data.readable .ls && a.readableNoStream .ls && b.readableNoStream .ls
  | .ldx _ d a ix => d.writableNoStream .ls && a.readableNoStream .ls && ix.readableNoStream .ls
  | .stx _ data a ix => data.readable .ls && a.readableNoStream .ls && ix.readableNoStream .ls
  | .lsAdd p | .lsSub p | .lsShl p | .lsAnd p => p.wf .ls
  | .lsMovl d _ => d.writable .ls
  | .lsXcp x => x.ok .ls
  | .scfg _ _ b | .sadv _ b => b.readableNoStream .ls
  | .sldd _ a b | .sstd _ a b | .cflush _ a b | .cinv _ a b | .pref _ a b | .zfill a b | .ldp _ a b =>
    a.readableNoStream .ls && b.readableNoStream .ls
  | .spos d _ => d.writableNoStream .ls
  | .vadd p | .vsub p | .vmul p | .vmin p | .vmax p | .vcmp p => p.wf ElemTy.isNum false
  | .vfma p | .vfms p => p.wf ElemTy.isNum true
  | .vabs p => p.wf (fun t => t.isSint || t.isFlt)
  | .vneg p => p.wf ElemTy.isNum
  | .vrcp p | .vrsq p | .vexp2 p | .vlog2 p | .vnot p | .vcomp p | .vbcst _ p => p.wf
  | .vand p | .vor p | .vxor p | .vsel p | .vshuf p | .vclmul p | .vexpm p => p.wf
  | .vshl p | .vshr p => p.wf ElemTy.isInt false
  | .vsar p => p.wf ElemTy.isSint false
  | .vcvt _ _ p => p.wf (fun _ => true)
  | .vpack q u t d a b =>
    t.isPackable && (q.toNat + 1) * (128 * t.bits) ≤ 2048 && d.isReg u.slot && a.readable u.slot && b.readable u.slot
  | .vunpk q p => p.wf ElemTy.isPackable && (q.toNat + 1) * p.t.bits ≤ 32
  | .vred f p | .vscan f p =>
    p.wf ElemTy.isRed && (p.t != .f32 || (match f with | .add | .min | .max => true | _ => false))
  | .vpopc p | .vclz p => p.wf ElemTy.isInt
  | .vmovl u _ d _ => d.writable u.slot
  | .vxcp u dst ix lane a =>
    dst != u.slot && a.readable u.slot &&
      (match dst with | .va | .vb => lane == 0 | .en | .mx => ix < 16 | _ => true)
  | .vpop _ u t _ d a => t.isInt && d != 0 && a.readable u.slot
  | .vidx p => p.wf (fun t => t == .i32 || t == .u32) false
  | .vslide u _ d a b => d.writable u.slot && a.readable u.slot && b.readable u.slot
  | .vdot p => p.wf ElemTy.isDot true
  | .vsat p => p.wf ElemTy.isSat
  | .vround _ p => p.wf ElemTy.isFlt
  | .vplj _ u t d a b => t.is6 && d.writable u.slot && a.readable u.slot && b.readable u.slot
  | .vpls _ _ u t d a => t.is6 && d.isReg u.slot && a.readable u.slot
  | .mma p | .mmaz p | .mmag p => p.wf
  | .mnrm _ _ t _ _ scale => t.isPromote && (scale.isNone || scale == some 0 || t == .d8)
  | .mdrn _ _ _ t _ => !t.is6
  | .btc p | .btcm p | .btcg p | .racq p | .await _ p | .attn p
  | .mupdWrite p | .mupdCommit p | .mupdAbort p => p.wf
  | .rinit _ p | .rpub p | .rels p | .rpois p | .phnew p | .phreg p | .phdrop p | .phsig p | .phbyt p | .phpois p => p.wf
  | .aadd p | .amin p | .amax p | .aand p | .aor p | .axor p | .aswp p | .acas p => p.wf
  | .afadd _ a b _ => a.readable .en && b.readable .en
  | .red f t _ a b => a.readable .en && b.readable .en && (f != .fadd || t == .u32)
  | .wmon _ a _ _ _ _ => a.readable .en
  | .sigdec _ a amt _ => a.readable .en && (match amt with | .plain b => b.readable .en | .err _ => true)
  | .phwait d a b | .phsw d a b => d.writable .en && a.readable .en && b.readable .en
  | .phrd _ a _ | .sqlen _ a | .sqrel _ a => a.readable .en
  | .sqnew _ a b | .sqfork _ _ a b | .sqforkF _ _ a b => a.readable .en && b.readable .en
  | .sqres p | .sqcmt p | .sqlenH p | .sqmap p | .strg p | .strgBar p => p.wf
  | .sqtierMove _ a _ | .sqtierL3 _ a _ | .sqtierTile _ a _ | .sqtierUnstage _ a _ => a.readable .en
  | .launch _ a | .launchw _ a =>
    match a with | .own n => n < 16 | .reuseA | .reuseB => true | _ => false
  | .enXcp x => x.ok .en
  | .enMovl d _ => d.writable .en
  | .enAdd p => p.wf .en
  | .mepi _ _ | .mld _ _ | .mst _ _ => true
  | .cNop | .br _ | .call _ | .ret | .lcont | .yield | .exit | .eret | .ckpt | .ckptL | .iNop _ | .lsNop | .srst _
  | .fence | .phase _ | .vnop _ | .vany _ _ _ | .vall _ _ _ | .mxNop | .mzero _ _ | .mnrmAlign _ _ | .mchkOff _
  | .mchkOn _ | .mregLo _ _ | .mregHi _ _ | .mstat _ _ | .enNop => true
  | .qtailWrite | .tailLineInvalidate | .qcfgWrite | .qstatClear | .recordAccept
  | .hostSignalPoll | .kernelHandover | .slicePublish | .retirementWordArrival | .sliceBind
  | .sliceStart | .recordAged | .preemptMark | .preemptStop | .contextRecordWrite
  | .sliceResume | .longWaitYield | .stealRequest | .stealAccept | .stealDecline
  | .stealOfferTimeout | .stealVoidReceive | .stealCommitReceive | .stealAck
  | .kernelComplete | .dqerrcntWrite | .deviceQueueEnqueueDone | .instructionFetchFill
  | .loadDataArrival | .streamGroupArrival | .mxPinComplete | .pageWalkComplete
  | .wiredBarrierReach | .asyncEngineWrite | .budgetExhausted | .budgetTrap | .ckptImageComplete
  | .ckptJournalVerified | .powerFailWarning | .powerReturn | .islandTransitionComplete
  | .quadIslandIdle | .idle2retExpiry | .ret2offExpiry | .uncoreIdle | .bdieQuarterIdle
  | .bteCommandStart | .bteCommandComplete | .ringWalkSlotTaken | .syncOperationArrival
  | .wmonTimeout | .phaserWaitTimeout | .flattenCopyComplete | .sqtierComplete
  | .attnRequestStart | .attnRequestComplete | .tlbinvWrite | .tlbinvComplete | .fqrespWrite
  | .registerWrite | .configApply | .rasstatClear | .scrubVisit | .restore | .powerLimit
  | .privLaunch | .sealDram | .exportRange | .exportUnit | .cuffTokenAccrual | .cuffrateWrite
  | .cuffburstWrite | .logRead | .logAck | .fwUpdate | .status | .importOpen | .importClose
  | .deepOff | .perstRelease | .coldReset | .firmwareReady | .firmwareWatchdogExpiry | .getVersion
  | .getCapabilities | .negotiateAlgorithms | .getDigests | .getCertificate | .challenge
  | .getMeasurements | .keyExchange | .finish | .endSession | .hostLinkReset | .hostLinkDown
  | .podBringup | .podRouteLoss | .podRouteRestore | .powerManagerThrottle | .hostLinkUp => true

end Sys2Proof
end

