-- ==== Sys2Proof/Decode.lean ====
section
/-!
DEFINITION. Slot words, bundle headers and fetch lines. `parseWord` reads the fields of a slot word (05 R99 to R104 and
the encoding tables of chapters 03, 07, 09, 10, 11, 13, 15, 16, 19); `encode` builds the words of an instruction from the same
tables; `decodeWord` accepts a word when its opcode is assigned, every reserved field holds 0 (the word is the one the
tables give for the fields read) and every operand is allowed. `decodeBundle` cuts a bundle from a fetch line (05 R88 to R91).
-/
namespace Sys2Proof

/-- Why the decoder refuses: each is an ILLEGAL_ENCODING (05 R91, R100, R105, R110). -/
inductive DecodeError
  | unassignedOpcode   -- no such opcode, or the wrong W bit (05 R102, R110)
  | reservedField      -- a reserved field or code is set (05 R99)
  | badOperand         -- an operand, type or number the instruction does not accept (05 R105, R106, R109)
  | headerBits         -- bits [15:14] of the header (05 R91)
  | padFields          -- a pad header with other fields (05 R91)
  | pastLine           -- the bundle would end past its fetch line (05 R91)
  deriving DecidableEq, Repr

/-- Field `len` bits from bit `lo` of a word. -/
abbrev fld (w : W32) (lo len : Nat) : BitVec len := w.extractLsb' lo len

/-- A word of format A or V from its fields (05 R99). -/
def wordA (wide : Bool) (op : BitVec 7) (d a b m : BitVec 6) : W32 :=
  ((BitVec.ofBool wide ++ op) ++ (d ++ a) ++ (b ++ m) : BitVec (1 + 7 + (6 + 6) + (6 + 6)))

/-- A word of format M from its fields (05 R99). -/
def wordM (wide : Bool) (op : BitVec 7) (ac : BitVec 4) (a b : BitVec 6) (t m : BitVec 4) : W32 :=
  ((BitVec.ofBool wide ++ op) ++ (ac ++ a) ++ (b ++ (t ++ m)) : BitVec (1 + 7 + (4 + 6) + (6 + (4 + 4))))

/-- A literal read with its b field (05 R100). -/
def litOf (b : BitVec 6) (v : W32) : Lit := ⟨Widen.ofCode b, v⟩

/-- Operand b: code or literal. -/
def opBOf (flags : Bool) (b : BitVec 6) (l : Option W32) : OpB :=
  match l with
  | none => .op (Opnd.ofCode flags b)
  | some v => .lit (litOf b v)

def OpB.code : OpB → BitVec 6 | .op o => o.code | .lit l => l.mode.code
def OpB.wide : OpB → Bool | .op _ => false | .lit _ => true
def OpB.word : OpB → Option W32 | .op _ => none | .lit l => some l.val

/-- A w pair in a d field: even w0–w14, or 60 for none (15 R358). -/
def pairOf (d : BitVec 6) : Option WPair := if d = 60 then none else some (d.extractLsb' 1 3)
def WPair.code (p : WPair) : BitVec 6 := (0 : BitVec 2) ++ p ++ (0 : BitVec 1)
def pairCode : Option WPair → BitVec 6 | none => 60 | some p => p.code

/-- Destination of XCP (05 R113). -/
def xargsOf (flags : Bool) (d a m : BitVec 6) : XArgs :=
  ⟨Slot.ofCode ((0 : BitVec 1) ++ m.extractLsb' 0 3), d.extractLsb' 0 5, Opnd.ofCode flags a⟩

def parseC (op : BitVec 7) (d a b m : BitVec 6) (l : Option W32) : Option Instr :=
  let rd := Opnd.ofCode true
  match l with
  | some v =>
    match op.toNat with
    | 0x01 => some (.br (litOf b v))
    | 0x02 => some (.brt (rd a) (litOf b v))
    | 0x03 => some (.brf (rd a) (litOf b v))
    | 0x04 => some (.call (litOf b v))
    | 0x06 => some (.jmpi (rd a) (opBOf true b l))
    | 0x07 => some (.loop (if m = 0 then .reg (rd a) else .imm m) (litOf b v))
    | 0x0E => some (.trap (v.extractLsb' 0 8))
    | 0x14 => some (.cMovl (rd d) (litOf b v))
    | 0x15 => some (.cAdd ⟨rd d, rd a, opBOf true b l⟩)
    | _ => none
  | none =>
    match op.toNat with
    | 0x00 => some .cNop
    | 0x05 => some .ret
    | 0x06 => some (.jmpi (rd a) (.op (rd b)))
    | 0x08 => some (.lbrk (m.extractLsb' 0 3))
    | 0x09 => some .lcont
    | 0x0A => some (.lrd (rd d) (m.extractLsb' 3 3) (LoopField.ofCode (m.extractLsb' 0 3)))
    | 0x0B => some (.lwr (rd a) (m.extractLsb' 3 3) (LoopField.ofCode (m.extractLsb' 0 3)))
    | 0x0C => some .yield
    | 0x0D => some (if m = 0 then .exit else .exitK (rd a))
    | 0x0F => some .eret
    | 0x10 => some (if m = 0 then .ckpt else if m = 1 then .ckptT (rd a) else .ckptL)
    | 0x11 => some (.rdsys (rd d) m)
    | 0x12 => some (.wrsys (rd a) m)
    | 0x13 => some (.cXcp (xargsOf true d a m))
    | 0x15 => some (.cAdd ⟨rd d, rd a, .op (rd b)⟩)
    | 0x16 =>
      let f := d.extractLsb' 0 4
      match m.toNat with
      | 0 => some (.fop f .set)
      | 1 => some (.fop f .clr)
      | 2 => some (.fop f (.and (rd a) (rd b)))
      | 3 => some (.fop f (.or (rd a) (rd b)))
      | 4 => some (.fop f (.not (rd a)))
      | _ => some (.fop f (.xor (rd a) (rd b)))
    | _ => none

def parseI (u : ISlot) (op : BitVec 7) (d a b m : BitVec 6) (l : Option W32) : Option Instr :=
  let rd := Opnd.ofCode false
  let w := Width.ofCode (m.extractLsb' 4 2)
  let p : IArgs := ⟨u, w, rd d, rd a, opBOf false b l⟩
  let p1 : IUn := ⟨u, w, rd d, rd a⟩
  let p64 : IArgs64 := ⟨u, rd d, rd a, opBOf false b l⟩
  match op.toNat with
  | 0x00 => some (.iNop u)
  | 0x01 => some (.add p) | 0x02 => some (.sub p) | 0x03 => some (.mul p) | 0x04 => some (.mulhs p)
  | 0x05 => some (.mulhu p) | 0x06 => some (.divs p) | 0x07 => some (.divu p) | 0x08 => some (.rems p)
  | 0x09 => some (.remu p) | 0x0A => some (.and p) | 0x0B => some (.or p) | 0x0C => some (.xor p)
  | 0x0D => some (.andn p) | 0x0E => some (.shl p) | 0x0F => some (.shr p) | 0x10 => some (.sar p)
  | 0x11 => some (.ror p) | 0x12 => some (.min p) | 0x13 => some (.max p) | 0x14 => some (.minu p)
  | 0x15 => some (.maxu p) | 0x16 => some (.abs p1) | 0x17 => some (.clz p1) | 0x18 => some (.ctz p1)
  | 0x19 => some (.popc p1) | 0x1A => some (.bfx p64) | 0x1B => some (.bfi p64) | 0x1C => some (.clmul p)
  | 0x1D => some (.clmulh p)
  | 0x1E =>
    let dst := if m.extractLsb' 3 1 = 0 then CmpDst.reg (rd d) else CmpDst.flag (d.extractLsb' 0 4)
    some (.cmp u w (Cond.ofCode (m.extractLsb' 0 3)) dst (rd a) (opBOf false b l))
  | 0x1F => some (.sel u w (m.extractLsb' 0 4) (rd d) (rd a) (rd b))
  | 0x20 => some (.mov p1)
  | 0x21 => match l with | some v => some (.movl u (rd d) (litOf b v)) | none => none
  | 0x22 => match l with | some v => some (.movh u (rd d) v) | none => none
  | 0x23 => some (.lea p64)
  | 0x24 => some (.xcp u (xargsOf false d a m))
  | 0x25 => some (.adds p)
  | 0x26 => some (.bswap p1)
  | 0x27 => some (.crc32c (m.extractLsb' 4 2 != 0) p64)
  | _ => none

def parseLs (op : BitVec 7) (d a b m : BitVec 6) (l : Option W32) : Option Instr :=
  let rd := Opnd.ofCode false
  let ob := opBOf false b l
  let q := d.extractLsb' 0 4
  let k := LoadKind.ofCode (m.extractLsb' 0 3)
  let sz := AccSize.ofCode (m.extractLsb' 0 2)
  match op.toNat with
  | 0x00 => some .lsNop
  | 0x01 => some (.ld k (rd d) (rd a) ob)
  | 0x02 => some (.st sz (rd d) (rd a) ob)
  | 0x03 => some (.ldx k (rd d) (rd a) (rd b))
  | 0x04 => some (.stx sz (rd d) (rd a) (rd b))
  | 0x05 => some (.lsAdd ⟨rd d, rd a, ob⟩)
  | 0x06 => some (.lsSub ⟨rd d, rd a, ob⟩)
  | 0x07 => some (.lsShl ⟨rd d, rd a, ob⟩)
  | 0x08 => match l with | some v => some (.lsMovl (rd d) (litOf b v)) | none => none
  | 0x09 => some (.lsAnd ⟨rd d, rd a, ob⟩)
  | 0x0A => some (.lsXcp (xargsOf false d a m))
  | 0x0B => some (.scfg q (m.extractLsb' 0 3) ob)
  | 0x0C => some (.sldd q (rd a) ob)
  | 0x0D => some (.sstd q (rd a) ob)
  | 0x0E => some (.srst q)
  | 0x0F => some (.sadv q ob)
  | 0x10 => some (.spos (rd d) (a.extractLsb' 0 4))
  | 0x11 => some .fence
  | 0x12 => some (.phase (Scope.ofCode m))
  | 0x13 => some (.cflush (Scope.ofCode m) (rd a) ob)
  | 0x14 => some (.cinv (Scope.ofCode m) (rd a) ob)
  | 0x15 => some (.pref (PrefLevel.ofCode m) (rd a) ob)
  | 0x16 => some (.zfill (rd a) ob)
  | 0x17 => some (.ldp (d.extractLsb' 1 4) (rd a) ob)
  | _ => none

def parseV (u : VSlot) (op : BitVec 7) (d a b m : BitVec 6) (l : Option W32) : Option Instr :=
  let rd := Opnd.ofCode false
  let ob := opBOf false b l
  let t := ElemTy.ofCode (m.extractLsb' 2 4)
  let p := m.extractLsb' 0 2
  let bin : VBin := ⟨u, t, p, rd d, rd a, ob⟩
  let un : VUn := ⟨u, t, p, rd d, rd a⟩
  let bit : VBit := ⟨u, p, rd d, rd a, ob⟩
  let bit1 : VBit1 := ⟨u, p, rd d, rd a⟩
  match op.toNat with
  | 0x00 => some (.vnop u)
  | 0x01 => some (.vadd bin) | 0x02 => some (.vsub bin) | 0x03 => some (.vmul bin) | 0x04 => some (.vfma bin)
  | 0x05 => some (.vfms bin) | 0x06 => some (.vmin bin) | 0x07 => some (.vmax bin) | 0x08 => some (.vabs un)
  | 0x09 => some (.vneg un) | 0x0A => some (.vrcp bit1) | 0x0B => some (.vrsq bit1) | 0x0C => some (.vexp2 bit1)
  | 0x0D => some (.vlog2 bit1) | 0x0E => some (.vand bit) | 0x0F => some (.vor bit) | 0x10 => some (.vxor bit)
  | 0x11 => some (.vnot bit1) | 0x12 => some (.vshl bin) | 0x13 => some (.vshr bin) | 0x14 => some (.vsar bin)
  | 0x15 => some (.vcmp bin) | 0x16 => some (.vsel bit)
  | 0x17 => some (.vcvt (RMode.ofCode (b.extractLsb' 4 2)) (ElemTy.ofCode (b.extractLsb' 0 4)) un)
  | 0x18 => some (.vpack p u t (rd d) (rd a) ob)
  | 0x19 => some (.vunpk b un)
  | 0x1A => some (.vshuf bit)
  | 0x1B => some (.vbcst b bit1)
  | 0x1C => some (.vred (VFn.ofCode b) un)
  | 0x1D => some (.vscan (VFn.ofCode b) un)
  | 0x1E => some (.vclmul bit)
  | 0x1F => some (.vpopc un)
  | 0x20 => some (.vclz un)
  | 0x21 => match l with | some v => some (.vmovl u p (rd d) (litOf b v)) | none => none
  | 0x22 => some (.vxcp u (Slot.ofCode (m.extractLsb' 2 4)) (d.extractLsb' 0 5) b (rd a))
  | 0x23 => some (.vpop (VQuant.ofCode b) u t p (d.extractLsb' 0 2) (rd a))
  | 0x24 => some (.vany u p (d.extractLsb' 0 4))
  | 0x25 => some (.vall u p (d.extractLsb' 0 4))
  | 0x26 => some (.vidx bin)
  | 0x27 => some (.vslide u m (rd d) (rd a) ob)
  | 0x28 => some (.vdot bin)
  | 0x29 => some (.vsat un)
  | 0x2A => some (.vexpm bit)
  | 0x2B => some (.vround (RMode.ofCode (b.extractLsb' 0 2)) un)
  | 0x2C => some (.vplj (m.extractLsb' 0 1) u t (rd d) (rd a) (rd b))
  | 0x2D => some (.vpls (m.extractLsb' 0 1) (b.extractLsb' 0 1) u t (rd d) (rd a))
  | 0x2E => some (.vcomp bit1)
  | _ => none

def parseMx (op : BitVec 7) (ac : BitVec 4) (a b : BitVec 6) (t m : BitVec 4) (l : Option W32) : Option Instr :=
  let p : MArgs := ⟨ac, a.extractLsb' 0 4, b.extractLsb' 0 4, ElemTy.ofCode t, l.map (·.extractLsb' 0 16)⟩
  match op.toNat with
  | 0x00 => some .mxNop
  | 0x01 => some (.mma p)
  | 0x02 => some (.mmaz p)
  | 0x03 => some (.mmag p)
  | 0x04 => some (.mzero ac (AccMode.ofCode m))
  | 0x05 =>
    if m.extractLsb' 3 1 = 0 then
      some (.mnrm ac (b.extractLsb' 0 4) (ElemTy.ofCode t) (m.extractLsb' 2 1 == 1) (RMode.ofCode (m.extractLsb' 0 2))
        (l.map (·.extractLsb' 0 8)))
    else match l with
      | some v => some (.mnrmAlign ac (v.extractLsb' 0 16))
      | none => none
  | 0x06 =>
    some (.mdrn ac (if a = 0 then none else some (a.extractLsb' 0 4)) (b.extractLsb' 0 4) (ElemTy.ofCode t) m)
  | 0x07 => match l with | some v => some (.mepi m (v.extractLsb' 0 21)) | none => none
  | 0x08 => some (if m = 0 then .mchkOff ac else .mchkOn ac)
  | 0x09 => match l with | some v => some (.mld ac (v.extractLsb' 0 21)) | none => none
  | 0x0A => match l with | some v => some (.mst ac (v.extractLsb' 0 21)) | none => none
  | 0x0B => match l with | some v => some (if m = 0 then .mregLo ac v else .mregHi ac v) | none => none
  | 0x0C => some (.mstat ac m)
  | _ => none

def parseEn (op : BitVec 7) (d a b m : BitVec 6) (l : Option W32) : Option Instr :=
  let rd := Opnd.ofCode false
  let ob := opBOf false b l
  let e : EArgs := ⟨rd d, rd a, ob⟩
  let u : EUn := ⟨rd d, rd a⟩
  let pr : PArgs := ⟨pairOf d, rd a, ob⟩
  let aa : AArgs := ⟨pairOf d, rd a, ob, AType.ofCode (m.extractLsb' 4 2), AOrder.ofCode (m.extractLsb' 0 4)⟩
  let sc := AScope.ofCode (m.extractLsb' 0 2)
  match op.toNat with
  | 0x00 => some .enNop
  | 0x01 => some (.btc u)
  | 0x02 => some (.btcm u)
  | 0x03 => some (.btcg u)
  | 0x04 => some (.rinit (m.extractLsb' 0 1 == 1) e)
  | 0x05 => some (.racq u)
  | 0x06 => some (.rpub e)
  | 0x07 => some (.await (m.extractLsb' 0 1 == 1) u)
  | 0x08 => some (.rels e)
  | 0x09 => some (.rpois e)
  | 0x10 => some (.aadd aa)
  | 0x11 => some (.amin aa)
  | 0x12 => some (.amax aa)
  | 0x13 => some (.aand aa)
  | 0x14 => some (.aor aa)
  | 0x15 => some (.axor aa)
  | 0x16 => some (.aswp aa)
  | 0x17 => some (.acas aa)
  | 0x18 => some (.afadd (pairOf d) (rd a) ob (AOrder.ofCode (m.extractLsb' 0 4)))
  | 0x19 => some (.red (RedFn.ofCode d) (AType.ofCode (m.extractLsb' 4 2)) (ROrder.ofCode (m.extractLsb' 0 4)) (rd a) ob)
  | 0x1A =>
    some (.wmon (d.extractLsb' 1 3) (rd a) (b.extractLsb' 1 3) (m.extractLsb' 5 1 == 1)
      (Cond.ofCode (m.extractLsb' 2 3)) sc)
  | 0x1B =>
    some (.sigdec (pairOf d) (rd a) (if m.extractLsb' 2 1 = 0 then .plain ob else .err (b.extractLsb' 1 3)) sc)
  | 0x20 => some (.phnew e)
  | 0x21 => some (.phreg e)
  | 0x22 => some (.phdrop e)
  | 0x23 => some (.phsig e)
  | 0x24 => some (.phwait (rd d) (rd a) (rd b))
  | 0x25 => some (.phsw (rd d) (rd a) (rd b))
  | 0x26 => some (.phbyt e)
  | 0x27 => some (.phrd (pairOf d) (rd a) (m.extractLsb' 0 2))
  | 0x28 => some (.phpois e)
  | 0x30 => some (.sqnew (pairOf d) (rd a) (rd b))
  | 0x31 => some (.sqres pr)
  | 0x32 => some (.sqcmt pr)
  | 0x33 => some (if m = 0 then .sqlen (pairOf d) (rd a) else .sqlenH pr)
  | 0x34 =>
    some (if m.extractLsb' 0 1 = 0 then .sqfork (m.extractLsb' 1 1 == 1) (pairOf d) (rd a) (rd b)
      else .sqforkF (m.extractLsb' 1 1 == 1) (pairOf d) (rd a) (rd b))
  | 0x35 => some (.sqrel (pairOf d) (rd a))
  | 0x36 => some (.sqmap pr)
  | 0x37 =>
    let w := b.extractLsb' 1 3
    match m.toNat with
    | 0 => some (.sqtierMove (pairOf d) (rd a) w)
    | 1 => some (.sqtierL3 (pairOf d) (rd a) w)
    | 2 => some (.sqtierTile (pairOf d) (rd a) w)
    | _ => some (.sqtierUnstage (pairOf d) (rd a) w)
  | 0x38 => some (.attn u)
  | 0x40 => some (.launch (d.extractLsb' 0 4) (rd a))
  | 0x41 => some (.launchw (d.extractLsb' 0 4) (rd a))
  | 0x42 => some (if m = 0 then .mupdWrite u else if m = 1 then .mupdCommit u else .mupdAbort u)
  | 0x43 => some (.enXcp (xargsOf false d a m))
  | 0x44 => match l with | some v => some (.enMovl (rd d) (litOf b v)) | none => none
  | 0x45 => some (.enAdd ⟨rd d, rd a, ob⟩)
  | 0x46 => some (if m = 0 then .strg pr else .strgBar pr)
  | _ => none

/-- The fields of a slot word read as an instruction of the slot; reserved fields are not looked at here. -/
def parseWord (s : Slot) (w : W32) (l : Option W32) : Option Instr :=
  let op := fld w 24 7
  let d := fld w 18 6
  let a := fld w 12 6
  let b := fld w 6 6
  let m := fld w 0 6
  match s with
  | .c => parseC op d a b m l
  | .i0 => parseI .i0 op d a b m l
  | .i1 => parseI .i1 op d a b m l
  | .ls => parseLs op d a b m l
  | .va => parseV .va op d a b m l
  | .vb => parseV .vb op d a b m l
  | .mx => parseMx op (fld w 20 4) (fld w 14 6) (fld w 8 6) (fld w 4 4) (fld w 0 4) l
  | .en => parseEn op d a b m l

/-- Slot, instruction word and literal word of an instruction. -/
structure Encoded where
  slot : Slot
  word : W32
  lit : Option W32
  deriving DecidableEq, Repr

def encA (s : Slot) (op : BitVec 7) (d a b m : BitVec 6) : Option Encoded := some ⟨s, wordA false op d a b m, none⟩
def encL (s : Slot) (op : BitVec 7) (d a : BitVec 6) (l : Lit) (m : BitVec 6) : Option Encoded :=
  some ⟨s, wordA true op d a l.mode.code m, some l.val⟩
def encB (s : Slot) (op : BitVec 7) (d a : BitVec 6) (b : OpB) (m : BitVec 6) : Option Encoded :=
  some ⟨s, wordA b.wide op d a b.code m, b.word⟩
def encX (s : Slot) (op : BitVec 7) (x : XArgs) : Option Encoded :=
  encA s op (x.ix.setWidth 6) x.src.code 0 (x.dst.code.setWidth 6)
def encI (op : BitVec 7) (p : IArgs) : Option Encoded := encB p.u.slot op p.d.code p.a.code p.b (p.w.code ++ (0 : BitVec 4))
def encI1 (op : BitVec 7) (p : IUn) : Option Encoded := encA p.u.slot op p.d.code p.a.code 0 (p.w.code ++ (0 : BitVec 4))
def encI64 (op : BitVec 7) (p : IArgs64) (m : BitVec 6) : Option Encoded := encB p.u.slot op p.d.code p.a.code p.b m
def encS (s : Slot) (op : BitVec 7) (p : SArgs) : Option Encoded := encB s op p.d.code p.a.code p.b 0
def encV (op : BitVec 7) (p : VBin) : Option Encoded := encB p.u.slot op p.d.code p.a.code p.b (p.t.code ++ p.p)
def encV1 (op : BitVec 7) (p : VUn) (b : BitVec 6) : Option Encoded := encA p.u.slot op p.d.code p.a.code b (p.t.code ++ p.p)
def encVb (op : BitVec 7) (t : BitVec 4) (p : VBit) : Option Encoded := encB p.u.slot op p.d.code p.a.code p.b (t ++ p.p)
def encVb1 (op : BitVec 7) (t : BitVec 4) (p : VBit1) (b : BitVec 6) : Option Encoded :=
  encA p.u.slot op p.d.code p.a.code b (t ++ p.p)
def streamCode (q : BitVec 4) : BitVec 6 := (2 : BitVec 2) ++ q
def encM (op : BitVec 7) (ac : BitVec 4) (a b : BitVec 6) (t m : BitVec 4) (l : Option W32) : Option Encoded :=
  some ⟨.mx, wordM l.isSome op ac a b t m, l⟩
def encMA (op : BitVec 7) (p : MArgs) : Option Encoded :=
  encM op p.ac (streamCode p.qa) (streamCode p.qb) p.t.code 0 (p.k.map (·.setWidth 32))
def encE (op : BitVec 7) (p : EArgs) (m : BitVec 6) : Option Encoded := encB .en op p.d.code p.a.code p.b m
def encU (op : BitVec 7) (p : EUn) (m : BitVec 6) : Option Encoded := encA .en op p.d.code p.a.code 0 m
def encP (op : BitVec 7) (p : PArgs) (m : BitVec 6) : Option Encoded := encB .en op (pairCode p.d) p.a.code p.b m
def encAt (op : BitVec 7) (p : AArgs) : Option Encoded :=
  encB .en op (pairCode p.d) p.a.code p.b (p.t.code ++ p.o.code)

/-- The slot words of an instruction; the steps of agents have none. -/
def encode (i : Instr) : Option Encoded :=
  match i with
  | .cNop => encA .c 0x00 0 0 0 0
  | .br off => encL .c 0x01 0 0 off 0
  | .brt c off => encL .c 0x02 0 c.code off 0
  | .brf c off => encL .c 0x03 0 c.code off 0
  | .call off => encL .c 0x04 0 0 off 0
  | .ret => encA .c 0x05 0 0 0 0
  | .jmpi a b => encB .c 0x06 0 a.code b 0
  | .loop (.imm n) off => encL .c 0x07 0 60 off n
  | .loop (.reg a) off => encL .c 0x07 0 a.code off 0
  | .lbrk n => encA .c 0x08 0 0 0 (n.setWidth 6)
  | .lcont => encA .c 0x09 0 0 0 0
  | .lrd d level f => encA .c 0x0A d.code 0 0 (level ++ f.code)
  | .lwr src level f => encA .c 0x0B 0 src.code 0 (level ++ f.code)
  | .yield => encA .c 0x0C 0 0 0 0
  | .exit => encA .c 0x0D 0 0 0 0
  | .exitK src => encA .c 0x0D 0 src.code 0 1
  | .trap code => some ⟨.c, wordA true 0x0E 0 0 0 0, some (code.setWidth 32)⟩
  | .eret => encA .c 0x0F 0 0 0 0
  | .ckpt => encA .c 0x10 0 0 0 0
  | .ckptT src => encA .c 0x10 0 src.code 0 1
  | .ckptL => encA .c 0x10 0 0 0 2
  | .rdsys d n => encA .c 0x11 d.code 0 0 n
  | .wrsys src n => encA .c 0x12 0 src.code 0 n
  | .cXcp x => encX .c 0x13 x
  | .cMovl d l => encL .c 0x14 d.code 0 l 0
  | .cAdd p => encS .c 0x15 p
  | .fop f .set => encA .c 0x16 ((1 : BitVec 2) ++ f) 0 0 0
  | .fop f .clr => encA .c 0x16 ((1 : BitVec 2) ++ f) 0 0 1
  | .fop f (.and a b) => encA .c 0x16 ((1 : BitVec 2) ++ f) a.code b.code 2
  | .fop f (.or a b) => encA .c 0x16 ((1 : BitVec 2) ++ f) a.code b.code 3
  | .fop f (.not a) => encA .c 0x16 ((1 : BitVec 2) ++ f) a.code 0 4
  | .fop f (.xor a b) => encA .c 0x16 ((1 : BitVec 2) ++ f) a.code b.code 5
  | .iNop u => encA u.slot 0x00 0 0 0 0
  | .add p => encI 0x01 p
  | .sub p => encI 0x02 p
  | .mul p => encI 0x03 p
  | .mulhs p => encI 0x04 p
  | .mulhu p => encI 0x05 p
  | .divs p => encI 0x06 p
  | .divu p => encI 0x07 p
  | .rems p => encI 0x08 p
  | .remu p => encI 0x09 p
  | .and p => encI 0x0A p
  | .or p => encI 0x0B p
  | .xor p => encI 0x0C p
  | .andn p => encI 0x0D p
  | .shl p => encI 0x0E p
  | .shr p => encI 0x0F p
  | .sar p => encI 0x10 p
  | .ror p => encI 0x11 p
  | .min p => encI 0x12 p
  | .max p => encI 0x13 p
  | .minu p => encI 0x14 p
  | .maxu p => encI 0x15 p
  | .abs p => encI1 0x16 p
  | .clz p => encI1 0x17 p
  | .ctz p => encI1 0x18 p
  | .popc p => encI1 0x19 p
  | .bfx p => encI64 0x1A p 0
  | .bfi p => encI64 0x1B p 0
  | .clmul p => encI 0x1C p
  | .clmulh p => encI 0x1D p
  | .cmp u w c (.reg d) a b => encB u.slot 0x1E d.code a.code b (w.code ++ ((0 : BitVec 1) ++ c.code))
  | .cmp u w c (.flag n) a b => encB u.slot 0x1E (n.setWidth 6) a.code b (w.code ++ ((1 : BitVec 1) ++ c.code))
  | .sel u w k d a b => encA u.slot 0x1F d.code a.code b.code (w.code ++ k)
  | .mov p => encI1 0x20 p
  | .movl u d l => encL u.slot 0x21 d.code 0 l 0
  | .movh u d l => some ⟨u.slot, wordA true 0x22 d.code 0 0 0, some l⟩
  | .lea p => encI64 0x23 p 0
  | .xcp u x => encX u.slot 0x24 x
  | .adds p => encI 0x25 p
  | .bswap p => encI1 0x26 p
  | .crc32c narrow p => encI64 0x27 p (if narrow then 0x20 else 0)
  | .lsNop => encA .ls 0x00 0 0 0 0
  | .ld k d a b => encB .ls 0x01 d.code a.code b (k.code.setWidth 6)
  | .st sz d a b => encB .ls 0x02 d.code a.code b (sz.code.setWidth 6)
  | .ldx k d a ix => encA .ls 0x03 d.code a.code ix.code (k.code.setWidth 6)
  | .stx sz d a ix => encA .ls 0x04 d.code a.code ix.code (sz.code.setWidth 6)
  | .lsAdd p => encS .ls 0x05 p
  | .lsSub p => encS .ls 0x06 p
  | .lsShl p => encS .ls 0x07 p
  | .lsMovl d l => encL .ls 0x08 d.code 0 l 0
  | .lsAnd p => encS .ls 0x09 p
  | .lsXcp x => encX .ls 0x0A x
  | .scfg q word b => encB .ls 0x0B (streamCode q) 0 b (word.setWidth 6)
  | .sldd q a b => encB .ls 0x0C (streamCode q) a.code b 0
  | .sstd q a b => encB .ls 0x0D (streamCode q) a.code b 0
  | .srst q => encA .ls 0x0E (streamCode q) 0 0 0
  | .sadv q b => encB .ls 0x0F (streamCode q) 0 b 0
  | .spos d q => encA .ls 0x10 d.code (streamCode q) 0 0
  | .fence => encA .ls 0x11 0 0 0 0
  | .phase s => encA .ls 0x12 0 0 0 s.code
  | .cflush s a b => encB .ls 0x13 0 a.code b s.code
  | .cinv s a b => encB .ls 0x14 0 a.code b s.code
  | .pref l a b => encB .ls 0x15 0 a.code b l.code
  | .zfill a b => encB .ls 0x16 0 a.code b 0
  | .ldp d a b => encB .ls 0x17 ((0 : BitVec 1) ++ d ++ (0 : BitVec 1)) a.code b 0
  | .vnop u => encA u.slot 0x00 0 0 0 0
  | .vadd p => encV 0x01 p
  | .vsub p => encV 0x02 p
  | .vmul p => encV 0x03 p
  | .vfma p => encV 0x04 p
  | .vfms p => encV 0x05 p
  | .vmin p => encV 0x06 p
  | .vmax p => encV 0x07 p
  | .vabs p => encV1 0x08 p 0
  | .vneg p => encV1 0x09 p 0
  | .vrcp p => encVb1 0x0A 5 p 0
  | .vrsq p => encVb1 0x0B 5 p 0
  | .vexp2 p => encVb1 0x0C 5 p 0
  | .vlog2 p => encVb1 0x0D 5 p 0
  | .vand p => encVb 0x0E 0 p
  | .vor p => encVb 0x0F 0 p
  | .vxor p => encVb 0x10 0 p
  | .vnot p => encVb1 0x11 0 p 0
  | .vshl p => encV 0x12 p
  | .vshr p => encV 0x13 p
  | .vsar p => encV 0x14 p
  | .vcmp p => encV 0x15 p
  | .vsel p => encVb 0x16 0 p
  | .vcvt rm src p => encV1 0x17 p (rm.code ++ src.code)
  | .vpack q u t d a b => encB u.slot 0x18 d.code a.code b (t.code ++ q)
  | .vunpk q p => encV1 0x19 p q
  | .vshuf p => encVb 0x1A 0 p
  | .vbcst j p => encVb1 0x1B 0 p j
  | .vred f p => encV1 0x1C p f.code
  | .vscan f p => encV1 0x1D p f.code
  | .vclmul p => encVb 0x1E 4 p
  | .vpopc p => encV1 0x1F p 0
  | .vclz p => encV1 0x20 p 0
  | .vmovl u p d l => encL u.slot 0x21 d.code 0 l ((0 : BitVec 4) ++ p)
  | .vxcp u dst ix lane a => encA u.slot 0x22 (ix.setWidth 6) a.code lane (dst.code ++ (0 : BitVec 2))
  | .vpop f u t p d a => encA u.slot 0x23 (d.setWidth 6) a.code f.code (t.code ++ p)
  | .vany u p f => encA u.slot 0x24 ((1 : BitVec 2) ++ f) 0 0 ((0 : BitVec 4) ++ p)
  | .vall u p f => encA u.slot 0x25 ((1 : BitVec 2) ++ f) 0 0 ((0 : BitVec 4) ++ p)
  | .vidx p => encV 0x26 p
  | .vslide u n d a b => encB u.slot 0x27 d.code a.code b n
  | .vdot p => encV 0x28 p
  | .vsat p => encV1 0x29 p 0
  | .vexpm p => encVb 0x2A 5 p
  | .vround rm p => encV1 0x2B p (rm.code.setWidth 6)
  | .vplj q u t d a b => encA u.slot 0x2C d.code a.code b.code (t.code ++ ((0 : BitVec 1) ++ q))
  | .vpls q hi u t d a => encA u.slot 0x2D d.code a.code (hi.setWidth 6) (t.code ++ ((0 : BitVec 1) ++ q))
  | .vcomp p => encVb1 0x2E 0 p 0
  | .mxNop => encM 0x00 0 0 0 0 0 none
  | .mma p => encMA 0x01 p
  | .mmaz p => encMA 0x02 p
  | .mmag p => encMA 0x03 p
  | .mzero ac m => encM 0x04 ac 0 0 0 m.code none
  | .mnrm ac q t ov rm scale =>
    encM 0x05 ac 0 (streamCode q) t.code ((0 : BitVec 1) ++ BitVec.ofBool ov ++ rm.code) (scale.map (·.setWidth 32))
  | .mnrmAlign ac x => encM 0x05 ac 0 0 0 8 (some (x.setWidth 32))
  | .mdrn ac side q t slot =>
    encM 0x06 ac (match side with | none => 0 | some s => streamCode s) (streamCode q) t.code slot none
  | .mepi slot off => encM 0x07 0 0 0 0 slot (some (off.setWidth 32))
  | .mchkOff ac => encM 0x08 ac 0 0 0 0 none
  | .mchkOn ac => encM 0x08 ac 0 0 0 1 none
  | .mld ac off => encM 0x09 ac 0 0 0 0 (some (off.setWidth 32))
  | .mst ac off => encM 0x0A ac 0 0 0 0 (some (off.setWidth 32))
  | .mregLo ac l => encM 0x0B ac 0 0 0 0 (some l)
  | .mregHi ac l => encM 0x0B ac 0 0 0 1 (some l)
  | .mstat ac w => encM 0x0C ac 0 0 0 w none
  | .enNop => encA .en 0x00 0 0 0 0
  | .btc p => encU 0x01 p 0
  | .btcm p => encU 0x02 p 0
  | .btcg p => encU 0x03 p 0
  | .rinit ld p => encE 0x04 p (if ld then 1 else 0)
  | .racq p => encU 0x05 p 0
  | .rpub p => encE 0x06 p 0
  | .await poll p => encU 0x07 p (if poll then 1 else 0)
  | .rels p => encE 0x08 p 0
  | .rpois p => encE 0x09 p 0
  | .aadd p => encAt 0x10 p
  | .amin p => encAt 0x11 p
  | .amax p => encAt 0x12 p
  | .aand p => encAt 0x13 p
  | .aor p => encAt 0x14 p
  | .axor p => encAt 0x15 p
  | .aswp p => encAt 0x16 p
  | .acas p => encAt 0x17 p
  | .afadd d a b o => encB .en 0x18 (pairCode d) a.code b ((2 : BitVec 2) ++ o.code)
  | .red f t o a b => encB .en 0x19 f.code a.code b (t.code ++ o.code)
  | .wmon d a v narrow c s =>
    encA .en 0x1A d.code a.code v.code (BitVec.ofBool narrow ++ c.code ++ s.code)
  | .sigdec d a (.plain b) s => encB .en 0x1B (pairCode d) a.code b ((0 : BitVec 4) ++ s.code)
  | .sigdec d a (.err p) s => encA .en 0x1B (pairCode d) a.code p.code ((1 : BitVec 4) ++ s.code)
  | .phnew p => encE 0x20 p 0
  | .phreg p => encE 0x21 p 0
  | .phdrop p => encE 0x22 p 0
  | .phsig p => encE 0x23 p 0
  | .phwait d a b => encA .en 0x24 d.code a.code b.code 0
  | .phsw d a b => encA .en 0x25 d.code a.code b.code 0
  | .phbyt p => encE 0x26 p 0
  | .phrd d a k => encA .en 0x27 (pairCode d) a.code 0 (k.setWidth 6)
  | .phpois p => encE 0x28 p 0
  | .sqnew d a b => encA .en 0x30 (pairCode d) a.code b.code 0
  | .sqres p => encP 0x31 p 0
  | .sqcmt p => encP 0x32 p 0
  | .sqlen d a => encA .en 0x33 (pairCode d) a.code 0 0
  | .sqlenH p => encP 0x33 p 1
  | .sqfork t d a b => encA .en 0x34 (pairCode d) a.code b.code (if t then 2 else 0)
  | .sqforkF t d a b => encA .en 0x34 (pairCode d) a.code b.code (if t then 3 else 1)
  | .sqrel d a => encA .en 0x35 (pairCode d) a.code 0 0
  | .sqmap p => encP 0x36 p 0
  | .sqtierMove d a w => encA .en 0x37 (pairCode d) a.code w.code 0
  | .sqtierL3 d a w => encA .en 0x37 (pairCode d) a.code w.code 1
  | .sqtierTile d a w => encA .en 0x37 (pairCode d) a.code w.code 2
  | .sqtierUnstage d a w => encA .en 0x37 (pairCode d) a.code w.code 3
  | .attn p => encU 0x38 p 0
  | .launch d a => encA .en 0x40 (d.setWidth 6) a.code 0 0
  | .launchw d a => encA .en 0x41 (d.setWidth 6) a.code 0 0
  | .mupdWrite p => encU 0x42 p 0
  | .mupdCommit p => encU 0x42 p 1
  | .mupdAbort p => encU 0x42 p 2
  | .enXcp x => encX .en 0x43 x
  | .enMovl d l => encL .en 0x44 d.code 0 l 0
  | .enAdd p => encS .en 0x45 p
  | .strg p => encP 0x46 p 0
  | .strgBar p => encP 0x46 p 1
  | .qtailWrite | .tailLineInvalidate | .qcfgWrite | .qstatClear | .recordAccept
  | .hostSignalPoll | .kernelHandover | .slicePublish | .retirementWordArrival | .sliceBind
  | .sliceStart | .recordAged | .preemptMark | .preemptStop | .contextRecordWrite
  | .sliceResume | .longWaitYield | .stealRequest | .stealAccept | .stealDecline
  | .stealOfferTimeout | .stealVoidReceive | .stealCommitReceive | .stealAck
  | .kernelComplete | .dqerrcntWrite | .deviceQueueEnqueueDone | .instructionFetchFill
  | .loadDataArrival | .streamGroupArrival | .mxPinComplete | .pageWalkComplete
  | .wiredBarrierReach | .asyncEngineWrite | .budgetExhausted | .budgetTrap | .ckptImageComplete
  | .ckptJournalVerified | .powerFailWarning | .powerReturn | .islandTransitionComplete
  | .quadIslandIdle | .idle2retExpiry | .ret2offExpiry | .uncoreIdle | .bdieQuarterIdle
  | .bteCommandStart | .bteCommandComplete | .ringWalkSlotTaken | .syncOperationArrival
  | .wmonTimeout | .phaserWaitTimeout | .flattenCopyComplete | .sqtierComplete
  | .attnRequestStart | .attnRequestComplete | .tlbinvWrite | .tlbinvComplete | .fqrespWrite
  | .registerWrite | .configApply | .rasstatClear | .scrubVisit | .restore | .powerLimit
  | .privLaunch | .sealDram | .exportRange | .exportUnit | .cuffTokenAccrual | .cuffrateWrite
  | .cuffburstWrite | .logRead | .logAck | .fwUpdate | .status | .importOpen | .importClose
  | .deepOff | .perstRelease | .coldReset | .firmwareReady | .firmwareWatchdogExpiry | .getVersion
  | .getCapabilities | .negotiateAlgorithms | .getDigests | .getCertificate | .challenge
  | .getMeasurements | .keyExchange | .finish | .endSession | .hostLinkReset | .hostLinkDown
  | .podBringup | .podRouteLoss | .podRouteRestore | .powerManagerThrottle | .hostLinkUp => none

/-- The instruction of a slot word, or why there is none. -/
def decodeWord (s : Slot) (w : W32) (l : Option W32) : Except DecodeError Instr :=
  match parseWord s w l with
  | none => .error .unassignedOpcode
  | some i =>
    if encode i = some ⟨s, w, l⟩ then
      if i.wf then .ok i else .error .badOperand
    else .error .reservedField

/-- A bundle header (05 R89). -/
structure Header where
  pad : Bool
  yieldBit : Bool
  sync : BitVec 3
  stop : Bool
  pres : BitVec 8
  deriving DecidableEq, Repr

/-- A decoded bundle: where it starts, its length in bytes, its header and its instructions in PRES order. -/
structure Bundle where
  addr : Word
  len : Nat
  hdr : Header
  instrs : List (Slot × Instr)
  deriving DecidableEq, Repr

/-- Little-endian value of bytes (00 R1). -/
def leNat : List Byte → Nat
  | [] => 0
  | b :: bs => b.toNat + 256 * leNat bs

/-- `n` little-endian bytes of a value (00 R1). -/
def leBytes : Nat → Nat → List Byte
  | 0, _ => []
  | n + 1, v => BitVec.ofNat 8 v :: leBytes n (v / 256)

/-- The slot words of the presence bits, in order, from the bytes of the line that follow the header (05 R88). -/
def cutWords : List Slot → BitVec 8 → List Byte → Except DecodeError (List (Slot × W32 × Option W32) × Nat)
  | [], _, _ => .ok ([], 0)
  | s :: ss, pres, bs =>
    if pres.getLsbD s.code.toNat then
      if bs.length < 4 then .error .pastLine
      else
        let w := BitVec.ofNat 32 (leNat (bs.take 4))
        if w.msb then
          if bs.length < 8 then .error .pastLine
          else match cutWords ss pres (bs.drop 8) with
            | .error e => .error e
            | .ok (r, n) => .ok ((s, w, some (BitVec.ofNat 32 (leNat ((bs.drop 4).take 4)))) :: r, n + 8)
        else match cutWords ss pres (bs.drop 4) with
          | .error e => .error e
          | .ok (r, n) => .ok ((s, w, none) :: r, n + 4)
    else cutWords ss pres bs

/-- Decoding every slot word of a bundle in slot order (05 R95). -/
def decodeWords : List (Slot × W32 × Option W32) → Except DecodeError (List (Slot × Instr))
  | [] => .ok []
  | (s, w, l) :: r =>
    match decodeWord s w l with
    | .error e => .error e
    | .ok i => match decodeWords r with
      | .error e => .error e
      | .ok is => .ok ((s, i) :: is)

/-- The header of two bytes (05 R89). -/
def headerOf (h : BitVec 16) : Header :=
  ⟨h.getLsbD 13, h.getLsbD 12, h.extractLsb' 9 3, h.getLsbD 8, h.extractLsb' 0 8⟩

/-- Length in bytes of the bundle that starts with these bytes of its line (05 R88), its slots undecoded: what a zero-trip
LOOP and LBRK need of the bundle at END (07 R150, R152). -/
def bundleLength (bs : List Byte) : Except DecodeError Nat :=
  if bs.length < 2 then .error .pastLine
  else
    let h := BitVec.ofNat 16 (leNat (bs.take 2))
    if h.extractLsb' 14 2 ≠ 0 then .error .headerBits
    else if h.getLsbD 13 then
      if h = 0x2000 then .ok 2 else .error .padFields
    else match cutWords Slot.all (h.extractLsb' 0 8) (bs.drop 2) with
      | .error e => .error e
      | .ok (_, n) => .ok (n + 2)

/-- The bundle that starts with these bytes of its fetch line (05 R88 to R91). -/
def decodeBundle (addr : Word) (bs : List Byte) : Except DecodeError Bundle :=
  if bs.length < 2 then .error .pastLine
  else
    let h := BitVec.ofNat 16 (leNat (bs.take 2))
    if h.extractLsb' 14 2 ≠ 0 then .error .headerBits
    else if h.getLsbD 13 then
      if h = 0x2000 then .ok ⟨addr, 2, headerOf h, []⟩ else .error .padFields
    else match cutWords Slot.all (h.extractLsb' 0 8) (bs.drop 2) with
      | .error e => .error e
      | .ok (ws, n) => match decodeWords ws with
        | .error e => .error e
        | .ok is => .ok ⟨addr, n + 2, headerOf h, is⟩

/-- The bytes of a slot word with its literal (05 R88). -/
def Encoded.bytes (e : Encoded) : List Byte :=
  leBytes 4 e.word.toNat ++ (match e.lit with | none => [] | some l => leBytes 4 l.toNat)

/-- The order in which a bare word, whose slot no table bit gives, is tried: the slots with most reserved fields first. -/
def slotOrder : List Slot := [.c, .mx, .en, .ls, .va, .i0]

/-- The first slot of an order that accepts the words. -/
def firstSlot : List Slot → W32 → Option W32 → Option (Slot × Instr)
  | [], _, _ => none
  | s :: ss, w, l => match decodeWord s w l with
    | .ok i => some (s, i)
    | .error _ => firstSlot ss w l

/-- Word and literal of a table word: the literal is the bits above 31, and is there when W (bit 31) is set (05 R88). -/
def tableWords (w : Nat) : W32 × Option W32 :=
  let w0 := BitVec.ofNat 32 w
  (w0, if w0.msb then some (BitVec.ofNat 32 (w / 2 ^ 32)) else none)

/-- Slot and instruction of a word of the opcode table. -/
def tableInstr (nbits w : Nat) : Option (Slot × Instr) :=
  if nbits < 32 then none else firstSlot slotOrder (tableWords w).1 (tableWords w).2

/-- The instruction of a word of the opcode table. -/
def decodeTableWord (nbits w : Nat) : Option Instr := (tableInstr nbits w).map (·.2)

end Sys2Proof
end

