-- ==== Sys2Proof/Machine/Sparse.lean ====
section
/-!
DEFINITION. Plain data with a number as key: a list of pairs with strictly rising keys. Register files, cores, dies and the
other numbered objects of the module are held so; an unlisted key reads as the default its user gives.
-/
namespace Sys2Proof

/-- Pairs of a key and a value, keys strictly rising. -/
abbrev Sparse (α : Type) := List (Nat × α)

/-- The value at a key. -/
def Sparse.find? {α : Type} : Sparse α → Nat → Option α
  | [], _ => none
  | (j, v) :: m, k => if j = k then some v else if k < j then none else Sparse.find? m k

/-- The value at a key, or the default. -/
def Sparse.get {α : Type} (m : Sparse α) (d : α) (k : Nat) : α := (Sparse.find? m k).getD d

/-- Setting the value at a key. -/
def Sparse.put {α : Type} : Sparse α → Nat → α → Sparse α
  | [], k, v => [(k, v)]
  | (j, w) :: m, k, v =>
    if k < j then (k, v) :: (j, w) :: m else if k = j then (k, v) :: m else (j, w) :: Sparse.put m k v

/-- Removing a key. -/
def Sparse.erase {α : Type} : Sparse α → Nat → Sparse α
  | [], _ => []
  | (j, w) :: m, k => if k < j then (j, w) :: m else if k = j then m else (j, w) :: Sparse.erase m k

/-- Setting many keys. -/
def Sparse.puts {α : Type} (m : Sparse α) (kvs : List (Nat × α)) : Sparse α := kvs.foldl (fun a p => Sparse.put a p.1 p.2) m

/-- Merging: entries of the second win. Both have rising keys. -/
def Sparse.mergeFuel {α : Type} : Nat → Sparse α → Sparse α → Sparse α
  | 0, _, b => b
  | _, [], b => b
  | _, a, [] => a
  | n + 1, (i, x) :: a, (j, y) :: b =>
    if i < j then (i, x) :: Sparse.mergeFuel n a ((j, y) :: b)
    else if j < i then (j, y) :: Sparse.mergeFuel n ((i, x) :: a) b
    else (j, y) :: Sparse.mergeFuel n a b

def Sparse.merge {α : Type} (a b : Sparse α) : Sparse α := Sparse.mergeFuel (a.length + b.length + 1) a b

/-- Keys strictly rising. -/
def Sparse.rising {α : Type} : Sparse α → Bool
  | [] => true
  | [_] => true
  | (i, _) :: (j, y) :: m => decide (i < j) && Sparse.rising ((j, y) :: m)

/-- Element `i` of a list with a default (lists of a fixed length). -/
def nth {α : Type} (d : α) (l : List α) (i : Nat) : α := (l[i]?).getD d

/-- Replacing element `i`. -/
def setNth {α : Type} : List α → Nat → α → List α
  | [], _, _ => []
  | _ :: xs, 0, v => v :: xs
  | x :: xs, n + 1, v => x :: setNth xs n v

end Sys2Proof
end

