-- ==== Sys2Proof/Machine/Crypto.lean ====
section
/-!
DEFINITION. The algorithms the spec names: SHA-384 (R470, R472), HMAC-SHA-384 and HKDF-Expand (R461), AES-256-GCM (R465), and AES-256-XTS of 12 R297. The
spec names them and does not restate them; they follow the published standards (notes/assumptions/8.md). Signatures and key
agreement stay free values.
-/
namespace Sys2Proof.Machine

open Sys2Proof

/-! ## SHA-384 (FIPS 180-4) -/

def beNat (bs : List Byte) : Nat := bs.foldl (fun a b => a * 256 + b.toNat) 0
def beBytes (n v : Nat) : List Byte := (leBytes n v).reverse

/-- The largest r below 2^bits with r^k ≤ v. -/
def rootBelow (k v : Nat) : Nat → Nat
  | 0 => 0
  | bits + 1 =>
    let r := rootBelow k (v / 2 ^ k) bits * 2
    if (r + 1) ^ k ≤ v then r + 1 else r

/-- The first 64 bits of the fractional part of the k-th root of a number below 512. -/
def rootFraction (k p : Nat) : Nat := rootBelow k (p * 2 ^ (64 * k)) 73 % 2 ^ 64

/-- The first 80 primes. -/
def firstPrimes : List Nat := (List.range 410).filter (fun p => decide (2 ≤ p) && (List.range 21).all (fun d => decide (d < 2 ∨ p ≤ d) || p % d != 0))

/-- The round constants: from the cube roots of the first 80 primes. -/
def shaConstants : List Nat := firstPrimes.map (rootFraction 3)

/-- The initial hash value of SHA-384: from the square roots of the ninth to the sixteenth prime. -/
def shaSeed : List Nat := ((firstPrimes.drop 8).take 8).map (rootFraction 2)

/-- The exclusive or of a word's rotations to the right, and of its shift to the right where one is given. -/
def shaMix (turns : List Nat) (shift : Option Nat) (v : Word) : Word :=
  let turned := turns.foldl (fun acc n => acc ^^^ v.rotateRight n) 0
  match shift with | some n => turned ^^^ (v >>> n) | none => turned

/-- The message schedule, newest word first. -/
def shaExtend (newest : List Word) : List Word :=
  let ago (n : Nat) : Word := nth 0 newest (n - 1)
  (ago 16 + shaMix [1, 8] (some 7) (ago 15) + ago 7 + shaMix [19, 61] (some 6) (ago 2)) :: newest

def shaSchedule (block : List Byte) : List Word :=
  let given := (List.range 16).map (fun i => BitVec.ofNat 64 (beNat ((block.drop (8 * i)).take 8)))
  ((List.range 64).foldl (fun ws _ => shaExtend ws) given.reverse).reverse

/-- The working variables, `v i` the i-th of a to h, after one round with constant plus schedule word `kw`. -/
def shaStep (vars : List Word) (kw : Word) : List Word :=
  let v (i : Nat) : Word := nth 0 vars i
  let chosen := (v 4 &&& v 5) ||| (~~~(v 4) &&& v 6)
  let major := (v 0 &&& v 1) ||| ((v 0 ||| v 1) &&& v 2)
  let first := v 7 + shaMix [14, 18, 41] none (v 4) + chosen + kw
  (first + shaMix [28, 34, 39] none (v 0) + major) :: setNth (vars.take 7) 3 (v 3 + first)

/-- A block of 128 bytes taken into the hash value. -/
def shaAbsorb (consts : List Nat) (hash : List Word) (block : List Byte) : List Word :=
  let keyed := List.zipWith (fun (k : Nat) (w : Word) => w + BitVec.ofNat 64 k) consts (shaSchedule block)
  List.zipWith (· + ·) hash (keyed.foldl shaStep hash)

/-- The message with its end mark, zeros and its length in bits, a whole number of blocks. -/
def shaFill (msg : List Byte) : List Byte :=
  let body := msg ++ [0x80]
  let short := (112 + 128 - body.length % 128) % 128
  body ++ List.replicate short 0 ++ beBytes 16 (8 * msg.length)

/-- SHA-384 of a message: 48 bytes. -/
def sha384 (msg : List Byte) : List Byte :=
  let data := shaFill msg
  let consts := shaConstants
  let hash := (List.range (data.length / 128)).foldl (fun h i => shaAbsorb consts h ((data.drop (128 * i)).take 128)) (shaSeed.map (BitVec.ofNat 64))
  (hash.flatMap (fun w => beBytes 8 w.toNat)).take 48

/-- HMAC-SHA-384 (RFC 2104). -/
def hmac384 (key msg : List Byte) : List Byte :=
  let k0 := if 128 < key.length then sha384 key else key
  let k := k0 ++ List.replicate (128 - k0.length) 0
  sha384 (k.map (fun b => b ^^^ 0x5C) ++ sha384 (k.map (fun b => b ^^^ 0x36) ++ msg))

/-- HKDF-Expand (RFC 5869) of up to 48 bytes. -/
def hkdfExpand (prk info : List Byte) (n : Nat) : List Byte := (hmac384 prk (info ++ [1])).take n

/-! ## AES-256-GCM (FIPS 197, SP 800-38D) -/

def xtime (b : Byte) : Byte := (b <<< 1) ^^^ (if b.getLsbD 7 then 0x1B else 0)

def gmul8 : Nat → Byte → Byte → Byte
  | 0, _, _ => 0
  | n + 1, a, b => (if b.getLsbD 0 then a else 0) ^^^ gmul8 n (xtime a) (b >>> 1)

/-- The inverse in GF(2^8): a^254. -/
def ginv8 (a : Byte) : Byte :=
  let m := gmul8 8
  let a2 := m a a; let a4 := m a2 a2; let a8 := m a4 a4; let a16 := m a8 a8
  let a32 := m a16 a16; let a64 := m a32 a32; let a128 := m a64 a64
  m (m (m a128 a64) (m a32 a16)) (m (m a8 a4) a2)

def rol8 (b : Byte) (n : Nat) : Byte := (b <<< n) ||| (b >>> (8 - n))

def sbox (a : Byte) : Byte :=
  let b := ginv8 a
  b ^^^ rol8 b 1 ^^^ rol8 b 2 ^^^ rol8 b 3 ^^^ rol8 b 4 ^^^ 0x63

def xorBytes (a b : List Byte) : List Byte := List.zipWith (fun x y => x ^^^ y) a b

/-- The key words from index i on: the newest eight words, oldest first. -/
def aesExpand : Nat → Nat → Byte → List (List Byte) → List (List Byte)
  | 0, _, _, _ => []
  | n + 1, i, rc, ws =>
    let w7 := nth [] ws 7
    let t := if i % 8 = 0 then xorBytes ((w7.drop 1 ++ w7.take 1).map sbox) [rc, 0, 0, 0]
      else if i % 8 = 4 then w7.map sbox else w7
    let w := xorBytes (nth [] ws 0) t
    w :: aesExpand n (i + 1) (if i % 8 = 0 then xtime rc else rc) (ws.drop 1 ++ [w])

/-- The 15 round keys. -/
def aesKeys (key : List Byte) : List (List Byte) :=
  let ws := (List.range 8).map (fun i => (key.drop (4 * i)).take 4)
  let all := ws ++ aesExpand 52 8 1 ws
  (List.range 15).map (fun r => ((all.drop (4 * r)).take 4).flatten)

def shiftRows (b : List Byte) : List Byte := (List.range 16).map (fun i => nth 0 b ((i + 4 * (i % 4)) % 16))

def mixColumns (b : List Byte) : List Byte :=
  (List.range 16).map (fun i =>
    let c := i / 4 * 4
    let x (k : Nat) : Byte := nth 0 b (c + (i + k) % 4)
    xtime (x 0) ^^^ (xtime (x 1) ^^^ x 1) ^^^ x 2 ^^^ x 3)

def aesRounds : List (List Byte) → List Byte → List Byte
  | [], b => b
  | [k], b => xorBytes (shiftRows (b.map sbox)) k
  | k :: ks, b => aesRounds ks (xorBytes (mixColumns (shiftRows (b.map sbox))) k)

/-- One AES-256 block. -/
def aes256 (ks : List (List Byte)) (b : List Byte) : List Byte :=
  match ks with
  | [] => b
  | k :: ks => aesRounds ks (xorBytes b k)

/-- Product in GF(2^128) with GCM's bit order; values are big-endian numbers. -/
def ghashMul (x y : BitVec 128) : BitVec 128 :=
  ((List.range 128).foldl (fun (p : BitVec 128 × BitVec 128) i =>
    let z := if x.getLsbD (127 - i) then p.1 ^^^ p.2 else p.1
    let v := if p.2.getLsbD 0 then (p.2 >>> 1) ^^^ ((0xE1 : BitVec 128) <<< 120) else p.2 >>> 1
    (z, v)) (0, y)).1

def padBlocks (bs : List Byte) : List Byte := bs ++ List.replicate ((16 - bs.length % 16) % 16) 0

def ghash (h : BitVec 128) : Nat → BitVec 128 → List Byte → BitVec 128
  | 0, acc, _ => acc
  | n + 1, acc, bs => ghash h n (ghashMul (acc ^^^ BitVec.ofNat 128 (beNat (bs.take 16))) h) (bs.drop 16)

def ctrMode (ks : List (List Byte)) (iv : List Byte) : Nat → Nat → List Byte → List Byte
  | 0, _, _ => []
  | n + 1, c, bs => xorBytes (bs.take 16) (aes256 ks (iv ++ beBytes 4 c)) ++ ctrMode ks iv n (c + 1) (bs.drop 16)

/-- AES-256-GCM decryption with a 96-bit IV: the plaintext when the tag verifies. -/
def gcmDecrypt (key iv aad ct tag : List Byte) : Option (List Byte) :=
  let ks := aesKeys key
  let h := BitVec.ofNat 128 (beNat (aes256 ks (List.replicate 16 0)))
  let data := padBlocks aad ++ padBlocks ct ++ beBytes 8 (8 * aad.length) ++ beBytes 8 (8 * ct.length)
  let sum := beBytes 16 (ghash h (data.length / 16) 0 data).toNat
  let t := xorBytes sum (aes256 ks (iv ++ beBytes 4 1))
  if t = tag then some (ctrMode ks iv ((ct.length + 15) / 16) 2 ct) else none

/-! ## AES-256-XTS (IEEE 1619) -/

/-- The tweak of the next block: its product with x in GF(2^128), byte 0 the lowest. -/
def xtsDouble (t : Nat) : Nat := let d := 2 * t; if d < 2 ^ 128 then d else (d - 2 ^ 128) ^^^ 0x87

/-- The blocks of a data unit under data key `k1`, from tweak value `t` on. -/
def xtsBlocks (k1 : List (List Byte)) : Nat → Nat → List Byte → List Byte
  | 0, _, _ => []
  | n + 1, t, bs =>
    let mask := leBytes 16 t
    xorBytes (aes256 k1 (xorBytes (bs.take 16) mask)) mask ++ xtsBlocks k1 n (xtsDouble t) (bs.drop 16)

/-- Encryption of a data unit of whole blocks, numbered `unit`, under a 64-byte key. -/
def xtsEncrypt (key : List Byte) (unit : Nat) (bs : List Byte) : List Byte :=
  xtsBlocks (aesKeys (key.take 32)) (bs.length / 16) (leNat (aes256 (aesKeys (key.drop 32)) (leBytes 16 unit))) bs

end Sys2Proof.Machine
end

