-- ==== Sys2Proof/Machine/NumFormat.lean ====
section
/-!
DEFINITION. The values of element types and the rounding of an exact value into a type (08 R177 to R186). A value is a
sign with an exact fraction, an infinity or a NaN; nothing is rounded before the one rounding of `roundTo`.
-/
namespace Sys2Proof

/-- An exact real `(-1)^neg · n / d`, an infinity, or a NaN (NaR counts as NaN). -/
inductive FNum
  | nan
  | inf (neg : Bool)
  | fin (neg : Bool) (n d : Nat)
  deriving DecidableEq, Repr

/-- The integer `i` as an exact value. -/
def FNum.ofInt (i : Int) : FNum := .fin (decide (i < 0)) i.natAbs 1

/-- `n · 2^e` with a sign. -/
def FNum.scaled (neg : Bool) (n : Nat) (e : Int) : FNum :=
  if 0 ≤ e then .fin neg (n * 2 ^ e.toNat) 1 else .fin neg n (2 ^ (-e).toNat)

/-- `n / d · 10^e` with a sign. -/
def FNum.decimal (neg : Bool) (n d : Nat) (e : Int) : FNum :=
  if 0 ≤ e then .fin neg (n * 10 ^ e.toNat) d else .fin neg n (d * 10 ^ (-e).toNat)

def FNum.neg : FNum → FNum
  | .nan => .nan | .inf s => .inf (!s) | .fin s n d => .fin (!s) n d

def FNum.isZero : FNum → Bool | .fin _ n _ => n == 0 | _ => false
def FNum.isNeg : FNum → Bool | .nan => false | .inf s => s | .fin s _ _ => s
def FNum.isNan : FNum → Bool | .nan => true | _ => false

/-- Exact product; Inf × 0 is NaN (IEEE 754 through 08 R178). -/
def FNum.mul (a b : FNum) : FNum :=
  match a, b with
  | .nan, _ | _, .nan => .nan
  | .inf s, .inf t => .inf (s ^^ t)
  | .inf s, .fin t n _ | .fin t n _, .inf s => if n = 0 then .nan else .inf (s ^^ t)
  | .fin s n d, .fin t m e => .fin (s ^^ t) (n * m) (d * e)

/-- Exact sum under `ne`: an exact zero is −0 only when both terms are −0 (IEEE 754 through 08 R186). -/
def FNum.add (a b : FNum) : FNum :=
  match a, b with
  | .nan, _ | _, .nan => .nan
  | .inf s, .inf t => if s = t then .inf s else .nan
  | .inf s, _ => .inf s
  | _, .inf t => .inf t
  | .fin s n d, .fin t m e =>
    let x : Int := (if s then -1 else 1) * (n * e : Nat) + (if t then -1 else 1) * (m * d : Nat)
    if x = 0 then .fin (s && t) 0 1 else .fin (decide (x < 0)) x.natAbs (d * e)

/-- Order of two values, neither a NaN, with −0 below +0 when `zeros` is set. -/
def FNum.lt (zeros : Bool) (a b : FNum) : Bool :=
  match a, b with
  | .inf s, .inf t => s && !t
  | .inf s, _ => s
  | _, .inf t => !t
  | .fin s n d, .fin t m e =>
    if n = 0 && m = 0 then zeros && s && !t
    else
      let x : Int := (if s then -1 else 1) * (n * e : Nat)
      let y : Int := (if t then -1 else 1) * (m * d : Nat)
      decide (x < y)
  | _, _ => false

/-- A magnitude n / d rounded to an integer (08 R185). -/
def rndMag (rm : RMode) (neg : Bool) (n d : Nat) : Nat :=
  let q := n / d
  let r := n % d
  if r = 0 then q
  else match rm with
    | .tz => q
    | .up => if neg then q else q + 1
    | .dn => if neg then q + 1 else q
    | .ne => if 2 * r < d then q else if d < 2 * r then q + 1 else q + q % 2

/-- floor(log2(n / d)) for n, d > 0. -/
def log2Floor (n d : Nat) : Int :=
  let e : Int := (Nat.log2 n : Int) - (Nat.log2 d : Int)
  -- n / d lies in (2^(e-1), 2^(e+1))
  let ge := if 0 ≤ e then decide (d * 2 ^ e.toNat ≤ n) else decide (d ≤ n * 2 ^ (-e).toNat)
  if ge then e else e - 1

/-- The layout of a small float: exponent bits, mantissa bits, bias, code of the largest finite magnitude,
code of infinity where there is one, code of the canonical NaN where there is one (08 R179). -/
structure FloatFmt where
  ebits : Nat
  mbits : Nat
  bias : Nat
  maxFin : Nat
  infCode : Option Nat
  nanCode : Option Nat
  deriving DecidableEq, Repr

def FloatFmt.width (f : FloatFmt) : Nat := f.ebits + f.mbits + 1

/-- The formats of 08 R179. -/
def ElemTy.fmt : ElemTy → Option FloatFmt
  | .f32 => some ⟨8, 23, 127, 0x7F7FFFFF, some 0x7F800000, some 0x7FC00000⟩
  | .bf16 => some ⟨8, 7, 127, 0x7F7F, some 0x7F80, some 0x7FC0⟩
  | .f16 => some ⟨5, 10, 15, 0x7BFF, some 0x7C00, some 0x7E00⟩
  | .e4m3 => some ⟨4, 3, 7, 0x7E, none, some 0x7F⟩
  | .e5m2 => some ⟨5, 2, 15, 0x7B, some 0x7C, some 0x7E⟩
  | .mxf4 => some ⟨2, 1, 1, 7, none, none⟩
  | .mxf6a => some ⟨2, 3, 1, 0x1F, none, none⟩
  | .mxf6b => some ⟨3, 2, 3, 0x1F, none, none⟩
  | _ => none

/-- Value of a float code (08 R179). -/
def FloatFmt.value (f : FloatFmt) (code : Nat) : FNum :=
  let neg := code / 2 ^ (f.ebits + f.mbits) % 2 == 1
  let mag := code % 2 ^ (f.ebits + f.mbits)
  let inf? := match f.infCode with | some c => mag == c | none => false
  if inf? then .inf neg
  else if f.nanCode.isSome && decide (f.maxFin < mag) then .nan
  else
    let ex := mag / 2 ^ f.mbits
    let man := mag % 2 ^ f.mbits
    if ex = 0 then .scaled neg man (1 - (f.bias : Int) - f.mbits)
    else .scaled neg (man + 2 ^ f.mbits) ((ex : Int) - f.bias - f.mbits)

/-- Magnitude code of n / d > 0 rounded with no upper limit (08 R185). -/
def FloatFmt.magCode (f : FloatFmt) (rm : RMode) (neg : Bool) (n d : Nat) : Nat :=
  if n = 0 then 0
  else
    let emin : Int := 1 - f.bias
    let e := max (log2Floor n d) emin
    let u : Int := e - f.mbits
    let k := if 0 ≤ u then rndMag rm neg n (d * 2 ^ u.toNat) else rndMag rm neg (n * 2 ^ (-u).toNat) d
    (e + f.bias - 1).toNat * 2 ^ f.mbits + k

/-- Rounding into a float type, with the overflow rules of 08 R186. Under `ne` a value is beyond the range when it rounds past it
(notes/assumptions/89.md). -/
def FloatFmt.round (f : FloatFmt) (rm : RMode) (x : FNum) : Nat :=
  let signBit := 2 ^ (f.ebits + f.mbits)
  let withSign (neg : Bool) (m : Nat) : Nat := if neg then signBit + m else m
  match x with
  | .nan => f.nanCode.getD 0
  | .inf neg =>
    match f.infCode, f.nanCode with
    | some c, _ => withSign neg c
    | none, some c => c
    | none, none => withSign neg f.maxFin
  | .fin neg n d =>
    let m := f.magCode rm neg n d
    if f.maxFin < m then
      match f.infCode with
      | none => withSign neg f.maxFin
      | some c =>
        match rm with
        | .ne => withSign neg c
        | .tz => withSign neg f.maxFin
        | .up => withSign neg (if neg then f.maxFin else c)
        | .dn => withSign neg (if neg then c else f.maxFin)
    else if m = 0 then (if f.infCode.isSome then withSign neg 0 else 0)
    else withSign neg m

/-- Leading zeros of a 7-bit payload (08 R183). -/
def d8z (p : Nat) : Nat := 6 - Nat.log2 p

/-- Magnitude of a d8 payload p ≥ 1 as (numerator, denominator): 10^(−z)·(2^k + 9f)/2^k (08 R183). -/
def d8Mag (p : Nat) : Nat × Nat :=
  let z := d8z p
  let k := 6 - z
  (2 ^ k + 9 * (p % 2 ^ k), 2 ^ k * 10 ^ z)

/-- Value of a d8 code with block scale 0 (08 R183). -/
def d8Value (code : Nat) : FNum :=
  let p := code % 128
  let neg := code / 128 % 2 == 1
  if p = 0 then (if neg then .nan else .fin false 0 1) else .fin neg (d8Mag p).1 (d8Mag p).2

/-- The largest payload whose magnitude is at most n / d, 0 when there is none. -/
def d8Below (n d : Nat) : Nat :=
  (List.range 128).foldl (fun acc p => if p ≠ 0 ∧ (d8Mag p).1 * d ≤ n * (d8Mag p).2 then p else acc) 0

/-- Rounding into d8 (08 R185, R186). -/
def d8Round (rm : RMode) (x : FNum) : Nat :=
  match x with
  | .nan | .inf _ => 0x80
  | .fin neg n d =>
    let lo := d8Below n d
    let (ln, ld) := if lo = 0 then (0, 1) else d8Mag lo
    let p :=
      if lo = 127 ∨ ln * d = n * ld then lo
      else
        let (hn, hd) := d8Mag (lo + 1)
        match rm with
        | .tz => lo
        | .up => if neg then lo else lo + 1
        | .dn => if neg then lo + 1 else lo
        | .ne =>
          -- compare 2·n/d with ln/ld + hn/hd
          let two := 2 * n * ld * hd
          let sum := (ln * hd + hn * ld) * d
          if two < sum then lo else if sum < two then lo + 1 else if lo % 2 = 0 then lo else lo + 1
    if p = 0 then 0 else if neg then 128 + p else p

/-- The integer range of a type (08 R177). -/
def intRange : ElemTy → Int × Int
  | .i8 => (-128, 127)
  | .u8 => (0, 255)
  | .i16 => (-32768, 32767)
  | .i32 => (-2147483648, 2147483647)
  | .u32 => (0, 4294967295)
  | .i4 => (-8, 7)
  | _ => (-128, 127)

/-- An integer bounded to a range. -/
def clampInt (x lo hi : Int) : Int := if x < lo then lo else if hi < x then hi else x

/-- Rounding to an integer of a range (08 R185, R186). -/
def roundInt (rm : RMode) (lo hi : Int) (x : FNum) : Int :=
  match x with
  | .nan => 0
  | .inf neg => if neg then lo else hi
  | .fin neg n d =>
    let m : Int := rndMag rm neg n d
    clampInt (if neg then -m else m) lo hi

/-- Two's complement code of an integer in `b` bits. -/
def intCode (b : Nat) (x : Int) : Nat := (x % (2 ^ b : Nat)).toNat

/-- Two's complement reading of the low `b` bits. -/
def signedOf (b : Nat) (v : Nat) : Int :=
  let m := v % 2 ^ b
  if m < 2 ^ (b - 1) then (m : Int) else (m : Int) - (2 ^ b : Nat)

/-- Value of the low bits of `v` read as type `t`, MX types and d8 with no scale (08 R177 to R184, 10 R250). -/
def ElemTy.value (t : ElemTy) (v : Nat) : FNum :=
  let c := v % 2 ^ t.bits
  match t with
  | .i8 | .i16 | .i32 | .i4 => .ofInt (signedOf t.bits c)
  | .u8 | .u32 => .fin false c 1
  | .mxi8 => match signedOf 8 c with
    | x => .fin (decide (x < 0)) x.natAbs 64
  | .d8 => d8Value c
  | .f32 | .bf16 | .f16 | .e4m3 | .e5m2 | .mxf4 | .mxf6a | .mxf6b =>
    match t.fmt with
    | some f => f.value c
    | none => .nan

/-- `round(x, t, rm)`: the code of x in type t (08 R185, R186, 05 R115). -/
def roundTo (t : ElemTy) (rm : RMode) (x : FNum) : Nat :=
  match t with
  | .i8 | .u8 | .i16 | .i32 | .u32 | .i4 =>
    let r := intRange t
    intCode t.bits (roundInt rm r.1 r.2 x)
  | .mxi8 => match x with
    | .fin neg n d => intCode 8 (roundInt rm (-128) 127 (.fin neg (64 * n) d))
    | y => intCode 8 (roundInt rm (-128) 127 y)
  | .d8 => d8Round rm x
  | .f32 | .bf16 | .f16 | .e4m3 | .e5m2 | .mxf4 | .mxf6a | .mxf6b =>
    match t.fmt with
    | some f => f.round rm x
    | none => 0

/-- The canonical quiet NaN of f32 (08 R178). -/
def f32Nan : Nat := 0x7FC00000

/-- f32 value of a code, and the code of a value rounded to nearest even (05 R115 `rne`). -/
def f32Val (v : Nat) : FNum := ElemTy.value .f32 v
def f32Rne (x : FNum) : Nat := roundTo .f32 .ne x

end Sys2Proof
end

