-- ==== Sys2Proof/Config.lean ====
section
/-!
DEFINITION. What an implementation fixes and the free values: constants with no body, so that no proof can see a value
of them. Each free value is applied to the counter `State.free`, which every use advances (notes/assumptions/7.md).
-/
namespace Sys2Proof

/-- A byte the spec leaves open (13 R319, 16 R409, 12 R297, 01 R12). -/
opaque Config.freeByte : Nat → Byte

/-- What a CXL expander holds at a byte after a loss of module power, by the count of losses and the address (01 R12). -/
opaque Config.expanderByte : Nat → Nat → Byte

/-- The expanders fitted on a CXL port, in ascending order of the switch's downstream port: their sizes in bytes; one, when it is
attached directly (12 R296). -/
opaque Config.expanders : Nat → List Nat

/-- The AES-256-XTS key of the memory controllers, derived from the fused sealing root (12 R297). -/
opaque Config.memoryKey : BitVec 512

/-- The set of its L2 a line belongs to (12 R294). -/
opaque Config.l2Set : Nat → Nat

/-- The bank of its L3 a line belongs to, 0 to 255 (18 R443). -/
opaque Config.l3Bank : Nat → Nat

/-- Mesh hops on the module of a sync engine, from its pod port to its die (15 R383). -/
opaque Config.podHops : Nat → Nat

/-- A choice the spec leaves open. -/
opaque Config.freeBool : Nat → Bool

/-- A number the spec leaves open. -/
opaque Config.freeNat : Nat → Nat

/-- 48 bytes of key material, shared secrets or digests that the spec names and does not state (19 R460 to R475). -/
opaque Config.freeKey : Nat → BitVec 384

/-- Values fused into a module (19 R469, R475): 0 power ceiling in W, 1 Cuff rate, 2 Cuff burst, 3 EXPEN, 4 MRAM wear limit,
5 corrected-error threshold of the scrubber, 6 version and 7 rollback number of the firmware at delivery (notes/assumptions/6.md), 8 the MRAM
write-rate limit in bytes per second (R467; 0 is no limit, notes/assumptions/86.md). -/
opaque Config.fuse : Nat → Nat

/-- The identity public key, a point of P-384 (19 R459, R472), with which the certificate chain ends (R470). -/
opaque Config.identityKey : BitVec 768

/-- The certificate chain before the identity key. -/
opaque Config.certificates : List Byte

/-- Digests fixed by the ROM or at delivery (19 R470): 0 the ROM, 3 the image in firmware slot A. -/
opaque Config.fuseKey : Nat → BitVec 384

/-- A digest over values whose layout the spec leaves open (19 R470). -/
opaque Config.digestOf : Nat → List Nat → BitVec 384

end Sys2Proof
end

