-- ==== Sys2Proof/Machine/Objects.lean ====
section
/-!
DEFINITION. What the agents beside the cores hold: sync objects (rings 13, phasers 15, sequences 16), messages and answers,
commands of the copy and attention engines, power islands (17), and the management subsystem (19).
-/
namespace Sys2Proof.Machine

open Sys2Proof

/-! ## Messages to sync engines and their answers -/

/-- The member of a slice an operation comes from: its core at issue, kernel (acceptance number), slice and rank. -/
structure Who where
  core : Nat
  kernel : Nat
  slice : Nat
  rank : Nat
  deriving DecidableEq, Repr

/-- Operations a sync engine applies (13 R330, 15 R359 to R386, 16 R395 to R404), with their operand values. `sliceEnd` is the
retirement of a slice that may be a loader or have bound members, with its core of rank 0 and its code when its status is not zero
(13 R326, 15 R371);
`rcredit` and `phcredit` are byte credits of an engine report (13 R325, 15 R372). -/
inductive SyncOp
  | rinit (loader : Bool) (cfg : Word) | racq | rpub (v : Word) | await (poll : Bool) | rels (v : Word) | rpois (v : Word)
  | rcredit (slot bytes : Nat)
  | atomic (fn : RedFn) (t : AType) (v : Word) | aswp (t : AType) (v : Word) | acas (t : AType) (old v : Word)
  | red (fn : RedFn) (t : AType) (v : Word)
  | wmon (narrow : Bool) (c : Cond) (v : Word) (poll : Bool)
  | sigdec (v : Word) (err : Word)
  | phnew (v : Word) | phreg (v : Word) | phdrop (v : Word) | phsig (v : Word)
  | phwait (v : Word) | phsw (v : Word) (again : Option W32) | phbyt (v : Word) | phrd (k : Nat) | phpois (v : Word)
  | phcredit (bytes : Nat)
  | strg (word : Word)
  | sqnew (blk : BitVec 256) | sqres (n : Word) | sqcmt (range : Word) | sqlen | sqlenH (k : Word)
  | sqfork (flat trap : Bool) (blk : BitVec 256) | sqrel | sqmap (slot : Word)
  | sqtier (op : Nat) (v0 v1 : Word)
  | sliceEnd (core kernel slice : Nat) (code : Option Byte)
  deriving DecidableEq, Repr

/-- Where the answer of an operation goes: nowhere, w registers (main and status), the wait of a blocking instruction, or a
command of an engine. -/
inductive ReplyTo
  | none
  | w (main status : Option Nat)
  | wait
  | cmd (id : Nat)
  deriving DecidableEq, Repr

/-- A message to a sync engine. `engine` is 64·module + die; `addr` is the physical and `va` the virtual address; `acquire`
is set for acquire forms at `scope`; the message is applied once the sender's first `after` releases
are complete; `expiry` is the instant a wait ends; `watch` marks the wait of a slice that gave up its core (04 R82). -/
structure SyncMsg where
  who : Option Who
  die : Nat
  engine : Nat
  addr : Nat
  va : Word
  op : SyncOp
  reply : ReplyTo
  scope : Scope
  acquire : Bool
  after : Nat
  expiry : Option Nat
  watch : Bool
  deriving DecidableEq, Repr

/-- An asynchronous engine write on its way (06 R134): registers and values, the acquire made at that write, and the
FORK_DEPTH trap of SQFORK.T (16 R400). -/
structure Reply where
  who : Who
  regs : List (Nat × Word)
  acquire : Option Scope
  trap : Bool
  deriving DecidableEq, Repr

/-! ## Stage rings (13 R325 to R327) -/

inductive RTag | empty | filling | full | draining
  deriving DecidableEq, Repr

/-- The loader of a ring: a slice, or a ring walk (13 R326). -/
inductive Loader
  | slice (kernel slice : Nat)
  | walk (id : Nat)
  deriving DecidableEq, Repr

/-- A slot: tag, delivered bytes, and the slice or walk that acquired it. -/
structure RingSlot where
  tag : RTag
  deliv : Nat
  owner : Option Loader
  deriving DecidableEq, Repr

structure Ring where
  expect : Nat
  slots : List RingSlot
  pnext : Nat
  cnext : Nat
  poison : Option (Nat × Byte)
  ended : Bool
  loader : Option Loader
  waits : List SyncMsg
  deriving DecidableEq, Repr

/-! ## Phasers and straggler records (15 R366 to R386) -/

/-- A straggler record: episodes since creation, lags of the newest 16 by participant, the core and KID of each member's latest
arrival, the persistent members, and the core and KID for which a persistent member makes its die a victim (15 R385). -/
structure Strag where
  count : Nat
  eps : List (Sparse Nat)
  latest : Sparse (Nat × W32)
  persist : List Nat
  victims : Sparse (Nat × W32)
  deriving DecidableEq, Repr

/-- A member slot of a phaser. Mode: 0 signal-only, 1 wait-only, 2 both. -/
structure Member where
  mode : Nat
  pending : Bool
  dropping : Bool
  bound : Option (Nat × Nat)
  arrived : Bool
  early : Bool
  deriving DecidableEq, Repr

/-- A phaser; `arr` holds the corrected arrival cycles of the current phase. -/
structure Phaser where
  phase : W32
  expect : Nat
  recv : Nat
  members : Sparse Member
  scope : Scope
  creator : Nat
  poison : Option (Nat × Byte)
  waits : List (SyncMsg × W32)
  arr : Sparse Nat
  strag : Strag
  deriving DecidableEq, Repr

/-! ## Sequences (16 R387 to R391) -/

/-- An entry of a sequence's table; `kept` lists the frames whose lines L3 keeps for the page (16 R403). -/
structure SeqEntry where
  pva : Nat
  own : Bool
  tier : Bool
  stage : Nat
  vf : Nat
  ref : Nat
  stagepa : Nat
  pin : Bool
  kept : List Nat
  deriving DecidableEq, Repr

/-- A sequence: the fields of its header and its table. `parent` is the parent's key; CBMAP is `cbmap`; `old` lists the page VAs that a move left,
each with its page, newest first (22 R485). -/
structure Seq where
  handle : Word
  list : Nat
  logsz : Nat
  npages : Nat
  refs : Nat
  depth : Nat
  released : Bool
  isSealed : Bool
  forkpos : Nat
  rlen : Nat
  clen : Nat
  cbmap : BitVec 256
  parent : Option Nat
  table : List SeqEntry
  old : List (Nat × Nat)
  deriving DecidableEq, Repr

inductive Obj
  | ring (r : Ring)
  | phaser (p : Phaser)
  | seq (q : Seq)
  deriving DecidableEq, Repr

/-- A live sync object and whether it lies in the overflow area of its die (15 R354). -/
structure ObjRec where
  obj : Obj
  inOverflow : Bool
  deriving DecidableEq, Repr

/-- A reserved flattening child (16 R401). -/
structure Flat where
  blk : BitVec 256
  childVa : Word
  parent : Nat
  msg : SyncMsg
  inOverflow : Bool
  table : List SeqEntry
  deriving DecidableEq, Repr

/-- A wired barrier with a record: the mask of the current episode, arrival cycles so far, and the record (15 R378, R382). -/
structure MaskRec where
  mask : Option W32
  arr : Sparse Nat
  strag : Strag
  deriving DecidableEq, Repr

/-! ## Engine commands (13 R308 to R324, 16 R403, R407) -/

inductive BteKind | one | multi | gather
  deriving DecidableEq, Repr

/-- What a copy is for: a program command, an R-stage copy of a slice's entry into a core (04 R71), a flattening child, or an
`SQTIER` command. -/
inductive CopyRole
  | program
  | stage (core entry : Nat)
  | flatten (child : Nat)
  | tier (id : Nat)
  deriving DecidableEq, Repr

/-- Queued, running, waiting between repetitions of a ring walk, or waiting for its ring credit to be applied. -/
inductive CmdSt | queued | running | walking | credit
  deriving DecidableEq, Repr

/-- A command of a die's BTE; `rep`, `slot` and `done` are a walk's repetition, slot taken and bytes written so far, and `gather` its
gather list once it has been read. It starts once the release at its issue is complete, which it is in cycle `after` of the issuing core. -/
structure BteCmd where
  id : Nat
  die : Nat
  kind : BteKind
  block : BitVec 1024
  who : Who
  wd : Option Nat
  role : CopyRole
  st : CmdSt
  rep : Nat
  slot : Nat
  done : Nat
  after : Nat
  gather : List (Word × Nat)
  deriving DecidableEq, Repr

/-- A request of a quad's attention engine: the sequence it holds a reference on and the CLEN it read, once started, which it may be from
cycle `after` of the issuing core on. -/
structure AttnReq where
  id : Nat
  who : Who
  wd : Option Nat
  block : BitVec 1024
  running : Bool
  hold : Option Nat
  clen : Nat
  after : Nat
  deriving DecidableEq, Repr

/-- An `SQTIER` command in progress. -/
structure TierCmd where
  id : Nat
  msg : SyncMsg
  seq : Nat
  page : Nat
  op : Nat
  arg : Word
  deriving DecidableEq, Repr

/-- A record a core handed to its die's queue logic (03 R58): the lines it is read from once the release that came before it is complete, which it is
after `after` releases of the core. -/
structure LaunchPend where
  who : Who
  wd : Nat
  waits : Bool
  va : Word
  lines : List Nat
  after : Nat
  deriving DecidableEq, Repr

/-! ## Islands (17 R429 to R432) -/

inductive IslandSt | run | idle | retain | off
  deriving DecidableEq, Repr

/-- An island: its state and when it was entered, the transition in progress with its end, and a wake requested meanwhile. -/
structure Island where
  st : IslandSt
  since : Nat
  going : Option (IslandSt × Nat)
  wake : Bool
  deriving DecidableEq, Repr

/-! ## The management subsystem (19) -/

/-- An SPDM session with its export master secret and the host link it runs on (19 R460, R461). -/
structure Spdm where
  id : W32
  ems : BitVec 384
  established : Bool
  port : Nat
  deriving DecidableEq, Repr

/-- An import session (19 R460, R461). -/
structure Import where
  spdm : W32
  core : Nat
  off : Nat
  len : Nat
  next : Nat
  written : List Nat
  key : BitVec 256
  ivPrefix : Word
  deriving DecidableEq, Repr

/-- A firmware slot: version, rollback number, digest of the image, and whether its signature verifies (19 R476). -/
structure FwSlot where
  version : W32
  rollback : Nat
  digest : BitVec 384
  valid : Bool
  deriving DecidableEq, Repr

/-- An EXPORT in progress: next sealed byte, host address, bytes left (19 R468). -/
structure Export where
  src : Nat
  dst : Nat
  left : Nat
  deriving DecidableEq, Repr

/-- A signed checkpoint of the log (19 R472, R473): SEQ, chain value, DROPPED, signature. -/
structure Checkpoint where
  seq : Nat
  chain : BitVec 384
  dropped : Nat
  signature : BitVec 768
  deriving DecidableEq, Repr

/-- A MUPD that has come to the sealing unit and has not taken effect (19 R465, R467): operation, result register, update block; it may start once
the first `after` releases of its core are complete. -/
structure Update where
  who : Who
  op : Nat
  wd : Option Nat
  block : BitVec 512
  after : Nat
  deriving DecidableEq, Repr

/-- What runs in the management subsystem. -/
inductive BootSt | running | booting | minimal (reason : Byte) | deepOff | dead
  deriving DecidableEq, Repr

/-- The management subsystem: mailbox, log, Cuff, sealing, firmware, attestation (19 R453 to R478). `frac` is what the bucket holds
beyond whole tokens, in 10^-9 tokens; `accrued` the instant it was filled up to; `transcript` and `response` are the codes of the
attestation messages since GET_VERSION and the last answer; `runB` says that slot B runs; `updates` are the operations of MUPD in order of their
arrival, and `paced` the instant until which MRAM writes of the sealing unit have used the fused rate up (R467). -/
structure Mss where
  mbcmd : Word
  mbstat : Word
  buf : Sparse Byte
  restorePending : Bool
  powerLimit : Nat
  logHead : Nat
  logFloor : Nat
  log : Sparse (BitVec 512)
  chain : BitVec 384
  checkpoint : Checkpoint
  ckRead : Nat
  dropped : Nat
  rate : Nat
  burst : Nat
  tokens : Nat
  frac : Nat
  accrued : Nat
  exporting : Option Export
  sessions : List Spdm
  transcript : List Byte
  response : List Byte
  imports : Sparse Import
  updates : List Update
  paced : Nat
  slotA : FwSlot
  slotB : FwSlot
  activeB : Bool
  runB : Bool
  rollback : Nat
  bootCount : Nat
  boot : BootSt
  reason : Byte
  bootedAt : Nat
  deriving DecidableEq, Repr

end Sys2Proof.Machine
end

