-- ==== Sys2Proof/Machine/State.lean ====
section
/-!
DEFINITION. The state of the module as plain data: what each core, engine and unit holds (INVENTORY.md, State), the
faults and refusals a step can end in, and the state right after reset.
-/
namespace Sys2Proof.Machine

open Sys2Proof

/-! ## Core -/

/-- A register that a write can commit to (05 R96, 06 R121). `loop k f` is a field of loop level k written by LWR
(07 R154); `i` and `j` are the index registers the sequencer writes. -/
inductive RegName
  | c (n : Nat) | f (n : Nat) | x (n : Nat) | y (n : Nat) | z (n : Nat) | w (n : Nat)
  | va (n : Nat) | vb (n : Nat) | pa (n : Nat) | pb (n : Nat) | ac (n : Nat)
  | i (k : Nat) | j (k : Nat) | loop (k : Nat) (f : LoopField)
  deriving DecidableEq, Repr

/-- A value on its way to a register: a word, lanes of a vector register under a mask (10 R239), or the word of a neighbour load
that reads its bytes in cycle `readAt` (09 R203), or the pending value of a w register, all ones (06 R133). -/
inductive RVal
  | word (v : Word)
  | vec (v : Vec) (mask : Word)
  | wait (readAt : Nat)
  | mark
  deriving DecidableEq, Repr

/-- A register write that has not committed (06 R124, R125): destination, value, commit cycle, and whether an
asynchronous engine makes it (06 R134). -/
structure Pend where
  reg : RegName
  val : RVal
  due : Nat
  engine : Bool
  deriving DecidableEq, Repr

/-- The register files of a core (06 R121). Unlisted registers hold 0; pa0 and pb0 are not held. -/
structure Regs where
  c : Sparse Word
  f : BitVec 16
  x : Sparse Word
  y : Sparse Word
  z : Sparse Word
  w : Sparse Word
  va : Sparse Vec
  vb : Sparse Vec
  pa : Sparse Word
  pb : Sparse Word
  ac : Sparse Word
  deriving DecidableEq, Repr

/-- A loop level (06 R138). -/
structure LoopLevel where
  start : Word
  last : Word
  count : W32
  index : W32
  deriving DecidableEq, Repr

/-- A reuse port (05 R108, 06 R135, R136): the value read, the code that produced it, the register it names when it
names one, the cycle the copy was taken, and whether a later commit has made it void. -/
structure Port where
  val : Vec
  code : OpB
  reg : Option RegName
  taken : Nat
  void : Bool
  deriving DecidableEq, Repr

/-- A configured stream register (09 R212, R215, R221): descriptor, checked mark, groups fetched ahead and arrived. -/
structure StreamReg where
  desc : BitVec 512
  checked : Bool
  ahead : Nat
  deriving DecidableEq, Repr

/-- A change of a stream register that takes effect later (09 R229). -/
inductive QChange
  | word (n : Nat) (v : Word)
  | load (desc : BitVec 512)
  | rewind
  | advance (n : Word)
  deriving DecidableEq, Repr

structure QPend where
  q : Nat
  due : Nat
  change : QChange
  deriving DecidableEq, Repr

/-- A global load waiting for its data (06 R130): destination z registers with their offsets in the accessed bytes, the physical address, size and
extension, whether a device register is read (09 R206), and the bytes it has: those of the core's own L1 or the register from when the load took its
place in issue order (09 R226), all once its home has served it (14 R344). The data arrives from cycle `after` on (09 R231). `latched` marks a load
a trap found pending (17 R418). A prefetch into L1 (09 R234) is held as a load of 64 bytes. `old` marks an access translated before the present
invalidation (12 R304). `raw` loads bypass L1 (12 R289), `epoch` and `fence` count the acquires and the boundaries of the core before the load, and
`ue` says that its home served it with an uncorrectable error. -/
structure GLoad where
  dests : List (Nat × Nat)
  pa : Nat
  va : Word
  size : Nat
  signed : Bool
  device : Bool
  own : List (Option Byte)
  after : Nat
  latched : Bool
  raw : Bool
  epoch : Nat
  fence : Nat
  ue : Bool
  old : Bool
  deriving DecidableEq, Repr

/-- A quad neighbour's tile load: bytes are read at `readAt` and delivered at `due` (09 R203); `fence`, `rels` and `epoch` count the boundaries, the
releases and the acquires of the core before it. Its registers' writes are in flight, or in the latch bank, as `RVal.wait` until it reads. -/
structure NLoad where
  dests : List (Nat × Nat)
  pa : Nat
  size : Nat
  signed : Bool
  readAt : Nat
  due : Nat
  fence : Nat
  rels : Nat
  epoch : Nat
  deriving DecidableEq, Repr

/-- A byte on its way to memory: physical address, value, and the bits of it that are written. -/
structure MByte where
  pa : Nat
  val : Byte
  mask : Byte
  deriving DecidableEq, Repr

/-- The path a store takes (09 R221): an LS instruction, with its issue cycle, a stream of LS, VA or VB, or an output of the matrix
engine; `passes` marks a stream whose lines leave L2 past L3 (12 R295). -/
inductive Path | ls (issued : Nat) | stream (passes : Bool) | mx (passes : Bool)
  deriving DecidableEq, Repr

def Path.isLs : Path → Bool | .ls _ => true | _ => false
def Path.isMx : Path → Bool | .mx _ => true | _ => false
def Path.passes : Path → Bool | .ls _ => false | .stream p | .mx p => p

/-- Bytes that land in memory at a cycle: tile stores (09 R203), outputs of MX instructions (11 R271), stream writes (09 R220). `fence` and
`rels` count the boundaries and the releases of the core before the instruction (14 R339). Output bytes of a matrix instruction whose group has not
ended are `held`: with the bytes that land instead when the group's last bundle issues before a cycle (11 R270). -/
structure Landing where
  due : Nat
  cells : List MByte
  fence : Nat
  rels : Nat
  path : Path
  held : Option (Nat × List MByte)
  old : Bool
  deriving DecidableEq, Repr

/-- An accumulator element (08 R187, 11 R264): M, X, guard bits SCALE INEXACT NINF PINF NAN OVF ([5:0]) and mode tag. -/
structure Elem where
  m : BitVec 48
  x : BitVec 16
  g : BitVec 6
  tag : Option AccMode
  deriving DecidableEq, Repr

/-- A region of the array as its register describes it (11 R262). -/
structure Region where
  row0 : Nat
  col0 : Nat
  rows : Nat
  cols : Nat
  deriving DecidableEq, Repr

/-- Status of an armed check (11 R283, R288). -/
inductive ChkStatus | clean | ue | det
  deriving DecidableEq, Repr

/-- The armed region, with the register it was named by, and its predicted column and row sums, as numerators over 2^32768 (11 R281,
R282); `kt` counts the K positions added since it was armed. -/
structure Check where
  ac : Nat
  region : Region
  cols : List Int
  rows : List Int
  status : ChkStatus
  kt : Nat
  deriving DecidableEq, Repr

/-- What a writer of the array does to an element (11 R272): it adds products, sets it to zero and then adds, re-aligns it to an
exponent, or loads it. -/
inductive AccKind | add | clear | align (x : Int) | load
  deriving DecidableEq, Repr

/-- A writer's elements of a region that commit at a cycle (11 R271, R272), in the order of their keys, with the terms of the products
that each takes in, an integer times a power of two (R282), and the number of K positions. -/
structure AccPend where
  due : Nat
  region : Region
  kind : AccKind
  elems : Sparse Elem
  terms : Sparse (Int × Int)
  kt : Nat
  deriving DecidableEq, Repr

/-- An epilogue slot: its words and the cycle it is usable from (11 R271, R278). -/
structure EpiSlot where
  words : List W32
  usable : Nat
  deriving DecidableEq, Repr

/-- What the matrix engine holds beside the committed elements: the elements with every started writer applied (11 R272), the epilogue registers e0
to e15 (06 R121), the cycle its busy time ends, epilogue slots, the armed check, correction counter, dead mark (07 R164). -/
structure MxSt where
  accNew : Sparse Elem
  e : Sparse W32
  busy : Nat
  epi : Sparse EpiSlot
  chk : Option Check
  ncorr : BitVec 16
  dead : Bool
  deriving DecidableEq, Repr

/-- How the open group leaves its last bundle (07 R144, R151 to R159). -/
inductive Ctrl
  | next
  | goto (target : Word)
  | yield
  | exit
  | exitK (code : Byte)
  | eret
  deriving DecidableEq, Repr

/-- Cause of a trap (17 R414, R416). KIND: 0 read, 1 write, 2 fetch, 3 none. -/
structure TrapInfo where
  code : Byte
  sub : Byte
  addr : Word
  kind : BitVec 2
  bundle : Nat
  slot : Slot
  deriving DecidableEq, Repr

/-- An operation of the open group that acts outside the core's registers, in issue order; nothing leaves the core until
the whole group has passed every fault check (05 R95). `drained` are output bytes of a chunk read in cycle `at_`: `passed` when the group's
element commits hold in that cycle, else `held` (11 R270, R272). -/
inductive Op
  | tileStore (issued pa : Nat) (bytes : List Byte)
  | rawStore (pa : Nat) (bytes : List Byte)
  | land (path : Path) (due : Nat) (cells : List MByte)
  | drained (passes : Bool) (at_ due : Nat) (held passed : List MByte)
  | globalStore (pa : Nat) (bytes : List Byte)
  | devStore (off : Nat) (v : Word)
  | gload (g : GLoad)
  | nload (g : NLoad)
  | miss (page : Nat)
  | prefetch (level pa : Nat)
  | touch (sectors : List Nat)
  | fence
  | phase (s : Scope)
  | release (s : Scope)
  | acquire (s : Scope)
  | cflush (s : Scope) (va : Word) (len : Nat)
  | cinv (s : Scope) (va : Word) (len : Nat)
  | accCommit (p : AccPend)
  | wland (n : Nat) (v : Word) (due : Nat)
  | sync (m : SyncMsg)
  | bte (kind : BteKind) (wd : Option Nat) (block : BitVec 1024) (issued : Nat)
  | attn (wd : Option Nat) (block : BitVec 1024) (issued : Nat)
  | launch (wait : Bool) (va : Word) (lines : List Nat) (wd : Nat)
  | strgBar (sel : Word) (word : Word) (main status : Option Nat)
  | mupd (op : Nat) (wd : Option Nat) (block : BitVec 512)
  | ckpt (journal : Option (List (Nat × Nat)))
  | ckptL
  | wrsys (n : Nat) (v : Word)
  deriving DecidableEq, Repr

/-- The open group (05 R94, R95): its bundles, the index of the next to issue, and the effects of the bundles issued so
far, all held back until the group completes: register writes, ordered operations, and working copies of reuse ports,
streams, loop stack and matrix engine. `after` is a trap taken once the group's effects stand (17 R426); `olds` are the w
registers that instructions of the group left pending, with their values before. `since` is the cycle in which its first bundle
issued, once it has; `old` as in `GLoad`. -/
structure Group where
  active : Bool
  since : Nat
  start : Word
  bundles : List Bundle
  nextPc : Word
  idx : Nat
  paid : Bool
  writes : List Pend
  ops : List Op
  ports : Sparse Port
  q : Sparse StreamReg
  qpend : List QPend
  loops : List LoopLevel
  mx : MxSt
  ctrl : Ctrl
  after : Option TrapInfo
  olds : List (Nat × Word)
  old : Bool
  deriving DecidableEq, Repr

/-- A result held in the snapshot latch bank: destination, value, remaining offset (17 R418). -/
structure Latch where
  reg : RegName
  val : RVal
  rest : Nat
  deriving DecidableEq, Repr

/-- Trap state (17 R416), the snapshot latch bank (R418) and the reuse ports saved at entry (R415). -/
structure TrapSt where
  active : Bool
  info : TrapInfo
  tpc : Word
  depth : Nat
  allow : Word
  bank : List Latch
  ports : Sparse Port
  deriving DecidableEq, Repr

/-- Why a slice is leaving its core, once it drains (17 R421). -/
inductive Leave
  | preempt | yield | launchw | longWait | pageFault (token : Nat)
  deriving DecidableEq, Repr

/-- The slice a core runs (02 R27, R29, 05 R111, 06 R141): kernel, slice number, iteration ordinal and last ordinal,
rank and width in the gang, privileged mode, local deadline, marks, the leave in progress, whether it
has issued its last EXIT (21 R483), the allowance it was last marked for (17 R425), and the LAUNCHWs, by w register and address, that its die's
full queue turned away (03 R60). -/
structure Run where
  kernel : Nat
  slice : Nat
  ordinal : Nat
  last : Nat
  rank : Nat
  width : Nat
  priv : Bool
  deadline : Option Nat
  budgetMark : Bool
  preempt : Bool
  leave : Option Leave
  ended : Bool
  marked : Option Word
  again : List (Nat × Word)
  deriving DecidableEq, Repr

/-- A FORK_DEPTH trap to take (16 R400): none, at the next group, or, having met another trap, after the `ERET` (17 R426). -/
inductive ForkDue | none | now | afterEret
  deriving DecidableEq, Repr

/-- A line of an L2 that a matrix instruction has pinned (09 R222), until the cycle in which the engine has consumed its last byte there, once the
instruction has started; `old` as in `GLoad`. -/
structure Pin where
  line : Nat
  upto : Option Nat
  old : Bool
  deriving DecidableEq, Repr

/-- A byte of the L1 data cache that is valid (12 R289); `stamp` counts the boundaries of the core before it was stored or filled. -/
structure L1Byte where
  val : Byte
  dirty : Bool
  stamp : Nat
  deriving DecidableEq, Repr

/-- A 512-byte line of an L2 (12 R294): valid and dirty sectors, pins (09 R222), and whether it leaves without entering L3, as
STREAMED and SEALED lines do. -/
structure L2Line where
  valid : BitVec 8
  dirty : BitVec 8
  pins : Nat
  passes : Bool
  deriving DecidableEq, Repr

/-- A 512-byte line of an L3 (12 R295): valid and dirty sectors, and whether SQTIER keeps it (16 R403). -/
structure L3Line where
  valid : BitVec 8
  dirty : BitVec 8
  kept : Bool
  deriving DecidableEq, Repr

/-- A TLB entry (12 R302): first 64 KiB unit of the page, 2 MiB or 64 KiB, and the leaf entry it holds. -/
structure TlbEntry where
  unit : Nat
  big : Bool
  leaf : Word
  deriving DecidableEq, Repr

/-- The wait of a blocking instruction or a SYNC bundle (06 R129): request sent, its answer, and when the wait began. -/
structure Wait where
  sent : Bool
  answer : Option (Word × Word)
  since : Option Nat
  deriving DecidableEq, Repr

/-- What the first issue of a blocking instruction leaves for its reissue (15 R364, R377): its group and bundle, the expiry instant,
and the phase a PHSW arrived for. -/
structure Kept where
  start : Word
  bundle : Nat
  expiry : Option Nat
  phase : Option W32
  deriving DecidableEq, Repr

/-- An image of the restart shadow (07 R161, R162) with the acceptance number of its kernel; `loads` are the loads it waits for, each with its z
register: 0 for a global load, one more than the cycle it reads in for a neighbour's (R161), and `area` the half of the core's journal blocks that
holds its journal (R163). -/
structure Image where
  kernel : Nat
  kid : W32
  slice : Nat
  pc : Word
  loops : List LoopLevel
  regs : Regs
  wpend : List Nat
  loads : List (Nat × Nat)
  q : Sparse StreamReg
  ordinal : Nat
  issued : Nat
  allow : Word
  journal : Option (List (Nat × List Byte))
  area : Nat
  ready : Nat
  complete : Bool
  verified : Bool
  deriving DecidableEq, Repr

/-- The operand A that rank 0 broadcasts to a gang (11 R274): shape, type, scaling, and for each line its codes (none past the
walk or the row) and block scales. `bad` says that the shapes of the members differ. -/
structure GangA where
  bad : Bool
  rows : Nat
  klen : Nat
  ty : ElemTy
  scaled : Bool
  surplus : Bool
  lines : List (List (Option Nat) × List Nat)
  deriving DecidableEq, Repr

/-- Registers, loop stack and reuse ports as they stood before the writes of `Core.just` committed. -/
structure Before where
  regs : Regs
  loops : List LoopLevel
  ports : Sparse Port
  deriving DecidableEq, Repr

/-- A core (01 R8): its slice, registers, sequencer, engines' private state, caches and cycle counter. `fenceAt` is the first cycle in which
everything stored before the last FENCE or phase boundary has landed (09 R231), `fences` counts those, `rels` the releases and `epoch` the acquires
wider than `.core` among them (14 R339, R344). `just` are the writes that committed since the open group's first bundle issued (in the present cycle
when no group has begun) and `prev` what stood before them: a trap of that group moves them into the latch bank (17 R418); `turned` is the cycle in
which the last loop-index update of the sequencer commits, with the levels and the reuse ports before it; `wpend` lists w registers with an engine
write to come (R422), `forkTrap` is the trap of 16 R400, and `lostData` says that a neighbour load met an uncorrectable error, `accLost` that an
accumulator element of a started MX instruction did (18 R440). `atSync` marks a core that has come to a barrier and releases, `resuming` one that
has not issued since its slice resumed (R422), and `pins` are the lines its MX instruction has pinned. -/
structure Core where
  run : Option Run
  regs : Regs
  prev : Before
  just : List Pend
  turned : Option (Nat × List LoopLevel × Sparse Port)
  loops : List LoopLevel
  j : List W32
  pc : Word
  ports : Sparse Port
  q : Sparse StreamReg
  qpend : List QPend
  inflight : List Pend
  gloads : List GLoad
  nloads : List NLoad
  landings : List Landing
  acc : Sparse Elem
  accPend : List AccPend
  mx : MxSt
  pinned : Bool
  cycle : Nat
  holdUntil : Nat
  afterEret : Bool
  landing : Bool
  grp : Group
  trap : TrapSt
  issued : Nat
  wpend : List Nat
  l1 : Sparse L1Byte
  tlb : List TlbEntry
  misses : List Nat
  icache : Sparse (List Byte)
  fetching : Option Nat
  wait : Wait
  kept : List Kept
  reached : Option Nat
  atSync : Bool
  resuming : Bool
  pins : List Pin
  images : List Image
  mmag : Nat
  gang : Option GangA
  fenceAt : Nat
  fences : Nat
  rels : Nat
  epoch : Nat
  forkTrap : ForkDue
  lostData : Bool
  accLost : Bool
  deriving DecidableEq, Repr

def Regs.zero : Regs := ⟨[], 0, [], [], [], [], [], [], [], [], []⟩
def Elem.zero : Elem := ⟨0, 0, 0, none⟩
def MxSt.reset : MxSt := ⟨[], [], 0, [], none, 0, false⟩
def Group.none : Group := ⟨false, 0, 0, [], 0, 0, false, [], [], [], [], [], [], MxSt.reset, .next, Option.none, [], false⟩
def TrapInfo.zero : TrapInfo := ⟨0, 0, 0, 0, 0, .c⟩
def TrapSt.reset : TrapSt := ⟨false, TrapInfo.zero, 0, 0, 0, [], []⟩
def Wait.none : Wait := ⟨false, Option.none, Option.none⟩

/-- A core with no slice: the values of a slice start (06 R122), no cycle counted. -/
def Core.reset : Core :=
  { run := none, regs := Regs.zero, prev := ⟨Regs.zero, [], []⟩, just := [], turned := none, loops := [], j := [0, 0, 0, 0, 0, 0], pc := 0, ports := [], q := [],
    qpend := [], inflight := [], gloads := [], nloads := [], landings := [], acc := [], accPend := [],
    mx := MxSt.reset, pinned := false, cycle := 0, holdUntil := 0, afterEret := false, landing := false,
    grp := Group.none, trap := TrapSt.reset, issued := 0, wpend := [], l1 := [], tlb := [], misses := [],
    icache := [], fetching := none, wait := Wait.none, kept := [], reached := none, atSync := false, resuming := false, pins := [], images := [], mmag := 0, gang := none, fenceAt := 0
    fences := 0, rels := 0, epoch := 0, forkTrap := .none, lostData := false, accLost := false }

/-! ## Kernels, dies and the launch unit -/

/-- Where a kernel record came from (03 R47, 19 R453): host queue with the record index and the queue's size at acceptance (R44), device
launch queue of a die, or the management subsystem's launch path. -/
inductive KSource
  | host (q index size : Nat) | device (die : Nat) | mailbox
  deriving DecidableEq, Repr

/-- A dependence entry with its state (02 R36, 03 R51, R52). `sat` says it is satisfied; a kernel-id dependence holds the
acceptance number it was matched to. -/
structure Dep where
  signal : Option Word
  kernel : Option Nat
  sat : Bool
  deriving DecidableEq, Repr

/-- A kernel the launch unit accepted, under its acceptance number (02 R18, 03 R53, 18 R437 to R439): when it became runnable, the
dies it was handed to, the slices whose retirement words the launch unit has, its first error, and, once it completed, how many
kernels had been accepted by then (04 R69). `parent` is the continuation that waits for it, with its w register (03 R60). -/
structure Kernel where
  record : BitVec 2048
  source : KSource
  priv : Bool
  deps : List Dep
  runnable : Option Nat
  rejected : Option Byte
  handed : List Nat
  retired : List Nat
  failed : Bool
  error : Word
  done : Option Nat
  parent : Option (Who × Nat)
  deriving DecidableEq, Repr

/-- A retirement word on its way (04 R66): kernel, slice, first-error word when the status is not zero, and the die it goes
to, or the launch unit. -/
structure RetWord where
  kernel : Nat
  slice : Nat
  err : Option Word
  dest : Option Nat
  deriving DecidableEq, Repr

/-- What a record that has left the ready set waits for (04 R82, 03 R60, 12 R306). -/
inductive WaitFor
  | wait | child | queueRoom | host (token : Nat) | hostQueue
  deriving DecidableEq, Repr

/-- State of a slice record (04 R86); an offer keeps the instant it was made and its number. -/
inductive RecState
  | queued | offered (thief since tag : Nat) | transfer (thief : Nat) | copy (victim : Nat) | started | waiting (w : WaitFor)
  deriving DecidableEq, Repr

/-- A slice record of a die (04 R63, R71, R78, R82): the edges still to clear, when it became ready, its place among aged records, local deadline,
bound cores, R-stage copies still running, and, of a slice that left its core, the context record of each rank, engine writes delivered meanwhile
(17 R422), what each rank's interrupted group keeps of its waits, and its iteration ordinal; `words` are values of w registers that the completion
of a child gives (03 R60), `forks` the FORK_DEPTH trap each rank has to take, `marks` whether a BUDGET trap waits for it and the allowance it was
marked for (17 R425), `again` the LAUNCHWs to be issued again, and `home` the die whose context records it has; `restored` marks one that resumes
from images of the restart shadow (17 R435). -/
structure SliceRec where
  kernel : Nat
  slice : Nat
  st : RecState
  edges : List (Nat × Nat)
  readySince : Option Nat
  aged : Option Nat
  deadline : Option Nat
  bound : List Nat
  stages : List Nat
  stageErr : Option Byte
  ctx : List (Nat × Nat)
  late : List Reply
  waits : List (Nat × List Kept)
  progress : List (Nat × Nat)
  words : List (Nat × Word)
  forks : List (Nat × ForkDue)
  marks : List (Nat × Bool × Option Word)
  again : List (Nat × Word)
  home : Nat
  restored : Bool
  deriving DecidableEq, Repr

/-- A record in a device launch queue, with its parent (03 R55, R58, R60), and the slot's address when it lies in the overflow area. -/
structure DqEntry where
  record : BitVec 2048
  who : Who
  wd : Nat
  waits : Bool
  overflow : Option Nat
  deriving DecidableEq, Repr

/-- The configuration block of a die (04 R79, 15 R357, R384, 17 R427, R431, 18 R442, 03 R55, R56, 20 R480). -/
structure DieCfg where
  dqobase : Word
  dqosize : Word
  dqerrcnt : Word
  dqerrw : Word
  schedcfg : Word
  sovbase : Word
  sovsize : Word
  strgcfg : Word
  barmask : List W32
  ctxbase : Word
  ctxsize : Word
  evtcfg : Word
  rasstat : Word
  rasaddr : Word
  tstinj : Word
  tstmask : Word
  deriving DecidableEq, Repr

/-- A C-die's scheduler, walker, tracker and translation state (04, 12 R302) with its copy of the configuration block; `walks` are the units its
translations wait for, oldest first. `skew` is its local time less the module's nanosecond count (04 R76). `next` holds, for each kernel handed
over, the remaining relative deadline at receipt turned local and the next slice number its walker publishes; `reserve` is the quad held for a gang
slice (R75); `back` holds, for each persistent kernel that a restore returns to the die, its walker's next slice and the slices that have to be
published again (17 R435). -/
structure Die where
  walks : List Nat
  skew : Nat
  cfg : DieCfg
  next : Sparse (Nat × Option Nat)
  back : Sparse (Nat × List Nat)
  recs : List SliceRec
  agedCount : Nat
  reserve : Option (Nat × Nat × Nat)
  l2tlb : List TlbEntry
  ctxUsed : List Nat
  dq : List DqEntry
  deriving DecidableEq, Repr

def DieCfg.reset : DieCfg :=
  { dqobase := 0, dqosize := 0, dqerrcnt := 0, dqerrw := 0, schedcfg := 0x0001000A00320014, sovbase := 0, sovsize := 0,
    strgcfg := 0x00000000010C07D0, barmask := [0, 0, 0, 0, 0], ctxbase := 0, ctxsize := 0, evtcfg := 0x0000000000C80005, rasstat := 0,
    rasaddr := 0, tstinj := 0, tstmask := 0 }

def Die.reset : Die :=
  { walks := [], skew := 0, cfg := DieCfg.reset, next := [], back := [], recs := [], agedCount := 0, reserve := none,
    l2tlb := [], ctxUsed := [], dq := [] }

/-- The registers of a host launch queue (03 R43, R44, R46) with the records the host tail covers; `undef` says that
a parameter changed while EN was 1, so that the slots' contents are undefined (R44). -/
structure HostQueue where
  qbase : Word
  qcfg : Word
  qtail : Word
  qhead : Word
  qcbase : Word
  qtline : Word
  qstat : Word
  tail : W32
  undef : Bool
  deriving DecidableEq, Repr

def HostQueue.reset : HostQueue := ⟨0, 0, 0, 0, 0, 0, 0, 0, false⟩

/-! ## The module -/

/-- What a step of an agent is about (the table gives those rows no fields): each row's meaning says which it reads. -/
structure About where
  core : Nat
  die : Nat
  quad : Nat
  kernel : Nat
  slice : Nat
  n : Nat
  len : Nat
  value : Word
  ok : Bool
  flag : Bool
  picks : List Nat
  deriving DecidableEq, Repr

/-- One move of the agenda, the input that says which agent acts next; `coreFail` is an uncorrectable error that a core consumes in its register file,
or, as `matrix` says, that its started MX instruction reads in an accumulator element (18 R440). -/
inductive Move
  | issue (core : Nat)
  | event (i : Instr) (a : About)
  | evictL1 (core : Nat) (line : Nat)
  | evictCode (core : Nat) (line : Nat)
  | evictL2 (line : Nat)
  | evictL3 (line : Nat)
  | alterStored (pa : Nat) (val : Byte)
  | writeObject (pa : Nat)
  | evictTlb (core : Nat) (unit : Nat)
  | hostStore (addr : Nat) (bytes : List Byte)
  | podSeal (pa len : Nat) (on : Bool)
  | coreFail (core : Nat) (matrix : Bool)
  | time (ns : Nat)
  deriving DecidableEq, Repr

/-- A message between die schedulers about slice `slice` of kernel `kernel` (04 R86): offer, accept and decline of
the offer `tag`, commit with the remaining deadline, void, acknowledgement. -/
inductive StealKind | offer (tag : Nat) | accept (tag : Nat) | decline (tag : Nat) | commit (left : Option Nat) | void | ack
  deriving DecidableEq, Repr

structure StealMsg where
  src : Nat
  dst : Nat
  kernel : Nat
  slice : Nat
  kind : StealKind
  deriving DecidableEq, Repr

/-- A page fault record to be written for the host (12 R306, R307). -/
structure FaultRec where
  token : W32
  core : Nat
  kernel : Nat
  slice : Nat
  kind : BitVec 2
  va : Word
  written : Bool
  deriving DecidableEq, Repr

/-- A valid page-table entry that a walk has used, and the 64 KiB units it covers (12 R301, R304). -/
structure WalkEntry where
  entry : Word
  unit : Nat
  units : Nat
  deriving DecidableEq, Repr

/-- Translation registers (12 R303); `msgs` and `launches` are those that were on their way at the invalidation under way (R304). -/
structure XlatRegs where
  ptroot : Word
  busy : Bool
  fqbase : Word
  fqcfg : Word
  fqtail : W32
  fqhead : W32
  msgs : List SyncMsg
  launches : List LaunchPend
  deriving DecidableEq, Repr

/-- What control storage holds over a power loss (17 R433, R434): the kernels that had not completed; of the persistent ones the
started slices as (kernel, slice, owner die), the cores whose shadow holds an image as (core, kernel, slice), and the walkers' next
slices as (die, kernel, slice). -/
structure Saved where
  kernels : Sparse Kernel
  started : List (Nat × Nat × Nat)
  images : List (Nat × Nat × Nat)
  walkers : List (Nat × Nat × Nat)
  deriving DecidableEq, Repr

/-- The module (01), with the memory of the pod by 52-bit physical address as its homes serve it (09 R204). `l2` and `l3` are the lines that the
module's L2s and L3s hold, by 512-byte line, and `altered` the stored bytes of sectors that were altered outside the package (12 R294 to R297);
`cxlLosses` counts the losses of power that left CXL memory with bytes of its own (01 R12). `cfgFile` is the always-on copy of the configuration
blocks (19 R451); `irqs` lists the MSI-X vectors raised, newest first (19 R452), `msix` the 8-byte words of the MSI-X table that differ from their
reset values, and `pending` the vectors whose pending bit is set (R450); `plainPorts` are the host ports that trained as PCIe (R449), and
`podSealed` the sealed ranges of other modules (R457); `walked` are the page-table entries in use by their addresses, `walkCache` those each B-die
caches, `walkers` its next die and the walks it serves (12 R302); `blocks` and `wear` are the state and the wear counter of each 4 KiB MRAM block
(19 R462, 18 R446); `bch` and `lost` are banks re-encoded or out of service (18 R444, R445); `cxl` lists, for each CXL port, the offset and the size
of every expander the boot found on it (12 R296), and `podPorts` the B-dies whose pod ports lead to a module (19 R455). -/
structure State where
  mem : List Host.Cell
  hostMem : List Host.Cell
  l2 : Sparse L2Line
  l3 : Sparse L3Line
  altered : Sparse (List Byte)
  cxlLosses : Nat
  cores : Sparse Core
  kernels : Sparse Kernel
  words : List RetWord
  dies : Sparse Die
  cfgFile : Sparse DieCfg
  queues : Sparse HostQueue
  launches : List LaunchPend
  turn : Nat
  kidTable : List Nat
  accepted : Nat
  xregs : XlatRegs
  walked : Sparse WalkEntry
  walkCache : Sparse (List Nat)
  walkers : Sparse (Nat × List (Nat × Nat))
  faults : List FaultRec
  mail : List StealMsg
  objs : Sparse ObjRec
  flats : Sparse Flat
  msgs : List SyncMsg
  replies : List Reply
  monitors : List SyncMsg
  engCycle : Sparse Nat
  masks : Sparse MaskRec
  cmds : List BteCmd
  attns : List AttnReq
  tiers : List TierCmd
  nextId : Nat
  floors : Sparse Nat
  sealedDram : List (Nat × Nat)
  frozen : List (Nat × Nat)
  poison : List Nat
  blocks : Sparse Nat
  wear : Sparse Nat
  spares : Sparse Nat
  bch : List Nat
  lost : List Nat
  cxl : List (List (Nat × Nat))
  podPorts : Sparse (List Nat)
  modid : Nat
  noRoute : List Nat
  linksDown : List Nat
  plainPorts : List Nat
  podSealed : List (Nat × Nat)
  mhz : Sparse Nat
  islands : Sparse Island
  frozenPower : Bool
  saved : Option Saved
  mss : Mss
  irqs : List Nat
  msix : Sparse Word
  pending : List Nat
  ns : Nat
  me : Nat
  about : About
  agenda : List Move
  free : Nat
  deriving DecidableEq, Repr

/-- A step stops with a fault only where the spec gives an access no effect. -/
inductive Fault
  /-- Raised by no instruction: every address an instruction reaches has an effect, or a trap, in the spec. -/
  | noSuchAddress (pa : Nat)
  deriving DecidableEq, Repr

/-- Why a step is refused. -/
inductive Refusal
  /-- Raised by an arm of the dispatch whose instruction has no meaning yet (safe). -/
  | notModelled (mnemonic : String)
  deriving DecidableEq, Repr

abbrev Result := Host.Outcome State Fault Refusal

def About.zero : About := ⟨0, 0, 0, 0, 0, 0, 0, 0, false, false, []⟩

def FwSlot.none : FwSlot := ⟨0, 0, 0, false⟩

/-- H_0 of the log's chain (19 R472): the SHA-384 of the identity public key. -/
def logBase : BitVec 384 := BitVec.ofNat 384 (beNat (sha384 (beBytes 96 Config.identityKey.toNat)))

/-- The management subsystem after reset, its firmware running; the Cuff registers hold the fused values (19 R469). -/
def Mss.reset : Mss :=
  { mbcmd := 0, mbstat := 0, buf := [], restorePending := false, powerLimit := Config.fuse 0, logHead := 1, logFloor := 1, log := []
    chain := logBase, checkpoint := ⟨0, 0, 0, 0⟩, ckRead := 0, dropped := 0, rate := Config.fuse 1, burst := Config.fuse 2
    tokens := Config.fuse 2, frac := 0, accrued := 0, exporting := none, sessions := [], transcript := [], response := []
    imports := [], updates := [], paced := 0, slotA := ⟨BitVec.ofNat 32 (Config.fuse 6), Config.fuse 7, Config.fuseKey 3, true⟩
    slotB := FwSlot.none, activeB := false, runB := false, rollback := Config.fuse 7, bootCount := 0, boot := .running, reason := 0, bootedAt := 0 }

def XlatRegs.reset : XlatRegs := ⟨0, false, 0, 0, 0, 0, [], []⟩

/-- Expanders placed on a port in ascending order of the switch's downstream port, each at a multiple of 256 MiB, as far as the window of
2 TiB goes (12 R296). -/
def placeFrom (at_ : Nat) : List Nat → List (Nat × Nat)
  | [] => []
  | n :: ns =>
    let lo := (at_ + 0xFFFFFFF) / 0x10000000 * 0x10000000
    if 2 ^ 41 ≤ lo then [] else (lo, min n (2 ^ 41 - lo)) :: placeFrom (lo + n) ns

/-- The decoders of the four CXL ports, as the boot programs them from what is fitted (19 R454). -/
def expandersAt : List (List (Nat × Nat)) := (List.range 4).map (fun p => placeFrom 0 (Config.expanders p))

/-- The module right after reset. -/
def State.reset : State :=
  { mem := [], hostMem := [], l2 := [], l3 := [], altered := [], cxlLosses := 0, cores := [], kernels := [], words := [], dies := [], cfgFile := [], queues := [], launches := []
    turn := 0, kidTable := [], accepted := 0, xregs := XlatRegs.reset, walked := [], walkCache := [], walkers := [], faults := [], mail := [], objs := [], flats := [], msgs := []
    replies := [], monitors := [], engCycle := [], masks := [], cmds := [], attns := [], tiers := [], nextId := 0, floors := []
    sealedDram := [], frozen := [], poison := [], blocks := [], wear := [], spares := [], bch := [], lost := []
    cxl := expandersAt, podPorts := [], modid := 0, noRoute := [], linksDown := [], plainPorts := [], podSealed := [], mhz := [], islands := [], frozenPower := false, saved := none
    mss := Mss.reset, irqs := [], msix := [], pending := [], ns := 0, me := 0, about := About.zero, agenda := [], free := 0 }

end Sys2Proof.Machine
end

