-- ==== Sys2Proof/Machine/Records.lean ====
section
/-!
DEFINITION. Fields of the 256-byte kernel record (02 R18, R20, R23, R30, R31, R36) as the launch unit copied it.
-/
namespace Sys2Proof.Machine

open Sys2Proof

/-- Bits [lo+len-1 : lo] of a record as a number. -/
def recField (r : BitVec 2048) (lo len : Nat) : Nat := (r.extractLsb' lo len).toNat

def recVer (r : BitVec 2048) : Nat := recField r 0 8
def recGang (r : BitVec 2048) : Nat := recField r 8 2
def recPrio (r : BitVec 2048) : Nat := recField r 10 2
def recPersist (r : BitVec 2048) : Bool := r.getLsbD 12
def recSealed (r : BitVec 2048) : Bool := r.getLsbD 13
def recAcctrap (r : BitVec 2048) : Bool := r.getLsbD 14
def recOrdered (r : BitVec 2048) : Bool := r.getLsbD 15
def recHostpf (r : BitVec 2048) : Bool := r.getLsbD 16
def recNfoot (r : BitVec 2048) : Nat := recField r 17 4
def recProgram (r : BitVec 2048) : Word := r.extractLsb' 64 64
def recHandler (r : BitVec 2048) : Word := r.extractLsb' 128 64
def recSignal (r : BitVec 2048) : Word := r.extractLsb' 192 64
def recDeadline (r : BitVec 2048) : Nat := recField r 256 40
def recBudget (r : BitVec 2048) : Nat := recField r 320 32
def recKid (r : BitVec 2048) : W32 := r.extractLsb' 352 32
def recReplica (r : BitVec 2048) : Word := r.extractLsb' 384 64

/-- The loop-nest record (02 R23). -/
def nestCount (r : BitVec 2048) (k : Nat) : Nat := recField r (512 + 32 * k) 32
def nestGrain (r : BitVec 2048) : Nat := recField r (512 + 192) 32
def nestDims (r : BitVec 2048) : Nat := recField r (512 + 224) 3
def nestOrder (r : BitVec 2048) : Nat := recField r (512 + 227) 2
def nestRev (r : BitVec 2048) (k : Nat) : Bool := r.getLsbD (512 + 229 + k)

/-- Dependence entry k (02 R36) and footprint entry k (02 R30). -/
def recDep (r : BitVec 2048) (k : Nat) : Word := r.extractLsb' (768 + 64 * k) 64
def recFoot (r : BitVec 2048) (k : Nat) : BitVec 128 := r.extractLsb' (1024 + 128 * k) 128

/-- Cores of a slice (02 R20 GANG). -/
def gangWidth (r : BitVec 2048) : Nat := 2 ^ recGang r

/-- Iterations of the nest and slices of the kernel (02 R23, R26). -/
def nestTotal (r : BitVec 2048) : Nat := ((List.range (nestDims r)).map (nestCount r)).foldl (· * ·) 1
def sliceCount (r : BitVec 2048) : Nat := (nestTotal r + nestGrain r - 1) / nestGrain r

/-- First and last ordinal of slice sl (02 R26). -/
def sliceFirst (r : BitVec 2048) (sl : Nat) : Nat := sl * nestGrain r
def sliceLast (r : BitVec 2048) (sl : Nat) : Nat := min ((sl + 1) * nestGrain r) (nestTotal r) - 1

/-- Mixed-radix digits of `o`, least significant radix first. -/
def digits : List Nat → Nat → List Nat
  | [], _ => []
  | n :: ns, o => (o % n) :: digits ns (o / n)

/-- Even bits and odd bits of a Morton code, `k` pairs of them (02 R24). -/
def evenBits : Nat → Nat → Nat
  | 0, _ => 0
  | k + 1, c => c % 2 + 2 * evenBits k (c / 4)

/-- The o-th pair of the inner two dimensions in Morton order: (j_a, j_b) (02 R24). `fuel` codes are scanned from `c`. -/
def mortonAt (na nb : Nat) : Nat → Nat → Nat → Nat × Nat
  | 0, _, _ => (0, 0)
  | f + 1, c, o =>
    let jb := evenBits 32 c
    let ja := evenBits 32 (c / 2)
    if ja < na ∧ jb < nb then (if o = 0 then (ja, jb) else mortonAt na nb f (c + 1) (o - 1))
    else mortonAt na nb f (c + 1) o

/-- Pairs on diagonal t of an na × nb grid: first j_a and how many (02 R24). -/
def diagFirst (nb t : Nat) : Nat := t + 1 - nb
def diagLen (na nb t : Nat) : Nat := min (t + 1) na - diagFirst nb t

/-- The o-th pair in wavefront order. -/
def waveAt (na nb : Nat) : Nat → Nat → Nat → Nat × Nat
  | 0, _, _ => (0, 0)
  | f + 1, t, o =>
    let n := diagLen na nb t
    if o < n then (diagFirst nb t + o, t - (diagFirst nb t + o)) else waveAt na nb f (t + 1) (o - n)

/-- A power of two that covers n. -/
def coverPow (n : Nat) : Nat := if n ≤ 1 then 1 else 2 ^ (Nat.log2 (n - 1) + 1)

/-- Natural coordinates of ordinal o (02 R24), dimension 0 first. -/
def nestCoords (r : BitVec 2048) (o : Nat) : List Nat :=
  let n := nestDims r
  let counts := (List.range n).map (nestCount r)
  let rowMajor (cs : List Nat) (o : Nat) : List Nat := (digits cs.reverse o).reverse
  if nestOrder r = 1 then digits counts o
  else if nestOrder r = 0 || n < 2 then rowMajor counts o
  else
    let na := nestCount r (n - 2)
    let nb := nestCount r (n - 1)
    let outer := rowMajor (counts.take (n - 2)) (o / (na * nb))
    let i := o % (na * nb)
    let side := max (coverPow na) (coverPow nb)
    let p := if nestOrder r = 2 then mortonAt na nb (side * side) 0 i else waveAt na nb (na + nb) 0 i
    outer ++ [p.1, p.2]

/-- The tile indices j0–j5 of ordinal o: REV applied last, 0 in inactive dimensions (02 R24, R27). -/
def nestTuple (r : BitVec 2048) (o : Nat) : List W32 :=
  let c := nestCoords r o
  (List.range 6).map (fun d =>
    if d < nestDims r then
      let x := nth 0 c d
      BitVec.ofNat 32 (if nestRev r d then nestCount r d - 1 - x else x)
    else 0)

end Sys2Proof.Machine
end

