-- ==== Sys2Proof/Machine/Ops.lean ====
section
/-!
DEFINITION. The named operations over memory and registers: bytes of memory, register files, operands and reuse ports,
results on their way to registers. Every meaning goes through these.
-/
namespace Sys2Proof.Machine

open Sys2Proof

/-! ## Memory -/

/-- A list without repeats. -/
def dedup : List Nat → List Nat
  | [] => []
  | x :: xs => x :: (dedup xs).filter (· != x)

/-- One byte; an unlisted address reads 0 (notes/assumptions/1.md). -/
def Mem.read (m : List Host.Cell) (a : Nat) : Byte := Sparse.get m 0 a

/-- Writing one byte keeps the canonical form: a byte of 0 is not listed. -/
def Mem.write (m : List Host.Cell) (a : Nat) (b : Byte) : List Host.Cell :=
  if b = 0 then Sparse.erase m a else Sparse.put m a b

/-- `n` bytes from an address. -/
def Mem.reads (m : List Host.Cell) (a n : Nat) : List Byte := (List.range n).map (fun k => Mem.read m (a + k))

/-- Bytes to consecutive addresses. -/
def Mem.writes : List Host.Cell → Nat → List Byte → List Host.Cell
  | m, _, [] => m
  | m, a, b :: bs => Mem.writes (Mem.write m a b) (a + 1) bs

/-- The canonical form of memory: addresses strictly rising, no listed byte equal to 0. -/
def Memory.wf (m : List Host.Cell) : Bool := Sparse.rising m && m.all (fun c => c.2 != 0)

/-- The memory of the pod and the host's, both canonical. -/
def State.memOk (s : State) : Prop := Memory.wf s.mem = true ∧ Memory.wf s.hostMem = true

/-- The canonical merge of rising bytes into memory (used for long writes). -/
def Mem.put (m : List Host.Cell) (bs : List (Nat × Byte)) : List Host.Cell :=
  bs.foldl (fun m p => Mem.write m p.1 p.2) m

/-! ## Objects of the module -/

def State.core (s : State) (n : Nat) : Core := Sparse.get s.cores Core.reset n

def State.setCore (s : State) (n : Nat) (k : Core) : State := { s with cores := Sparse.put s.cores n k }

/-- The core the present instruction runs on. -/
def State.cur (s : State) : Core := s.core s.me

def State.setCur (s : State) (k : Core) : State := s.setCore s.me k

def State.modCore (s : State) (n : Nat) (f : Core → Core) : State := s.setCore n (f (s.core n))

def State.modCur (s : State) (f : Core → Core) : State := s.modCore s.me f

/-- `n` free bytes from index `i` on. -/
def freeBytes (i n : Nat) : List Byte := (List.range n).map (fun k => Config.freeByte (i + k))

/-- A fresh index for a free value. -/
def State.tick (s : State) : State := { s with free := s.free + 1 }

/-- A free word. -/
def State.freeWord (s : State) : Word := (Config.freeKey s.free).setWidth 64

/-! ## Register files -/

/-- The predicate pa0 or pb0 is all-true; the others are held (06 R121). -/
def predOf (m : Sparse Word) (n : Nat) : Word := if n = 0 then BitVec.allOnes 64 else Sparse.get m 0 n

/-- INDEX of loop level k; a level that is not on the stack reads 0 (06 R138). -/
def loopIndex (ls : List LoopLevel) (k : Nat) : W32 := match ls[k]? with | some l => l.index | none => 0

/-- A field of a loop level, zero-extended (07 R154). -/
def loopField (ls : List LoopLevel) (k : Nat) (f : LoopField) : Word :=
  match ls[k]? with
  | none => 0
  | some l => match f with
    | .start => l.start | .last => l.last | .count => l.count.setWidth 64 | .index => l.index.setWidth 64

/-- A scalar register, flag, predicate, region register or index register as 64 bits. -/
def Core.word (k : Core) (r : RegName) : Word :=
  match r with
  | .c n => Sparse.get k.regs.c 0 n
  | .f n => if k.regs.f.getLsbD n then 1 else 0
  | .x n => Sparse.get k.regs.x 0 n
  | .y n => Sparse.get k.regs.y 0 n
  | .z n => Sparse.get k.regs.z 0 n
  | .w n => Sparse.get k.regs.w 0 n
  | .va n => (Sparse.get k.regs.va 0 n).setWidth 64
  | .vb n => (Sparse.get k.regs.vb 0 n).setWidth 64
  | .pa n => predOf k.regs.pa n
  | .pb n => predOf k.regs.pb n
  | .ac n => Sparse.get k.regs.ac 0 n
  | .i n => (loopIndex k.loops n).setWidth 64
  | .j n => (nth 0 k.j n).setWidth 64
  | .loop n f => loopField k.loops n f

/-- A register's whole value; scalars are zero-extended to 2,048 bits. -/
def Core.wide (k : Core) (r : RegName) : Vec :=
  match r with
  | .va n => Sparse.get k.regs.va 0 n
  | .vb n => Sparse.get k.regs.vb 0 n
  | r => (k.word r).setWidth 2048

/-- All 64 lanes under a mask: lane k is all ones when bit k is set (10 R239). -/
def laneMask (m : Word) : Vec :=
  BitVec.ofNat 2048 ((List.range 64).foldl (fun acc k => if m.getLsbD k then acc + 0xFFFFFFFF * 2 ^ (32 * k) else acc) 0)

/-- `new` in the active lanes, `old` elsewhere (10 R239). -/
def mixLanes (m : Word) (new old : Vec) : Vec :=
  if m = BitVec.allOnes 64 then new else (new &&& laneMask m) ||| (old &&& ~~~(laneMask m))

/-- Setting one flag. -/
def setFlag (f : BitVec 16) (n : Nat) (v : Bool) : BitVec 16 :=
  let bit := (1 : BitVec 16) <<< n
  if v then f ||| bit else f &&& ~~~bit

/-- One field of a loop level set by LWR (07 R154); a level that has left the stack is not written. -/
def setLoopField (ls : List LoopLevel) (k : Nat) (f : LoopField) (v : Word) : List LoopLevel :=
  match ls[k]? with
  | none => ls
  | some l => setNth ls k (match f with
    | .start => { l with start := v } | .last => { l with last := v }
    | .count => { l with count := v.setWidth 32 } | .index => { l with index := v.setWidth 32 })

/-- The word of a value. -/
def RVal.toWord : RVal → Word | .word v => v | .vec v _ => v.setWidth 64 | .wait _ => 0 | .mark => BitVec.allOnes 64

/-- The registers after one write (06 R124): the one operation that changes a register file. -/
def Regs.commit (r : Regs) (n : RegName) (v : RVal) : Regs :=
  let w := v.toWord
  match n with
  | .c n => { r with c := Sparse.put r.c n w }
  | .f n => { r with f := setFlag r.f n (w != 0) }
  | .x n => { r with x := Sparse.put r.x n w }
  | .y n => { r with y := Sparse.put r.y n w }
  | .z n => { r with z := Sparse.put r.z n w }
  | .w n => { r with w := Sparse.put r.w n w }
  | .va n => match v with
    | .word _ | .wait _ | .mark => r
    | .vec v m => { r with va := Sparse.put r.va n (mixLanes m v (Sparse.get r.va 0 n)) }
  | .vb n => match v with
    | .word _ | .wait _ | .mark => r
    | .vec v m => { r with vb := Sparse.put r.vb n (mixLanes m v (Sparse.get r.vb 0 n)) }
  | .pa n => if n = 0 then r else { r with pa := Sparse.put r.pa n w }
  | .pb n => if n = 0 then r else { r with pb := Sparse.put r.pb n w }
  | .ac n => { r with ac := Sparse.put r.ac n w }
  | .i _ | .j _ | .loop _ _ => r

/-- The register a write of a loop field counts as (07 R154: INDEX of level k is i_k). -/
def RegName.voids (n : RegName) : RegName := match n with | .loop k .index => .i k | r => r

/-- Copies of a register become void when a write to it commits after the copy was taken (06 R136). -/
def voidPorts (ps : Sparse Port) (n : RegName) (cycle : Nat) : Sparse Port :=
  ps.map (fun p => if p.2.reg = some n.voids ∧ p.2.taken < cycle then (p.1, { p.2 with void := true }) else p)

/-- One commit: registers, loop stack, reuse ports of the core and of the open group. -/
def Core.commit (k : Core) (p : Pend) : Core :=
  { k with
    regs := k.regs.commit p.reg p.val
    loops := (match p.reg with | .loop n f => setLoopField k.loops n f p.val.toWord | _ => k.loops)
    ports := voidPorts k.ports p.reg p.due
    trap := { k.trap with ports := voidPorts k.trap.ports p.reg p.due }
    grp := { k.grp with
      ports := voidPorts k.grp.ports p.reg p.due
      loops := (match p.reg with | .loop n f => setLoopField k.grp.loops n f p.val.toWord | _ => k.grp.loops) } }

/-! ## Operands -/

/-- The register an operand of a slot names (05 R105). -/
def nameOf (s : Slot) (o : Opnd) : Option RegName :=
  match o with
  | .own n => match s with
    | .c => some (.c n.toNat) | .i0 => some (.x n.toNat) | .i1 => some (.y n.toNat) | .ls => some (.z n.toNat)
    | .va => some (.va n.toNat) | .vb => some (.vb n.toNat) | .mx => some (.ac n.toNat) | .en => some (.w n.toNat)
  | .flag n => some (.f n.toNat)
  | .loopIx k => some (.i k.toNat)
  | .tileIx k => some (.j k.toNat)
  | _ => none

/-- The register a destination names; code 60 names none, the result is discarded (05 R106). -/
def destOf (s : Slot) (o : Opnd) : Option RegName :=
  match o with | .own _ | .flag _ => nameOf s o | _ => none

/-- The lane numbers 0–63 (05 R105, code 61 in a vector slot). -/
def laneIndex : Vec := BitVec.ofNat 2048 ((List.range 64).foldl (fun acc k => acc + k * 2 ^ (32 * k)) 0)

/-- 32 bits in every lane. -/
def broadcast (v : W32) : Vec := BitVec.ofNat 2048 (v.toNat * ((List.range 64).foldl (fun acc k => acc + 2 ^ (32 * k)) 0))

/-- Key of a reuse port. -/
def portKey (s : Slot) (b : Bool) : Nat := s.code.toNat * 2 + (if b then 1 else 0)

/-- At slice start each port holds 0 under code 60 (05 R108). -/
def Port.init : Port := ⟨0, .op .zero, none, 0, false⟩

def Core.port (k : Core) (s : Slot) (b : Bool) : Port := Sparse.get k.grp.ports Port.init (portKey s b)

/-- Widening of a literal to 64 bits (05 R100). -/
def widenWord (l : Lit) : Word :=
  match l.mode with
  | .w0 => l.val.setWidth 64
  | .w1 => l.val.signExtend 64
  | .w2 => l.val ++ (0 : BitVec 32)

/-- Filling of a 32-bit lane by a literal (05 R101). -/
def widenLane (l : Lit) : W32 :=
  match l.mode with
  | .w0 => l.val
  | .w1 => let h := l.val.extractLsb' 0 16; h ++ h
  | .w2 => let b := l.val.extractLsb' 0 8; (b ++ b) ++ (b ++ b)

/-- What a slot reads from a register: a vector slot sees a scalar's low 32 bits in every lane (05 R105). -/
def Core.slotRead (k : Core) (s : Slot) (r : RegName) : Vec :=
  match r with
  | .va _ | .vb _ => k.wide r
  | r => if s.isVec then broadcast ((k.word r).setWidth 32) else (k.word r).setWidth 2048

/-- An operand's value with what its port then holds (05 R105, R108, 06 R135, R136). Both operands of an instruction are
read from the ports as they stood before it. A stream code is served by Streams.lean. -/
def Core.opnd (k : Core) (s : Slot) (o : Opnd) : Port :=
  match o with
  | .reuseA | .reuseB =>
    let p := k.port s (o == .reuseB)
    match p.void, p.reg with
    | true, some r => ⟨k.slotRead s r, p.code, p.reg, k.cycle, false⟩
    | _, _ => ⟨p.val, p.code, p.reg, k.cycle, false⟩
  | .slotId => ⟨if s.isVec then laneIndex else (s.code.setWidth 2048), .op o, none, k.cycle, false⟩
  | .zero | .stream _ => ⟨0, .op o, none, k.cycle, false⟩
  | .own _ | .flag _ | .loopIx _ | .tileIx _ =>
    match nameOf s o with
    | some r => ⟨k.slotRead s r, .op o, some r, k.cycle, false⟩
    | none => ⟨0, .op o, none, k.cycle, false⟩

/-- Operand b: an operand code or a literal (05 R100, R101). -/
def Core.opndB (k : Core) (s : Slot) (b : OpB) : Port :=
  match b with
  | .op o => k.opnd s o
  | .lit l => ⟨if s.isVec then broadcast (widenLane l) else (widenWord l).setWidth 2048, .lit l, none, k.cycle, false⟩

def Port.word (p : Port) : Word := p.val.setWidth 64

/-- The a port, and the b port, of a slot after an instruction that reads the operand (06 R135). -/
def Core.keepA (k : Core) (s : Slot) (p : Port) : Core :=
  { k with grp := { k.grp with ports := Sparse.put k.grp.ports (portKey s false) p } }
def Core.keepB (k : Core) (s : Slot) (p : Port) : Core :=
  { k with grp := { k.grp with ports := Sparse.put k.grp.ports (portKey s true) p } }

/-! ## Results -/

/-- A result of the open group that commits at a cycle, or later when the group's end holds it (05 R97). -/
def Core.push (k : Core) (r : Option RegName) (v : RVal) (due : Nat) : Core :=
  match r with
  | none => k
  | some r => { k with grp := { k.grp with writes := k.grp.writes ++ [⟨r, v, due, false⟩] } }

/-- An operation of the open group that acts outside the registers. -/
def Core.emit (k : Core) (o : Op) : Core := { k with grp := { k.grp with ops := k.grp.ops ++ [o] } }

/-- The control decision of the open group. -/
def Core.leaveBy (k : Core) (c : Ctrl) : Core := { k with grp := { k.grp with ctrl := c } }

/-- The bundle that is issuing: its address and length (07 R146). -/
def Core.bundle (k : Core) : Bundle :=
  (k.grp.bundles[k.grp.idx]?).getD ⟨k.pc, 2, ⟨false, false, 0, true, 0⟩, []⟩

/-- The pending value of a w register at issue + 1; R97 does not hold it to the group's end (06 R133). -/
def Core.pendW (k : Core) (n : Nat) : Core :=
  { k with
    inflight := k.inflight ++ [⟨.w n, .mark, k.cycle + 1, false⟩]
    grp := { k.grp with olds := k.grp.olds ++ [(n, k.word (.w n))] } }

/-- Latency of an XCP or VXCP path (06 R128). -/
def xcpLatency (src dst : Slot) : Nat :=
  match src, dst with
  | .i0, .i1 | .i1, .i0 => 1
  | .va, .vb | .vb, .va => 2
  | _, .mx => 2
  | .va, _ | .vb, _ => 3
  | _, .va | _, .vb => 3
  | .c, .i0 | .c, .i1 | .i0, .c | .i1, .c => 2
  | .i0, .ls | .i1, .ls | .ls, .i0 | .ls, .i1 => 2
  | .i0, .en | .i1, .en | .en, .i0 | .en, .i1 => 2
  | _, _ => 3

/-- The register an XCP index names in its destination slot (05 R113): index 16–31 of slot C is a flag. -/
def xcpDest (dst : Slot) (ix : BitVec 5) : RegName :=
  let n := ix.toNat
  match dst with
  | .c => if n < 16 then .c n else .f (n - 16)
  | .i0 => .x n
  | .i1 => .y n
  | .ls => .z n
  | .va => .va n
  | .vb => .vb n
  | .mx => .ac n
  | .en => .w n

/-- The value an XCP writes: vector files get the low 32 bits in every lane (05 R113). -/
def xcpVal (dst : Slot) (v : Word) : RVal :=
  if dst.isVec then .vec (broadcast (v.setWidth 32)) (BitVec.allOnes 64) else .word v

/-- Whether a core is in privileged mode (05 R111). -/
def Core.priv (k : Core) : Bool := match k.run with | some r => r.priv | none => false

/-! ## Physical memory as the home L2s serve it -/

/-- The die of a core and the position of a core in its quad (01 R8). -/
def dieOf (core : Nat) : Nat := core / 32
def quadOf (core : Nat) : Nat := core / 4
def posOf (core : Nat) : Nat := core % 4

def State.die (s : State) (d : Nat) : Die := Sparse.get s.dies Die.reset d
def State.setDie (s : State) (d : Nat) (x : Die) : State := { s with dies := Sparse.put s.dies d x }
def State.modDie (s : State) (d : Nat) (f : Die → Die) : State := s.setDie d (f (s.die d))

/-- Module id and the address inside the module (09 R204). -/
def paModule (pa : Nat) : Nat := pa / 2 ^ 46 % 64
def paLocal (pa : Nat) : Nat := pa % 2 ^ 46

/-- The ranges of a module's physical map (09 R204). -/
inductive Range | dram | cxl | mram | tile | sync | device | host | reserved
  deriving DecidableEq, Repr

def rangeOf (pa : Nat) : Range :=
  let a := paLocal pa
  if a < 0x018000000000 then .dram
  else if 0x080000000000 ≤ a ∧ a < 0x100000000000 then .cxl
  else if 0x100000000000 ≤ a ∧ a < 0x100200000000 then .mram
  else if 0x100200000000 ≤ a ∧ a < 0x100300000000 then .tile
  else if 0x100300000000 ≤ a ∧ a < 0x100308000000 then .sync
  else if 0x100400000000 ≤ a ∧ a < 0x100500000000 then .device
  else if 0x200000000000 ≤ a ∧ a < 0x400000000000 then .host
  else .reserved

/-- Whether a physical range has no stated contents. -/
def unstated (pa : Nat) : Bool := match rangeOf pa with | .sync | .reserved => true | _ => false

/-- Physical addresses of a core's tile SRAM and MRAM in the module's own map (09 R204). -/
def tileBase (modid core : Nat) : Nat := modid * 2 ^ 46 + 0x100200000000 + core * 0x200000
def mramBase (modid core : Nat) : Nat := modid * 2 ^ 46 + 0x100000000000 + core * 0x400000

/-- The C-die that is home to a physical byte, of the module the address names (09 R207). -/
def homeDie (pa : Nat) : Nat :=
  let a := paLocal pa
  match rangeOf pa with
  | .mram => (a - 0x100000000000) / 0x400000 / 32 % 64
  | .tile => (a - 0x100200000000) / 0x200000 / 32 % 64
  | .sync => (a - 0x100300000000) / 0x200000 % 64
  | _ =>
    let f (lo n : Nat) : Nat := a / 2 ^ lo % 2 ^ n
    (f 12 6 ^^^ f 18 6) ^^^ (f 24 6 ^^^ f 30 6) ^^^ (f 36 6 ^^^ f 42 4)

/-- Whether no memory backs the byte: a CXL byte beyond its port's capacity (12 R296), or a remote byte with no route to its
module (19 R458). -/
def State.unbacked (s : State) (pa : Nat) : Bool :=
  if paModule pa ≠ s.modid then s.noRoute.contains (paModule pa)
  else match rangeOf pa with
    | .cxl => let a := paLocal pa
      !(nth [] s.cxl (a / 2 ^ 41 % 4)).any (fun r => decide (r.1 ≤ a % 2 ^ 41 ∧ a % 2 ^ 41 < r.1 + r.2))
    | _ => false

/-- Whether no route leads to the module of a sync engine (19 R458). -/
def State.lostRoute (s : State) (engine : Nat) : Bool := engine / 64 != s.modid && s.noRoute.contains (engine / 64)

/-- Whether the byte lies in the Glove (09 R208): MRAM at or above the core's sealed floor, or a marked DRAM range. -/
def State.inGlove (s : State) (pa : Nat) : Bool :=
  paModule pa == s.modid &&
  match rangeOf pa with
  | .mram =>
    let o := paLocal pa - 0x100000000000
    decide (Sparse.get s.floors 64 (o / 0x400000) * 0x10000 ≤ o % 0x400000)
  | .dram => s.sealedDram.any (fun r => decide (r.1 ≤ pa ∧ pa < r.1 + r.2))
  | _ => false

/-- Whether the byte is a sealed one of another module (19 R457). -/
def State.podGlove (s : State) (pa : Nat) : Bool :=
  paModule pa != s.modid && s.podSealed.any (fun r => decide (r.1 ≤ pa ∧ pa < r.1 + r.2))

/-- The 4 KiB MRAM block of a byte of the own module, counted over all cores. -/
def mramBlock (pa : Nat) : Nat := (paLocal pa - 0x100000000000) / 4096

/-- States of an MRAM block (19 R462); an unlisted block is VALID (notes/assumptions/4.md). -/
def blkValid : Nat := 0
def blkOpen : Nat := 1
def blkInvalid : Nat := 2

/-- Whether a byte may be read as a stream or by an engine: not in an MRAM block that is OPEN or INVALID (19 R462). -/
def State.blockValid (s : State) (pa : Nat) : Bool :=
  !(rangeOf pa == .mram && paModule pa == s.modid) || Sparse.get s.blocks blkValid (mramBlock pa) == blkValid

/-- A sector that holds uncorrectable data (18 R441). -/
def State.poisoned (s : State) (pa : Nat) : Bool := s.poison.contains (pa / 64 * 64)

/-- Whether a sector of the `n` bytes at `a` holds uncorrectable data. -/
def State.spoiled (s : State) (a n : Nat) : Bool := s.poison.any (fun p => decide (p < a + n ∧ a < p + 64))

/-- Whether a read of the byte is an uncorrectable error (12 R296, 18 R441, 19 R458). -/
def State.readFails (s : State) (pa : Nat) : Bool := s.unbacked pa || s.poisoned pa

/-- Fault injection of the own module's tile SRAM (20 R479 to R481): the bits a read of the byte returns. -/
def State.forced (s : State) (pa : Nat) (b : Byte) : Byte :=
  let o := paLocal pa - 0x100200000000
  if rangeOf pa ≠ .tile ∨ paModule pa ≠ s.modid then b
  else
    let core := o / 0x200000
    let c := (s.die (dieOf core)).cfg
    let f (lo n : Nat) : Nat := c.tstinj.toNat / 2 ^ lo % 2 ^ n
    if f 63 1 = 1 ∧ (f 53 1 = 1 ∨ f 48 5 = core % 32) ∧ f 44 4 = o / 2 ^ 17 % 16 ∧ f 32 11 = o / 64 % 2048 then
      let m : Byte := c.tstmask.extractLsb' (8 * (o % 8)) 8
      if f 62 1 = 1 then b ||| m else b &&& ~~~m
    else b

/-- What an unlisted byte of CXL memory holds after a loss of module power: what its expander holds (01 R12). -/
def State.backing (s : State) (pa : Nat) : Byte :=
  if s.cxlLosses = 0 then 0
  else if rangeOf pa == .cxl && paModule pa == s.modid then Config.expanderByte s.cxlLosses pa else 0

/-- A byte of memory. -/
def State.cell (s : State) (pa : Nat) : Byte := Mem.read s.mem pa ^^^ s.backing pa

/-- A byte as its home gives it. -/
def State.byte (s : State) (pa : Nat) : Byte := s.forced pa (s.cell pa)

def State.bytes (s : State) (pa n : Nat) : List Byte := (List.range n).map (fun i => s.byte (pa + i))

/-- A byte as an agent reads it that may name any range: a free value where the range has no stated contents (notes/assumptions/9.md). -/
def State.anyByte (s : State) (pa : Nat) : Byte := if unstated pa then Config.freeByte (s.free * 2 ^ 52 + pa) else s.byte pa

def State.anyBytes (s : State) (pa n : Nat) : List Byte := (List.range n).map (fun i => s.anyByte (pa + i))

/-- An 8-byte word of the MSI-X table, two for each vector; a vector is masked from reset on (19 R450; notes/assumptions/83.md). -/
def State.msixWord (s : State) (i : Nat) : Word := Sparse.get s.msix (if i % 2 = 1 then 0x100000000 else 0) i

/-- Whether a vector's message is held back. -/
def State.masked (s : State) (v : Nat) : Bool := (s.msixWord (2 * v + 1)).getLsbD 32

/-- Raising an MSI-X vector (19 R452): its pending bit stands while it is masked. -/
def State.raise (s : State) (v : Nat) : State :=
  { s with irqs := v :: s.irqs, pending := if s.masked v && !s.pending.contains v then s.pending ++ [v] else s.pending }

/-- Recording an unowned error at a die and raising the error interrupt, vector 66 (18 R442, 19 R452). -/
def State.unowned (s : State) (die source pa : Nat) : State :=
  (s.raise 66).modDie die (fun d =>
    let cnt := (d.cfg.rasstat.toNat / 2 ^ 48)
    let cnt' := if cnt = 0xFFFF then cnt else cnt + 1
    { d with cfg := { d.cfg with
        rasstat := BitVec.ofNat 64 (cnt' * 2 ^ 48 + source * 256 + 1)
        rasaddr := BitVec.ofNat 64 (pa % 2 ^ 52 / 64 * 64) } })

/-! ## Power islands (01 R11, 17 R429, R430): an island the state does not list is in RUN (notes/assumptions/5.md) -/

def Island.run : Island := ⟨.run, 0, none, false⟩

def State.island (s : State) (n : Nat) : Island := Sparse.get s.islands Island.run n
def State.setIsland (s : State) (n : Nat) (i : Island) : State := { s with islands := Sparse.put s.islands n i }

/-- Numbers of the islands of a core's quad, of a die's uncore, and of a quarter of a B-die (01 R11). -/
def quadIsland (core : Nat) : Nat := core / 4
def uncoreIsland (die : Nat) : Nat := 512 + die
def quarterIsland (stack b : Nat) : Nat := 576 + 4 * stack + b

/-- Whether an island is in RUN and stays there. -/
def State.awake (s : State) (n : Nat) : Bool := (s.island n).st == .run && (s.island n).going.isNone

/-- Nanoseconds a wake takes (17 R430). -/
def wakeTime : IslandSt → Nat | .run => 0 | .idle => 20 | .retain => 300 | .off => 2400

/-- Asking for a wake: it starts at once, or when the step down in progress has ended (17 R430). -/
def State.wake (s : State) (n : Nat) : State :=
  let i := s.island n
  match i.going with
  | none => if i.st = .run then s else s.setIsland n { i with going := some (.run, s.ns + wakeTime i.st) }
  | some (.run, _) => s
  | some _ => s.setIsland n { i with wake := true }

def State.wakeAll (s : State) (ns : List Nat) : State := ns.foldl (fun s n => s.wake n) s

/-- The islands that an access to a byte of the own module needs: the uncore of its home die and, for DRAM and CXL memory, the quarter whose L3 bank
has its line (17 R432; notes/assumptions/82.md). -/
def State.homeIslands (s : State) (pa : Nat) : List Nat :=
  if paModule pa ≠ s.modid then []
  else match rangeOf pa with
    | .host | .reserved | .device => []
    | .dram | .cxl => [uncoreIsland (homeDie pa), quarterIsland (homeDie pa / 4) (Config.l3Bank (pa / 512) % 256 / 64)]
    | _ => [uncoreIsland (homeDie pa)]

/-- An access to a byte wakes what sleeps on its way (17 R432). -/
def State.stir (s : State) (pa : Nat) : State := s.wakeAll (s.homeIslands pa)

/-- Whether nothing sleeps on the way to a byte. -/
def State.reaches (s : State) (pa : Nat) : Bool := (s.homeIslands pa).all (fun n => s.awake n)

/-- Whether bytes of a physical address lie in global memory. -/
def isGlobal (pa : Nat) : Bool := match rangeOf pa with | .dram | .cxl => true | _ => false

/-- The line and the sector of a byte noted in an L2: valid, and dirty when it was written (12 R294). -/
def markL2 (m : Sparse L2Line) (pa : Nat) (dirty passes : Bool) : Sparse L2Line :=
  let bit : BitVec 8 := BitVec.ofNat 8 (2 ^ (pa / 64 % 8))
  let x := Sparse.get m ⟨0, 0, 0, false⟩ (pa / 512)
  Sparse.put m (pa / 512) { x with valid := x.valid ||| bit, dirty := if dirty then x.dirty ||| bit else x.dirty, passes := x.passes || passes }

/-- The sectors of bytes written in global memory are dirty in their home L2s. -/
def State.markSpan (s : State) (pa n : Nat) : State :=
  if isGlobal pa && paModule pa == s.modid then
    { s with l2 := (List.range ((pa % 64 + n + 63) / 64)).foldl (fun m i => markL2 m (pa + 64 * i) true false) s.l2 }
  else s

/-- A sector of the own module's global memory comes to its home L2. -/
def State.fetchSector (s : State) (pa : Nat) (passes : Bool) : State :=
  if isGlobal pa && paModule pa == s.modid && !s.unbacked pa then { s.stir pa with l2 := markL2 s.l2 pa false passes } else s

/-- Sectors that an engine reads come to their home L2s (12 R294, 13 R316). -/
def State.fetchAll (s : State) (pas : List Nat) : State := (dedup (pas.map (· / 64))).foldl (fun s x => s.fetchSector (x * 64) false) s

/-- One byte that die `d` sends to its home, which wakes: dropped with a record where no memory backs it, at the home or at the sending die
(12 R487), discarded in a committed sequence slot (14 R353) and in a range that keeps nothing (notes/assumptions/9.md). `passes` as in `Path`. -/
def State.sendVia (passes : Bool) (s : State) (d pa : Nat) (b : Byte) : State :=
  if s.unbacked pa then
    s.unowned (if paModule pa ≠ s.modid then d else homeDie pa) (if paModule pa ≠ s.modid then 6 else 5) pa
  else if unstated pa || s.frozen.any (fun r => decide (r.1 ≤ pa ∧ pa < r.1 + r.2)) then s
  else { s.stir pa with
    mem := Mem.write s.mem pa (b ^^^ s.backing pa)
    l2 := if isGlobal pa && paModule pa == s.modid then markL2 s.l2 pa true passes else s.l2 }

def State.sendByte (s : State) (d pa : Nat) (b : Byte) : State := State.sendVia false s d pa b

/-- One byte the current core's die sends. -/
def State.putByte (s : State) (pa : Nat) (b : Byte) : State := s.sendByte (dieOf s.me) pa b

/-- A write of all 64 bytes of a sector clears its poison (18 R441). -/
def State.clearPoison (s : State) (pa n : Nat) : State :=
  { s with poison := s.poison.filter (fun p => !(decide (pa ≤ p ∧ p + 64 ≤ pa + n))) }

/-- Consecutive bytes written at their homes. -/
def State.putBytesRaw : State → Nat → List Byte → State
  | s, _, [] => s
  | s, pa, b :: bs => State.putBytesRaw (s.putByte pa b) (pa + 1) bs

def State.putBytes (s : State) (pa : Nat) (bs : List Byte) : State := (s.putBytesRaw pa bs).clearPoison pa bs.length

/-! ## L1 data cache (12 R289 to R293), releases and acquires (14 R339) -/

/-- Storing bytes into L1: valid and dirty (12 R290). -/
def l1Store (stamp : Nat) : Sparse L1Byte → Nat → List Byte → Sparse L1Byte
  | m, _, [] => m
  | m, pa, b :: bs => l1Store stamp (Sparse.put m pa ⟨b, true, stamp⟩) (pa + 1) bs

/-- Bytes of L1 that `sel` selects are marked clean. -/
def l1Clean (m : Sparse L1Byte) (sel : Nat → Bool) : Sparse L1Byte :=
  m.map (fun p => if sel p.1 then (p.1, { p.2 with dirty := false }) else p)

/-- Whether all 64 bytes of a sector are written whole. -/
def coversSector (cs : List MByte) (p : Nat) : Bool :=
  (List.range 64).all (fun i => cs.any (fun c => c.pa == p + i && c.mask == 0xFF))

/-- A byte under the cells written to it, in order. -/
def overCells (cs : List MByte) (pa : Nat) (b : Byte) : Byte :=
  cs.foldl (fun b c => if c.pa = pa then (b &&& ~~~c.mask) ||| (c.val &&& c.mask) else b) b

/-- Bytes written at their homes under their masks; the writing core's own L1 copies of them are voided (09 R221), but for bytes
it stored after a later boundary. -/
def State.putCells (s : State) (n fence : Nat) (passes : Bool) (cs : List MByte) : State :=
  let s := cs.foldl (fun s c => if c.mask = 0 then s
    else State.sendVia passes s (dieOf n) c.pa ((s.cell c.pa &&& ~~~c.mask) ||| (c.val &&& c.mask))) s
  let s := { s with poison := s.poison.filter (fun p => !coversSector cs p) }
  s.modCore n (fun k => { k with l1 := k.l1.filter (fun p => !(decide (p.2.stamp ≤ fence) && cs.any (fun c => c.pa == p.1))) })

/-- Bytes written whole. -/
def fullCells (pa : Nat) (bs : List Byte) : List MByte := (List.range bs.length).map (fun i => ⟨pa + i, nth 0 bs i, 0xFF⟩)

/-! ### Loads served by their homes -/

/-- What a core reads from a byte's home: memory, under its own bytes still to land that the read has to see. -/
def State.under (s : State) (k : Core) (seen : Landing → Bool) (pa : Nat) : Byte :=
  s.forced pa (overCells ((k.landings.filter seen).flatMap (·.cells)) pa (s.cell pa))

/-- The same for a read that comes after boundary number `fence` of the core (14 R336). -/
def State.homeByte (s : State) (k : Core) (fence pa : Nat) : Byte := s.under k (fun l => decide (l.fence < fence)) pa

/-- Whether a load has its bytes. -/
def GLoad.served (g : GLoad) : Bool :=
  g.device || g.ue || (List.range g.size).all (fun i => ((g.own[i]?).getD none).isSome)

/-- The home serves a load: every byte it still lacks, at once (14 R334), or an uncorrectable error. -/
def State.serve (s : State) (k : Core) (g : GLoad) : GLoad :=
  if g.served then g
  else
    let lacks (i : Nat) : Bool := ((g.own[i]?).getD none).isNone
    if (List.range g.size).any (fun i => lacks i && s.readFails (g.pa + i)) then { g with ue := true }
    else { g with own := (List.range g.size).map (fun i => match (g.own[i]?).getD none with
      | some b => some b
      | none => some (s.homeByte k g.fence (g.pa + i))) }

/-- Whether a load reads from the aligned 8-byte words of a range. -/
def GLoad.near (g : GLoad) (pa len : Nat) : Bool :=
  !g.device && decide (g.pa / 8 ≤ (pa + len - 1) / 8 ∧ pa / 8 ≤ (g.pa + g.size - 1) / 8)

/-- Whether load `j`, issued before load `i`, has to be served no later: an acquire between them (14 R344), or a common byte (R336,
R337). -/
def GLoad.precedes (j i : GLoad) : Bool := decide (j.epoch < i.epoch) || j.near i.pa i.size

/-- Serving the loads `need` selects and those that have to be served before one that is. -/
def State.serveList (s : State) (k : Core) (need : GLoad → Bool) : List GLoad → List GLoad
  | [] => []
  | g :: gs =>
    let rest := State.serveList s k need gs
    (if need g || rest.any (fun i => i.served && g.precedes i) then s.serve k g else g) :: rest

/-- A loaded value of `size` bytes, extended to 64 bits (09 R226). -/
def extend (signed : Bool) (size v : Nat) : Word :=
  if signed then BitVec.ofInt 64 (signedOf (8 * size) v) else BitVec.ofNat 64 (v % 2 ^ (8 * size))

/-- An image that waits for a load takes its data, unless the register has been given a later value: `over_` (06 R126, 07 R161). -/
def Image.take (m : Image) (cycle key : Nat) (over_ : Bool) (v : Nat × Word) : Image :=
  if m.loads.contains (key, v.1) then
    { m with
      loads := m.loads.filter (· != (key, v.1)), ready := max m.ready (cycle + 8)
      regs := if over_ then m.regs else m.regs.commit (.z v.1) (.word v.2) }
  else m

/-- The words of a neighbour load take the places kept for them, in flight, in the latch bank when a trap found the load in flight (17
R418), and in images. -/
def Core.takeNeighbour (k : Core) (g : NLoad) (bs : List Byte) : Core :=
  let vs : List (Nat × Word) := g.dests.map (fun d => (d.1, extend g.signed (g.size / max 1 g.dests.length) (leNat (bs.drop d.2))))
  let fill (r : RegName) (v : RVal) : RVal :=
    match vs.find? (fun x => r == RegName.z x.1 && v == RVal.wait g.readAt) with | some x => .word x.2 | none => v
  { k with
    inflight := k.inflight.map (fun p => { p with val := fill p.reg p.val })
    trap := { k.trap with bank := k.trap.bank.map (fun l => { l with val := fill l.reg l.val }) }
    images := vs.foldl (fun (ms : List Image) v => ms.map (fun (m : Image) => m.take (max k.cycle g.due) (g.readAt + 1) false v)) k.images }

/-- Whether a neighbour load sees bytes still to land: those a boundary orders before it, and those of an earlier LS instruction (09 R226). -/
def NLoad.sees (g : NLoad) (l : Landing) : Bool :=
  decide (l.fence < g.fence) || (match l.path with | .ls i => decide (i + 4 < g.readAt) | _ => false)

/-- A neighbour load of core n reads its bytes (09 R203). -/
def State.readNeighbour (s : State) (n : Nat) (g : NLoad) : State :=
  let k := s.core n
  if (List.range g.size).any (fun i => s.poisoned (g.pa + i)) then s.setCore n { k with lostData := true }
  else s.setCore n (k.takeNeighbour g ((List.range g.size).map (fun i => s.under k g.sees (g.pa + i))))

/-- The neighbour loads that `sel` selects read now, in issue order. -/
def State.readNow (s : State) (n : Nat) (sel : NLoad → Bool) : State :=
  let k := s.core n
  if k.nloads.any sel then
    (k.nloads.filter sel).foldl (fun s g => s.readNeighbour n g) (s.setCore n { k with nloads := k.nloads.filter (fun g => !sel g) })
  else s

/-- Neighbour loads from before the last acquire have read before anything that comes after it does (14 R343; notes/assumptions/53.md). -/
def State.readAhead (s : State) (n : Nat) : State := s.readNow n (fun g => decide (g.epoch < (s.core n).epoch))

def State.serveLoads (s : State) (n : Nat) (need : GLoad → Bool) : State :=
  (s.readAhead n).modCore n (fun k => { k with gloads := s.serveList k need k.gloads })

/-! ### Bytes that land -/

/-- Bytes of global memory, which have no stated cycle (09 R221). -/
def Landing.global (l : Landing) : Bool := l.cells.all (fun c => isGlobal c.pa)

/-- Whether bytes `x`, stored before bytes `l` of the same core, take effect before them at an address: a boundary between them, both by LS
instructions (09 R226), or both by the stream path to global memory (14 R336). -/
def Landing.precedes (x l : Landing) (pa : Nat) : Bool :=
  decide (x.fence < l.fence) || isGlobal pa || (match x.path, l.path with | .ls _, .ls _ => true | _, _ => false)

/-- The bits of a byte that some cells write. -/
def maskAt (cs : List MByte) (pa : Nat) : Byte := cs.foldl (fun m c => if c.pa = pa then m ||| c.mask else m) 0

/-- Bytes that have not landed when later ones over them do are gone. -/
def Landing.behind (l x : Landing) : Landing :=
  { x with cells := x.cells.map (fun c => if x.precedes l c.pa then { c with mask := c.mask &&& ~~~maskAt l.cells c.pa } else c) }

/-- A list of landings in issue order parted into those that land, as `go` says, and those that stay. -/
def partLandings (go : Landing → Bool) (ls : List Landing) : List Landing × List Landing :=
  ls.foldl (fun p l => if go l then (p.1 ++ [l], p.2.map l.behind) else (p.1, p.2 ++ [l])) ([], [])

/-- The landings `go` selects reach memory, in order, but for those held and what a release orders behind those, and with them whatever a release
between orders before them (14 R345); neighbour loads from before such a release have read, and loads from before a boundary are served (R336). -/
def State.landSet (s : State) (n : Nat) (go : Landing → Bool) : State :=
  let k := s.core n
  let top := (k.landings.filter go).foldl (fun m l => max m l.rels) 0
  let waits (r : Nat) : Bool := k.landings.any (fun h => h.held.isSome && decide (h.rels < r))
  let (out, kept) := partLandings (fun l => l.held.isNone && !waits l.rels && (go l || decide (l.rels < top))) k.landings
  if out.isEmpty then s
  else
    let s1 := (s.readNow n (fun g => decide (g.rels < top))).serveLoads n (fun g => out.any (fun l =>
      decide (g.fence < l.fence) && l.cells.any (fun c => g.near c.pa 1)))
    out.foldl (fun s l => s.putCells n l.fence l.path.passes l.cells) (s1.modCore n (fun k => { k with landings := kept }))

/-- Another byte of core n is about to reach memory: what its earlier releases cover has landed, and neighbour loads from before
them have read (14 R345; notes/assumptions/53.md). -/
def State.landFirst (s : State) (n : Nat) : State :=
  let r := (s.core n).rels
  (s.landSet n (fun l => decide (l.rels < r))).readNow n (fun g => decide (g.rels < r))

/-- Dirty bytes of a core's L1 that `sel` selects, written to their home L2 one by one and kept valid (12 R291). Bytes by the stream path that a
boundary orders before one of them land first (14 R336), and a load that has one of them is served (R334). A sector written whole is poisoned no
more (18 R441). -/
def State.flushL1 (s : State) (n : Nat) (sel : Nat → Bool) : State :=
  let out := (s.core n).l1.filter (fun p => p.2.dirty && sel p.1)
  if out.isEmpty then s
  else
    let s1 := ((s.landFirst n).landSet n (fun l => out.any (fun p => decide (l.fence < p.2.stamp) && l.cells.any (fun c => c.pa == p.1)))).serveLoads n
      (fun g => out.any (fun p => g.near p.1 1))
    let k := s1.core n
    let all := k.l1.filter (fun p => p.2.dirty && sel p.1)
    let s2 := all.foldl (fun s p => s.sendByte (dieOf n) p.1 p.2.val) s1
    let whole (sec : Nat) : Bool := (List.range 64).all (fun i => all.any (fun p => p.1 == sec + i))
    { s2 with poison := s2.poison.filter (fun p => !whole p) }.setCore n { k with l1 := l1Clean k.l1 sel }

/-! ### Boundaries (09 R231, 14 R339) -/

/-- The first cycle in which everything that still lands has landed. -/
def Core.landed (k : Core) : Nat := (k.landings.map (fun l => l.due + 1)).foldl max k.fenceAt

/-- A FENCE or a phase boundary of core n, with what it counts besides: the paths of the core meet here, so what the stream path writes to
global memory arrives (14 R336). -/
def State.boundary (s : State) (n : Nat) (f : Core → Core) : State :=
  (s.modCore n (fun k => f { k with fences := k.fences + 1, fenceAt := k.landed })).landSet n Landing.global

/-- FENCE (09 R231): dirty bytes go home, and later reads see what still lands. -/
def State.fence (s : State) (n : Nat) : State := (s.flushL1 n (fun _ => true)).boundary n id

/-- A release of a core covers every byte it has stored (14 R339): its dirty L1 bytes go to their homes (12 R291), its loads have been
served, and bytes that still land at a stated cycle land then, before anything it writes later (17 R418). -/
def State.release (s : State) (n : Nat) : State :=
  ((s.serveLoads n (fun _ => true)).flushL1 n (fun _ => true)).boundary n (fun k => { k with rels := k.rels + 1 })

/-- An acquire wider than `.core` voids every clean byte of L1 (12 R292), the loads before it having been served (14 R344). -/
def State.acquire (s : State) (n : Nat) (σ : Scope) : State :=
  if σ = .core then s.boundary n id
  else ((s.serveLoads n (fun _ => true)).modCore n (fun k => { k with l1 := k.l1.filter (fun p => p.2.dirty) })).boundary n
    (fun k => { k with epoch := k.epoch + 1 })

/-- Whether everything that the first `r` releases of the core cover has landed, and neighbour loads before them have read. -/
def Core.landedTo (k : Core) (r : Nat) : Bool :=
  k.landings.all (fun l => decide (r ≤ l.rels)) && k.nloads.all (fun g => decide (r ≤ g.rels))

/-- The same for every release of the core so far. -/
def Core.allLanded (k : Core) : Bool := k.landedTo k.rels

/-- The member a core runs. -/
def Core.who (k : Core) (n : Nat) : Who := match k.run with | some r => ⟨n, r.kernel, r.slice, r.rank⟩ | none => ⟨n, 0, 0, 0⟩

/-- Whether a core runs the member `who`. -/
def Core.runs (k : Core) (who : Who) : Bool :=
  match k.run with | some r => r.kernel == who.kernel && r.slice == who.slice && r.rank == who.rank | none => false

/-- Whether what `who` sent after release number `after` may take effect: a core that gives its slice up has landed everything. -/
def State.releasedFor (s : State) (who : Who) (after : Nat) : Bool :=
  (s.core who.core).landedTo after || !(s.core who.core).runs who

/-! ### The capacity of L1 (12 R289) -/

/-- Lines of 64 bytes that hold a valid byte. -/
def l1Lines (m : Sparse L1Byte) : List Nat :=
  m.foldr (fun p ls => if ls.head? = some (p.1 / 64) then ls else p.1 / 64 :: ls) []

/-- A line leaves L1: its dirty bytes go home (12 R291). -/
def State.evictLine (s : State) (n line : Nat) : State :=
  let hit (a : Nat) : Bool := a / 64 == line
  (s.flushL1 n hit).modCore n (fun k => { k with l1 := k.l1.filter (fun p => !hit p.1) })

/-- L1 holds 2,048 lines: past them another line than the one just allocated leaves, which one the spec leaves open. -/
def State.fitL1 (s : State) (n line : Nat) : State :=
  let others := (l1Lines (s.core n).l1).filter (· != line)
  if others.length < 2048 then s
  else (s.evictLine n (nth 0 others (Config.freeNat s.free % others.length))).tick

/-! ## The end of a slice -/

/-- The first-error word (02 R39). -/
def errWord (slice : Nat) (core : Option Nat) (cls : Nat) (code : Byte) : Word :=
  BitVec.ofNat 64 (slice % 2 ^ 41 * 2 ^ 23 + (core.getD 0x7FF) * 2 ^ 12 + cls * 2 ^ 8 + code.toNat)

def State.kernel? (s : State) (k : Nat) : Option Kernel := Sparse.find? s.kernels k

/-- The record of the kernel a core runs. -/
def State.recOf (s : State) (n : Nat) : BitVec 2048 :=
  match (s.core n).run with
  | none => 0
  | some r => match s.kernel? r.kernel with | some k => k.record | none => 0

/-- Cores that run one slice. -/
def State.members (s : State) (kernel slice : Nat) : List Nat :=
  (s.cores.filter (fun p => match p.2.run with
    | some r => r.kernel == kernel && r.slice == slice | none => false)).map (·.1)

/-- What a core keeps when a slice ends or begins on it: its caches, its counts, the restart shadow, and the matrix engine's busy time with the
lines pinned until then. An image that waits for a load of the slice is given up. -/
def Core.idle (k : Core) : Core :=
  { Core.reset with
    cycle := k.cycle, l1 := k.l1, tlb := k.tlb, mx := { MxSt.reset with busy := max k.mx.busy k.grp.mx.busy }, pins := k.pins
    fences := k.fences, rels := k.rels, epoch := k.epoch, images := k.images.filter (fun m => m.complete || m.loads.isEmpty) }

/-- A core gives up its slice for good (07 R157): results in flight are dropped, bytes
on their way land, and its registers are as a slice start finds them. -/
def State.vacate (s : State) (n : Nat) : State := ((s.release n).landSet n (fun _ => true)).modCore n Core.idle

/-- Retirement words of a slice: to the launch unit and to every die that tracks kernels (04 R66). -/
def State.sendWords (s : State) (kernel slice : Nat) (err : Option Word) : State :=
  let dies := (s.dies.filter (fun p => !p.2.next.isEmpty)).map (·.1)
  { s with words := s.words ++ (none :: dies.map some).map (fun d => ⟨kernel, slice, err, d⟩) }

/-- The sync engine that is home to an address: 64·module + die (15 R354). -/
def homeEngine (pa : Nat) : Nat := paModule pa * 64 + homeDie pa

/-- Whether an object takes note of a slice's retirement: it is the ring's loader, or a bound member (13 R326, 15 R371). -/
def Obj.concerns (o : Obj) (kernel slice : Nat) : Bool :=
  match o with
  | .ring r => r.loader == some (.slice kernel slice)
  | .phaser p => p.members.any (fun m => m.2.bound == some (kernel, slice))
  | .seq _ => false

/-- The retirement of a slice told to the engines it may matter to, behind the slice's own operations (15 R355, R356). -/
def State.tellEngines (s : State) (core kernel slice : Nat) (code : Option Byte) : State :=
  let held := (s.objs.filter (fun (p : Nat × ObjRec) => p.2.obj.concerns kernel slice)).map (fun (p : Nat × ObjRec) => homeEngine p.1)
  let sent := (s.msgs.filter (fun (m : SyncMsg) => match m.who with
    | some w => w.kernel == kernel && w.slice == slice | none => false)).map (fun (m : SyncMsg) => m.engine)
  { s with msgs := s.msgs ++ (dedup (held ++ sent)).map (fun e =>
      (⟨none, dieOf core, e, 0, 0, .sliceEnd core kernel slice code, .none, .mod, false, 0, none, false⟩ : SyncMsg)) }

/-- Retiring a slice on every core it runs on (02 R27, 04 R66, R68): the retirement release at `.mod`, the record of the
owning die removed, the words sent. -/
def State.retireSlice (s : State) (kernel slice : Nat) (err : Option Word) : State :=
  let core := ((s.members kernel slice).find? (fun n => match (s.core n).run with | some r => r.rank == 0 | none => false)).getD s.me
  let s := (s.members kernel slice).foldl (fun s n => s.vacate n) s
  let mine (r : SliceRec) : Bool := r.kernel == kernel && r.slice == slice && r.st == RecState.started
  let gone := s.dies.flatMap (fun (p : Nat × Die) => p.2.recs.filter mine)
  let s := { s with dies := s.dies.map (fun (p : Nat × Die) => (p.1, { p.2 with
    recs := p.2.recs.filter (fun r => !mine r)
    ctxUsed := p.2.ctxUsed.filter (fun i => !gone.any (fun r => r.home == p.1 && r.ctx.any (fun c => c.2 == i))) })) }
  (s.tellEngines core kernel slice (err.map (fun e => e.setWidth 8))).sendWords kernel slice err

/-- A core ends its part of the slice with no error: it issues nothing more, and the slice retires when every member has
ended (21 R483). -/
def State.endMember (s : State) (n : Nat) : State :=
  match (s.core n).run with
  | none => s
  | some r =>
    let s := s.modCore n (fun k => { k with run := some { r with ended := true }, grp := Group.none })
    if (s.members r.kernel r.slice).all (fun m => match (s.core m).run with | some q => q.ended | none => true) then
      s.retireSlice r.kernel r.slice none
    else s

/-- Killing the slice a core runs, with a class and code (02 R39, R41, 17 R414). -/
def State.killSlice (s : State) (n cls : Nat) (code : Byte) : State :=
  match (s.core n).run with
  | none => s.vacate n
  | some r => s.retireSlice r.kernel r.slice (some (errWord r.slice (some n) cls code))

/-! ## Taking an exception and returning from one (17 R414 to R419) -/

/-- Trap codes (17 R414). -/
def tIllegal : Byte := 0x01
def tGroupDep : Byte := 0x02
def tPrivilege : Byte := 0x03
def tAlign : Byte := 0x04
def tPageFault : Byte := 0x05
def tProt : Byte := 0x06
def tStream : Byte := 0x07
def tAccOvf : Byte := 0x08
def tBudget : Byte := 0x09
def tLoopDepth : Byte := 0x0A
def tForkDepth : Byte := 0x0B
def tEccUe : Byte := 0x0C
def tMxUe : Byte := 0x0D
def tMxDet : Byte := 0x0E
def tPowerLost : Byte := 0x0F

/-- TCAUSE, TWHERE and TMODE as RDSYS reads them (17 R416). -/
def TrapSt.tcause (t : TrapSt) : Word :=
  BitVec.ofNat 64 ((if t.active then 65536 else 0) + t.info.sub.toNat * 256 + t.info.code.toNat)
def TrapSt.twhere (t : TrapSt) : Word :=
  BitVec.ofNat 64 (t.info.kind.toNat * 256 + t.info.bundle % 4 * 8 + t.info.slot.code.toNat)
def TrapSt.tmode (t : TrapSt) : Word := BitVec.ofNat 64 (t.bank.length % 256 * 16 + t.depth % 8)

/-- A w register that an instruction of a dropped group had left pending holds its value from before. -/
def Core.unpend (k : Core) (o : Nat × Word) : Core :=
  let marks (ps : List Pend) : List Pend := ps.filter (fun p => !(p.reg == .w o.1 && p.val == .mark))
  { k with
    inflight := marks k.inflight, just := marks k.just
    regs := if k.word (.w o.1) = BitVec.allOnes 64 then { k.regs with w := Sparse.put k.regs.w o.1 o.2 } else k.regs }

/-- The effects of the open group are dropped (05 R95). The matrix engine stays busy until its busy time ends (11 R270). -/
def Core.dropGroup (k : Core) : Core :=
  let k1 := k.grp.olds.foldl Core.unpend k
  { k1 with
    grp := Group.none, pinned := false, mx := { k1.mx with busy := max k1.mx.busy k1.grp.mx.busy }
    landings := k1.landings.filter (fun l => l.held.isNone) }

/-- Committing writes to registers and loop levels alone. -/
def Before.redo (b : Before) (ps : List Pend) : Before :=
  ps.foldl (fun b p => ⟨b.regs.commit p.reg p.val, (match p.reg with | .loop n f => setLoopField b.loops n f p.val.toWord | _ => b.loops),
    voidPorts b.ports p.reg p.due⟩) b

/-- Taking every result whose commit cycle is `e` or later into the snapshot latch bank (17 R418): writes that have committed
since are taken back, engine writes stay. Latches that wait for the group after an ERET are in flight still (R419). -/
def Core.latchAll (k : Core) (e : Nat) : Core × List Latch :=
  let back := k.just.filter (fun p => decide (e ≤ p.due) && !p.engine)
  let b : Before := if back.isEmpty then ⟨k.regs, k.loops, k.ports⟩
    else k.prev.redo (k.just.filter (fun p => p.engine || decide (p.due < e)))
  let waiting := if k.afterEret then k.trap.bank else []
  let late (p : Pend) : Bool := decide (e ≤ p.due) && !p.engine
  let bank := (back ++ k.inflight.filter late).map (fun p => (⟨p.reg, p.val, p.due - e⟩ : Latch)) ++ waiting
  ({ k with
      regs := b.regs, loops := b.loops, ports := b.ports, just := [], inflight := k.inflight.filter (fun p => !late p)
      gloads := k.gloads.map (fun g => { g with latched := true })
      afterEret := false }, bank)

/-- Loop-index updates of the sequencer that commit in cycle `e` or later go into the bank before the writes of instructions (17 R418). -/
def Core.latchTurn (k : Core) (e : Nat) : Core × List Latch :=
  match k.turned with
  | some (c, ls, ps) =>
    if c < e then (k, [])
    else
      let moved := (List.range k.loops.length).filter (fun i => match ls[i]?, k.loops[i]? with
        | some x, some y => x.index != y.index | _, _ => false)
      (moved.foldl (fun k i => { k with loops := setLoopField k.loops i .index ((loopIndex ls i).setWidth 64) }) { k with ports := ps, turned := none },
        moved.map (fun i => ⟨.loop i .index, .word ((loopIndex k.loops i).setWidth 64), c - e⟩))
  | none => (k, [])

/-- Entry into the handler on core `n` (17 R415): `e` is the cycle in which the group at the saved PC would have issued. -/
def State.enterHandler (s : State) (n : Nat) (info : TrapInfo) (savedPc : Word) (e : Nat) : State :=
  let s := s.release n
  let k := s.core n
  let (k0, writes) := k.latchAll e
  let (k1, turns) := k0.latchTurn e
  let bank := turns ++ writes
  let addr := if info.code = 0x04 ∨ info.code = 0x05 ∨ info.code = 0x06 ∨ info.code = 0x07 ∨ info.code = 0x0C then info.addr else 0
  let k2 := { k1 with
    trap := { k1.trap with
      active := true, info := { info with addr := addr }, tpc := savedPc, depth := k1.loops.length
      bank := bank, ports := k1.ports }
    forkTrap := if k1.forkTrap = .none then .none else .afterEret
    grp := Group.none
    pc := recHandler (s.recOf n)
    holdUntil := max k1.holdUntil (e + 3)
    wait := Wait.none, reached := none, atSync := false }
  (s.setCore n k2).acquire n .mod

/-- A page fault the host serves (12 R306): a fault record is queued for the host, and the slice leaves its core and waits. -/
def State.hostFault (s : State) (n : Nat) (info : TrapInfo) (savedPc : Word) : State :=
  match (s.core n).run with
  | none => s
  | some r =>
    let token := s.nextId
    let s1 := { s with nextId := s.nextId + 1, faults := s.faults ++ [(⟨BitVec.ofNat 32 token, n, r.kernel, r.slice, info.kind, info.addr, false⟩ : FaultRec)] }
    s1.setCore n { s.core n with
      pc := savedPc, grp := Group.none, wait := Wait.none, run := some { r with leave := some (.pageFault token) } }

/-- A trap of core `n`: the kernel's handler, the host, or the end of the slice (17 R414, R417, 02 R41, 12 R306). -/
def State.trapTo (s : State) (n : Nat) (info : TrapInfo) (savedPc : Word) (e : Nat) : State :=
  let k := s.core n
  let r := s.recOf n
  if info.code = tPageFault ∧ recHostpf r then s.hostFault n info savedPc
  else if k.trap.active ∨ recHandler r = 0 ∨ info.code = tEccUe ∨ info.code = tMxUe then s.killSlice n 1 info.code
  else s.enterHandler n info savedPc e

/-- A fault of the open group of the current core: the group has no effect, the saved PC is its start (05 R95, 17 R414), and E is
the cycle in which its first bundle issued (R415). -/
def State.fault (s : State) (info : TrapInfo) : State :=
  let k := s.cur
  let start := if k.grp.active then k.grp.start else k.pc
  let e := if k.grp.active ∧ k.grp.idx ≠ 0 then k.grp.since else k.cycle
  (s.setCur { k.dropGroup with kept := k.kept.filter (fun e => e.start != start) }).trapTo s.me info start e

/-- A fault of an instruction: its bundle's index in the group and its slot are recorded (17 R416). -/
def State.faultAt (s : State) (slot : Slot) (code sub : Byte) (addr : Word) (kind : BitVec 2) : State :=
  s.fault ⟨code, sub, addr, kind, s.cur.grp.idx, slot⟩

/-- The return from a handler (17 R419) at group completion in cycle t: ACTIVE cleared, levels above DEPTH popped, ports
restored. The latch bank waits for T0, the cycle in which the target's first bundle issues (`Core.replay`), which is t + 3 or later.
The phase boundary is a release before and an acquire after (14 R339). -/
def State.leaveHandler (s : State) (n : Nat) : State :=
  let s := s.release n
  let k := s.core n
  let k1 := { k with
    trap := { k.trap with active := false, ports := [] }
    loops := k.loops.take k.trap.depth
    ports := k.trap.ports
    pc := k.trap.tpc
    holdUntil := k.cycle + 3
    afterEret := true
    forkTrap := if k.forkTrap = .none then .none else .now }
  (s.setCore n k1).acquire n .mod

/-- The replay at T0, the present cycle: each latch is due at T0 + r, and a load still pending makes its register pending again
(17 R419). -/
def Core.replay (k : Core) : Core :=
  if k.afterEret then
    { k with
      afterEret := false
      trap := { k.trap with bank := [] }
      inflight := k.inflight ++ k.trap.bank.map (fun l => ⟨l.reg, l.val, k.cycle + l.rest, false⟩)
      gloads := k.gloads.map (fun g => { g with latched := false }) }
  else k

/-- Writing dirty L1 bytes of an aligned 8-byte word home and voiding the word's copy (12 R293). -/
def State.pushWord (s : State) (n pa : Nat) : State :=
  let inWord (p : Nat) : Bool := p / 8 == pa / 8
  (s.flushL1 n inWord).modCore n (fun k => { k with l1 := k.l1.filter (fun p => !inWord p.1) })

end Sys2Proof.Machine
end

