-- ==== Sys2Proof/Machine/Caches.lean ====
section
/-!
DEFINITION. The levels below L1 (12 R294 to R297): lines of the home L2s and of the L3s, what LP6 DRAM and CXL memory hold below
them, and the encryption of sealed sectors. `State.mem` is what the homes serve: a line's place never shows in a value, but where
memory was altered outside the package.
-/
namespace Sys2Proof.Machine

open Sys2Proof

/-- The 64 bytes of a sector, by sector number, as its home serves them. -/
def State.sectorBytes (s : State) (sec : Nat) : List Byte := (List.range 64).map (fun i => s.cell (sec * 64 + i))

/-- What memory holds for a sector: sealed bytes as AES-256-XTS ciphertext with tweak PA[51:6], others as they are (12 R297). -/
def State.storedForm (s : State) (sec : Nat) : List Byte :=
  if s.inGlove (sec * 64) then xtsEncrypt (leBytes 64 Config.memoryKey.toNat) sec (s.sectorBytes sec) else s.sectorBytes sec

/-- What the memory below the caches holds for a sector that no cache has dirty: what was written back, unless it was altered since. -/
def State.stored (s : State) (sec : Nat) : List Byte := (Sparse.find? s.altered sec).getD (s.storedForm sec)

/-- Whether an L2 or an L3 holds a sector. -/
def State.cached (s : State) (sec : Nat) : Bool :=
  (match Sparse.find? s.l2 (sec / 8) with | some x => x.valid.getLsbD (sec % 8) | none => false) ||
    (match Sparse.find? s.l3 (sec / 8) with | some x => x.valid.getLsbD (sec % 8) | none => false)

/-- A sector no cache holds any more is what memory gives back: the bytes written, or, of a sector altered outside the package, the new
bytes, and unpredictable ones when it is sealed (12 R297). -/
def State.reload (s : State) (sec : Nat) : State :=
  match Sparse.find? s.altered sec with
  | none => s
  | some held =>
    if s.cached sec then s
    else if held == s.storedForm sec then { s with altered := Sparse.erase s.altered sec }
    else
      let seen := if s.inGlove (sec * 64) then freeBytes s.free 64 else held
      { s with
        mem := Mem.writes s.mem (sec * 64) ((List.range 64).map (fun i => nth 0 seen i ^^^ s.backing (sec * 64 + i)))
        altered := Sparse.erase s.altered sec, free := s.free + 64 }

/-- A dirty sector written back from a cache: a poisoned one stays poisoned and is an unowned error (18 R440, R441), SOURCE 2 from L2 and
3 from L3. -/
def State.noteBack (s : State) (source sec : Nat) : State :=
  if s.poisoned (sec * 64) then s.unowned (homeDie (sec * 64)) source (sec * 64) else s

def State.writeBack (s : State) (source sec : Nat) : State :=
  let s1 := s.noteBack source sec
  { s1 with altered := Sparse.erase s1.altered sec }

/-- The sectors a line's mask selects. -/
def maskSectors (line : Nat) (m : BitVec 8) : List Nat := ((List.range 8).filter (fun i => m.getLsbD i)).map (fun i => line * 8 + i)

def L3Line.none : L3Line := ⟨0, 0, false⟩

/-- An L2 line that is not pinned leaves: its dirty sectors go to L3, or straight to memory when the line passes L3 by (12 R295). -/
def State.evictL2 (s : State) (line : Nat) : State :=
  match Sparse.find? s.l2 line with
  | Option.none => s
  | some x =>
    if x.pins ≠ 0 then s
    else
      let secs := maskSectors line x.dirty
      let s1 := if x.passes then secs.foldl (fun s sec => s.writeBack 2 sec) s
        else if secs.isEmpty then s
        else
          let y := Sparse.get s.l3 L3Line.none line
          { secs.foldl (fun s sec => s.noteBack 2 sec) s with
            l3 := Sparse.put s.l3 line { y with valid := y.valid ||| x.dirty, dirty := y.dirty ||| x.dirty } }
      (maskSectors line x.valid).foldl (fun s sec => s.reload sec) { s1 with l2 := Sparse.erase s1.l2 line }

/-- An L3 line leaves: its dirty sectors are written to memory. -/
def State.evictL3 (s : State) (line : Nat) : State :=
  match Sparse.find? s.l3 line with
  | Option.none => s
  | some x =>
    let s1 := (maskSectors line x.dirty).foldl (fun s sec => s.writeBack 3 sec) s
    (maskSectors line x.valid).foldl (fun s sec => s.reload sec) { s1 with l3 := Sparse.erase s1.l3 line }

/-- Whether an L2 or an L3 holds a sector dirty. -/
def State.dirtySector (s : State) (sec : Nat) : Bool :=
  (match Sparse.find? s.l2 (sec / 8) with | some x => x.dirty.getLsbD (sec % 8) | none => false) ||
    (match Sparse.find? s.l3 (sec / 8) with | some x => x.dirty.getLsbD (sec % 8) | none => false)

/-- A byte of a sealed sector changed outside the package (12 R297, 14 R335). A dirty sector is written over it later. -/
def State.alter (s : State) (pa : Nat) (b : Byte) : State :=
  let sec := pa / 64
  if isGlobal pa && s.inGlove pa && !s.dirtySector sec then
    ({ s with altered := Sparse.put s.altered sec (setNth (s.stored sec) (pa % 64) b) } : State).reload sec
  else s

/-- A whole line brought into its home L2, or its home L3 (09 R234). -/
def State.prefetch (s : State) (level pa : Nat) : State :=
  let line := pa / 512
  if !(isGlobal pa && paModule pa == s.modid && !s.unbacked pa) then s
  else if level = 2 then (List.range 8).foldl (fun s i => s.fetchSector (line * 512 + 64 * i) false) s
  else { s with l3 := Sparse.put s.l3 line { Sparse.get s.l3 L3Line.none line with valid := 0xFF } }

/-- The lines of a 64 KiB page loaded into the L3s of their homes and kept there, or given back to replacement (16 R403). -/
def State.keepPage (s : State) (pa : Nat) (keep : Bool) : State :=
  if !(isGlobal pa && paModule pa == s.modid) then s
  else (List.range 128).foldl (fun s i =>
    let line := pa / 0x10000 * 128 + i
    let s1 := if keep && !s.unbacked pa then s.prefetch 3 (line * 512) else s
    { s1 with l3 := s1.l3.map (fun p => if p.1 = line then (p.1, { p.2 with kept := keep }) else p) }) s

/-! ## MRAM writes (18 R446) -/

/-- One write of a 4 KiB block of a core's MRAM: tries until one succeeds, 8 at most, each of them wear. A block that fails, or
reaches the wear limit, moves to a spare. The result says whether the bytes are written. -/
def State.mramWrite (s : State) (core block : Nat) : State × Bool :=
  let bad := Config.freeNat s.free % 9
  let worn := Sparse.get s.wear 0 block + min (bad + 1) 8
  let s1 := s.tick
  if bad = 8 ∨ Config.fuse 4 ≤ worn then
    let used := Sparse.get s.spares 0 core
    if used < 32 then ({ s1 with wear := Sparse.put s1.wear block 0, spares := Sparse.put s1.spares core (used + 1) }, true)
    else ({ s1 with wear := Sparse.put s1.wear block worn }, false)
  else ({ s1 with wear := Sparse.put s1.wear block worn }, true)

/-- Several blocks; the first failure ends it. -/
def State.mramWriteAll (s : State) (core : Nat) : List Nat → State × Bool
  | [] => (s, true)
  | b :: bs => match s.mramWrite core b with
    | (s1, true) => s1.mramWriteAll core bs
    | (s1, false) => (s1, false)

/-! ## Pins (09 R222) -/

/-- A line pinned in its home L2 for an MX instruction; no line holds bytes that no memory backs (12 R487). -/
def State.pinLine (s : State) (passes : Bool) (line : Nat) : State :=
  if isGlobal (line * 512) && paModule (line * 512) == s.modid && !s.unbacked (line * 512) then
    let x := Sparse.get s.l2 ⟨0, 0, 0, false⟩ line
    { s with l2 := Sparse.put s.l2 line { x with pins := x.pins + 1, passes := x.passes || passes } }
  else s

/-- A line unpinned; one that passes L3 by leaves once nothing pins it. -/
def State.unpinLine (s : State) (line : Nat) : State :=
  match Sparse.find? s.l2 line with
  | Option.none => s
  | some x =>
    let s1 := { s with l2 := Sparse.put s.l2 line { x with pins := x.pins - 1 } }
    if x.passes ∧ x.pins ≤ 1 then s1.evictL2 line else s1

/-! ## Capacities (01 R14) -/

/-- The stack of a byte's home die (01 R7). -/
def homeStack (pa : Nat) : Nat := homeDie pa / 4

/-- An L2 holds 16 lines of a set: one of more than 16 that may leave. -/
def State.overL2 (s : State) : Option Nat :=
  if s.l2.length ≤ 16 then Option.none
  else
    let key (l : Nat) : Nat × Nat := (homeDie (l * 512), Config.l2Set l % 2048)
    (List.find? (fun (p : Nat × L2Line) => p.2.pins == 0 && decide (16 < (s.l2.filter (fun q => key q.1 == key p.1)).length)) s.l2).map (·.1)

/-- Numbers of banks: 18 of each core's MRAM, 16 of data and 2 of control, then 256 of each L3 (18 R443). -/
def l3Bank : Nat := 2048 * 18

/-- Lines the L3 of a stack holds: 256 banks of 1 MiB, less the banks out of service (18 R445). -/
def State.l3Room (s : State) (stack : Nat) : Nat :=
  2048 * (256 - (s.lost.filter (fun b => decide (l3Bank ≤ b) && (b - l3Bank) / 256 == stack)).length)

/-- An L3 past its room: a line that may leave. -/
def State.overL3 (s : State) : Option Nat :=
  if s.l3.length ≤ 2048 ∧ s.lost.isEmpty then Option.none
  else (List.find? (fun (p : Nat × L3Line) => !p.2.kept &&
    decide (s.l3Room (homeStack (p.1 * 512)) < (s.l3.filter (fun q => homeStack (q.1 * 512) == homeStack (p.1 * 512))).length)) s.l3).map (·.1)

/-- Lines leave until each cache has room; the first argument bounds them. -/
def State.fitCaches (s : State) : Nat → State
  | 0 => s
  | f + 1 => match s.overL2 with
    | some l => State.fitCaches (s.evictL2 l) f
    | Option.none => match s.overL3 with
      | some l => State.fitCaches (s.evictL3 l) f
      | Option.none => s

/-- Every line of a die's L2 leaves (17 R432). -/
def State.emptyL2 (s : State) (d : Nat) : State :=
  ((s.l2.map (·.1)).filter (fun l => homeDie (l * 512) == d)).foldl (fun s l => s.evictL2 l) s

/-- Every line of a stack's L3 leaves. -/
def State.emptyL3 (s : State) (stack : Nat) (bank : Nat → Bool) : State :=
  ((s.l3.map (·.1)).filter (fun l => homeStack (l * 512) == stack && bank l)).foldl (fun s l => s.evictL3 l) s

end Sys2Proof.Machine
end

