-- ==== Sys2Proof/Machine/Accum.lean ====
section
/-!
DEFINITION. Accumulator elements: how products are added in the three modes (08 R187 to R196), the exact value, promotion
(R199) and re-alignment (R200). Each addition also gives its contribution to the checksum predictions (11 R282).
-/
namespace Sys2Proof.Machine

open Sys2Proof

/-- Guard bits of G (08 R187). -/
def gOvf : BitVec 6 := 1
def gNan : BitVec 6 := 2
def gPinf : BitVec 6 := 4
def gNinf : BitVec 6 := 8
def gInexact : BitVec 6 := 16
def gScale : BitVec 6 := 32

def Elem.guard (e : Elem) (b : BitVec 6) : Elem := { e with g := e.g ||| b }
def Elem.has (e : Elem) (b : BitVec 6) : Bool := (e.g &&& b) != 0
def Elem.m' (e : Elem) : Int := e.m.toInt
def Elem.x' (e : Elem) : Int := e.x.toInt
def Elem.isMode (e : Elem) (m : AccMode) : Bool := e.tag == some m

/-- `sat48` (05 R115). -/
def sat48 (v : Int) : Int := clampInt v (-(2 ^ 47)) (2 ^ 47 - 1)
def fits48 (v : Int) : Bool := decide (-(2 ^ 47) ≤ v ∧ v ≤ 2 ^ 47 - 1)

def Elem.setM (e : Elem) (v : Int) : Elem := { e with m := BitVec.ofInt 48 v }

/-- A contribution to a checksum: an integer times a power of two. -/
abbrev Contrib := Int × Int

/-- An untagged element reads as zero (11 R264). -/
def Elem.seen (e : Elem) : Elem := if e.tag = none then Elem.zero else e

/-- The contribution of an element as it stands (11 R281): M, in binary mode M × 2^X, the unit of the block contributions that R282
adds (notes/assumptions/70.md). -/
def Elem.contrib (e : Elem) : Contrib := if e.isMode .binary then (e.m', e.x') else (e.m', 0)

/-- The sum of two contributions. -/
def Contrib.plus (a b : Contrib) : Contrib :=
  if a.1 = 0 then b
  else if b.1 = 0 then a
  else
    let e := min a.2 b.2
    (a.1 * (2 ^ (a.2 - e).toNat : Nat) + b.1 * (2 ^ (b.2 - e).toNat : Nat), e)

def Contrib.sum (cs : List Contrib) : Contrib := cs.foldl Contrib.plus (0, 0)

/-- A contribution as a numerator over 2^32768. -/
def Contrib.num (c : Contrib) : Int :=
  if 0 ≤ c.2 + 32768 then c.1 * (2 ^ (c.2 + 32768).toNat : Nat) else c.1 / (2 ^ (-(c.2 + 32768)).toNat : Nat)

/-- An operand as the engine reads it: no element there (11 R268), NaN or NaR or an element of a NaN block, an infinity, an
integer times a power of two, or a d8 code with its block scale. -/
inductive Factor
  | absent
  | nan
  | inf (neg : Bool)
  | dyad (m e : Int)
  | dec (code : Nat) (s : Int)
  deriving DecidableEq, Repr

/-- The exact integer and power of two of a finite small float (08 R179). -/
def dyadOf (f : FloatFmt) (code : Nat) : Int × Int :=
  let neg := code / 2 ^ (f.ebits + f.mbits) % 2 == 1
  let mag := code % 2 ^ (f.ebits + f.mbits)
  let ex := mag / 2 ^ f.mbits
  let man := mag % 2 ^ f.mbits
  let m : Int := if ex = 0 then man else man + 2 ^ f.mbits
  let e : Int := (if ex = 0 then 1 else (ex : Int)) - f.bias - f.mbits
  (if neg then -m else m, e)

/-- The factor of a code with its block scale byte, `none` for an unscaled stream (08 R177 to R184, R195, 11 R267). -/
def factorOf (t : ElemTy) (scale : Option Nat) (code : Nat) : Factor :=
  match t with
  | .d8 =>
    let s := match scale with | none => (0 : Int) | some b => signedOf 8 b
    if code = 0x80 ∨ s < -64 ∨ 63 < s then .nan else .dec code s
  | .i8 | .i16 | .i32 | .i4 => .dyad (signedOf t.bits code) 0
  | .u8 | .u32 => .dyad code 0
  | .mxi8 => match scale with
    | none => .dyad (signedOf 8 code) 0
    | some b => if b = 255 then .nan else .dyad (signedOf 8 code) ((b : Int) - 127 - 6)
  | .f32 | .bf16 | .f16 | .e4m3 | .e5m2 | .mxf4 | .mxf6a | .mxf6b =>
    match t.fmt with
    | none => .nan
    | some f =>
      if scale = some 255 then .nan
      else match f.value code with
        | .nan => .nan
        | .inf s => .inf s
        | .fin _ _ _ =>
          let d := dyadOf f code
          .dyad d.1 (d.2 + (match scale with | none => 0 | some b => (b : Int) - 127))

/-! ## Integer mode (08 R190) -/

def addInteger (e : Elem) (a b : Factor) : Elem × Contrib :=
  match a, b with
  | .dyad x _, .dyad y _ =>
    let p := x * y
    let v := e.m' + p
    ((if fits48 v then e else e.guard gOvf).setM (sat48 v), (p, 0))
  | _, _ => (e, (0, 0))

/-! ## Decimal mode (08 R191, R192) -/

/-- Sign, z, k and the integer 2^k + 9f of a nonzero d8 code. -/
def d8Parts (code : Nat) : Int × Nat × Nat × Nat :=
  let p := code % 128
  let z := d8z p
  let k := 6 - z
  (if 128 ≤ code then -1 else 1, z, k, 2 ^ k + 9 * (p % 2 ^ k))

def addDecimal (el : Elem) (a b : Factor) : Elem × Contrib :=
  match a, b with
  | .absent, _ | _, .absent => (el, (0, 0))
  | .dec ca sa, .dec cb sb =>
    if ca = 0 ∨ cb = 0 then (el, (0, 0))
    else
      let (g1, z1, k1, f1) := d8Parts ca
      let (g2, z2, k2, f2) := d8Parts cb
      let mp := f1 * f2 * 2 ^ (12 - k1 - k2)
      let ep : Int := sa + sb - z1 - z2
      let sgn := g1 * g2
      let δ := ep - el.x'
      if 12 < δ then
        let v := sat48 (sgn * 2 ^ 60)
        ((el.guard gOvf).setM v, (v - el.m', 0))
      else
        let (t, inexact) : Int × Bool :=
          if 0 ≤ δ then (sgn * (mp * 10 ^ δ.toNat : Nat), false)
          else
            let d := 10 ^ (-δ).toNat
            (sgn * (rndMag .ne false mp d : Nat), decide (mp % d ≠ 0))
        let v := el.m' + t
        let e1 := if inexact then el.guard gInexact else el
        let e2 := if fits48 v then e1 else e1.guard gOvf
        (e2.setM (sat48 v), (t, 0))
  | _, _ => (el.guard gNan, (0, 0))

/-! ## Binary mode (08 R193 to R195) -/

/-- Rounding v / 2^n to nearest even; a sticky bit makes a tie round up (08 R194). The flag says that a bit was lost. -/
def rndSticky (v : Int) (n : Nat) (sticky : Bool) : Int × Bool :=
  let q := v / (2 ^ n : Nat)
  let r := (v % (2 ^ n : Nat)).toNat
  let up := decide (2 ^ n < 2 * r) || (decide (2 * r = 2 ^ n ∧ 0 < n) && (sticky || q % 2 == 1))
  (if up then q + 1 else q, decide (r ≠ 0) || sticky)

/-- The finite products of a block, with the guard bits the others set (08 R195). -/
def blockProducts : List Factor → List Factor → List (Int × Int) × BitVec 6
  | a :: as, b :: bs =>
    let (ps, g) := blockProducts as bs
    match a, b with
    | .absent, _ | _, .absent => (ps, g)
    | .dyad x d, .dyad y e => (if x * y = 0 then ps else (x * y, d + e) :: ps, g)
    | .inf s, .inf t => (ps, g ||| (if s = t then gPinf else gNinf))
    | .inf s, .dyad y _ | .dyad y _, .inf s =>
      (ps, g ||| (if y = 0 then gNan else if s = decide (y < 0) then gPinf else gNinf))
    | _, _ => (ps, g ||| gNan)
  | _, _ => ([], 0)

/-- floor(log2 |v|) for v ≠ 0. -/
def log2Int (v : Int) : Int := Nat.log2 v.natAbs

/-- The block sum in the 96-bit window: the integer S over 2^bot, bot, and the sticky bit (08 R193). -/
def blockSum (ps : List (Int × Int)) : Int × Int × Bool :=
  match ps with
  | [] => (0, 0, false)
  | p :: rest =>
    let top := rest.foldl (fun t q => max t (log2Int q.1 + q.2)) (log2Int p.1 + p.2) + 6
    let bot := top - 95
    (p :: rest).foldl (fun (acc : Int × Int × Bool) q =>
      if bot ≤ q.2 then (acc.1 + q.1 * (2 ^ (q.2 - bot).toNat : Nat), bot, acc.2.2)
      else
        let d : Int := ((2 ^ (bot - q.2).toNat : Nat) : Int)
        (acc.1 + q.1 / d, bot, acc.2.2 || decide (q.1 % d ≠ 0))) (0, bot, false)

/-- Folding a block sum into (M, X), by the steps of the pseudocode of 08 R194 (notes/assumptions/90.md). -/
def foldBlock (e : Elem) (S bot : Int) (sticky : Bool) : Elem :=
  if S = 0 ∧ !sticky then e
  else
    let x := e.x'
    let xn := if S = 0 then x else max x (log2Int S + bot - 45)
    let e0 := min x bot
    let v := e.m' * (2 ^ (x - e0).toNat : Nat) + S * (2 ^ (bot - e0).toNat : Nat)
    let (m1, i1) := rndSticky v (xn - e0).toNat sticky
    let (mn, inexact, xf) :=
      if 2 ^ 47 ≤ m1.natAbs then
        let (m2, i2) := rndSticky v (xn + 1 - e0).toNat sticky
        (m2, i2, xn + 1)
      else (m1, i1, xn)
    let e1 := if inexact then e.guard gInexact else e
    if 32767 < xf then
      (e1.guard gOvf).setM (sat48 ((if v < 0 then -1 else if v = 0 then 0 else 1) * 2 ^ 60))
    else { e1 with m := BitVec.ofInt 48 mn, x := BitVec.ofInt 16 xf }

/-- One block of 32 K positions in binary mode. -/
def addBlock (e : Elem) (as bs : List Factor) : Elem × Contrib :=
  let (ps, g) := blockProducts as bs
  let (S, bot, sticky) := blockSum ps
  (foldBlock (e.guard g) S bot sticky, (S, bot))

/-! ## One element over all of K (08 R196, 11 R273) -/

/-- Products one at a time. -/
def addEach (f : Elem → Factor → Factor → Elem × Contrib) : Elem → List Factor → List Factor → Elem × List Contrib
  | e, a :: as, b :: bs =>
    let (e1, c) := f e a b
    let (e2, cs) := addEach f e1 as bs
    (e2, c :: cs)
  | e, _, _ => (e, [])

/-- Blocks of 32 K positions, `n` of them. -/
def addBlocks : Nat → Elem → List Factor → List Factor → Elem × List Contrib
  | 0, e, _, _ => (e, [])
  | n + 1, e, as, bs =>
    let (e1, c) := addBlock e (as.take 32) (bs.take 32)
    let (e2, cs) := addBlocks n e1 (as.drop 32) (bs.drop 32)
    (e2, c :: cs)

/-- Accumulating a line of A with a line of B in a mode. -/
def accumulate (m : AccMode) (e : Elem) (as bs : List Factor) : Elem × List Contrib :=
  match m with
  | .integer => addEach addInteger e as bs
  | .decimal => addEach addDecimal e as bs
  | .binary => addBlocks ((as.length + 31) / 32) e as bs

/-! ## Value, promotion, re-alignment -/

/-- The exact value of an element (08 R188); an untagged element is 0 (11 R264). -/
def Elem.value (e : Elem) : FNum :=
  let neg := decide (e.m' < 0)
  match e.tag with
  | none => .fin false 0 1
  | some .integer => .fin neg e.m'.natAbs 1
  | some .decimal => .decimal neg e.m'.natAbs 4096 e.x'
  | some .binary => .scaled neg e.m'.natAbs e.x'

/-- Largest finite value, or infinity, by a sign (08 R199, OVF). -/
def ovfCode (t : ElemTy) (inf neg : Bool) : Nat :=
  match t with
  | .d8 => if neg then 0xFF else 0x7F
  | t =>
    let sign := if neg then 2 ^ (t.bits - 1) else 0
    match t.fmt with
    | none => 0
    | some f => sign + (if inf then f.infCode.getD f.maxFin else f.maxFin)

/-- V / 10^s. -/
def FNum.overTen (x : FNum) (s : Int) : FNum :=
  match x with
  | .fin neg n d => if 0 ≤ s then .fin neg n (d * 10 ^ s.toNat) else .fin neg (n * 10 ^ (-s).toNat) d
  | y => y

/-- Promotion (08 R199): the first case that holds. -/
def promote (t : ElemTy) (rm : RMode) (ov : Bool) (scale : Int) (e : Elem) : Nat :=
  let neg := decide (e.m' < 0)
  if e.tag = none then 0
  else if e.has gNan || (e.has gPinf && e.has gNinf) then roundTo t .ne .nan
  else if e.has gPinf then roundTo t .ne (.inf false)
  else if e.has gNinf then roundTo t .ne (.inf true)
  else if e.has gOvf then ovfCode t ov neg
  else if e.m' = 0 then 0
  else roundTo t rm (FNum.overTen e.value scale)

/-- Re-alignment to X' (08 R200, 11 R277). -/
def realign (x' : Int) (e : Elem) : Elem :=
  let ten := e.isMode .decimal
  if !(ten || e.isMode .binary) || decide (x' < e.x') then e
  else
    let d := (if ten then 10 else 2) ^ (x' - e.x').toNat
    let neg := decide (e.m' < 0)
    let mag : Int := rndMag .ne neg e.m'.natAbs d
    let e1 := if e.m'.natAbs % d ≠ 0 then e.guard gInexact else e
    { e1 with m := BitVec.ofInt 48 (if neg then -mag else mag), x := BitVec.ofInt 16 x' }

/-- The 72 bits of an element, and an element from a record (08 R187, 11 R286). -/
def Elem.bits (e : Elem) : Nat := if e.tag = none then 0 else e.m.toNat + e.x.toNat * 2 ^ 48 + e.g.toNat * 2 ^ 64
def tagCode (t : Option AccMode) : Nat :=
  match t with | none => 0 | some .integer => 1 | some .decimal => 2 | some .binary => 3
def tagOf (n : Nat) : Option AccMode :=
  match n % 4 with | 0 => none | 1 => some .integer | 2 => some .decimal | _ => some .binary
def Elem.record (e : Elem) : List Byte :=
  leBytes 9 e.bits ++ [BitVec.ofNat 8 (tagCode e.tag)] ++ List.replicate 6 0
def Elem.ofRecord (bs : List Byte) : Elem :=
  let v := leNat (bs.take 9)
  Elem.seen ⟨BitVec.ofNat 48 v, BitVec.ofNat 16 (v / 2 ^ 48), BitVec.ofNat 6 (v / 2 ^ 64), tagOf (leNat ((bs.drop 9).take 1))⟩

end Sys2Proof.Machine
end

