-- ==== Sys2Proof/Machine/Flags.lean ====
section
/-!
DEFINITION. The conditions of CMP and WMON (07 R173, 15 R362), the flag functions of FOP (07 R166) and the condition codes
of VCMP (10 R246): every way the spec computes a flag or a condition.
-/
namespace Sys2Proof.Machine

open Sys2Proof

/-- A condition on two n-bit values, n = 64 or 32 (07 R173). -/
def condHolds {n : Nat} (c : Cond) (a b : BitVec n) : Bool :=
  match c with
  | .eq => a == b
  | .ne => a != b
  | .lt => a.slt b
  | .ge => !a.slt b
  | .ltu => a.ult b
  | .geu => !a.ult b
  | .tst => (a &&& b) != 0
  | .ntst => (a &&& b) == 0

/-- A condition at a width (07 R167, R173). -/
def condAt (w : Width) (c : Cond) (a b : Word) : Bool :=
  match w with
  | .w64 => condHolds c a b
  | .s32 | .z32 => condHolds c (a.setWidth 32) (b.setWidth 32)

/-- The condition code of VCMP for two exact values: LT, EQ, GT, UN in bits 0 to 3 (10 R246). -/
def vcmpCode (a b : FNum) : Nat :=
  if a.isNan || b.isNan then 8 else if a.lt false b then 1 else if b.lt false a then 4 else 2

/-- A truth value as a word. -/
def boolWord (b : Bool) : Word := if b then 1 else 0

end Sys2Proof.Machine
end

