-- ==== Sys2Proof/Machine/Integer.lean ====
section
/-!
DEFINITION. The I0 and I1 instructions (07 R167 to R176). Each computes on the operands' low n bits and pushes its result at
the latency of 06 R127; none raises a trap of its own.
-/
namespace Sys2Proof.Machine

open Sys2Proof

/-- The result of width n extended to 64 bits (07 R167, `wext`). -/
def wext (w : Width) (r : Word) : Word :=
  match w with
  | .w64 => r
  | .s32 => (r.setWidth 32).signExtend 64
  | .z32 => (r.setWidth 32).setWidth 64

/-- A two-operand function computed at a width (07 R167). -/
def atWidth (w : Width) (f : (n : Nat) → BitVec n → BitVec n → BitVec n) (a b : Word) : Word :=
  match w with
  | .w64 => f 64 a b
  | .s32 => (f 32 (a.setWidth 32) (b.setWidth 32)).signExtend 64
  | .z32 => (f 32 (a.setWidth 32) (b.setWidth 32)).setWidth 64

/-- High half of the signed product (07 R169 MULHS). -/
def mulHighS (n : Nat) (a b : BitVec n) : BitVec n := BitVec.ofInt n ((a.toInt * b.toInt) / (2 ^ n : Nat))

/-- High half of the unsigned product (07 R169 MULHU). -/
def mulHighU (n : Nat) (a b : BitVec n) : BitVec n := BitVec.ofNat n (a.toNat * b.toNat / 2 ^ n)

/-- Division (07 R170): truncation toward zero, the stated results for a zero divisor and for −2^(n−1) / −1. -/
def divS (n : Nat) (a b : BitVec n) : BitVec n :=
  if b = 0 then (if 0 ≤ a.toInt then BitVec.allOnes n else 1) else BitVec.ofInt n (a.toInt.tdiv b.toInt)
def divU (n : Nat) (a b : BitVec n) : BitVec n := if b = 0 then BitVec.allOnes n else BitVec.ofNat n (a.toNat / b.toNat)
def remS (n : Nat) (a b : BitVec n) : BitVec n := if b = 0 then a else BitVec.ofInt n (a.toInt.tmod b.toInt)
def remU (n : Nat) (a b : BitVec n) : BitVec n := if b = 0 then a else BitVec.ofNat n (a.toNat % b.toNat)

/-- Shifts by B mod n (07 R169). -/
def shl (n : Nat) (a b : BitVec n) : BitVec n := a <<< (b.toNat % n)
def shr (n : Nat) (a b : BitVec n) : BitVec n := a >>> (b.toNat % n)
def sar (n : Nat) (a b : BitVec n) : BitVec n := a.sshiftRight (b.toNat % n)
def ror (n : Nat) (a b : BitVec n) : BitVec n := (a >>> (b.toNat % n)) ||| (a <<< (n - b.toNat % n))

def minS (n : Nat) (a b : BitVec n) : BitVec n := if a.toInt ≤ b.toInt then a else b
def maxS (n : Nat) (a b : BitVec n) : BitVec n := if a.toInt ≤ b.toInt then b else a
def minU (n : Nat) (a b : BitVec n) : BitVec n := if a.toNat ≤ b.toNat then a else b
def maxU (n : Nat) (a b : BitVec n) : BitVec n := if a.toNat ≤ b.toNat then b else a

/-- ABS (07 R169): |−2^(n−1)| wraps to −2^(n−1). -/
def absI (n : Nat) (a _b : BitVec n) : BitVec n := if a.toInt < 0 then -a else a

/-- Leading zeros of a number of `n` bits (05 R115). -/
def clzNat (n v : Nat) : Nat := if v = 0 then n else n - 1 - Nat.log2 v

/-- Trailing zeros, scanning `k` bits. -/
def ctzNat : Nat → Nat → Nat
  | 0, _ => 0
  | k + 1, v => if v % 2 = 1 then 0 else 1 + ctzNat k (v / 2)

/-- One bits among the low `k`. -/
def popNat : Nat → Nat → Nat
  | 0, _ => 0
  | k + 1, v => v % 2 + popNat k (v / 2)

def clzI (n : Nat) (a _b : BitVec n) : BitVec n := BitVec.ofNat n (clzNat n a.toNat)
def ctzI (n : Nat) (a _b : BitVec n) : BitVec n := BitVec.ofNat n (ctzNat n a.toNat)
def popcI (n : Nat) (a _b : BitVec n) : BitVec n := BitVec.ofNat n (popNat n a.toNat)

/-- ADDS (07 R169). -/
def addSat (n : Nat) (a b : BitVec n) : BitVec n :=
  BitVec.ofInt n (clampInt (a.toInt + b.toInt) (-(2 ^ (n - 1) : Nat)) ((2 ^ (n - 1) : Nat) - 1))

/-- The carry-less product (07 R172): the exclusive or of a shifted by each set bit of b. -/
def clmulNat : Nat → Nat → Nat → Nat
  | 0, _, _ => 0
  | k + 1, a, b => (if b % 2 = 1 then a else 0) ^^^ clmulNat k (2 * a) (b / 2)

def clmulLo (n : Nat) (a b : BitVec n) : BitVec n := BitVec.ofNat n (clmulNat n a.toNat b.toNat)
def clmulHi (n : Nat) (a b : BitVec n) : BitVec n := BitVec.ofNat n (clmulNat n a.toNat b.toNat / 2 ^ n)

/-- Field position and length of BFX and BFI (07 R171). -/
def bfPos (b : Word) : Nat := b.toNat % 64
def bfLen (b : Word) : Nat := min (b.toNat / 64 % 128) (64 - bfPos b)

/-- BFX (07 R171). -/
def bfxVal (a b : Word) : Word :=
  let len := bfLen b
  let f := a.toNat / 2 ^ bfPos b % 2 ^ len
  if b.getLsbD 13 && decide (0 < len) then BitVec.ofInt 64 (signedOf len f) else BitVec.ofNat 64 f

/-- BFI (07 R171): d with the field replaced by the low bits of a. -/
def bfiVal (d a b : Word) : Word :=
  let m := (BitVec.ofNat 64 (2 ^ bfLen b - 1)) <<< bfPos b
  (d &&& ~~~m) ||| ((a <<< bfPos b) &&& m)

/-- The bytes of the low n bits in reverse order (07 R175). -/
def bswapI (n : Nat) (a _b : BitVec n) : BitVec n := BitVec.ofNat n (leNat (leBytes (n / 8) a.toNat).reverse)

/-- One CRC-32C bit step and one byte step (07 R176). -/
def crcBits : Nat → BitVec 32 → BitVec 32
  | 0, c => c
  | k + 1, c => crcBits k (if c.getLsbD 0 then (c >>> 1) ^^^ 0x82F63B78#32 else c >>> 1)

def crcBytes : List Byte → BitVec 32 → BitVec 32
  | [], c => c
  | b :: bs, c => crcBytes bs (crcBits 8 (c ^^^ b.setWidth 32))

/-- CRC32C over 8 bytes of b, or 4 when narrow (07 R176). -/
def crcVal (narrow : Bool) (a b : Word) : Word :=
  (crcBytes (leBytes (if narrow then 4 else 8) b.toNat) (a.setWidth 32)).setWidth 64

/-! ## Shared shapes -/

/-- Two operands read, ports kept, one result pushed. -/
def iTwo (u : ISlot) (d a : Opnd) (b : OpB) (lat : Nat) (f : Word → Word → Word) (s : State) : Result :=
  let k := s.cur
  let pa := k.opnd u.slot a
  let pb := k.opndB u.slot b
  .next (s.setCur (((k.keepA u.slot pa).keepB u.slot pb).push (destOf u.slot d) (.word (f pa.word pb.word)) (k.cycle + lat)))

/-- One operand read. -/
def iOne (u : ISlot) (d a : Opnd) (lat : Nat) (f : Word → Word) (s : State) : Result :=
  let k := s.cur
  let pa := k.opnd u.slot a
  .next (s.setCur ((k.keepA u.slot pa).push (destOf u.slot d) (.word (f pa.word)) (k.cycle + lat)))

/-- A two-operand instruction of all widths (07 R168). -/
def iAlu (p : IArgs) (lat : Nat) (f : (n : Nat) → BitVec n → BitVec n → BitVec n) (s : State) : Result :=
  iTwo p.u p.d p.a p.b lat (atWidth p.w f) s

/-- A one-operand instruction of all widths (07 R168). -/
def iUnary (p : IUn) (lat : Nat) (f : (n : Nat) → BitVec n → BitVec n → BitVec n) (s : State) : Result :=
  iOne p.u p.d p.a lat (fun a => atWidth p.w f a a) s

/-- The value d holds at issue, for the instructions that also read d (07 R171, R175). -/
def Core.oldD (k : Core) (u : ISlot) (d : Opnd) : Word := (k.opnd u.slot d).word

/-! ## The instructions -/

def execINop (_u : ISlot) (s : State) : Result := .next s
def execAdd (p : IArgs) (s : State) : Result := iAlu p 1 (fun _ a b => a + b) s
def execSub (p : IArgs) (s : State) : Result := iAlu p 1 (fun _ a b => a - b) s
def execMul (p : IArgs) (s : State) : Result := iAlu p 3 (fun _ a b => a * b) s
def execMulhs (p : IArgs) (s : State) : Result := iAlu p 3 mulHighS s
def execMulhu (p : IArgs) (s : State) : Result := iAlu p 3 mulHighU s
def execDivs (p : IArgs) (s : State) : Result := iAlu p 18 divS s
def execDivu (p : IArgs) (s : State) : Result := iAlu p 18 divU s
def execRems (p : IArgs) (s : State) : Result := iAlu p 18 remS s
def execRemu (p : IArgs) (s : State) : Result := iAlu p 18 remU s
def execAnd (p : IArgs) (s : State) : Result := iAlu p 1 (fun _ a b => a &&& b) s
def execOr (p : IArgs) (s : State) : Result := iAlu p 1 (fun _ a b => a ||| b) s
def execXor (p : IArgs) (s : State) : Result := iAlu p 1 (fun _ a b => a ^^^ b) s
def execAndn (p : IArgs) (s : State) : Result := iAlu p 1 (fun _ a b => a &&& ~~~b) s
def execShl (p : IArgs) (s : State) : Result := iAlu p 1 shl s
def execShr (p : IArgs) (s : State) : Result := iAlu p 1 shr s
def execSar (p : IArgs) (s : State) : Result := iAlu p 1 sar s
def execRor (p : IArgs) (s : State) : Result := iAlu p 1 ror s
def execMin (p : IArgs) (s : State) : Result := iAlu p 1 minS s
def execMax (p : IArgs) (s : State) : Result := iAlu p 1 maxS s
def execMinu (p : IArgs) (s : State) : Result := iAlu p 1 minU s
def execMaxu (p : IArgs) (s : State) : Result := iAlu p 1 maxU s
def execAbs (p : IUn) (s : State) : Result := iUnary p 1 absI s
def execClz (p : IUn) (s : State) : Result := iUnary p 1 clzI s
def execCtz (p : IUn) (s : State) : Result := iUnary p 1 ctzI s
def execPopc (p : IUn) (s : State) : Result := iUnary p 1 popcI s
def execBfx (p : IArgs64) (s : State) : Result := iTwo p.u p.d p.a p.b 1 bfxVal s
def execBfi (p : IArgs64) (s : State) : Result := iTwo p.u p.d p.a p.b 1 (bfiVal (s.cur.oldD p.u p.d)) s
def execClmul (p : IArgs) (s : State) : Result := iAlu p 2 clmulLo s
def execClmulh (p : IArgs) (s : State) : Result := iAlu p 2 clmulHi s

/-- CMP (07 R173): a register receives `wext(c)`, a flag receives c. -/
def execCmp (u : ISlot) (w : Width) (c : Cond) (d : CmpDst) (a : Opnd) (b : OpB) (s : State) : Result :=
  let k := s.cur
  let pa := k.opnd u.slot a
  let pb := k.opndB u.slot b
  let v := boolWord (condAt w c pa.word pb.word)
  let dst := match d with | .reg r => destOf u.slot r | .flag n => some (.f n.toNat)
  .next (s.setCur (((k.keepA u.slot pa).keepB u.slot pb).push dst (.word (match d with | .reg _ => wext w v | .flag _ => v))
    (k.cycle + 1)))

/-- SEL (07 R174): f_k is read at issue. -/
def execSel (u : ISlot) (w : Width) (k : BitVec 4) (d a b : Opnd) (s : State) : Result :=
  let sel := s.cur.regs.f.getLsbD k.toNat
  iTwo u d a (.op b) 1 (fun x y => wext w (if sel then x else y)) s

def execMov (p : IUn) (s : State) : Result := iOne p.u p.d p.a 1 (wext p.w) s

/-- A literal is operand b (05 R100): the b port then holds it (05 R108). -/
def Core.takeLit (k : Core) (s : Slot) (l : Lit) : Core := k.keepB s (k.opndB s (.lit l))

def execMovl (u : ISlot) (d : Opnd) (l : Lit) (s : State) : Result :=
  let k := s.cur
  .next (s.setCur ((k.takeLit u.slot l).push (destOf u.slot d) (.word (widenWord l)) (k.cycle + 1)))

/-- MOVH: L in the high half over the old low half of d (07 R175). -/
def execMovh (u : ISlot) (d : Opnd) (l : W32) (s : State) : Result :=
  let k := s.cur
  .next (s.setCur ((k.takeLit u.slot ⟨.w0, l⟩).push (destOf u.slot d) (.word (l ++ (k.oldD u d).setWidth 32))
    (k.cycle + 1)))

/-- LEA: the sum sign-extended from bit 56 (07 R175). -/
def execLea (p : IArgs64) (s : State) : Result :=
  iTwo p.u p.d p.a p.b 1 (fun a b => ((a + b).setWidth 57).signExtend 64) s

/-- XCP from a scalar slot (05 R113): the value commits in the other file after the path's latency (06 R128). -/
def xcpFrom (src : Slot) (x : XArgs) (s : State) : Result :=
  let k := s.cur
  let pa := k.opnd src x.src
  .next (s.setCur ((k.keepA src pa).push (some (xcpDest x.dst x.ix)) (xcpVal x.dst pa.word)
    (k.cycle + xcpLatency src x.dst)))

def execXcp (u : ISlot) (x : XArgs) (s : State) : Result := xcpFrom u.slot x s
def execAdds (p : IArgs) (s : State) : Result := iAlu p 1 addSat s
def execBswap (p : IUn) (s : State) : Result := iUnary p 1 bswapI s
def execCrc32c (narrow : Bool) (p : IArgs64) (s : State) : Result := iTwo p.u p.d p.a p.b 2 (crcVal narrow) s

end Sys2Proof.Machine
end

