-- ==== Sys2Proof/Machine/Translate.lean ====
section
/-!
DEFINITION. Virtual addresses: the core's windows (09 R201, R202), the page-table walk (12 R298 to R300), TLBs (12 R302), and
the protection of physical ranges (09 R205, R206, R209, R488).
-/
namespace Sys2Proof.Machine

open Sys2Proof

/-- What an access does (12 R300, R307). -/
inductive Access | read | write | fetch
  deriving DecidableEq, Repr

def Access.kind : Access → BitVec 2 | .read => 0 | .write => 1 | .fetch => 2

/-- Canonical: bits [63:57] equal bit 56 (09 R201). -/
def canonical (va : Word) : Bool := (va.setWidth 57).signExtend 64 == va

/-- A 57-bit address sign-extended (09 R213, 13 R309). -/
def signVa (v : Nat) : Word := (BitVec.ofNat 57 v).signExtend 64

/-- Where a virtual address lies (09 R202). -/
inductive Place
  | tile (core : Nat) (off : Nat)
  | mram (off : Nat)
  | nowhere
  | virt
  deriving DecidableEq, Repr

/-- The place of an address as core n sees it: window block, or translated. -/
def placeOf (n : Nat) (va : Word) : Place :=
  if !canonical va then .nowhere
  else if va.toNat < 0xFFFFFFFF00000000 then .virt
  else
    let o := va.toNat - 0xFFFFFFFF00000000
    if o < 0x200000 then .tile n o
    else if 0x1000000 ≤ o ∧ o < 0x1800000 then .tile (n / 4 * 4 + (o - 0x1000000) / 0x200000) ((o - 0x1000000) % 0x200000)
    else if 0x2000000 ≤ o ∧ o < 0x2400000 then .mram (o - 0x2000000)
    else .nowhere

/-- A page-table entry, or nothing when its bytes hold an uncorrectable error. A valid entry that a walk has used stands until a TLB
invalidation removes it (12 R301). -/
def State.tableEntry (s : State) (pa : Nat) : Option Word :=
  match Sparse.find? s.walked pa with
  | some e => some e.entry
  | none => if s.readFails pa then none else some (BitVec.ofNat 64 (leNat (s.bytes pa 8)))

/-- Result of a walk. -/
inductive WalkRes
  | leaf (e : Word) (big : Bool)
  | fault
  | ue
  deriving DecidableEq, Repr

/-- A valid non-leaf entry gives the next table (12 R299, R300); `low` is the alignment the table needs. -/
def nextTable (e : Word) (low : Nat) : Option Nat :=
  if e.getLsbD 0 && e.extractLsb' 52 12 == 0 && e.extractLsb' 1 11 == 0 && e.toNat / 4096 * 4096 % low == 0 then
    some (e.toNat / 4096 * 4096)
  else none

/-- A well-formed leaf: reserved bits 0, frame aligned to its page (12 R299, R300). -/
def leafOk (e : Word) (big : Bool) : Bool :=
  e.getLsbD 0 && e.extractLsb' 52 12 == 0 && e.extractLsb' 6 6 == 0 && !e.getLsbD 4 && (e.getLsbD 3 == big) &&
    e.toNat / 4096 * 4096 % (if big then 0x200000 else 0x10000) == 0

/-- Level 3 of a walk, in the table at `t` (12 R298): the 2 MiB entry first, then the 64 KiB one. -/
def State.walkLeaf (s : State) (va : Word) (t : Nat) : WalkRes :=
  let ix (lo len : Nat) : Nat := va.toNat / 2 ^ lo % 2 ^ len
  match s.tableEntry (t + 8 * (ix 21 8 * 32)) with
  | none => .ue
  | some b =>
    if b.getLsbD 0 && b.getLsbD 3 then (if leafOk b true then .leaf b true else .fault)
    else match s.tableEntry (t + 8 * ix 16 13) with
      | none => .ue
      | some l => if leafOk l false then .leaf l false else .fault

/-- Levels 0 to 2: first index bit, index bits and the alignment of the next table (12 R298). -/
def walkLevels : List (Nat × Nat × Nat) := [(47, 10, 4096), (38, 9, 4096), (29, 9, 65536)]

/-- The walk through the given levels from the table at `t`. -/
def State.walkFrom (s : State) (va : Word) : List (Nat × Nat × Nat) → Nat → WalkRes
  | [], t => s.walkLeaf va t
  | (lo, len, low) :: ls, t =>
    match s.tableEntry (t + 8 * (va.toNat / 2 ^ lo % 2 ^ len)) with
    | none => .ue
    | some e => match nextTable e low with
      | none => .fault
      | some t1 => State.walkFrom s va ls t1

/-- The root table. -/
def State.rootTable (s : State) : Nat := s.xregs.ptroot.toNat % 2 ^ 52 / 8192 * 8192

/-- The walk of 12 R298 from PTROOT. -/
def State.walk (s : State) (va : Word) : WalkRes := s.walkFrom va walkLevels s.rootTable

/-- The 64 KiB unit of an address (12 R303). -/
def unitOf (va : Word) : Nat := va.toNat / 65536 % 2 ^ 41

def TlbEntry.covers (t : TlbEntry) (unit : Nat) : Bool := if t.big then t.unit / 32 == unit / 32 else t.unit == unit

/-- The physical address a leaf gives (12 R298). -/
def leafPa (e : Word) (big : Bool) (va : Word) : Nat :=
  let page := if big then 0x200000 else 0x10000
  e.toNat % 2 ^ 52 / 4096 * 4096 / page * page + va.toNat % page

/-- Outcome of a translation: the physical address, the leaf, and whether neither TLB held it. -/
inductive XRes
  | ok (pa : Nat) (leaf : Word) (missed : Bool)
  | fault
  | ue
  deriving DecidableEq, Repr

/-- Translation of a canonical address outside the window block for core n: L1 TLB, L2 TLB of its die, walk (12 R302). It misses where the
core's own TLB has no entry. -/
def State.xlate (s : State) (n : Nat) (va : Word) : XRes :=
  let u := unitOf va
  match (s.core n).tlb.find? (·.covers u) with
  | some t => .ok (leafPa t.leaf t.big va) t.leaf false
  | none => match (s.die (dieOf n)).l2tlb.find? (·.covers u) with
    | some t => .ok (leafPa t.leaf t.big va) t.leaf true
    | none => match s.walk va with
      | .leaf e big => .ok (leafPa e big va) e true
      | .fault => .fault
      | .ue => .ue

/-- Translation by an engine of a die, through the die's TLB. -/
def State.xlateDie (s : State) (d : Nat) (va : Word) : XRes :=
  match (s.die d).l2tlb.find? (·.covers (unitOf va)) with
  | some t => .ok (leafPa t.leaf t.big va) t.leaf false
  | none => match s.walk va with
    | .leaf e big => .ok (leafPa e big va) e true
    | .fault => .fault
    | .ue => .ue

/-! ## TLBs and walkers (12 R301, R302) -/

/-- The entry a walk gives for a unit. -/
def tlbOf (unit : Nat) (big : Bool) (leaf : Word) : TlbEntry := ⟨if big then unit / 32 * 32 else unit, big, leaf⟩

/-- A TLB with one more entry; past its size the oldest goes. -/
def tlbAdd (size : Nat) (l : List TlbEntry) (e : TlbEntry) : List TlbEntry :=
  let l := l.filter (fun t => t != e) ++ [e]
  l.drop (l.length - size)

/-- The valid entries a walk passes, with their addresses and the units each covers. -/
def State.walkPath (s : State) (va : Word) : List (Nat × Nat × Nat) → Nat → List (Nat × WalkEntry)
  | [], t =>
    let u := unitOf va
    let at32 := t + 8 * (va.toNat / 2 ^ 21 % 2 ^ 8 * 32)
    match s.walkLeaf va t with
    | .leaf e true => [(at32, ⟨e, u / 32 * 32, 32⟩)]
    | .leaf e false => [(t + 8 * (va.toNat / 2 ^ 16 % 2 ^ 13), ⟨e, u, 1⟩)]
    | _ => []
  | (lo, len, low) :: ls, t =>
    let a := t + 8 * (va.toNat / 2 ^ lo % 2 ^ len)
    match s.tableEntry a with
    | none => []
    | some e => match nextTable e low with
      | none => []
      | some t1 => (a, ⟨e, unitOf va / 2 ^ (lo - 16) * 2 ^ (lo - 16), 2 ^ (lo - 16)⟩) :: State.walkPath s va ls t1

/-- A walk has read its entries: the valid ones stand until an invalidation (R301). -/
def State.keepWalk (s : State) (va : Word) : State :=
  { s with walked := (s.walkPath va walkLevels s.rootTable).foldl (fun m p => Sparse.put m p.1 p.2) s.walked }

/-- A walk for a die: the B-die's 512-entry cache holds its entries of levels 0 to 2, newest last. -/
def State.noteWalk (s : State) (d : Nat) (va : Word) : State :=
  let path := s.walkPath va walkLevels s.rootTable
  let upper := (path.filter (fun p => decide (32 < p.2.units))).map (·.1)
  let kept := (Sparse.get s.walkCache [] (d / 4)).filter (fun a => !upper.contains a) ++ upper
  { s.keepWalk va with
    walkCache := if upper.isEmpty then s.walkCache else Sparse.put s.walkCache (d / 4) (kept.drop (kept.length - 512)) }

/-- What a translation leaves behind for a die that had no entry: its walk, and the entry in its L2 TLB. -/
def State.noteXlate (s : State) (d : Nat) (va : Word) : State :=
  if (s.die d).l2tlb.any (·.covers (unitOf va)) then s
  else match s.walk va with
    | .leaf e big => (s.noteWalk d va).modDie d (fun x => { x with l2tlb := tlbAdd 4096 x.l2tlb (tlbOf (unitOf va) big e) })
    | _ => s.noteWalk d va

/-- The pages an engine of a die has used (12 R302). -/
def State.noteAddrs (s : State) (d : Nat) (vas : List Word) : State :=
  (dedup (vas.filterMap (fun va => match placeOf 0 va with | .virt => some (unitOf va) | _ => none))).foldl
    (fun s u => s.noteXlate d (signVa (u * 0x10000))) s

/-- The first unit of the page a unit lies in: misses on one page are one miss (12 R302). -/
def State.pageUnit (s : State) (unit : Nat) : Nat :=
  match s.walk (signVa (unit * 0x10000)) with | .leaf _ true => unit / 32 * 32 | _ => unit

/-- A miss of core n on a unit: an entry of the die's L2 TLB fills the core's own, else the miss waits for its walk. -/
def State.missOn (s : State) (n u : Nat) : State :=
  let d := dieOf n
  let unit := s.pageUnit u
  match (s.die d).l2tlb.find? (·.covers unit) with
  | some t => s.modCore n (fun k => { k with tlb := if k.tlb.any (·.covers unit) then k.tlb else tlbAdd 64 k.tlb t })
  | none =>
    let s1 := if (s.core n).misses.contains unit then s else s.modCore n (fun k => { k with misses := k.misses ++ [unit] })
    (s1.noteWalk d (signVa (unit * 0x10000))).modDie d (fun x => { x with walks := if x.walks.contains unit then x.walks else x.walks ++ [unit] })

/-- Walks of a stack's dies being served, as (die, unit). -/
def State.serving (s : State) (stack : Nat) : List (Nat × Nat) := (Sparse.get s.walkers (0, []) stack).2

/-- A stack's walkers take waiting walks while one of the 32 is free: each die's oldest, the dies round-robin. The first argument bounds
them. -/
def State.takeWalks (s : State) (stack : Nat) : Nat → State
  | 0 => s
  | f + 1 =>
    let (turn, busy) := Sparse.get s.walkers (0, []) stack
    let next (d : Nat) : Option Nat := (s.die d).walks.find? (fun u => !busy.contains (d, u))
    match ((List.range 4).map (fun i => 4 * stack + (turn + i) % 4)).find? (fun d => (next d).isSome) with
    | none => s
    | some d => match next d with
      | none => s
      | some u =>
        if 32 ≤ busy.length then s
        else State.takeWalks { s with walkers := Sparse.put s.walkers stack ((d + 1) % 4, busy ++ [(d, u)]) } stack f

/-- Walkers with something to take. -/
def State.pumpWalks (s : State) : State :=
  (dedup ((s.dies.filter (fun p => !p.2.walks.isEmpty)).map (fun p => p.1 / 4))).foldl (fun s st => s.takeWalks st 32) s

/-- Leaf permissions (12 R300). -/
def leafAllows (e : Word) (a : Access) (priv : Bool) : Bool :=
  (priv || !e.getLsbD 5) && (match a with | .read => true | .write => e.getLsbD 1 | .fetch => e.getLsbD 2)

/-- Which uses of a physical address are allowed, the Glove apart (09 R205, R206, R488): a remote address of the host window
or the device registers, and the host window itself, are refused to all; the other ranges beside DRAM and CXL memory to
unprivileged slices. -/
def State.rangeAllows (s : State) (pa : Nat) (priv : Bool) : Bool :=
  match rangeOf pa with
  | .dram | .cxl => true
  | .host => false
  | .device => priv && paModule pa == s.modid
  | .mram | .tile | .sync | .reserved => priv

/-- The address a core access resolves to, or the trap it takes. `sealed` says that the access is one of the sealed read paths
(09 R209, R210). -/
inductive Resolved
  | own (off : Nat)
  | nbr (core off : Nat)
  | mram (off : Nat)
  | phys (pa : Nat) (missed : Bool)
  | trap (code : Byte)
  deriving DecidableEq, Repr

def State.resolve (s : State) (n : Nat) (va : Word) (a : Access) (glove : Bool) : Resolved :=
  let priv := (s.core n).priv
  match placeOf n va with
  | .nowhere => .trap tProt
  | .tile c o => if c = n then .own o else .nbr c o
  | .mram o => .mram o
  | .virt => match s.xlate n va with
    | .fault => .trap tPageFault
    | .ue => .trap tEccUe
    | .ok pa e missed =>
      if !leafAllows e a priv || s.podGlove pa then .trap tProt
      else if s.inGlove pa then (if glove then .phys pa missed else .trap tProt)
      else if glove then .trap tProt
      else if s.rangeAllows pa priv then .phys pa missed else .trap tProt

end Sys2Proof.Machine
end

