-- ==== Sys2Proof/Machine/Streams.lean ====
section
/-!
DEFINITION. Stream registers: descriptor fields (09 R212), the walk (R214), the check (R215), and a use that reads or writes
the next element group (R216 to R222).
-/
namespace Sys2Proof.Machine

open Sys2Proof

/-- A fault found by an operand or an access: trap code, stream subcode, address, KIND. -/
structure Flt where
  code : Byte
  sub : Byte
  addr : Word
  kind : BitVec 2
  deriving DecidableEq, Repr

/-- Stream fault subcodes (09 R223, 11 R265). -/
def sfUnconfigured : Byte := 0x01
def sfExhausted : Byte := 0x02
def sfDirection : Byte := 0x03
def sfTypePort : Byte := 0x04
def sfScaleShort : Byte := 0x05
def sfBounds : Byte := 0x06
def sfBadDesc : Byte := 0x07
def sfMramPort : Byte := 0x08
def sfPinLimit : Byte := 0x09
def sfBadRegion : Byte := 0x0A
def sfTypeMismatch : Byte := 0x0B
def sfModeMismatch : Byte := 0x0C

def streamFlt (sub : Byte) : Flt := ⟨tStream, sub, 0, 3⟩

/-! ## Descriptor fields (09 R212) -/

abbrev Desc := BitVec 512

def Desc.field (d : Desc) (lo len : Nat) : Nat := (d.extractLsb' lo len).toNat
def Desc.sfield (d : Desc) (lo : Nat) : Int := (d.extractLsb' lo 32).toInt
def Desc.base (d : Desc) : Nat := Desc.field d 0 57
def Desc.space (d : Desc) : Nat := Desc.field d 60 3
def Desc.writes (d : Desc) : Bool := d.getLsbD 63
def Desc.dims (d : Desc) : Nat := Desc.field d 250 2 + 1
def Desc.scaled (d : Desc) : Bool := d.getLsbD 249
def Desc.ty (d : Desc) : ElemTy := ElemTy.ofCode (d.extractLsb' 252 4)
def Desc.sbase (d : Desc) : Nat := Desc.field d 256 57
def Desc.pbase (d : Desc) : Nat := Desc.field d 320 57
def Desc.sstride (d : Desc) : Int := Desc.sfield d 384
def Desc.exh (d : Desc) : Bool := d.getLsbD 447

/-- Count n_d of a dimension, 1 above NDIMM. -/
def Desc.count (d : Desc) (k : Nat) : Nat := if k < Desc.dims d then Desc.field d (64 + 16 * k) 16 + 1 else 1
def Desc.pos (d : Desc) (k : Nat) : Nat := Desc.field d (448 + 16 * k) 16
/-- Signed byte stride of dimension k, 1 to 3. -/
def Desc.stride (d : Desc) (k : Nat) : Int := if 0 < k ∧ k < Desc.dims d then Desc.sfield d (128 + 32 * (k - 1)) else 0

/-- Total elements N (09 R214). -/
def Desc.total (d : Desc) : Nat := Desc.count d 0 * Desc.count d 1 * Desc.count d 2 * Desc.count d 3

/-- Current ordinal o (09 R214). -/
def Desc.ord (d : Desc) : Nat :=
  if Desc.exh d then Desc.total d
  else Desc.pos d 0 + Desc.count d 0 * (Desc.pos d 1 + Desc.count d 1 * (Desc.pos d 2 + Desc.count d 2 * Desc.pos d 3))

/-- Replacing bits of a descriptor. -/
def Desc.setField (d : Desc) (lo len v : Nat) : Desc :=
  let m : Desc := BitVec.ofNat 512 ((2 ^ len - 1) * 2 ^ lo)
  (d &&& ~~~m) ||| (BitVec.ofNat 512 (v % 2 ^ len * 2 ^ lo))

/-- The descriptor with its position rewritten from o: at N the walk is exhausted and every POS is 0 (09 R215, R216). -/
def Desc.setOrd (d : Desc) (o : Nat) : Desc :=
  let n := Desc.total d
  let e := if n ≤ o then 0 else o
  let n0 := Desc.count d 0
  let n1 := Desc.count d 1
  let n2 := Desc.count d 2
  let pos := e % n0 + e / n0 % n1 * 2 ^ 16 + e / (n0 * n1) % n2 * 2 ^ 32 + e / (n0 * n1 * n2) * 2 ^ 48
  Desc.setField (Desc.setField d 448 64 pos) 447 1 (if n ≤ o then 1 else 0)

/-- The check of 09 R215, with the reserved fields of R212 and R213. -/
def Desc.good (d : Desc) : Bool :=
  let t := Desc.ty d
  let z (lo len : Nat) : Bool := Desc.field d lo len == 0
  let sp := Desc.space d
  let es := t.bits / 8
  let nd := Desc.dims d
  let strides := [Desc.stride d 1, Desc.stride d 2, Desc.stride d 3]
  let unused := (List.range 4).all (fun k => decide (k < nd) ||
    (z (64 + 16 * k) 16 && Desc.pos d k == 0 && (k == 0 || z (128 + 32 * (k - 1)) 32)))
  let reserved := z 57 3 && z 224 25 && z 313 7 && z 377 7 && z 416 31 &&
    (t.is6 || z 320 57) && (Desc.scaled d || z 256 57) && unused &&
    (sp != 0 || (z 24 33 && (d.getLsbD 23 || z 21 2))) && (sp != 1 || z 22 35)
  reserved && decide (sp < 5) && !(Desc.writes d && (sp == 1 || sp == 4)) &&
  decide (Desc.total d ≤ 2 ^ 48) &&
  (List.range 4).all (fun k => decide (Desc.pos d k < Desc.count d k)) &&
  !(Desc.exh d && (List.range 4).any (fun k => Desc.pos d k != 0)) &&
  (t.bits < 8 || (Desc.base d % es == 0 && strides.all (fun x => x % (es : Int) == 0))) &&
  (t.bits != 4 || Desc.count d 0 % 2 == 0) &&
  (!t.is6 || (!Desc.writes d && Desc.count d 0 % 4 == 0 && strides.all (fun x => x % 2 == 0))) &&
  (!Desc.scaled d || ((match t with | .mxf4 | .mxf6a | .mxf6b | .mxi8 | .d8 => true | _ => false) &&
    decide (nd ≤ 2) && !Desc.writes d))

/-! ## The walk (09 R214) -/

/-- Index of element e in dimension 0, and its row offset. -/
def Desc.idx0 (d : Desc) (e : Nat) : Nat := e % Desc.count d 0
def Desc.idx1 (d : Desc) (e : Nat) : Nat := e / Desc.count d 0 % Desc.count d 1
def Desc.row (d : Desc) (e : Nat) : Int :=
  let n0 := Desc.count d 0
  let n1 := Desc.count d 1
  let n2 := Desc.count d 2
  (Desc.idx1 d e : Int) * Desc.stride d 1 + (e / (n0 * n1) % n2 : Nat) * Desc.stride d 2 +
    (e / (n0 * n1 * n2) : Nat) * Desc.stride d 3

/-- A part of an element: a byte position in the stream's space, and which bits of that byte are the element's. -/
structure Part where
  at_ : Int
  lo : Nat
  len : Nat
  deriving DecidableEq, Repr

/-- Base of an array in its space: an offset for TILE and MRAM, a sign-extended virtual address otherwise (09 R213). -/
def Desc.origin (d : Desc) (b : Nat) : Int :=
  match Desc.space d with
  | 0 => (b % 2 ^ 21 : Nat)
  | 1 => (b % 2 ^ 22 : Nat)
  | _ => ((signVa b).toNat : Nat)

/-- The parts of element e, least significant first. -/
def Desc.parts (d : Desc) (e : Nat) : List Part :=
  let t := Desc.ty d
  let i := Desc.idx0 d e
  let o := Desc.origin d (Desc.base d)
  let row := Desc.row d e
  if 8 ≤ t.bits then
    (List.range (t.bits / 8)).map (fun b => ⟨o + (i * (t.bits / 8) + b : Nat) + row, 0, 8⟩)
  else
    let low : Part := ⟨o + (i / 2 : Nat) + row, 4 * (i % 2), 4⟩
    if t.is6 then
      [low, ⟨Desc.origin d (Desc.pbase d) + (i / 4 : Nat) + row / 2, 2 * (i % 4), 2⟩]
    else [low]

/-- The scale byte of element e (09 R214). -/
def Desc.scalePart (d : Desc) (e : Nat) : Part :=
  ⟨Desc.origin d (Desc.sbase d) + (Desc.idx0 d e / 32 : Nat) + (Desc.idx1 d e : Int) * Desc.sstride d, 0, 8⟩

/-- The window a TILE stream lies in (09 R202): own tile, or a quad neighbour's. -/
def streamWindow (d : Desc) : Word :=
  if d.getLsbD 23 then BitVec.ofNat 64 (0xFFFFFFFF01000000 + 0x200000 * Desc.field d 21 2) else 0xFFFFFFFF00000000

/-- Where a byte of a stream lies, with the pages its translation missed: physical address, or the fault (09 R201, R202, R205,
R209, R210, R216). Own tile SRAM and own MRAM are given by physical addresses too. -/
def State.streamByte (s : State) (n : Nat) (d : Desc) (a : Access) (at_ : Int) : Except Flt (Nat × Option Nat) :=
  let flt (c : Byte) (va : Word) : Except Flt (Nat × Option Nat) := .error ⟨c, 0, va, a.kind⟩
  match Desc.space d with
  | 0 =>
    if at_ < 0 ∨ 2 ^ 21 ≤ at_ then .error ⟨tStream, sfBounds, streamWindow d + BitVec.ofInt 64 at_, a.kind⟩
    else
      let c := if d.getLsbD 23 then n / 4 * 4 + Desc.field d 21 2 else n
      let pa := tileBase s.modid c + at_.toNat
      if a = .read ∧ s.poisoned pa then flt tEccUe (streamWindow d + BitVec.ofInt 64 at_) else .ok (pa, none)
  | 1 =>
    if at_ < 0 ∨ 2 ^ 22 ≤ at_ then .error ⟨tStream, sfBounds, 0xFFFFFFFF02000000 + BitVec.ofInt 64 at_, a.kind⟩
    else
      let pa := mramBase s.modid n + at_.toNat
      if s.inGlove pa ∨ !s.blockValid pa then flt tProt (0xFFFFFFFF02000000 + BitVec.ofInt 64 at_)
      else if s.poisoned pa then flt tEccUe (0xFFFFFFFF02000000 + BitVec.ofInt 64 at_) else .ok (pa, none)
  | sp =>
    let va := BitVec.ofInt 64 at_
    let sound (pa : Nat) : Except Flt (Nat × Option Nat) := if a = .read ∧ s.poisoned pa then flt tEccUe va else .ok (pa, none)
    match s.resolve n va a (sp == 4) with
    | .trap c => flt c va
    | .own o => if sp = 4 then flt tProt va else sound (tileBase s.modid n + o)
    | .nbr c o => if sp = 4 then flt tProt va else sound (tileBase s.modid c + o)
    | .mram o =>
      let pa := mramBase s.modid n + o
      if sp = 4 ∨ a ≠ .read ∨ s.inGlove pa ∨ !s.blockValid pa then flt tProt va else sound pa
    | .phys pa missed =>
      if rangeOf pa = .device ∨ !s.blockValid pa then flt tProt va
      else if a = .read ∧ s.readFails pa then flt tEccUe va
      else .ok (pa, if missed then some (unitOf va) else none)

/-- Operations of the open group that are a FENCE or a phase boundary. -/
def Op.fences : Op → Bool
  | .fence | .phase _ | .release _ | .acquire _ => true
  | _ => false

/-- Bytes of a list that start at `p`, over a byte. -/
def overBytes (p : Nat) (bs : List Byte) (pa : Nat) (b : Byte) : Byte :=
  if p ≤ pa then (match bs[pa - p]? with | some x => x | none => b) else b

/-- Own stores of the open group as a read in cycle `c` sees them: tile stores one cycle after their issue (09 R203), writes that still
land once they have, or at once through the path of global streams (14 R336), and every store before a FENCE or a boundary (09 R231).
`ls` says that an LS instruction reads, which sees every store of the LS path (09 R226). -/
def overlayOps (ls : Bool) (c : Nat) : List Op → Nat → Byte → Byte
  | [], _, b => b
  | o :: os, pa, b =>
    let past := os.any Op.fences
    overlayOps ls c os pa (match o with
      | .tileStore issued p bs => if past ∨ ls = true ∨ issued < c then overBytes p bs pa b else b
      | .land path due cells => if past ∨ due < c ∨ isGlobal pa ∨ (ls = true ∧ path.isLs = true) then overCells cells pa b else b
      | .globalStore p bs | .rawStore p bs => if past then overBytes p bs pa b else b
      | _ => b)

/-- Bytes of L1 that a stream read sees: dirty ones stored before a boundary (14 R336). -/
def Core.overL1 (k : Core) (fence pa : Nat) (b : Byte) : Byte :=
  match Sparse.find? k.l1 pa with | some x => if x.dirty ∧ x.stamp < fence then x.val else b | none => b

/-- A byte as the current core reads it outside L1: memory under its own stores that it sees, by an LS instruction or by a stream. -/
def State.seenBy (s : State) (ls : Bool) (pa : Nat) : Byte :=
  let k := s.cur
  let fence := k.fences + (if k.grp.ops.any Op.fences then 1 else 0)
  let mine := (k.landings.filter (fun l => isGlobal pa || decide (l.fence < fence) || (ls && l.path.isLs))).flatMap (·.cells)
  s.forced pa (overlayOps ls k.cycle k.grp.ops pa (k.overL1 fence pa (overCells mine pa (s.cell pa))))

def State.lsByte (s : State) (pa : Nat) : Byte := s.seenBy true pa
def State.seenByte (s : State) (pa : Nat) : Byte := s.seenBy false pa

/-- A byte a stream element lies in: a free value where the range has no stated contents (notes/assumptions/9.md). -/
def State.elemByte (s : State) (pa : Nat) : Byte :=
  if unstated pa then Config.freeByte ((s.cur.cycle * 2048 + s.me) * 2 ^ 52 + pa) else s.seenByte pa

/-- Reading one part: its bits, with a missed page. -/
def State.readPart (s : State) (d : Desc) (p : Part) : Except Flt (Nat × Option Nat) :=
  match s.streamByte s.me d .read p.at_ with
  | .error f => .error f
  | .ok (pa, m) => .ok ((s.elemByte pa).toNat / 2 ^ p.lo % 2 ^ p.len, m)

/-- Reading parts into a number, least significant first. -/
def State.readParts (s : State) (d : Desc) : List Part → Except Flt (Nat × List Nat)
  | [] => .ok (0, [])
  | p :: ps =>
    match s.readPart d p with
    | .error f => .error f
    | .ok (v, m) => match s.readParts d ps with
      | .error f => .error f
      | .ok (r, ms) => .ok (v + r * 2 ^ p.len, m.toList ++ ms)

/-- Elements e, e+1, …, packed from bit 0; those past N read 0 (09 R216). -/
def State.readElems (s : State) (d : Desc) : Nat → Nat → Except Flt (Nat × List Nat)
  | 0, _ => .ok (0, [])
  | g + 1, e =>
    if Desc.total d ≤ e then .ok (0, [])
    else match s.readParts d (Desc.parts d e) with
      | .error f => .error f
      | .ok (v, m) => match s.readElems d g (e + 1) with
        | .error f => .error f
        | .ok (r, ms) => .ok (v + r * 2 ^ (Desc.ty d).bits, m ++ ms)

/-- The bytes and bits an element's write touches; `keep` drops the masked-off ones after they are checked (10 R239); MRAM is not
written so (09 R202; notes/assumptions/71.md). -/
def State.writeElems (s : State) (d : Desc) (v : Nat) (keep : Nat → Bool) : Nat → Nat → Nat →
    Except Flt (List MByte × List Nat)
  | 0, _, _ => .ok ([], [])
  | g + 1, e, i =>
    if Desc.total d ≤ e then .ok ([], [])
    else
      let t := Desc.ty d
      let bits := v / 2 ^ (t.bits * i)
      let rec parts : List Part → Nat → Except Flt (List MByte × List Nat)
        | [], _ => .ok ([], [])
        | p :: ps, w =>
          match s.streamByte s.me d .write p.at_ with
          | .error f => .error f
          | .ok (pa, m) => match parts ps (w / 2 ^ p.len) with
            | .error f => .error f
            | .ok (cs, ms) =>
              let c : MByte := ⟨pa, BitVec.ofNat 8 (w % 2 ^ p.len * 2 ^ p.lo), BitVec.ofNat 8 ((2 ^ p.len - 1) * 2 ^ p.lo)⟩
              .ok ((if keep i && rangeOf pa != .mram && !unstated pa then c :: cs else cs), m.toList ++ ms)
      match parts (Desc.parts d e) bits with
      | .error f => .error f
      | .ok (cs, ms) => match State.writeElems s d v keep g (e + 1) (i + 1) with
        | .error f => .error f
        | .ok (cs', ms') => .ok (cs ++ cs', ms ++ ms')

/-- Extra cycles of a stream operand (09 R220): a quad neighbour's tile adds 4, MRAM adds 2 for LS, VA and VB. -/
def streamExtra (n : Nat) (d : Desc) : Nat :=
  match Desc.space d with
  | 0 => if d.getLsbD 23 && Desc.field d 21 2 != posOf n then 4 else 0
  | 1 => 2
  | _ => 0

/-- A stream register of the open group, checked for a use (09 R216 to R218): the register, or the fault. -/
def Core.streamFor (k : Core) (q : Nat) (write vectorPort : Bool) : Except Flt StreamReg :=
  match Sparse.find? k.grp.q q with
  | none => .error (streamFlt sfUnconfigured)
  | some r =>
    if !r.checked && !Desc.good r.desc then .error (streamFlt sfBadDesc)
    else if Desc.writes r.desc != write then .error (streamFlt sfDirection)
    else if vectorPort && ((Desc.ty r.desc).is6 || Desc.scaled r.desc) then .error (streamFlt sfTypePort)
    else if Desc.exh r.desc then .error (streamFlt sfExhausted)
    else .ok { r with checked := true }

/-- Setting a stream register of the open group. -/
def Core.putStream (k : Core) (q : Nat) (r : StreamReg) : Core := { k with grp := { k.grp with q := Sparse.put k.grp.q q r } }

/-- Streams whose data comes through the fabric: a use waits for the group to arrive (06 R131, 09 R221). -/
def Desc.fabric (d : Desc) : Bool := 2 ≤ Desc.space d

/-- Outstanding misses of a use are reported to the walkers (12 R302). -/
def Core.missAll (k : Core) (ms : List Nat) : Core := ms.foldl (fun k u => k.emit (.miss u)) k

/-- The group a read use of LS, VA or VB takes. Those slots read no sealed byte: the first element of a SEALED stream traps with PROT,
if its translation does not fault (09 R209, R216). -/
def State.readGroup (s : State) (d : Desc) (g : Nat) : Except Flt (Nat × List Nat) :=
  match Desc.space d, Desc.parts d (Desc.ord d) with
  | 4, p :: _ =>
    match s.streamByte s.me d .read p.at_ with
    | .error f => .error f
    | .ok _ => .error ⟨tProt, 0, BitVec.ofInt 64 p.at_, 0⟩
  | _, _ => s.readElems d g (Desc.ord d)

/-- The sectors of global memory that elements of a stream, their planes and scales lie in (12 R294); none of a stream that does not use
the fabric. -/
def State.streamSectors (s : State) (d : Desc) (es : List Nat) : List Nat :=
  if !Desc.fabric d then []
  else
    let parts := (es.filter (fun e => decide (e < Desc.total d))).flatMap (fun e =>
      Desc.parts d e ++ (if Desc.scaled d then [Desc.scalePart d e] else []))
    (parts.filterMap (fun p => match s.streamByte s.me d (if Desc.writes d then .write else .read) p.at_ with
      | .ok (pa, _) => some (pa / 64) | .error _ => none)).eraseDups

/-- A stream read brings its sectors to their home L2s; those of a STREAMED stream are not kept (09 R213). -/
def State.touched (s : State) (k : Core) (d : Desc) (es : List Nat) : Core :=
  if Desc.space d = 2 then k.emit (.touch (s.streamSectors d es)) else k

/-- A read use by LS (64 bits) or a vector slot (2,048 bits): the group's bits, extra latency, the core after it. -/
def State.streamRead (s : State) (k : Core) (q : Nat) (width : Nat) : Except Flt (Nat × Nat × Core) :=
  match k.streamFor q false true with
  | .error f => .error f
  | .ok r =>
    let g := width / (Desc.ty r.desc).bits
    match (s.setCur k).readGroup r.desc g with
    | .error f => .error f
    | .ok (v, ms) =>
      .ok (v, streamExtra s.me r.desc,
        (s.touched (k.missAll ms) r.desc ((List.range g).map (· + Desc.ord r.desc))).putStream q
          ⟨Desc.setOrd r.desc (Desc.ord r.desc + g), true, r.ahead - 1⟩)

/-- A write use: the cells land in the commit cycle `due`, later for a neighbour's tile (09 R220). -/
def State.streamWrite (s : State) (k : Core) (q : Nat) (width v : Nat) (keep : Nat → Bool) (due : Nat) :
    Except Flt Core :=
  match k.streamFor q true true with
  | .error f => .error f
  | .ok r =>
    let g := width / (Desc.ty r.desc).bits
    match (s.setCur k).writeElems r.desc v keep g (Desc.ord r.desc) 0 with
    | .error f => .error f
    | .ok (cs, ms) =>
      .ok (((k.missAll ms).putStream q ⟨Desc.setOrd r.desc (Desc.ord r.desc + g), true, r.ahead⟩).emit
        (.land (.stream (Desc.space r.desc == 3)) (due + streamExtra s.me r.desc) cs))

end Sys2Proof.Machine
end

