-- ==== Sys2Proof/Machine/Control.lean ====
section
/-!
DEFINITION. The C-slot instructions (07 R144 to R166, 05 R112, R113). A control transfer is a decision of the open group,
taken when the group completes; the group's other effects stand either way.
-/
namespace Sys2Proof.Machine

open Sys2Proof

def execCNop (s : State) : Result := .next s

/-- B + widen(L, b) (07 R146). -/
def Core.branchTarget (k : Core) (off : Lit) : Word := k.bundle.addr + widenWord off

/-- N, the address of the byte after the bundle (07 R146). -/
def Core.nextByte (k : Core) : Word := k.bundle.addr + BitVec.ofNat 64 k.bundle.len

def execBr (off : Lit) (s : State) : Result :=
  let k := s.cur
  .next (s.setCur ((k.takeLit .c off).leaveBy (.goto (k.branchTarget off))))

/-- A conditional branch: taken when the condition operand is nonzero, or zero (07 R146). -/
def branchIf (want : Bool) (cond : Opnd) (off : Lit) (s : State) : Result :=
  let k := s.cur
  let pa := k.opnd .c cond
  let k1 := (k.keepA .c pa).takeLit .c off
  .next (s.setCur (if (pa.word != 0) = want then k1.leaveBy (.goto (k.branchTarget off)) else k1))

def execBrt (cond : Opnd) (off : Lit) (s : State) : Result := branchIf true cond off s
def execBrf (cond : Opnd) (off : Lit) (s : State) : Result := branchIf false cond off s

def execCall (off : Lit) (s : State) : Result :=
  let k := s.cur
  .next (s.setCur (((k.takeLit .c off).push (some (.c 15)) (.word k.nextByte) (k.cycle + 1)).leaveBy
    (.goto (k.branchTarget off))))

def execRet (s : State) : Result :=
  let k := s.cur
  .next (s.setCur (k.leaveBy (.goto (k.word (.c 15)))))

def execJmpi (a : Opnd) (b : OpB) (s : State) : Result :=
  let k := s.cur
  let pa := k.opnd .c a
  let pb := k.opndB .c b
  .next (s.setCur (((k.keepA .c pa).keepB .c pb).leaveBy (.goto (pa.word + pb.word))))

/-! ## Code bytes -/

/-- The bytes of a code line, when its translation, protection and memory allow a fetch (12 R300, 18 R440). -/
def State.codeLine (s : State) (n : Nat) (line : Word) : Option (List Byte) :=
  match s.resolve n line .fetch false with
  | .phys pa _ =>
    if rangeOf pa = .device ∨ s.readFails pa then none else some (s.anyBytes pa 64)
  | _ => none

/-- Why a fetch at an address traps, or the missed unit of its translation (05 R92, 07 R148, 12 R300, 18 R440). -/
def State.fetchTrap (s : State) (n : Nat) (a : Word) : Except Byte (Option Nat) :=
  match s.resolve n a .fetch false with
  | .trap c => .error c
  | .phys pa missed =>
    if rangeOf pa = .device then .error tProt
    else if s.readFails (pa / 64 * 64) then .error tEccUe else .ok (if missed then some (unitOf a) else none)
  | _ => .error tProt

/-- Whether the address is one no fetch may use, its line cached or not: odd, or not a canonical address outside the window block. -/
def fetchBad (n : Nat) (a : Word) : Option Byte :=
  if a.getLsbD 0 then some tAlign else if placeOf n a = .virt then none else some tProt

/-- A code line of core n: from its instruction cache (05 R88), else as a fetch would bring it. -/
def State.lineOf (s : State) (n : Nat) (a : Word) : Option (List Byte) :=
  match Sparse.find? (s.core n).icache (a.toNat / 64 * 64) with
  | some l => some l
  | none => s.codeLine n (BitVec.ofNat 64 (a.toNat / 64 * 64))

/-- Leaving the open group for the byte after the bundle at END, which is decoded only for its length (07 R150, R152). The fetch of
that bundle may trap; a length that cannot be read is an illegal encoding. -/
def leavePast (k : Core) (e : Word) (s : State) : Result :=
  let trap (c : Byte) : Result := .next ((s.setCur k).faultAt .c c 0 e 2)
  match fetchBad s.me e with
  | some c => trap c
  | none => match s.lineOf s.me e with
    | none => (match s.fetchTrap s.me e with | .error c => trap c | .ok _ => trap tPageFault)
    | some l => match bundleLength (l.drop (e.toNat % 64)) with
      | .error _ => .next ((s.setCur k).faultAt .c tIllegal 0 0 3)
      | .ok n => .next (s.setCur (k.leaveBy (.goto (e + BitVec.ofNat 64 n))))

/-- END of the level an instruction leaves, when it leaves one at all: the bundle there is fetched first. -/
def Core.leavesPast (k : Core) (i : Instr) : Option Word :=
  let d := k.grp.loops.length
  match i with
  | .lbrk n => if d < n.toNat then none else (k.grp.loops[d - n.toNat]?).map (·.last)
  | .lcont => match k.grp.loops[d - 1]? with
    | some l => if l.index.toNat + 1 < l.count.toNat then none else some l.last
    | none => none
  | .loop cnt off => match cnt with
    | .imm _ => none
    | .reg a => if (k.opnd .c a).word = 0 then some (k.branchTarget off) else none
  | _ => none

/-! ## Hardware loops -/

/-- The count of a LOOP: a register value of 2^32 or more saturates (07 R150). -/
def Core.loopCount (k : Core) (cnt : LoopCount) : Port × W32 :=
  match cnt with
  | .imm n => (Port.init, n.setWidth 32)
  | .reg a =>
    let p := k.opnd .c a
    (p, if p.word.toNat < 2 ^ 32 then p.word.setWidth 32 else BitVec.allOnes 32)

/-- LOOP (07 R150). The b port holds the literal; the a port is read only in the register form. -/
def execLoop (cnt : LoopCount) (off : Lit) (s : State) : Result :=
  let k := s.cur
  let (pa, n) := k.loopCount cnt
  let k1 := (match cnt with | .imm _ => k | .reg _ => k.keepA .c pa).takeLit .c off
  let last := k.branchTarget off
  if n = 0 then leavePast k1 last s
  else if 6 ≤ k.grp.loops.length then .next (s.faultAt .c tLoopDepth 0 0 3)
  else
    let level : LoopLevel := ⟨k.grp.nextPc, last, n, 0⟩
    .next (s.setCur { k1 with grp := { k1.grp with loops := k1.grp.loops ++ [level] } })

/-- LBRK (07 R152). -/
def execLbrk (n : BitVec 3) (s : State) : Result :=
  let k := s.cur
  let d := k.grp.loops.length
  if d < n.toNat then .next (s.faultAt .c tLoopDepth 0 0 3)
  else match k.grp.loops[d - n.toNat]? with
    | none => .next (s.faultAt .c tLoopDepth 0 0 3)
    | some l => leavePast { k with grp := { k.grp with loops := k.grp.loops.take (d - n.toNat) } } l.last s

/-- The innermost level. -/
def innermost (ls : List LoopLevel) : Option LoopLevel := ls[ls.length - 1]?

/-- The loop stack with INDEX of the innermost level advanced by one. -/
def bumpIndex (ls : List LoopLevel) : List LoopLevel :=
  match innermost ls with
  | none => ls
  | some l => setNth ls (ls.length - 1) { l with index := l.index + 1 }

/-- INDEX + 1 < COUNT, as unbounded numbers (06 R139). -/
def LoopLevel.more (l : LoopLevel) : Bool := l.index.toNat + 1 < l.count.toNat

/-- LCONT (07 R152). An outer level whose END it shares stays unstepped (notes/assumptions/95.md). -/
def execLcont (s : State) : Result :=
  let k := s.cur
  match innermost k.grp.loops with
  | none => .next (s.faultAt .c tLoopDepth 0 0 3)
  | some l =>
    if l.more then
      .next (s.setCur ({ k with grp := { k.grp with loops := bumpIndex k.grp.loops } }.leaveBy (.goto l.start)))
    else leavePast { k with grp := { k.grp with loops := k.grp.loops.take (k.grp.loops.length - 1) } } l.last s

/-- LRD (07 R154): the field at issue, committed at issue + 1. -/
def execLrd (d : Opnd) (level : BitVec 3) (f : LoopField) (s : State) : Result :=
  let k := s.cur
  .next (s.setCur (k.push (destOf .c d) (.word (loopField k.loops level.toNat f)) (k.cycle + 1)))

/-- LWR (07 R154): the value commits, and then the group's end traps when the level is not on the stack.
Where the sequencer steps or pops the level in the same cycle, see notes/assumptions/97.md. -/
def execLwr (src : Opnd) (level : BitVec 3) (f : LoopField) (s : State) : Result :=
  let k := s.cur
  let pa := k.opnd .c src
  let k1 := (k.keepA .c pa).push (some (.loop level.toNat f)) (.word pa.word) (k.cycle + 1)
  if level.toNat < k.grp.loops.length then .next (s.setCur k1)
  else .next (s.setCur { k1 with grp := { k1.grp with after := some ⟨tLoopDepth, 0, 0, 3, k.grp.idx, .c⟩ } })

/-! ## Yield, exit, traps -/

/-- YIELD (07 R155) acts as NOP in a handler (17 R417). -/
def execYield (s : State) : Result :=
  let k := s.cur
  .next (if k.trap.active then s else s.setCur (k.leaveBy .yield))

def execExit (s : State) : Result := .next (s.setCur (s.cur.leaveBy .exit))

def execExitK (src : Opnd) (s : State) : Result :=
  let k := s.cur
  let pa := k.opnd .c src
  .next (s.setCur ((k.keepA .c pa).leaveBy (.exitK (pa.word.setWidth 8))))

/-- TRAP (07 R158): the group's effects commit, then the handler is entered with the saved PC at the next group. -/
def execTrap (code : Byte) (s : State) : Result :=
  let k := s.cur
  let k1 := k.takeLit .c ⟨.w0, code.setWidth 32⟩
  .next (s.setCur { k1 with grp := { k1.grp with after := some ⟨code, 0, 0, 3, k.grp.idx, .c⟩ } })

/-- ERET (07 R159): with no handler active it is an illegal encoding. -/
def execEret (s : State) : Result :=
  let k := s.cur
  if k.trap.active then .next (s.setCur (k.leaveBy .eret)) else .next (s.faultAt .c tIllegal 0 0 3)

/-! ## Checkpoints -/

/-- CKPT (07 R161); in a handler it writes no image (17 R417). -/
def execCkpt (s : State) : Result :=
  let k := s.cur
  .next (if k.trap.active then s else s.setCur (k.emit (.ckpt none)))

/-- A range-list entry: offset, length, and whether its reserved bits are 0 (07 R163). -/
def ckptEntry (bs : List Byte) (i : Nat) : Nat × Nat × Bool :=
  let e := leNat ((bs.drop (8 + 8 * i)).take 8)
  (e % 2 ^ 21, e / 2 ^ 32 % 2 ^ 21, e / 2 ^ 21 % 2 ^ 11 == 0 && e / 2 ^ 53 == 0)

/-- CKPT.T (07 R163): the list is read from own tile SRAM and checked, ALIGN first; the journal takes the ranges as the group
leaves them. A list that runs past the end of tile SRAM is PROT, and every trap records the list's window address with kind read
(notes/assumptions/96.md). A list with uncorrectable data ends the slice (18 R440). -/
def execCkptT (src : Opnd) (s : State) : Result :=
  let k := s.cur
  let pa := k.opnd .c src
  let off := pa.word.toNat % 2 ^ 21
  let va : Word := 0xFFFFFFFF00000000 + BitVec.ofNat 64 off
  let s1 := s.setCur (k.keepA .c pa)
  if off % 8 ≠ 0 then .next (s.faultAt .c tAlign 0 va 0)
  else
    let bs := (List.range (min 72 (2 ^ 21 - off))).map (fun i => s.seenByte (tileBase s.modid s.me + off + i))
    let n := leNat (bs.take 8)
    if s.spoiled (tileBase s.modid s.me + off) 8 then .next (s.faultAt .c tEccUe 0 va 0)
    else if n < 1 ∨ 8 < n ∨ 2 ^ 21 < off + 8 + 8 * n then .next (s.faultAt .c tProt 0 va 0)
    else if s.spoiled (tileBase s.modid s.me + off) (8 + 8 * n) then .next (s.faultAt .c tEccUe 0 va 0)
    else
      let es := (List.range n).map (ckptEntry bs)
      if es.any (fun e => e.1 % 64 ≠ 0 || e.2.1 % 64 ≠ 0) then .next (s.faultAt .c tAlign 0 va 0)
      else if es.any (fun e => !e.2.2 || decide (2 ^ 21 < e.1 + e.2.1)) ∨ 65536 < (es.map (·.2.1)).foldl (· + ·) 0 then
        .next (s.faultAt .c tProt 0 va 0)
      else if k.trap.active then .next s1
      else .next (s1.setCur ((k.keepA .c pa).emit (.ckpt (some (es.map (fun e => (e.1, e.2.1)))))))

def execCkptL (s : State) : Result := .next (s.setCur (s.cur.emit .ckptL))

/-! ## System registers -/

/-- The local time of a die in ns (04 R76). -/
def State.ltime (s : State) (die : Nat) : Nat := (s.ns + (s.die die).skew) % 2 ^ 64

/-- A system register of core n (06 R141, R142, 17 R416); unlisted numbers read 0 (06 R143). -/
def State.sysReg (s : State) (n num : Nat) : Word :=
  let k := s.core n
  let r := k.run.getD ⟨0, 0, 0, 0, 0, 1, false, none, false, false, none, false, none, []⟩
  let t := k.trap
  match num with
  | 0x00 => BitVec.ofNat 64 n
  | 0x01 => BitVec.ofNat 64 ((if r.priv then 256 else 0) + (Nat.log2 r.width) * 16 + r.rank)
  | 0x02 => BitVec.ofNat 64 r.slice
  | 0x03 => (recKid (s.recOf n)).setWidth 64
  | 0x04 => BitVec.ofNat 64 r.ordinal
  | 0x05 => BitVec.ofNat 64 k.issued
  | 0x06 => if recBudget (s.recOf n) = 0 then BitVec.allOnes 64 else BitVec.ofNat 64 (t.allow.toNat - k.issued)
  | 0x07 => BitVec.ofNat 64 (s.ltime (dieOf n))
  | 0x08 => BitVec.ofNat 64 (Sparse.get s.mhz 3600 (quadOf n))
  | 0x09 => BitVec.ofNat 64 s.modid
  | 0x0A => match r.deadline with | none => BitVec.allOnes 64 | some d => BitVec.ofNat 64 d
  | 0x10 => t.tcause
  | 0x11 => t.tpc
  | 0x12 => t.info.addr
  | 0x13 => t.twhere
  | 0x14 => t.tmode
  | 0x15 => t.allow
  | _ => 0

def execRdsys (d : Opnd) (n : BitVec 6) (s : State) : Result :=
  let k := s.cur
  .next (s.setCur (k.push (destOf .c d) (.word (s.sysReg s.me n.toNat)) (k.cycle + 2)))

/-- WRSYS (07 R165): privileged; only TPC is writable (17 R416), every other number has no effect (06 R143). -/
def execWrsys (src : Opnd) (n : BitVec 6) (s : State) : Result :=
  let k := s.cur
  if !k.priv then .next (s.faultAt .c tPrivilege 0 0 3)
  else
    let pa := k.opnd .c src
    .next (s.setCur ((k.keepA .c pa).emit (.wrsys n.toNat pa.word)))

/-! ## Housekeeping and flags -/

def execCXcp (x : XArgs) (s : State) : Result := xcpFrom .c x s

/-- MOVL of a scalar slot (05 R112). -/
def movlOf (slot : Slot) (d : Opnd) (l : Lit) (s : State) : Result :=
  let k := s.cur
  .next (s.setCur ((k.takeLit slot l).push (destOf slot d) (.word (widenWord l)) (k.cycle + 1)))

/-- A two-operand instruction of a scalar slot with latency 1 and no stream (05 R112). -/
def scalarTwo (slot : Slot) (p : SArgs) (f : Word → Word → Word) (s : State) : Result :=
  let k := s.cur
  let pa := k.opnd slot p.a
  let pb := k.opndB slot p.b
  .next (s.setCur (((k.keepA slot pa).keepB slot pb).push (destOf slot p.d) (.word (f pa.word pb.word)) (k.cycle + 1)))

def execCMovl (d : Opnd) (l : Lit) (s : State) : Result := movlOf .c d l s
def execCAdd (p : SArgs) (s : State) : Result := scalarTwo .c p (fun a b => a + b) s

/-- FOP (07 R166): the operands the function uses are read. -/
def execFop (d : BitVec 4) (e : FlagExp) (s : State) : Result :=
  let k := s.cur
  let one (o : Opnd) : Port := k.opnd .c o
  let (k1, v) := match e with
    | .set => (k, true)
    | .clr => (k, false)
    | .not a => (k.keepA .c (one a), (one a).word == 0)
    | .and a b => ((k.keepA .c (one a)).keepB .c (one b), (one a).word != 0 && (one b).word != 0)
    | .or a b => ((k.keepA .c (one a)).keepB .c (one b), (one a).word != 0 || (one b).word != 0)
    | .xor a b => ((k.keepA .c (one a)).keepB .c (one b), ((one a).word != 0) ^^ ((one b).word != 0))
  .next (s.setCur (k1.push (some (.f d.toNat)) (.word (boolWord v)) (k.cycle + 1)))

end Sys2Proof.Machine
end

