-- ==== Sys2Proof/Machine/Operands.lean ====
section
/-!
DEFINITION. Every operand form: which operands and registers an instruction reads and writes (05 R96), stream operands of the
LS and vector slots (09 R216, R219), and results written to registers or through streams (05 R106, 10 R239).
-/
namespace Sys2Proof.Machine

open Sys2Proof

/-- The operand code of a w pair: its even register. -/
def pairOpnd (p : WPair) : OpB := .op (.own (p.setWidth 5 * 2))

/-- What an instruction reads and writes by name: its a and b operands (which also set the slot's ports), a data operand read
without a port (ST, STX, and the instructions that read d), further registers read, registers written, a stream written. -/
structure Uses where
  a : Option Opnd
  b : Option OpB
  data : Option Opnd
  reads : List RegName
  writes : List RegName
  deriving DecidableEq, Repr

def Uses.none : Uses := ⟨Option.none, Option.none, Option.none, [], []⟩

def regList (r : Option RegName) : List RegName := r.toList
def predName (u : VSlot) (p : BitVec 2) : List RegName :=
  if p = 0 then [] else match u with | .va => [.pa p.toNat] | .vb => [.pb p.toNat]
def pairNames (p : Option WPair) : List RegName :=
  match p with | none => [] | some p => [.w (2 * p.toNat), .w (2 * p.toNat + 1)]
/-- MX instructions read their region register. -/
def acName (n : BitVec 4) : List RegName := [.ac n.toNat]

def usesTwo (s : Slot) (d a : Opnd) (b : OpB) : Uses := ⟨some a, some b, none, [], regList (destOf s d)⟩
def usesOne (s : Slot) (d a : Opnd) : Uses := ⟨some a, none, none, [], regList (destOf s d)⟩
def usesLit (s : Slot) (d : Opnd) (l : Lit) : Uses := ⟨none, some (.lit l), none, [], regList (destOf s d)⟩
def usesX (x : XArgs) : Uses := ⟨some x.src, none, none, [], [xcpDest x.dst x.ix]⟩
def usesV2 (u : VSlot) (p : BitVec 2) (d a : Opnd) (b : OpB) (rd : Bool) : Uses :=
  ⟨some a, some b, none, predName u p ++ (if rd then regList (destOf u.slot d) else []), regList (destOf u.slot d)⟩
def usesV1 (u : VSlot) (p : BitVec 2) (d a : Opnd) : Uses :=
  ⟨some a, none, none, predName u p, regList (destOf u.slot d)⟩
def usesEn (d a : Opnd) (b : Option OpB) : Uses := ⟨some a, b, none, [], regList (destOf .en d)⟩
def usesPair (d : Option WPair) (a : Opnd) (b : Option OpB) : Uses := ⟨some a, b, none, [], pairNames d⟩

/-- Reads and writes of every slot instruction (05 R96). `depth` is the loop depth, which names the i register LOOP pushes. LRD of
INDEX counts as a read of the level's i register (notes/assumptions/94.md). -/
def usesOf (depth : Nat) (i : Instr) : Uses :=
  match i with
  | .br off => ⟨none, some (.lit off), none, [], []⟩
  | .brt c off | .brf c off => ⟨some c, some (.lit off), none, [], []⟩
  | .call off => ⟨none, some (.lit off), none, [], [.c 15]⟩
  | .ret => ⟨none, none, none, [.c 15], []⟩
  | .jmpi a b => ⟨some a, some b, none, [], []⟩
  | .loop cnt off => ⟨match cnt with | .imm _ => none | .reg a => some a, some (.lit off), none, [], [.i depth]⟩
  | .lrd d level f => ⟨none, none, none, if f = .index then [.i level.toNat] else [], regList (destOf .c d)⟩
  | .lwr src level f => ⟨some src, none, none, [], if f = .index then [.i level.toNat] else []⟩
  | .exitK src | .ckptT src | .wrsys src _ => ⟨some src, none, none, [], []⟩
  | .trap code => ⟨none, some (.lit ⟨.w0, code.setWidth 32⟩), none, [], []⟩
  | .rdsys d _ => ⟨none, none, none, [], regList (destOf .c d)⟩
  | .cXcp x | .lsXcp x | .enXcp x | .xcp _ x => usesX x
  | .cMovl d l => usesLit .c d l
  | .cAdd p => usesTwo .c p.d p.a p.b
  | .fop d e =>
    match e with
    | .set | .clr => ⟨none, none, none, [], [.f d.toNat]⟩
    | .not a => ⟨some a, none, none, [], [.f d.toNat]⟩
    | .and a b | .or a b | .xor a b => ⟨some a, some (.op b), none, [], [.f d.toNat]⟩
  | .add p | .sub p | .mul p | .mulhs p | .mulhu p | .divs p | .divu p | .rems p | .remu p | .and p | .or p | .xor p
  | .andn p | .shl p | .shr p | .sar p | .ror p | .min p | .max p | .minu p | .maxu p | .clmul p | .clmulh p
  | .adds p => usesTwo p.u.slot p.d p.a p.b
  | .abs p | .clz p | .ctz p | .popc p | .mov p | .bswap p => usesOne p.u.slot p.d p.a
  | .bfx p | .lea p | .crc32c _ p => usesTwo p.u.slot p.d p.a p.b
  | .bfi p => { usesTwo p.u.slot p.d p.a p.b with reads := regList (destOf p.u.slot p.d) }
  | .cmp u _ _ d a b =>
    ⟨some a, some b, none, [], match d with | .reg r => regList (destOf u.slot r) | .flag n => [.f n.toNat]⟩
  | .sel u _ k d a b => { usesTwo u.slot d a (.op b) with reads := [.f k.toNat] }
  | .movl u d l => usesLit u.slot d l
  | .movh u d l => { usesLit u.slot d ⟨.w0, l⟩ with reads := regList (destOf u.slot d) }
  | .ld _ d a b => usesTwo .ls d a b
  | .ldx _ d a ix => usesTwo .ls d a (.op ix)
  | .st _ data a b => ⟨some a, some b, some data, [], []⟩
  | .stx _ data a ix => ⟨some a, some (.op ix), some data, [], []⟩
  | .ldp d a b => ⟨some a, some b, none, [], [.z (2 * d.toNat), .z (2 * d.toNat + 1)]⟩
  | .lsAdd p | .lsSub p | .lsShl p | .lsAnd p => usesTwo .ls p.d p.a p.b
  | .lsMovl d l => usesLit .ls d l
  | .scfg _ _ b | .sadv _ b => ⟨none, some b, none, [], []⟩
  | .sldd _ a b | .sstd _ a b | .cflush _ a b | .cinv _ a b | .pref _ a b | .zfill a b => ⟨some a, some b, none, [], []⟩
  | .spos d _ => ⟨none, none, none, [], regList (destOf .ls d)⟩
  | .vadd p | .vsub p | .vmul p | .vmin p | .vmax p | .vshl p | .vshr p | .vsar p | .vcmp p | .vidx p =>
    usesV2 p.u p.p p.d p.a p.b false
  | .vfma p | .vfms p | .vdot p => usesV2 p.u p.p p.d p.a p.b true
  | .vand p | .vor p | .vxor p | .vsel p | .vshuf p | .vclmul p | .vexpm p => usesV2 p.u p.p p.d p.a p.b false
  | .vabs p | .vneg p | .vcvt _ _ p | .vunpk _ p | .vred _ p | .vscan _ p | .vpopc p | .vclz p | .vsat p | .vround _ p =>
    usesV1 p.u p.p p.d p.a
  | .vrcp p | .vrsq p | .vexp2 p | .vlog2 p | .vnot p | .vbcst _ p | .vcomp p => usesV1 p.u p.p p.d p.a
  | .vpack _ u _ d a b => usesV2 u 0 d a b true
  | .vmovl u p d l => ⟨none, some (.lit l), none, predName u p, regList (destOf u.slot d)⟩
  | .vxcp _ dst ix _ a => ⟨some a, none, none, [], [xcpDest dst ix]⟩
  | .vpop _ u _ p d a =>
    ⟨some a, none, none, predName u p, [match u with | .va => .pa d.toNat | .vb => .pb d.toNat]⟩
  | .vany u p d | .vall u p d => ⟨none, none, none, predName u p, [.f d.toNat]⟩
  | .vslide u _ d a b => usesV2 u 0 d a b false
  | .vplj _ u _ d a b => usesV2 u 0 d a (.op b) false
  | .vpls _ _ u _ d a => { usesV1 u 0 d a with reads := regList (destOf u.slot d) }
  | .mma p | .mmaz p | .mmag p => ⟨none, none, none, acName p.ac, []⟩
  | .mzero ac _ | .mnrm ac _ _ _ _ _ | .mnrmAlign ac _ | .mdrn ac _ _ _ _ | .mchkOff ac | .mchkOn ac | .mld ac _ | .mst ac _ =>
    ⟨none, none, none, acName ac, []⟩
  | .mregLo ac _ | .mregHi ac _ => ⟨none, none, none, acName ac, acName ac⟩
  | .mstat ac w => ⟨none, none, none, acName ac, [.w w.toNat]⟩
  | .btc p | .btcm p | .btcg p | .racq p | .await _ p | .attn p | .mupdWrite p | .mupdCommit p | .mupdAbort p =>
    usesEn p.d p.a none
  | .rinit _ p | .rpub p | .rels p | .rpois p | .phnew p | .phreg p | .phdrop p | .phsig p | .phbyt p | .phpois p =>
    usesEn p.d p.a (some p.b)
  | .phwait d a b | .phsw d a b => usesEn d a (some (.op b))
  | .aadd p | .amin p | .amax p | .aand p | .aor p | .axor p | .aswp p => usesPair p.d p.a (some p.b)
  | .acas p => { usesPair p.d p.a (some p.b) with reads := (pairNames p.d).take 1 }
  | .afadd d a b _ => usesPair d a (some b)
  | .red _ _ _ a b => ⟨some a, some b, none, [], []⟩
  | .wmon d a v _ _ _ => ⟨some a, some (pairOpnd v), none, pairNames (some v), pairNames (some d)⟩
  | .sigdec d a amt _ =>
    match amt with
    | .plain b => usesPair d a (some b)
    | .err p => { usesPair d a (some (pairOpnd p)) with reads := pairNames (some p) }
  | .phrd d a _ | .sqlen d a | .sqrel d a => usesPair d a none
  | .sqnew d a b | .sqfork _ d a b | .sqforkF _ d a b => usesPair d a (some (.op b))
  | .sqres p | .sqcmt p | .sqlenH p | .sqmap p | .strg p | .strgBar p => usesPair p.d p.a (some p.b)
  | .sqtierMove d a w | .sqtierL3 d a w | .sqtierTile d a w | .sqtierUnstage d a w =>
    { usesPair d a (some (pairOpnd w)) with reads := pairNames (some w) }
  | .launch d a | .launchw d a => ⟨some a, none, none, [], [.w d.toNat]⟩
  | .enMovl d l => usesLit .en d l
  | .enAdd p => usesTwo .en p.d p.a p.b
  | _ => Uses.none

/-- Stream registers an instruction uses as destinations of a result (05 R106). -/
def destStream (o : Opnd) : Option Nat := match o with | .stream q => some q.toNat | _ => none

def OpB.opnd? : OpB → Option Opnd | .op o => some o | .lit _ => none

/-- Operand codes an instruction reads: a, b and the data operand. -/
def Uses.codes (u : Uses) : List Opnd := u.a.toList ++ (u.b.bind OpB.opnd?).toList ++ u.data.toList

/-- Stream registers read as operands. -/
def Uses.streams (u : Uses) : List Nat := u.codes.filterMap destStream

/-- Whether a slot before this one, among LS, VA and VB, reads an MRAM-space stream in the present bundle (09 R220). -/
def Core.mramTaken (k : Core) (slot : Slot) : Bool :=
  k.bundle.instrs.any (fun p => (p.1 == .ls || p.1.isVec) && decide (p.1.code.toNat < slot.code.toNat) &&
    (usesOf 0 p.2).streams.any (fun q => match Sparse.find? k.grp.q q with
      | some r => Desc.space r.desc == 1 && !Desc.writes r.desc
      | none => false))

/-- An operand of the LS or a vector slot: a stream code takes the next group (09 R216), in slot order LS, VA, VB, MX of the
bundle (R219); every other code as `Core.opnd`. The result is the port content, the extra latency and the core. -/
def State.operand (s : State) (k : Core) (slot : Slot) (o : Opnd) : Except Flt (Port × Nat × Core) :=
  match o with
  | .stream q =>
    if k.mramTaken slot &&
        (match Sparse.find? k.grp.q q.toNat with | some r => Desc.space r.desc == 1 | none => false) then
      .error (streamFlt sfMramPort)
    else match s.streamRead k q.toNat (if slot.isVec then 2048 else 64) with
      | .error f => .error f
      | .ok (v, x, k') => .ok (⟨BitVec.ofNat 2048 v, .op o, none, k.cycle, false⟩, x, k')
  | _ => .ok (k.opnd slot o, 0, k)

def State.operandB (s : State) (k : Core) (slot : Slot) (b : OpB) : Except Flt (Port × Nat × Core) :=
  match b with
  | .op o => s.operand k slot o
  | .lit _ => .ok (k.opndB slot b, 0, k)

/-- The next state of an instruction, or its fault taken. -/
def State.orFault (s : State) (slot : Slot) (r : Except Flt Core) : Result :=
  .next (match r with
    | .ok k => s.setCur k
    | .error f => s.faultAt slot f.code f.sub f.addr f.kind)

/-- A 64-bit result of the LS slot to a register, nowhere, or through a stream (05 R106). -/
def State.putLs (s : State) (k : Core) (d : Opnd) (v : Word) (due : Nat) : Except Flt Core :=
  match destStream d with
  | some q => s.streamWrite k q 64 v.toNat (fun _ => true) due
  | none => .ok (k.push (destOf .ls d) (.word v) due)

/-- Lane of element i of a vector stream group of `bits`-bit elements. -/
def laneOfElem (bits i : Nat) : Nat := i * bits / 32

/-- A vector result: active lanes of a register, or a stream group whose inactive lanes' bytes are not stored (10 R239). -/
def State.putVec (s : State) (k : Core) (slot : Slot) (d : Opnd) (v : Vec) (mask : Word) (due : Nat) : Except Flt Core :=
  match destStream d with
  | some q =>
    let bits := match Sparse.find? k.grp.q q with | some r => (Desc.ty r.desc).bits | none => 32
    s.streamWrite k q 2048 v.toNat (fun i => mask.getLsbD (laneOfElem bits i)) due
  | none => .ok (k.push (destOf slot d) (.vec v mask) due)

end Sys2Proof.Machine
end

