-- ==== Sys2Proof/Machine/LoadStore.lean ====
section
/-!
DEFINITION. The LS instructions (09 R224 to R235, 05 R112, R113). A memory effect becomes an ordered operation of the open
group, so that nothing leaves the core before the group has passed every check (05 R95).
-/
namespace Sys2Proof.Machine

open Sys2Proof

/-- Where an LS access goes (09 R202, R204): own tile SRAM, a quad neighbour's, the device registers, global memory, or a physical
range that L1 does not cache (12 R289), with whether the translation missed. -/
inductive Target
  | own (off : Nat)
  | nbr (core off : Nat)
  | device (off : Nat)
  | phys (pa : Nat)
  | raw (pa : Nat)
  deriving DecidableEq, Repr

/-- The target of a physical address as core n reaches it: the tile SRAM of its own quad is the same storage by either name (09 R226). -/
def State.physTarget (s : State) (n pa : Nat) : Target :=
  let o := paLocal pa - 0x100200000000
  match rangeOf pa with
  | .dram | .cxl => .phys pa
  | .device => .device (paLocal pa - 0x100400000000)
  | .tile =>
    if paModule pa ≠ s.modid ∨ quadOf (o / 0x200000) ≠ quadOf n then .raw pa
    else if o / 0x200000 = n then .own (o % 0x200000) else .nbr (o / 0x200000) (o % 0x200000)
  | _ => .raw pa

/-- The checks of an LS access of `size` bytes with its alignment: ALIGN first, then windows, translation and protection
(09 R201 to R206, R209, R226). -/
def State.lsTarget (s : State) (va : Word) (a : Access) (size align : Nat) : Except Flt (Target × Bool) :=
  let flt (c : Byte) : Except Flt (Target × Bool) := .error ⟨c, 0, va, a.kind⟩
  if va.toNat % align ≠ 0 then flt tAlign
  else match s.resolve s.me va a false with
    | .trap c => flt c
    | .own o => .ok (.own o, false)
    | .nbr c o => .ok (.nbr c o, false)
    | .mram _ => flt tProt
    | .phys pa missed => if rangeOf pa = .device ∧ size ≠ 8 then flt tAlign else .ok (s.physTarget s.me pa, missed)

/-- The trap of a finished access, or the next state. -/
def State.lsEnd (s : State) (r : Except Flt Core) : Result :=
  match r with
  | .ok k => .next (s.setCur k)
  | .error f => .next (s.faultAt .ls f.code f.sub f.addr f.kind)

/-- Reporting the page a translation missed (12 R302). -/
def Core.missIf (k : Core) (missed : Bool) (va : Word) : Core := if missed then k.emit (.miss (unitOf va)) else k

/-- The bytes of own tile SRAM as the open group sees them. -/
def State.ownBytes (s : State) (off n : Nat) : List Byte :=
  (List.range n).map (fun i => s.lsByte (tileBase s.modid s.me + off + i))

/-- A load that has not taken its place yet. -/
def GLoad.of (dests : List (Nat × Nat)) (pa : Nat) (va : Word) (size : Nat) (signed device raw : Bool) : GLoad :=
  ⟨dests, pa, va, size, signed, device, [], 0, false, raw, 0, 0, false, false⟩

/-- A load of `size` bytes whose parts go to the z registers `dests` (09 R203, R226; 06 R127, R130). -/
def State.lsLoad (s : State) (k : Core) (va : Word) (size align : Nat) (signed : Bool) (dests : List (Nat × Nat)) :
    Except Flt Core :=
  match s.lsTarget va .read size align with
  | .error f => .error f
  | .ok (t, missed) =>
    let k1 := k.missIf missed va
    match t with
    | .own off =>
      if s.poisoned (tileBase s.modid s.me + off) then .error ⟨tEccUe, 0, va, 0⟩
      else
        let bs := s.ownBytes off size
        let part := size / max 1 dests.length
        .ok (dests.foldl (fun k d =>
          k.push (some (.z d.1)) (.word (extend signed part (leNat (bs.drop d.2)))) (k.cycle + 3)) k1)
    | .nbr c off => .ok (k1.emit (.nload ⟨dests, tileBase s.modid c + off, size, signed, k.cycle + 4, k.cycle + 7, 0, 0, 0⟩))
    | .device off => .ok (k1.emit (.gload (GLoad.of dests off va size signed true false)))
    | .phys pa => .ok (k1.emit (.gload (GLoad.of dests pa va size signed false false)))
    | .raw pa => .ok (k1.emit (.gload (GLoad.of dests pa va size signed false true)))

/-- A store of bytes, `late` cycles later than an operand in a register has it (09 R203, R220, R226, 12 R290). -/
def State.lsStore (s : State) (k : Core) (va : Word) (align late : Nat) (bs : List Byte) : Except Flt Core :=
  match s.lsTarget va .write bs.length align with
  | .error f => .error f
  | .ok (t, missed) =>
    let k1 := k.missIf missed va
    .ok (match t with
      | .own off =>
        k1.emit (.tileStore (k.cycle + late) (tileBase s.modid s.me + off) bs)
      | .nbr c off => k1.emit (.land (.ls k.cycle) (k.cycle + 5 + late) (fullCells (tileBase s.modid c + off) bs))
      | .device off => k1.emit (.devStore off (BitVec.ofNat 64 (leNat bs)))
      | .phys pa => k1.emit (.globalStore pa bs)
      | .raw pa => k1.emit (.rawStore pa bs))

/-- z registers a load writes: none for code 60. -/
def zDest (d : Opnd) : List (Nat × Nat) := match d with | .own n => [(n.toNat, 0)] | _ => []

/-- The effective address of a memory instruction, with the ports it leaves (09 R224); an index counts elements of `scale`
bytes (R226). -/
def Core.lsAddr (k : Core) (a : Opnd) (b : OpB) (scale : Nat) : Word × Core :=
  let pa := k.opnd .ls a
  let pb := k.opndB .ls b
  (pa.word + pb.word * BitVec.ofNat 64 scale, (k.keepA .ls pa).keepB .ls pb)

def execLsNop (s : State) : Result := .next s

def loadOf (k : LoadKind) (d a : Opnd) (b : OpB) (scale : Nat) (s : State) : Result :=
  let (va, c) := s.cur.lsAddr a b scale
  s.lsEnd (s.lsLoad c va k.bytes k.bytes k.signed (zDest d))

/-- The data operand of a store: a stream code takes a group, no port is set (09 R225). The ports of a and b are those from
before the instruction (05 R108). -/
def storeOf (sz : AccSize) (data a : Opnd) (b : OpB) (scale : Nat) (s : State) : Result :=
  let (va, c) := s.cur.lsAddr a b scale
  match s.operand s.cur .ls data with
  | .error f => s.lsEnd (.error f)
  | .ok (p, late, c1) =>
    let c2 := { c1 with grp := { c1.grp with ports := c.grp.ports } }
    s.lsEnd (s.lsStore c2 va sz.bytes late (leBytes sz.bytes p.word.toNat))

def execLd (k : LoadKind) (d a : Opnd) (b : OpB) (s : State) : Result := loadOf k d a b 1 s
def execLdx (k : LoadKind) (d a ix : Opnd) (s : State) : Result := loadOf k d a (.op ix) k.bytes s
def execSt (sz : AccSize) (data a : Opnd) (b : OpB) (s : State) : Result := storeOf sz data a b 1 s
def execStx (sz : AccSize) (data a ix : Opnd) (s : State) : Result := storeOf sz data a (.op ix) sz.bytes s

/-- LDP: two 8-byte halves of an aligned 16 bytes (09 R226). -/
def execLdp (d : ZPair) (a : Opnd) (b : OpB) (s : State) : Result :=
  let (va, c) := s.cur.lsAddr a b 1
  s.lsEnd (s.lsLoad c va 16 16 false [(2 * d.toNat, 0), (2 * d.toNat + 1, 8)])

/-! ## Arithmetic and housekeeping -/

/-- A two-operand LS instruction; operands and destination may be streams (09 R224, R227). -/
def lsTwo (p : SArgs) (f : Word → Word → Word) (s : State) : Result :=
  s.orFault .ls (do
    let (pa, xa, k1) ← s.operand s.cur .ls p.a
    let (pb, xb, k2) ← s.operandB k1 .ls p.b
    s.putLs ((k2.keepA .ls pa).keepB .ls pb) p.d (f pa.word pb.word) (s.cur.cycle + 1 + max xa xb))

def execLsAdd (p : SArgs) (s : State) : Result := lsTwo p (fun a b => a + b) s
def execLsSub (p : SArgs) (s : State) : Result := lsTwo p (fun a b => a - b) s
def execLsShl (p : SArgs) (s : State) : Result := lsTwo p (fun a b => a <<< (b.toNat % 64)) s
def execLsAnd (p : SArgs) (s : State) : Result := lsTwo p (fun a b => a &&& b) s

def execLsMovl (d : Opnd) (l : Lit) (s : State) : Result :=
  s.orFault .ls (s.putLs (s.cur.takeLit .ls l) d (widenWord l) (s.cur.cycle + 1))

def execLsXcp (x : XArgs) (s : State) : Result :=
  s.orFault .ls (do
    let (pa, xa, k1) ← s.operand s.cur .ls x.src
    pure ((k1.keepA .ls pa).push (some (xcpDest x.dst x.ix)) (xcpVal x.dst pa.word)
      (k1.cycle + xcpLatency .ls x.dst + xa)))

/-! ## Stream control (09 R228, R229) -/

/-- A change of a stream register that takes effect at a cycle. -/
def Core.changeQ (k : Core) (q due : Nat) (c : QChange) : Core :=
  { k with grp := { k.grp with qpend := k.grp.qpend ++ [⟨q, due, c⟩] } }

def execScfg (q : BitVec 4) (word : BitVec 3) (b : OpB) (s : State) : Result :=
  let k := s.cur
  let pb := k.opndB .ls b
  .next (s.setCur ((k.keepB .ls pb).changeQ q.toNat (k.cycle + 1) (.word word.toNat pb.word)))

/-- The bytes of a descriptor image in a tile SRAM: its physical address, or the trap (09 R229 "Where descriptors live"). -/
def State.descAt (s : State) (va : Word) (a : Access) : Except Flt (Nat × Bool) :=
  if va.toNat % 64 ≠ 0 then .error ⟨tAlign, 0, va, a.kind⟩
  else match placeOf s.me va with
    | .tile c o => .ok (tileBase s.modid c + o, c == s.me)
    | _ => .error ⟨tProt, 0, va, a.kind⟩

def execSldd (q : BitVec 4) (a : Opnd) (b : OpB) (s : State) : Result :=
  let (va, k) := s.cur.lsAddr a b 1
  s.orFault .ls (match s.descAt va .read with
    | .error f => .error f
    | .ok (pa, _) =>
      if s.poisoned pa then .error ⟨tEccUe, 0, va, 0⟩
      else .ok (k.changeQ q.toNat (k.cycle + 3)
        (.load (BitVec.ofNat 512 (leNat ((List.range 64).map (fun i => s.lsByte (pa + i))))))))

/-- A configured stream register, or the fault. -/
def Core.configured (k : Core) (q : BitVec 4) : Except Flt StreamReg :=
  match Sparse.find? k.grp.q q.toNat with
  | some r => .ok r
  | none => .error (streamFlt sfUnconfigured)

/-- The same, with the check of R215 run on an unchecked descriptor. -/
def Core.checkedQ (k : Core) (q : BitVec 4) : Except Flt StreamReg :=
  match k.configured q with
  | .error f => .error f
  | .ok r => if r.checked || Desc.good r.desc then .ok { r with checked := true } else .error (streamFlt sfBadDesc)

def execSstd (q : BitVec 4) (a : Opnd) (b : OpB) (s : State) : Result :=
  let (va, k) := s.cur.lsAddr a b 1
  s.orFault .ls (do
    let r ← k.configured q
    let (pa, own) ← s.descAt va .write
    let bs := leBytes 64 r.desc.toNat
    pure (k.emit (if own then .tileStore k.cycle pa bs else .land (.ls k.cycle) (k.cycle + 5) (fullCells pa bs))))

def execSrst (q : BitVec 4) (s : State) : Result :=
  let k := s.cur
  s.orFault .ls (match k.configured q with
    | .error f => .error f
    | .ok _ => .ok (k.changeQ q.toNat (k.cycle + 1) .rewind))

def execSadv (q : BitVec 4) (b : OpB) (s : State) : Result :=
  let k := s.cur
  let pb := k.opndB .ls b
  s.orFault .ls (match k.checkedQ q with
    | .error f => .error f
    | .ok r => .ok (((k.keepB .ls pb).putStream q.toNat r).changeQ q.toNat (k.cycle + 1) (.advance pb.word)))

def execSpos (d : Opnd) (q : BitVec 4) (s : State) : Result :=
  let k := s.cur
  s.orFault .ls (match k.checkedQ q with
    | .error f => .error f
    | .ok r => .ok ((k.putStream q.toNat r).push (destOf .ls d) (.word (BitVec.ofNat 64 (Desc.ord r.desc))) (k.cycle + 1)))

/-- A change of a stream register taking effect (09 R229). An unconfigured register starts from a zero descriptor. -/
def applyChange (m : Sparse StreamReg) (q : Nat) (c : QChange) : Sparse StreamReg :=
  let r := Sparse.get m ⟨0, false, 0⟩ q
  match c with
  | .word n v => Sparse.put m q ⟨Desc.setField r.desc (64 * n) 64 v.toNat, false, 0⟩
  | .load d => Sparse.put m q ⟨d, false, 0⟩
  | .rewind => Sparse.put m q { r with desc := Desc.setField (Desc.setField r.desc 448 64 0) 447 1 0, ahead := 0 }
  | .advance n => Sparse.put m q { r with desc := Desc.setOrd r.desc (Desc.ord r.desc + n.toNat), ahead := 0 }

/-- The changes due in the core's present cycle, on the core's streams and on the open group's. -/
def Core.applyQ (k : Core) : Core :=
  let now (ps : List QPend) : List QPend := ps.filter (fun p => decide (p.due ≤ k.cycle))
  let rest (ps : List QPend) : List QPend := ps.filter (fun p => decide (k.cycle < p.due))
  let go (m : Sparse StreamReg) (ps : List QPend) : Sparse StreamReg :=
    (now ps).foldl (fun m p => applyChange m p.q p.change) m
  { k with
    q := go k.q k.qpend, qpend := rest k.qpend
    grp := { k.grp with q := go k.grp.q k.grp.qpend, qpend := rest k.grp.qpend } }

/-! ## Ordering and cache control (09 R230 to R235) -/

def execFence (s : State) : Result := .next (s.setCur (s.cur.emit .fence))
def execPhase (σ : Scope) (s : State) : Result := .next (s.setCur (s.cur.emit (.phase σ)))

/-- The operands of CFLUSH and CINV: start and length (09 R230). -/
def rangeArgs (k : Core) (a : Opnd) (b : OpB) : Word × Nat × Core :=
  let pa := k.opnd .ls a
  let pb := k.opndB .ls b
  (pa.word, pb.word.toNat % 2 ^ 32, (k.keepA .ls pa).keepB .ls pb)

def execCflush (σ : Scope) (a : Opnd) (b : OpB) (s : State) : Result :=
  let (va, n, k) := rangeArgs s.cur a b
  .next (s.setCur (k.emit (.cflush σ va n)))

def execCinv (σ : Scope) (a : Opnd) (b : OpB) (s : State) : Result :=
  let (va, n, k) := rangeArgs s.cur a b
  .next (s.setCur (k.emit (.cinv σ va n)))

/-- Units core n waits for a walk of, those of its open group among them (12 R302). -/
def State.missUnits (s : State) (n : Nat) : List Nat :=
  let k := s.core n
  k.grp.ops.foldl (fun (l : List Nat) (o : Op) => match o with
    | .miss u =>
      let p := s.pageUnit u
      if l.contains p || (s.die (dieOf n)).l2tlb.any (·.covers p) then l else l ++ [p]
    | _ => l) k.misses

/-- PREF (09 R234): dropped when it would fault, misses with 16 outstanding, or names a sealed or window address. Level 0 is a load
of the line into L1, levels 1 and 2 bring the 512-byte line into the home L2 or L3 (12 R294, R295). -/
def execPref (l : PrefLevel) (a : Opnd) (b : OpB) (s : State) : Result :=
  let (va, k) := s.cur.lsAddr a b 1
  .next (s.setCur (match s.resolve s.me va .read false with
    | .phys pa missed =>
      if rangeOf pa == .device || (missed && decide (16 ≤ (s.missUnits s.me).length)) then k
      else
        let k := k.missIf missed va
        match l with
        | .l1 => k.emit (.gload (GLoad.of [] (pa / 64 * 64) va 64 false false (match rangeOf pa with | .dram | .cxl => false | _ => true)))
        | .l2 => k.emit (.prefetch 2 pa)
        | .l3 => k.emit (.prefetch 3 pa)
    | _ => k))

def execZfill (a : Opnd) (b : OpB) (s : State) : Result :=
  let (va, k) := s.cur.lsAddr a b 1
  s.lsEnd (s.lsStore k va 64 0 (List.replicate 64 0))

end Sys2Proof.Machine
end

