-- ==== Sys2Proof/Machine/Matrix.lean ====
section
/-!
DEFINITION. The MX instructions beside MEPI and MDRN (11 R262 to R277, R281 to R288). Every check is made before the
instruction starts; elements, outputs and marks are effects of the open group (R270).
-/
namespace Sys2Proof.Machine

open Sys2Proof

/-! ## Regions and elements -/

/-- Key of an array element. -/
def elemKey (r : Region) (i j : Nat) : Nat := (r.row0 + i) * 128 + (r.col0 + j)

/-- Positions of a region, row by row. -/
def Region.cells (r : Region) : List (Nat × Nat) :=
  (List.range r.rows).flatMap (fun i => (List.range r.cols).map (fun j => (i, j)))

/-- A region register with KLEN and XF (11 R262). -/
structure RegionReg where
  region : Region
  klen : Nat
  xf : BitVec 16
  deriving DecidableEq, Repr

def regionOf (v : Word) : RegionReg :=
  let f (lo n : Nat) : Nat := v.toNat / 2 ^ lo % 2 ^ n
  ⟨⟨f 0 7, f 8 7, f 16 8, f 24 8⟩, f 32 16, v.extractLsb' 48 16⟩

/-- The check of R263; `k` is the reduction length for an instruction that uses KLEN. -/
def Core.regionFor (k : Core) (ac : BitVec 4) (usesK : Bool) : Except Flt RegionReg :=
  let v := k.word (.ac ac.toNat)
  let r := regionOf v
  let g := r.region
  if g.rows = 0 ∨ g.cols = 0 ∨ 128 < g.row0 + g.rows ∨ 128 < g.col0 + g.cols ∨ v.getLsbD 15 ∨ v.getLsbD 7 ∨
      (usesK ∧ r.klen = 0) then .error (streamFlt sfBadRegion)
  else .ok r

/-- An element with every started writer applied. -/
def Core.elemNew (k : Core) (key : Nat) : Elem := Sparse.get k.grp.mx.accNew Elem.zero key

/-! ## Starting an instruction -/

/-- The end of the busy time (11 R271). -/
def Core.startMx (k : Core) (busy : Nat) : Core := { k with grp := { k.grp with mx := { k.grp.mx with busy := k.cycle + busy } } }

def blocksOf (n d : Nat) : Nat := (n + d - 1) / d

/-- ⌈ROWS/16⌉·⌈COLS/32⌉. -/
def Region.tiles (r : Region) : Nat := blocksOf r.rows 16 * blocksOf r.cols 32

/-- The result of an MX instruction: an uncorrectable error met while reading ends the slice at the group's end (18 R440, 11
R270), any other fault is the group's. -/
def State.mxEnd (s : State) (r : Except Flt Core) : Result :=
  match r with
  | .ok k => .next (s.setCur k)
  | .error f =>
    if f.code = tEccUe then
      .next (s.modCur (fun k => { k with grp := { k.grp with after := some ⟨tEccUe, 0, 0, 3, k.grp.idx, .mx⟩ } }))
    else .next (s.faultAt .mx f.code f.sub f.addr f.kind)

/-! ## Checksums (11 R281 to R285) -/

/-- Column and row sums of a region as numerators over 2^32768. -/
def sumCols (r : Region) (f : Nat → Nat → Elem) : List Int :=
  (List.range r.cols).map (fun j => ((List.range r.rows).map (fun i => (f i j).contrib.num)).foldl (· + ·) 0)
def sumRows (r : Region) (f : Nat → Nat → Elem) : List Int :=
  (List.range r.rows).map (fun i => ((List.range r.cols).map (fun j => (f i j).contrib.num)).foldl (· + ·) 0)

/-- Adding a numerator to the sums of the element with an array key, when it lies in the armed region. -/
def Check.add (c : Check) (key : Nat) (v : Int) : Check :=
  let row := key / 128
  let col := key % 128
  let r := c.region
  if r.row0 ≤ row ∧ row < r.row0 + r.rows ∧ r.col0 ≤ col ∧ col < r.col0 + r.cols then
    { c with
      cols := setNth c.cols (col - r.col0) (nth 0 c.cols (col - r.col0) + v)
      rows := setNth c.rows (row - r.row0) (nth 0 c.rows (row - r.row0) + v) }
  else c

/-- Whether a region holds an element of the armed one. -/
def Region.meets (a b : Region) : Bool :=
  decide (a.row0 < b.row0 + b.rows ∧ b.row0 < a.row0 + a.rows ∧ a.col0 < b.col0 + b.cols ∧ b.col0 < a.col0 + a.cols)

/-- |x| ≤ bound in units of the last place of an f32 at a magnitude: 2·Kt ulp (11 R283). -/
def withinUlps (kt : Nat) (diff pred : Int) : Bool :=
  if diff = 0 then true
  else
    let e : Int := if pred = 0 then -149 else max ((Nat.log2 pred.natAbs : Int) - 32768 - 23) (-149)
    -- one ulp is 2^e; numerators are over 2^32768
    decide (diff.natAbs ≤ 2 * kt * 2 ^ (e + 32768).toNat)

/-- The comparison of the rows and columns of an armed region that a writer of region `w` touched (11 R282, R283): the element to
correct with the difference, if any, and the status. -/
def Check.compare (c : Check) (acc : Sparse Elem) (w : Region) : Option (Nat × Int) × ChkStatus :=
  let r := c.region
  let el (i j : Nat) : Elem := (Sparse.get acc Elem.zero (elemKey r i j)).seen
  let js := (List.range r.cols).filter (fun j => decide (w.col0 ≤ r.col0 + j ∧ r.col0 + j < w.col0 + w.cols))
  let is := (List.range r.rows).filter (fun i => decide (w.row0 ≤ r.row0 + i ∧ r.row0 + i < w.row0 + w.rows))
  let sc := sumCols r el
  let sr := sumRows r el
  let dc (j : Nat) : Int := nth 0 sc j - nth 0 c.cols j
  let dr (i : Nat) : Int := nth 0 sr i - nth 0 c.rows i
  let loose := r.cells.any (fun p => let e := el p.1 p.2
    e.isMode .binary || (e.isMode .decimal && e.has gInexact))
  if loose then
    (none, if js.all (fun j => withinUlps c.kt (dc j) (nth 0 c.cols j)) && is.all (fun i => withinUlps c.kt (dr i) (nth 0 c.rows i))
      then .clean else .det)
  else match js.filter (fun j => dc j != 0), is.filter (fun i => dr i != 0) with
    | [], [] => (none, .clean)
    | [j], [i] => (some (elemKey r i j, -(dc j) / (2 ^ 32768 : Nat)), .clean)
    | _, _ => (none, .ue)

/-- The predictions after a commit over the elements `acc` (11 R282): the terms of the products added, less the values that were set to zero; a
re-alignment changes them as it changes the elements. -/
def Check.follow (c : Check) (acc : Sparse Elem) (p : AccPend) : Check :=
  let term (key : Nat) : Int := Contrib.num ((Sparse.find? p.terms key).getD (0, 0))
  let was (key : Nat) : Int := (Sparse.get acc Elem.zero key).seen.contrib.num
  let change (e : Nat × Elem) : Int :=
    match p.kind with
    | .add => term e.1
    | .clear => term e.1 - was e.1
    | .align _ => e.2.contrib.num - was e.1
    | .load => 0
  { p.elems.foldl (fun (c : Check) (e : Nat × Elem) => c.add e.1 (change e)) c with kt := c.kt + p.kt }

/-- The check in force when a writer commits over the elements `acc`: predictions, comparison, sticky status and correction counter (11 R281
to R284), with the correction to make. A load disarms it. -/
def MxSt.judge (m : MxSt) (acc : Sparse Elem) (p : AccPend) : MxSt × Option (Nat × Int) :=
  match m.chk with
  | none => (m, none)
  | some c =>
    if !c.region.meets p.region then (m, none)
    else if p.kind = .load then ({ m with chk := none }, none)
    else
      let c1 := c.follow acc p
      let (fix, st) := c1.compare (Sparse.merge acc p.elems) p.region
      ({ m with
        chk := some { c1 with status := if c.status = .clean then st else c.status }
        ncorr := if fix.isSome && m.ncorr != 0xFFFF then m.ncorr + 1 else m.ncorr }, fix)

/-- An element corrected by a difference (11 R283), within 48 bits. -/
def Elem.correct (e : Elem) (d : Int) : Elem := e.setM (sat48 (e.m' + d))

/-- A correction carried through a writer that started before it was made: an addition takes it over, a re-alignment starts from the
corrected element `e`, and a writer that sets the element anew ends it. The result is the writer with what later writers start from. -/
def AccPend.carry (p : AccPend) (key : Nat) (e : Option Elem) (d : Int) : AccPend × Option Elem × Int :=
  match e, Sparse.find? p.elems key with
  | some e0, some x => match p.kind with
    | .add => let y := x.correct d; ({ p with elems := Sparse.put p.elems key y }, some y, d)
    | .align x' => let y := realign x' e0; ({ p with elems := Sparse.put p.elems key y }, some y, y.m' - x.m')
    | .clear | .load => (p, none, 0)
  | e, _ => (p, e, d)

/-- Pending writers in issue order. -/
def carryAll (key : Nat) : List AccPend → Option Elem → Int → List AccPend × Option Elem × Int
  | [], e, d => ([], e, d)
  | p :: ps, e, d =>
    let (q, e1, d1) := p.carry key e d
    let (qs, e2, d2) := carryAll key ps e1 d1
    (q :: qs, e2, d2)

/-- The writers among the operations of a group. -/
def carryOps (key : Nat) : List Op → Option Elem → Int → List Op × Option Elem
  | [], e, _ => ([], e)
  | .accCommit p :: os, e, d =>
    let (q, e1, d1) := p.carry key e d
    let (qs, e2) := carryOps key os e1 d1
    (.accCommit q :: qs, e2)
  | o :: os, e, d =>
    let (qs, e2) := carryOps key os e d
    (o :: qs, e2)

/-- A correction in the array, which every later writer builds on (11 R272, R283). -/
def Core.fixElem (k : Core) (key : Nat) (d : Int) : Core :=
  let e := (Sparse.get k.acc Elem.zero key).correct d
  let (ps, e1, d1) := carryAll key k.accPend (some e) d
  let (os, e2) := carryOps key k.grp.ops e1 d1
  let new (m : MxSt) (x : Option Elem) : MxSt := match x with | some y => { m with accNew := Sparse.put m.accNew key y } | none => m
  { k with
    acc := Sparse.put k.acc key e, accPend := ps, mx := new k.mx e1
    grp := { k.grp with ops := os, mx := if k.grp.active then new k.grp.mx e2 else k.grp.mx } }

/-- A committing writer's elements reach the array, and the checks in force are compared: that of the core, and the one the open group
leaves (11 R270, R282). -/
def Core.commitAcc (k : Core) (p : AccPend) : Core :=
  let (m1, f1) := k.mx.judge k.acc p
  let (m2, f2) := k.grp.mx.judge k.acc p
  let k1 := { k with acc := Sparse.merge k.acc p.elems, mx := m1, grp := { k.grp with mx := if k.grp.active then m2 else k.grp.mx } }
  match f1.orElse (fun _ => if k.grp.active then f2 else none) with
  | some (key, d) => k1.fixElem key d
  | none => k1

/-- Commits due by cycle c, and those still to come; elements a later-issued writer has committed meanwhile are no longer the
earlier writer's. -/
def splitAcc (c : Nat) : List AccPend → List AccPend × List AccPend
  | [] => ([], [])
  | p :: ps =>
    let (d, r) := splitAcc c ps
    let keep (key : Nat) : Bool := !d.any (fun (x : AccPend) => (Sparse.find? x.elems key).isSome)
    if p.due ≤ c then (p :: d, r)
    else (d, { p with elems := p.elems.filter (fun (e : Nat × Elem) => keep e.1), terms := p.terms.filter (fun (e : Nat × (Int × Int)) => keep e.1) } :: r)

/-- The element commits due, one after another: a correction reaches the writers after it. The first argument bounds them. -/
def commitEach : Nat → Core → Core
  | 0, k => k
  | n + 1, k => match splitAcc k.cycle k.accPend with
    | ([], _) => k
    | (p :: ds, r) => commitEach n (({ k with accPend := ds ++ r } : Core).commitAcc p)

def Core.commitAccDue (k : Core) : Core := commitEach k.accPend.length k

/-- The core one cycle on, as far as the array goes. -/
def Core.tickAcc (k : Core) : Core := ({ k with cycle := k.cycle + 1 } : Core).commitAccDue

/-- The core as it would be had the open group passed, as far as the array goes (11 R270). -/
def Core.groupPassed (k : Core) : Core :=
  { k with
    accPend := k.accPend ++ k.grp.ops.filterMap (fun (o : Op) => match o with | .accCommit p => some p | _ => none)
    mx := k.grp.mx, grp := Group.none }

/-- A writer (11 R272): its new elements, on top of every started writer, with the terms of their products. Dead marks are cleared. -/
def Core.writeAcc (k : Core) (r : Region) (busy extra kt : Nat) (kind : AccKind) (elems : List (Nat × Elem))
    (terms : List (Nat × Contrib)) : Core :=
  let k1 := { k with grp := { k.grp with mx := { k.grp.mx with accNew := Sparse.merge k.grp.mx.accNew elems, dead := false } } }
  (k1.startMx busy).emit (.accCommit ⟨k.cycle + busy + 12 + extra, r, kind, elems, terms, kt⟩)

/-- Whether the armed check has to be followed for a region. -/
def Core.armedOn (k : Core) (r : Region) : Bool := match k.grp.mx.chk with | some c => c.region.meets r | none => false

/-! ## Streams of the MX slot (11 R268 to R270) -/

/-- Extra commit offset of an MX stream (09 R220): a quad neighbour's tile. -/
def mxExtra (n : Nat) (d : Desc) : Nat := if Desc.space d = 0 then streamExtra n d else 0

/-- The trap of a SEALED stream where its slice or its port may not read the Glove: PROT at the first element, if that translates (09 R209,
R216). -/
def State.sealedStop (s : State) (d : Desc) : Except Flt Desc :=
  match Desc.parts d (Desc.ord d) with
  | p :: _ => (match s.streamByte s.me d .read p.at_ with
    | .error f => .error f
    | .ok _ => .error ⟨tProt, 0, BitVec.ofInt 64 p.at_, 0⟩)
  | [] => .error ⟨tProt, 0, 0, 0⟩

/-- A stream of an MX instruction, checked before use; `a` says that it is stream a. -/
def State.mxStream (s : State) (k : Core) (q : BitVec 4) (t : ElemTy) (write a lines : Bool) : Except Flt Desc :=
  match Sparse.find? k.grp.q q.toNat with
  | none => .error (streamFlt sfUnconfigured)
  | some r =>
    let d := r.desc
    if !r.checked && !Desc.good d then .error (streamFlt sfBadDesc)
    else if Desc.writes d != write then .error (streamFlt sfDirection)
    else if a && Desc.space d == 1 then .error (streamFlt sfMramPort)
    else if Desc.exh d then .error (streamFlt sfExhausted)
    else if Desc.ty d != t then .error (streamFlt sfTypeMismatch)
    else if lines && Desc.pos d 0 != 0 then .error (streamFlt sfBadRegion)
    else if Desc.space d == 4 && (a || !recSealed (s.recOf s.me)) then s.sealedStop d
    else .ok d

/-- Advancing a stream by `n` elements, with the pages its reads missed. -/
def Core.advance (k : Core) (q : BitVec 4) (d : Desc) (n : Nat) (ms : List Nat) : Core :=
  (k.missAll ms).putStream q.toNat ⟨Desc.setOrd d (Desc.ord d + n), true, 0⟩

/-- The codes of a packed group. -/
def splitCodes (bits : Nat) : Nat → Nat → List (Option Nat)
  | 0, _ => []
  | n + 1, v => some (v % 2 ^ bits) :: splitCodes bits n (v / 2 ^ bits)

/-- One operand line: K codes and its block scales (11 R268). -/
def State.mxLine (s : State) (d : Desc) (k r : Nat) : Except Flt (List (Option Nat) × List Nat × List Nat) :=
  let n0 := Desc.count d 0
  let e := Desc.ord d + r * n0
  let n := min k n0
  if Desc.total d ≤ e then .ok (List.replicate k none, [], [])
  else match s.readElems d n e with
    | .error f => .error f
    | .ok (v, ms) =>
      let codes := splitCodes (Desc.ty d).bits n v ++ List.replicate (k - n) none
      if Desc.scaled d then
        let rec scales : Nat → Nat → Except Flt (List Nat × List Nat)
          | 0, _ => .ok ([], [])
          | m + 1, b => match s.readPart d (Desc.scalePart d (e + 32 * b)) with
            | .error f => .error f
            | .ok (x, p) => match scales m (b + 1) with
              | .error f => .error f
              | .ok (xs, ps) => .ok (x :: xs, p.toList ++ ps)
        match scales (blocksOf n 32) 0 with
        | .error f => .error f
        | .ok (xs, ps) => .ok (codes, xs, ms ++ ps)
      else .ok (codes, [], ms)

/-- Consecutive operand lines. -/
def State.mxLines (s : State) (d : Desc) (k : Nat) : Nat → Nat →
    Except Flt (List (List (Option Nat) × List Nat) × List Nat)
  | 0, _ => .ok ([], [])
  | n + 1, r =>
    match s.mxLine d k r with
    | .error f => .error f
    | .ok (c, sc, ms) => match s.mxLines d k n (r + 1) with
      | .error f => .error f
      | .ok (ls, ms') => .ok ((c, sc) :: ls, ms ++ ms')

/-- The shape rules of an operand (11 R268). -/
def shapeOk (d : Desc) (k : Nat) : Except Flt Bool :=
  let n0 := Desc.count d 0
  if Desc.scaled d then
    if blocksOf n0 32 < blocksOf k 32 then .error (streamFlt sfScaleShort) else .ok (decide (blocksOf k 32 < blocksOf n0 32))
  else if n0 < k then .error (streamFlt sfBadRegion) else .ok false

/-- The factors of a line. -/
def factors (t : ElemTy) (scaled : Bool) (l : List (Option Nat) × List Nat) : List Factor :=
  (List.range l.1.length).map (fun i => match (l.1[i]?).getD none with
    | none => .absent
    | some c => factorOf t (if scaled then l.2[i / 32]? else none) c)

/-- The elements of a stream with idx0 below `width` in the next `lines` lines of dimension 0 (11 R268, R269). -/
def lineElems (d : Desc) (width lines : Nat) : List Nat :=
  (List.range lines).flatMap (fun r => (List.range (min width (Desc.count d 0))).map (fun i => Desc.ord d + r * Desc.count d 0 + i))

/-- The 512-byte lines that elements of a stream, their planes and scales lie in (09 R222). -/
def State.pinLines (s : State) (d : Desc) (es : List Nat) : List Nat := ((s.streamSectors d es).map (· / 8)).eraseDups

/-- The mode and kstep of an accumulating type (11 R267). -/
def mmaMode (t : ElemTy) (scaled : Bool) : AccMode :=
  match t with
  | .i8 | .u8 | .i4 => .integer
  | .mxi8 => if scaled then .binary else .integer
  | .d8 => .decimal
  | _ => .binary
def kstep (t : ElemTy) : Nat :=
  match t with | .i4 | .mxf4 => 128 | .bf16 | .f16 => 32 | _ => 64

/-! ## MMA, MMAZ, MMAG -/

/-- K of an accumulating instruction: the literal, or KLEN (11 R266, R273). -/
def mmaLen (p : MArgs) (r : RegionReg) : Nat := match p.k with | some l => l.toNat | none => r.klen

/-- Reading operand A: checked stream, shape, lines, and the core with the stream advanced. -/
def State.readA (s : State) (k : Core) (p : MArgs) : Except Flt (GangA × Core × Nat × List Nat) :=
  match k.regionFor p.ac p.k.isNone with
  | .error f => .error f
  | .ok r => match s.mxStream k p.qa p.t false true true with
    | .error f => .error f
    | .ok d => match shapeOk d (mmaLen p r) with
      | .error f => .error f
      | .ok sur => match s.mxLines d (mmaLen p r) r.region.rows 0 with
        | .error f => .error f
        | .ok (ls, ms) =>
          .ok (⟨false, r.region.rows, mmaLen p r, p.t, Desc.scaled d, sur, ls⟩,
            k.advance p.qa d (r.region.rows * Desc.count d 0) ms, mxExtra s.me d,
            s.pinLines d (lineElems d (mmaLen p r) r.region.rows))

/-- Multiplying operand A into the region (11 R273). -/
def State.multiply (s : State) (k : Core) (p : MArgs) (zero : Bool) (a : GangA) (extraA : Nat) (pinA : List Nat) :
    Except Flt Core :=
  match k.regionFor p.ac p.k.isNone with
  | .error f => .error f
  | .ok rr => match s.mxStream k p.qb p.t false false true with
    | .error f => .error f
    | .ok d =>
      let r := rr.region
      let n := mmaLen p rr
      if a.bad then .error (streamFlt sfBadRegion)
      else if a.ty != p.t || (p.t == .mxi8 && a.scaled != Desc.scaled d) then .error (streamFlt sfTypeMismatch)
      else match shapeOk d n with
      | .error f => .error f
      | .ok surB =>
        let mode := mmaMode p.t (a.scaled)
        if !zero && r.cells.any (fun c => !((k.elemNew (elemKey r c.1 c.2)).isMode mode)) then .error (streamFlt sfModeMismatch)
        else if 256 < (pinA ++ s.pinLines d (lineElems d n r.cols)).eraseDups.length then .error (streamFlt sfPinLimit)
        else match s.mxLines d n r.cols 0 with
        | .error f => .error f
        | .ok (bs, ms) =>
          let fa := a.lines.map (factors p.t a.scaled)
          let fb := bs.map (factors p.t (Desc.scaled d))
          let res := r.cells.map (fun c =>
            let key := elemKey r c.1 c.2
            let e0 : Elem := if zero then ⟨0, if mode = .integer then 0 else rr.xf, 0, some mode⟩ else k.elemNew key
            let (e1, cs) := accumulate mode e0 (nth [] fa c.1) (nth [] fb c.2)
            let e2 := if a.surplus || surB then e1.guard gScale else e1
            ((key, e2), (key, Contrib.sum cs)))
          let busy := r.tiles * blocksOf n (kstep p.t) * 16
          .ok ((k.advance p.qb d (r.cols * Desc.count d 0) ms).writeAcc r busy (max extraA (mxExtra s.me d)) n
            (if zero then .clear else .add) (res.map (·.1)) (res.map (·.2)))

/-- MMA and MMAZ. -/
def mmaOf (p : MArgs) (zero : Bool) (s : State) : Result :=
  s.mxEnd (match s.readA s.cur p with
    | .error f => .error f
    | .ok (a, k, x, pins) => (s.setCur k).multiply k p zero a x pins)

def execMxNop (s : State) : Result := .next s
def execMma (p : MArgs) (s : State) : Result := mmaOf p false s
def execMmaz (p : MArgs) (s : State) : Result := mmaOf p true s

/-- Rank of the core in its gang. -/
def Core.rank (k : Core) : Nat := match k.run with | some r => r.rank | none => 0

/-- MMAG (11 R274): rank 0 reads stream a and advances it; the other members take the operand it broadcast, which the start of
the gang instruction left in `gang`. -/
def execMmag (p : MArgs) (s : State) : Result :=
  let k := s.cur
  s.mxEnd (
    if k.rank = 0 then
      match s.readA k p with
      | .error f => .error f
      | .ok (a, k1, x, pins) =>
        let bad := match k.gang with | some g => g.bad | none => false
        (s.setCur k1).multiply k1 p false { a with bad := bad } x pins
    else match k.gang with
      | none => .ok k
      | some a => s.multiply k p false a 0 [])

/-! ## Other writers -/

/-- New values for every element of a region. -/
def regionMap (k : Core) (r : Region) (f : Elem → Elem) : List (Nat × Elem) :=
  r.cells.map (fun c => (elemKey r c.1 c.2, f (k.elemNew (elemKey r c.1 c.2))))

/-- MZERO (11 R275). -/
def execMzero (ac : BitVec 4) (m : AccMode) (s : State) : Result :=
  let k := s.cur
  s.mxEnd (match k.regionFor ac false with
    | .error f => .error f
    | .ok rr =>
      .ok (k.writeAcc rr.region rr.region.tiles 0 0 .clear
        (regionMap k rr.region (fun _ => ⟨0, if m = .integer then 0 else rr.xf, 0, some m⟩)) []))

/-- MNRM align (11 R277). -/
def execMnrmAlign (ac : BitVec 4) (x : BitVec 16) (s : State) : Result :=
  let k := s.cur
  s.mxEnd (match k.regionFor ac false with
    | .error f => .error f
    | .ok rr =>
      .ok (k.writeAcc rr.region rr.region.tiles 0 0 (.align x.toInt) (regionMap k rr.region (realign x.toInt)) []))

/-- The alignment and bound of MLD and MST (11 R286). -/
def recordsOk (r : Region) (off : Nat) (a : Access) : Except Flt Unit :=
  let va : Word := 0xFFFFFFFF00000000 + BitVec.ofNat 64 off
  if off % 16 ≠ 0 then .error ⟨tAlign, 0, va, a.kind⟩
  else if 2 ^ 21 < off + 16 * r.rows * r.cols then .error ⟨tStream, sfBounds, va, a.kind⟩
  else .ok ()

/-- Whether the bytes of own tile SRAM that an MX instruction reads are good (18 R440). -/
def State.tileSound (s : State) (pa n : Nat) : Except Flt Unit :=
  if s.poison.any (fun p => decide (pa / 64 ≤ p / 64 ∧ p / 64 ≤ (pa + n - 1) / 64) && decide (n ≠ 0)) then .error ⟨tEccUe, 0, 0, 3⟩ else .ok ()

/-- MLD (11 R286): the armed check of a region it touches is disarmed (R281). -/
def execMld (ac : BitVec 4) (off : BitVec 21) (s : State) : Result :=
  let k := s.cur
  s.mxEnd (do
    let rr ← k.regionFor ac false
    let r := rr.region
    recordsOk r off.toNat .read
    let base := tileBase s.modid s.me + off.toNat
    s.tileSound base (16 * r.rows * r.cols)
    let es := r.cells.map (fun c =>
      let at_ := base + 16 * (c.1 * r.cols + c.2)
      (elemKey r c.1 c.2, Elem.ofRecord ((List.range 10).map (fun b => s.seenByte (at_ + b)))))
    let k1 := if k.armedOn r then { k with grp := { k.grp with mx := { k.grp.mx with chk := none } } } else k
    pure (k1.writeAcc r (blocksOf (r.rows * r.cols) 4) 0 0 .load es []))

/-! ## Readers -/

/-- A committed element, as a reader finds it at its start (11 R264, R272). -/
def Core.elemAt (k : Core) (key : Nat) : Elem := (Sparse.get k.acc Elem.zero key).seen

/-- OVF seen with ACCTRAP = 1 (11 R276), and the status of an armed check (R285). -/
def State.drainCheck (s : State) (k : Core) (r : Region) : Except Flt Unit :=
  if recAcctrap (s.recOf s.me) && r.cells.any (fun c => (k.elemAt (elemKey r c.1 c.2)).has gOvf) then
    .error ⟨tAccOvf, 0, 0, 3⟩
  else match k.grp.mx.chk with
    | some c => if c.region = r then
        match c.status with
        | .clean => .ok ()
        | .ue => .error ⟨tMxUe, 0, 0, 3⟩
        | .det => .error ⟨tMxDet, 0, 0, 3⟩
      else .ok ()
    | none => .ok ()

/-- An output stream (11 R269), checked for every element the instruction writes. -/
def State.outStream (s : State) (k : Core) (q : BitVec 4) (t : ElemTy) (r : Region) : Except Flt Desc :=
  match s.mxStream k q t true false true with
  | .error f => .error f
  | .ok d => if Desc.count d 0 < r.cols then .error (streamFlt sfBadRegion) else .ok d

/-- The output bits of `n` elements of region row i from column j0 on, as an array holds them. -/
def chunkBits (acc : Sparse Elem) (r : Region) (bits i j0 n : Nat) (code : Nat → Nat → Elem → Nat) : Nat :=
  ((List.range n).map (fun x => code i (j0 + x) (Sparse.get acc Elem.zero (elemKey r i (j0 + x))).seen % 2 ^ bits)).foldr
    (fun c a => c + a * 2 ^ bits) 0

/-- A drain on its way: the core with what it emits, and the array in the cycle of the next chunk when the group has not passed, and when it
has (11 R270, R272). -/
structure Drain where
  out : Core
  held : Core
  passed : Core

/-- One chunk of a drain: chunk t is read at start + t and its bytes land `lag` cycles later (11 R271). `code` gives an element's output
bits. -/
def State.drainChunk (s : State) (k : Core) (d : Desc) (r : Region) (lag : Nat) (code : Nat → Nat → Elem → Nat)
    (w : Except Flt Drain) (t : Nat) : Except Flt Drain :=
  match w with
  | .error f => .error f
  | .ok w =>
    let per := blocksOf r.cols 32
    let bits := (Desc.ty d).bits
    let i := t / per
    let j0 := 32 * (t % per)
    let n := min 32 (r.cols - j0)
    let e := Desc.ord d + i * Desc.count d 0 + j0
    let due := k.cycle + t + lag + mxExtra s.me d
    match s.writeElems d (chunkBits w.held.acc r bits i j0 n code) (fun _ => true) n e 0,
      s.writeElems d (chunkBits w.passed.acc r bits i j0 n code) (fun _ => true) n e 0 with
    | .error f, _ => .error f
    | _, .error f => .error f
    | .ok (cs, ms), .ok (cs', _) =>
      let via := decide (Desc.space d = 3)
      let op : Op := if cs' = cs then .land (.mx via) due cs else .drained via (k.cycle + t) due cs cs'
      .ok ⟨(w.out.missAll ms).emit op, w.held.tickAcc, w.passed.tickAcc⟩

/-- Writing a region to an output stream chunk by chunk; `pins` are the lines of the instruction's other streams. -/
def State.drain (s : State) (k : Core) (q : BitVec 4) (d : Desc) (r : Region) (lag : Nat) (pins : List Nat)
    (code : Nat → Nat → Elem → Nat) : Except Flt Core :=
  let chunks := r.rows * blocksOf r.cols 32
  if 256 < (pins ++ s.pinLines d (lineElems d r.cols r.rows)).eraseDups.length then .error (streamFlt sfPinLimit)
  else
    ((List.range chunks).foldl (s.drainChunk k d r lag code) (.ok ⟨k, k, k.groupPassed⟩)).map (fun w =>
      (w.out.advance q d (r.rows * Desc.count d 0) []).startMx chunks)

/-- MNRM promote (11 R276). -/
def execMnrm (ac q : BitVec 4) (t : ElemTy) (ov : Bool) (rm : RMode) (scale : Option Byte) (s : State) : Result :=
  let k := s.cur
  s.mxEnd (do
    let rr ← k.regionFor ac false
    let d ← s.outStream k q t rr.region
    s.drainCheck k rr.region
    let sc : Int := match scale with | none => 0 | some b => b.toInt
    s.drain k q d rr.region 8 [] (fun _ _ e => promote t rm ov sc e))

/-- MST (11 R286). -/
def execMst (ac : BitVec 4) (off : BitVec 21) (s : State) : Result :=
  let k := s.cur
  s.mxEnd (do
    let rr ← k.regionFor ac false
    let r := rr.region
    recordsOk r off.toNat .write
    let base := tileBase s.modid s.me + off.toNat
    let busy := blocksOf (r.rows * r.cols) 4
    let bytes := r.cells.flatMap (fun c => (k.elemAt (elemKey r c.1 c.2)).record)
    pure ((k.startMx busy).emit (.land (.mx false) (k.cycle + busy + 1) (fullCells base bytes))))

/-- MCHK.on (11 R281). -/
def execMchkOn (ac : BitVec 4) (s : State) : Result :=
  let k := s.cur
  s.mxEnd (match k.regionFor ac false with
    | .error f => .error f
    | .ok rr =>
      let r := rr.region
      let el (i j : Nat) : Elem := k.elemAt (elemKey r i j)
      let k1 := k.startMx (r.tiles + 4)
      .ok { k1 with grp := { k1.grp with mx := { k1.grp.mx with
        chk := some ⟨ac.toNat, r, sumCols r el, sumRows r el, .clean, 0⟩ } } })

/-- MCHK.off (11 R281). -/
def execMchkOff (ac : BitVec 4) (s : State) : Result :=
  let k := s.cur
  s.mxEnd (match k.regionFor ac false with
    | .error f => .error f
    | .ok rr =>
      let k1 := k.startMx 1
      .ok (match k.grp.mx.chk with
        | some c => if c.region = rr.region then
            { k1 with grp := { k1.grp with mx := { k1.grp.mx with chk := none } } } else k1
        | none => k1))

/-- MREG (11 R287). -/
def mregHalf (ac : BitVec 4) (f : Word → Word) (s : State) : Result :=
  let k := s.cur
  .next (s.setCur (k.push (some (.ac ac.toNat)) (.word (f (k.word (.ac ac.toNat)))) (k.cycle + 1)))

def execMregLo (ac : BitVec 4) (l : W32) (s : State) : Result := mregHalf ac (fun v => v.extractLsb' 32 32 ++ l) s
def execMregHi (ac : BitVec 4) (l : W32) (s : State) : Result := mregHalf ac (fun v => l ++ v.extractLsb' 0 32) s

/-- The word of MSTAT (11 R288). -/
def Core.mstatWord (k : Core) (r : Region) : Word :=
  let es := r.cells.map (fun c => k.elemAt (elemKey r c.1 c.2))
  let g := es.foldl (fun a e => a ||| e.g) 0
  let tag := match es with
    | [] => none
    | e :: rest => if rest.all (fun x => x.tag == e.tag) then e.tag else none
  let chk := match k.grp.mx.chk with
    | none => 0
    | some c => match c.status with | .clean => 1 | .ue => 2 | .det => 3
  BitVec.ofNat 64 (k.grp.mx.ncorr.toNat * 2 ^ 48 + chk * 2 ^ 32 + tagCode tag * 2 ^ 16 + g.toNat)

/-- MSTAT (11 R288): an asynchronous write of a w register. -/
def execMstat (ac w : BitVec 4) (s : State) : Result :=
  let k := s.cur
  s.mxEnd (match k.regionFor ac false with
    | .error f => .error f
    | .ok rr =>
      let busy := rr.region.tiles
      .ok (((k.startMx busy).pendW w.toNat).emit (.wland w.toNat (k.mstatWord rr.region) (k.cycle + busy + 2))))

end Sys2Proof.Machine
end

