-- ==== Sys2Proof/Machine/Elementary.lean ====
section
/-!
DEFINITION. The correctly rounded f32 functions of 10 R245 and R260: 1/x, 1/√x, 2^x, log2 x and e^x. The last three are
enclosed between two rationals, at growing precision until both ends round to the same f32; the exact value is never
representable or a tie outside the cases taken first, so an enclosure that decides exists.
-/
namespace Sys2Proof

/-- The f32 code both ends of an enclosure round to, at the first precision that decides it. -/
def refine (f : Nat → FNum × FNum) : List Nat → Nat
  | [] => f32Nan
  | [p] => f32Rne (f p).1
  | p :: q :: ps =>
    let (lo, hi) := f p
    let r := f32Rne lo
    if r = f32Rne hi then r else refine f (q :: ps)

/-- Working precisions in bits. The inputs of e^(s − m) have at most 280 significant bits. -/
def precisions : List Nat := [96, 192, 400, 800]

/-- Σ z^(2i+1)/(2i+1) over `k` terms in fixed point of `p` bits: `zp` is the present power, `z2` the square. -/
def atanhSum (p : Nat) : Nat → Nat → Nat → Nat → Nat
  | 0, _, _, _ => 0
  | k + 1, i, zp, z2 => zp / (2 * i + 1) + atanhSum p k (i + 1) (zp * z2 / 2 ^ p) z2

/-- ln 2 = 2 atanh(1/3) in fixed point, within 2·(p/3 + 6) units. -/
def ln2Fix (p : Nat) : Nat := 2 * atanhSum p (p / 3 + 6) 0 (2 ^ p / 3) (2 ^ p / 9)

/-- Σ r^i/i! over `k` terms in fixed point. -/
def expSum (p r : Nat) : Nat → Nat → Nat → Nat
  | 0, _, _ => 0
  | k + 1, i, t => t + expSum p r k (i + 1) (t * r / 2 ^ p / (i + 1))

/-- Enclosure of 2^k·e^(r/2^p), r known within `er` units and 0 ≤ r < 0.8·2^p. -/
def expEnclose (p : Nat) (k : Int) (r er : Nat) : FNum × FNum :=
  let n := p / 2 + 20
  let v := expSum p r n 0 (2 ^ p)
  let err := 4 * n + 4 * er + 4
  (.scaled false (v - err) (k - p), .scaled false (v + err) (k - p))

/-- e^x for an exact x (10 R260, last case). -/
def expF32 (neg : Bool) (n d : Nat) : Nat :=
  if n = 0 then f32Rne (.ofInt 1)
  else if 200 * d ≤ n then (if neg then 0 else f32Rne (.inf false))
  else refine (fun p =>
    let x : Int := (if neg then -1 else 1) * (n * 2 ^ p / d : Nat)
    let l := ln2Fix p
    let k := x / (l : Int)
    expEnclose p k (x - k * l).toNat (2 + (k.natAbs + 1) * (2 * (p / 3 + 6)))) precisions

/-- 2^x for an exact x (10 R245). -/
def exp2F32 (neg : Bool) (n d : Nat) : Nat :=
  let x : Int := (if neg then -1 else 1) * (n : Int)
  let k := x / (d : Int)
  let f := (x % (d : Int)).toNat
  if 200 ≤ k then f32Rne (.inf false)
  else if k ≤ -200 then 0
  else if f = 0 then f32Rne (.scaled false 1 k)
  else refine (fun p =>
    let l := ln2Fix p
    expEnclose p k (f * 2 ^ p / d * l / 2 ^ p) (4 + 2 * (p / 3 + 6))) precisions

/-- log2 of n / d > 0 (10 R245). -/
def log2F32 (n d : Nat) : Nat :=
  let e := log2Floor n d
  let mn := if 0 ≤ e then n else n * 2 ^ (-e).toNat
  let md := if 0 ≤ e then d * 2 ^ e.toNat else d
  if mn = md then f32Rne (.ofInt e)
  else refine (fun p =>
    let z := (mn - md) * 2 ^ p / (mn + md)
    let ln := 2 * atanhSum p (p / 3 + 6) 0 z (z * z / 2 ^ p)
    let v := ln * 2 ^ p / ln2Fix p
    let err := 20 * (p / 3 + 6)
    let at_ (x : Int) : FNum := .fin (decide (x < 0)) x.natAbs (2 ^ p)
    (at_ (e * (2 ^ p : Nat) + v - err), at_ (e * (2 ^ p : Nat) + v + err))) precisions

/-- floor(√n) for n < 4^k, bit by bit. -/
def sqrtBits (n : Nat) : Nat → Nat → Nat
  | 0, r => r
  | k + 1, r => let t := r + 2 ^ k; sqrtBits n k (if t * t ≤ n then t else r)

/-- 1/√(n/d): the root of d/n to 64 further bits, with a sticky half when it is not exact. -/
def rsqrtF32 (n d : Nat) : Nat :=
  let q := 160
  let w := d * 4 ^ q / n
  let fl := sqrtBits w (q + 90) 0
  let exact := decide (fl * fl * n = d * 4 ^ q)
  f32Rne (.fin false (if exact then 2 * fl else 2 * fl + 1) (2 ^ (q + 1)))

/-- The four functions with their special inputs (10 R245). -/
def vrcpF32 (v : Nat) : Nat :=
  match f32Val v with
  | .nan => f32Nan
  | .inf s => f32Rne (.fin s 0 1)
  | .fin s n d => if n = 0 then f32Rne (.inf s) else f32Rne (.fin s d n)

def vrsqF32 (v : Nat) : Nat :=
  match f32Val v with
  | .nan => f32Nan
  | .inf s => if s then f32Nan else 0
  | .fin s n d => if n = 0 then f32Rne (.inf s) else if s then f32Nan else rsqrtF32 n d

def vexp2F32 (v : Nat) : Nat :=
  match f32Val v with
  | .nan => f32Nan
  | .inf s => if s then 0 else f32Rne (.inf false)
  | .fin s n d => exp2F32 s n d

def vlog2F32 (v : Nat) : Nat :=
  match f32Val v with
  | .nan => f32Nan
  | .inf s => if s then f32Nan else f32Rne (.inf false)
  | .fin s n d => if n = 0 then f32Rne (.inf true) else if s then f32Nan else log2F32 n d

/-- The softmax exponential of a score and a maximum (10 R260). -/
def expmF32 (s m : Nat) : Nat :=
  match f32Val s, f32Val m with
  | .nan, _ | _, .nan => f32Nan
  | _, .inf true => 0
  | x, .inf false => match x with | .inf false => f32Rne (.ofInt 1) | _ => 0
  | .inf true, _ => 0
  | .inf false, _ => f32Rne (.inf false)
  | x, y => match x.add y.neg with
    | .fin neg n d => expF32 neg n d
    | _ => f32Nan

end Sys2Proof
end

