-- ==== Sys2Proof/Machine/Vector.lean ====
section
/-!
DEFINITION. The VA and VB instructions (10 R236 to R261). Element results are computed for every lane; the predicate decides
at commit which lanes of a register are written, or which bytes of a stream group are stored (R239).
-/
namespace Sys2Proof.Machine

open Sys2Proof

/-! ## Elements and lanes (10 R236) -/

/-- Element e of an s-bit type. -/
def elemOf (s : Nat) (v : Vec) (e : Nat) : Nat := v.toNat / 2 ^ (s * e) % 2 ^ s

/-- A register packed from its elements, least significant first. -/
def packElems (s : Nat) (xs : List Nat) : Vec := BitVec.ofNat 2048 (xs.foldr (fun x acc => x % 2 ^ s + acc * 2 ^ s) 0)

/-- A register whose element e is `f e`. -/
def buildElems (s : Nat) (f : Nat → Nat) : Vec := packElems s ((List.range (2048 / s)).map f)

/-- Lane k. -/
def laneOf (v : Vec) (k : Nat) : Nat := elemOf 32 v k

/-- A register whose lane k is `f k`. -/
def buildLanes (f : Nat → Nat) : Vec := buildElems 32 f

/-- Elementwise functions of one and two registers. -/
def mapElems (s : Nat) (f : Nat → Nat) (a : Vec) : Vec := buildElems s (fun e => f (elemOf s a e))
def zipElems (s : Nat) (f : Nat → Nat → Nat) (a b : Vec) : Vec := buildElems s (fun e => f (elemOf s a e) (elemOf s b e))

/-- The element read as a signed or unsigned integer of its type. -/
def intOf (t : ElemTy) (v : Nat) : Int := if t.isSint then signedOf t.bits v else ((v % 2 ^ t.bits : Nat) : Int)

/-- The low s bits of an exact integer (10 R240). -/
def wrapTo (t : ElemTy) (x : Int) : Nat := intCode t.bits x

/-- A floating-point result rounded once (10 R240). -/
def fltTo (t : ElemTy) (x : FNum) : Nat := roundTo t .ne x

/-! ## Arithmetic of one element (10 R243, R244) -/

/-- An operation given for integers and for exact values. -/
def numOp (t : ElemTy) (i : Int → Int → Int) (f : FNum → FNum → FNum) (a b : Nat) : Nat :=
  if t.isFlt then fltTo t (f (t.value a) (t.value b)) else wrapTo t (i (intOf t a) (intOf t b))

def addElem (t : ElemTy) : Nat → Nat → Nat := numOp t (· + ·) FNum.add
def subElem (t : ElemTy) : Nat → Nat → Nat := numOp t (· - ·) (fun x y => x.add y.neg)
def mulElem (t : ElemTy) : Nat → Nat → Nat := numOp t (· * ·) FNum.mul

/-- D + A × B and D − A × B (10 R243). -/
def fmaElem (t : ElemTy) (minus : Bool) (d a b : Nat) : Nat :=
  if t.isFlt then
    let p := (t.value a).mul (t.value b)
    fltTo t ((t.value d).add (if minus then p.neg else p))
  else
    let p := intOf t a * intOf t b
    wrapTo t (if minus then intOf t d - p else intOf t d + p)

/-- VMIN and VMAX (10 R243): −0 is below +0, one NaN gives the other operand. -/
def pickElem (t : ElemTy) (big : Bool) (a b : Nat) : Nat :=
  if t.isFlt then
    let x := t.value a
    let y := t.value b
    if x.isNan && y.isNan then fltTo t .nan
    else if x.isNan then b else if y.isNan then a
    else if (x.lt true y) = big then b else a
  else if (decide (intOf t a < intOf t b)) = big then b else a

/-- |A| and −A (10 R243): floating types change the sign bit only. -/
def absElem (t : ElemTy) (a : Nat) : Nat :=
  if t.isFlt then (if (t.value a).isNan then fltTo t .nan else a % 2 ^ (t.bits - 1))
  else wrapTo t (intOf t a).natAbs
def negElem (t : ElemTy) (a : Nat) : Nat :=
  if t.isFlt then
    (if (t.value a).isNan then fltTo t .nan
     else if a / 2 ^ (t.bits - 1) % 2 = 1 then a % 2 ^ (t.bits - 1) else a % 2 ^ (t.bits - 1) + 2 ^ (t.bits - 1))
  else wrapTo t (-(intOf t a))

/-- Shifts (10 R244): the count is B mod s. -/
def shlElem (t : ElemTy) (a b : Nat) : Nat := a * 2 ^ (b % t.bits) % 2 ^ t.bits
def shrElem (t : ElemTy) (a b : Nat) : Nat := a / 2 ^ (b % t.bits)
def sarElem (t : ElemTy) (a b : Nat) : Nat := intCode t.bits (signedOf t.bits a / (2 ^ (b % t.bits) : Nat))

/-- VCMP (10 R246). -/
def cmpElem (t : ElemTy) (a b : Nat) : Nat :=
  if t.isFlt then vcmpCode (t.value a) (t.value b) else vcmpCode (.ofInt (intOf t a)) (.ofInt (intOf t b))

/-! ## Conversion (10 R250 to R252) -/

/-- A code written into a lane: sign-extended for the signed integer types, zero-extended otherwise. -/
def widenElem (t : ElemTy) (v : Nat) : Nat :=
  if t.isSint || t == .i4 then intCode 32 (signedOf t.bits v) else v % 2 ^ t.bits

def cvtLane (t src : ElemTy) (rm : RMode) (v : Nat) : Nat := widenElem t (roundTo t rm (src.value v))

/-- Rounding to an integral value of the type (10 R251). -/
def roundElem (t : ElemTy) (rm : RMode) (v : Nat) : Nat :=
  match t.value v with
  | .fin neg n d => fltTo t (.fin neg (rndMag rm neg n d) 1)
  | x => fltTo t x

/-- The range of VSAT (10 R252). -/
def satRange (t : ElemTy) : Int × Int := if t = .u32 then (0, 2147483647) else intRange t

def satLane (t : ElemTy) (v : Nat) : Nat :=
  widenElem t (intCode t.bits (clampInt (signedOf 32 v) (satRange t).1 (satRange t).2))

/-! ## Packing and planes (10 R253, R254) -/

def packVal (q : Nat) (t : ElemTy) (d a b : Vec) : Vec :=
  buildElems t.bits (fun e =>
    if 128 * q ≤ e ∧ e < 128 * q + 128 then
      let k := e - 128 * q
      if k < 64 then laneOf a k else laneOf b (k - 64)
    else elemOf t.bits d e)

def unpackVal (q : Nat) (t : ElemTy) (a : Vec) : Vec := buildLanes (fun k => widenElem t (elemOf t.bits a (64 * q + k)))

/-- VPLJ: byte e joins the low plane of a and the high plane of b. -/
def joinVal (q : Nat) (a b : Vec) : Vec :=
  buildElems 8 (fun e => elemOf 2 b (256 * q + e) * 16 + elemOf 4 a (256 * q + e))

/-- VPLS: one plane of the codes of a, placed into part q of d. -/
def splitVal (q hi : Nat) (d a : Vec) : Vec :=
  let s := if hi = 1 then 2 else 4
  buildElems s (fun e =>
    if 256 * q ≤ e ∧ e < 256 * q + 256 then elemOf 8 a (e - 256 * q) / (if hi = 1 then 16 else 1) else elemOf s d e)

/-! ## Lane movement (10 R249, R255) -/

def selVal (p : Word) (a b : Vec) : Vec := buildLanes (fun k => if p.getLsbD k then laneOf a k else laneOf b k)
def shufVal (a b : Vec) : Vec :=
  buildLanes (fun k => let i := laneOf b k; if i / 64 % 2 = 1 then 0 else laneOf a (i % 64))
def slideVal (n : Nat) (a b : Vec) : Vec := buildLanes (fun k => if k + n < 64 then laneOf a (k + n) else laneOf b (k + n - 64))
def idxVal (a b : Vec) : Vec := buildLanes (fun k => laneOf a k + k * laneOf b k)
def compVal (p : Word) (a : Vec) : Vec :=
  let act := ((List.range 64).filter (fun k => p.getLsbD k)).map (laneOf a)
  buildLanes (fun k => nth 0 act k)

/-! ## Reductions and scans (10 R257) -/

def redFn (f : VFn) (t : ElemTy) (a b : Nat) : Nat :=
  match f with
  | .add => addElem t a b
  | .min => pickElem t false a b
  | .max => pickElem t true a b
  | .and => a &&& b
  | .or => a ||| b
  | .xor => a ^^^ b

def redUnit (f : VFn) (t : ElemTy) : Nat :=
  match f with
  | .add | .or | .xor => 0
  | .and => 0xFFFFFFFF
  | .min => if t = .f32 then 0x7F800000 else if t = .i32 then 0x7FFFFFFF else 0xFFFFFFFF
  | .max => if t = .f32 then 0xFF800000 else if t = .i32 then 0x80000000 else 0

/-- Participating lanes, the others as the identity. -/
def redLanes (f : VFn) (t : ElemTy) (p : Word) (a : Vec) : List Nat :=
  (List.range 64).map (fun k => if p.getLsbD k then laneOf a k else redUnit f t)

/-- One level of the pairing tree. -/
def pairUp (g : Nat → Nat → Nat) : List Nat → List Nat
  | x :: y :: xs => g x y :: pairUp g xs
  | xs => xs

def redVal (f : VFn) (t : ElemTy) (p : Word) (a : Vec) : Vec :=
  let up := pairUp (redFn f t)
  packElems 32 ((up (up (up (up (up (up (redLanes f t p a))))))).take 1)

def scanFrom (g : Nat → Nat → Nat) : Nat → List Nat → List Nat
  | _, [] => []
  | s, x :: xs => g s x :: scanFrom g (g s x) xs

def scanVal (f : VFn) (t : ElemTy) (p : Word) (a : Vec) : Vec :=
  packElems 32 (scanFrom (redFn f t) (redUnit f t) (redLanes f t p a))

/-- VDOT of one lane (10 R259). -/
def dotLane (t : ElemTy) (d a b : Vec) (k : Nat) : Nat :=
  let n := 32 / t.bits
  let es := (List.range n).map (fun i => n * k + i)
  if t.isFlt then
    f32Rne (es.foldl (fun acc e => acc.add ((t.value (elemOf t.bits a e)).mul (t.value (elemOf t.bits b e)))) (f32Val (laneOf d k)))
  else
    intCode 32 (es.foldl (fun acc e => acc + intOf t (elemOf t.bits a e) * intOf t (elemOf t.bits b e)) (laneOf d k : Int))

/-! ## Predicates -/

/-- VPOP (10 R247): the bits of the predicate before it is combined. -/
def popBits (f : VQuant) (t : ElemTy) (a : Vec) : Word :=
  let lanes (k : Nat) : Bool :=
    let n := 32 / t.bits
    let es := (List.range n).map (fun i => elemOf t.bits a (n * k + i))
    match f with
    | .any c => es.any (fun x => (x &&& c.toNat) != 0)
    | .all c => es.all (fun x => (x &&& c.toNat) != 0)
    | .nz => laneOf a k != 0
  BitVec.ofNat 64 ((List.range 64).foldr (fun k acc => (if lanes k then 1 else 0) + 2 * acc) 0)

/-- The predicate a field names, as it stands at issue (10 R239). -/
def Core.pred (k : Core) (u : VSlot) (p : BitVec 2) : Word :=
  predOf (match u with | .va => k.regs.pa | .vb => k.regs.pb) p.toNat

/-- The register d names, for the instructions that read d. -/
def Core.vOld (k : Core) (u : VSlot) (d : Opnd) : Vec := match nameOf u.slot d with | some r => k.wide r | none => 0

/-! ## Shared shapes -/

def fullMask : Word := BitVec.allOnes 64

/-- Two operands to a vector result. -/
def vTwo (u : VSlot) (d a : Opnd) (b : OpB) (mask : Word) (lat : Nat) (f : Vec → Vec → Vec) (s : State) : Result :=
  s.orFault u.slot (do
    let (pa, xa, k1) ← s.operand s.cur u.slot a
    let (pb, xb, k2) ← s.operandB k1 u.slot b
    s.putVec ((k2.keepA u.slot pa).keepB u.slot pb) u.slot d (f pa.val pb.val) mask (s.cur.cycle + lat + max xa xb))

/-- One operand to a vector result. -/
def vOne (u : VSlot) (d a : Opnd) (mask : Word) (lat : Nat) (f : Vec → Vec) (s : State) : Result :=
  s.orFault u.slot (do
    let (pa, xa, k1) ← s.operand s.cur u.slot a
    s.putVec (k1.keepA u.slot pa) u.slot d (f pa.val) mask (s.cur.cycle + lat + xa))

/-- A typed elementwise instruction under a mask. -/
def vBin (p : VBin) (lat : Nat) (f : ElemTy → Nat → Nat → Nat) (s : State) : Result :=
  vTwo p.u p.d p.a p.b (s.cur.pred p.u p.p) lat (zipElems p.t.bits (f p.t)) s

/-- One that also reads d. -/
def vAcc (p : VBin) (f : Nat → Nat → Nat → Nat) (s : State) : Result :=
  let d := s.cur.vOld p.u p.d
  vTwo p.u p.d p.a p.b (s.cur.pred p.u p.p) 4
    (fun a b => buildElems p.t.bits (fun e => f (elemOf p.t.bits d e) (elemOf p.t.bits a e) (elemOf p.t.bits b e))) s

def vUn (p : VUn) (lat : Nat) (f : ElemTy → Nat → Nat) (s : State) : Result :=
  vOne p.u p.d p.a (s.cur.pred p.u p.p) lat (mapElems p.t.bits (f p.t)) s

/-- A function of f32 lanes. -/
def vFun (p : VBit1) (f : Nat → Nat) (s : State) : Result := vOne p.u p.d p.a (s.cur.pred p.u p.p) 6 (mapElems 32 f) s

/-- A bitwise function of whole registers. -/
def vBits (p : VBit) (lat : Nat) (f : Vec → Vec → Vec) (s : State) : Result :=
  vTwo p.u p.d p.a p.b (s.cur.pred p.u p.p) lat f s

/-! ## The instructions -/

def execVnop (_u : VSlot) (s : State) : Result := .next s
def execVadd (p : VBin) (s : State) : Result := vBin p 2 addElem s
def execVsub (p : VBin) (s : State) : Result := vBin p 2 subElem s
def execVmul (p : VBin) (s : State) : Result := vBin p 3 mulElem s
def execVfma (p : VBin) (s : State) : Result := vAcc p (fmaElem p.t false) s
def execVfms (p : VBin) (s : State) : Result := vAcc p (fmaElem p.t true) s
def execVmin (p : VBin) (s : State) : Result := vBin p 2 (fun t => pickElem t false) s
def execVmax (p : VBin) (s : State) : Result := vBin p 2 (fun t => pickElem t true) s
def execVabs (p : VUn) (s : State) : Result := vUn p 2 absElem s
def execVneg (p : VUn) (s : State) : Result := vUn p 2 negElem s
def execVrcp (p : VBit1) (s : State) : Result := vFun p vrcpF32 s
def execVrsq (p : VBit1) (s : State) : Result := vFun p vrsqF32 s
def execVexp2 (p : VBit1) (s : State) : Result := vFun p vexp2F32 s
def execVlog2 (p : VBit1) (s : State) : Result := vFun p vlog2F32 s
def execVand (p : VBit) (s : State) : Result := vBits p 2 (fun a b => a &&& b) s
def execVor (p : VBit) (s : State) : Result := vBits p 2 (fun a b => a ||| b) s
def execVxor (p : VBit) (s : State) : Result := vBits p 2 (fun a b => a ^^^ b) s
def execVnot (p : VBit1) (s : State) : Result := vOne p.u p.d p.a (s.cur.pred p.u p.p) 2 (fun a => ~~~a) s
def execVshl (p : VBin) (s : State) : Result := vBin p 2 shlElem s
def execVshr (p : VBin) (s : State) : Result := vBin p 2 shrElem s
def execVsar (p : VBin) (s : State) : Result := vBin p 2 sarElem s
def execVcmp (p : VBin) (s : State) : Result := vBin p 2 cmpElem s
def execVsel (p : VBit) (s : State) : Result := vTwo p.u p.d p.a p.b fullMask 2 (selVal (s.cur.pred p.u p.p)) s

/-- VCVT (10 R250): lane by lane. -/
def execVcvt (rm : RMode) (src : ElemTy) (p : VUn) (s : State) : Result :=
  vOne p.u p.d p.a (s.cur.pred p.u p.p) 3 (mapElems 32 (cvtLane p.t src rm)) s

def execVpack (q : BitVec 2) (u : VSlot) (t : ElemTy) (d a : Opnd) (b : OpB) (s : State) : Result :=
  vTwo u d a b fullMask 3 (packVal q.toNat t (s.cur.vOld u d)) s

def execVunpk (q : BitVec 6) (p : VUn) (s : State) : Result :=
  vOne p.u p.d p.a (s.cur.pred p.u p.p) 3 (unpackVal q.toNat p.t) s

def execVshuf (p : VBit) (s : State) : Result := vBits p 2 shufVal s

def execVbcst (j : BitVec 6) (p : VBit1) (s : State) : Result :=
  vOne p.u p.d p.a (s.cur.pred p.u p.p) 2 (fun a => broadcast (BitVec.ofNat 32 (laneOf a j.toNat))) s

def execVred (f : VFn) (p : VUn) (s : State) : Result := vOne p.u p.d p.a fullMask 6 (redVal f p.t (s.cur.pred p.u p.p)) s
def execVscan (f : VFn) (p : VUn) (s : State) : Result := vOne p.u p.d p.a fullMask 8 (scanVal f p.t (s.cur.pred p.u p.p)) s

/-- VCLMUL (10 R258): the low 32 bits of the carry-less product. -/
def execVclmul (p : VBit) (s : State) : Result := vBits p 3 (zipElems 32 (fun a b => clmulNat 32 a b)) s

def execVpopc (p : VUn) (s : State) : Result := vUn p 2 (fun t => popNat t.bits) s
def execVclz (p : VUn) (s : State) : Result := vUn p 2 (fun t => clzNat t.bits) s

def execVmovl (u : VSlot) (p : BitVec 2) (d : Opnd) (l : Lit) (s : State) : Result :=
  let k := s.cur
  s.orFault u.slot (s.putVec (k.takeLit u.slot l) u.slot d (broadcast (widenLane l)) (k.pred u p) (k.cycle + 2))

/-- VXCP (10 R256): a whole register to the other vector slot, one lane to a scalar slot. -/
def execVxcp (u : VSlot) (dst : Slot) (ix : BitVec 5) (lane : BitVec 6) (a : Opnd) (s : State) : Result :=
  s.orFault u.slot (do
    let (pa, xa, k1) ← s.operand s.cur u.slot a
    pure ((k1.keepA u.slot pa).push (some (xcpDest dst ix))
      (if dst.isVec then .vec pa.val fullMask else .word (BitVec.ofNat 64 (laneOf pa.val lane.toNat)))
      (s.cur.cycle + xcpLatency u.slot dst + xa)))

/-- VPOP (10 R247). -/
def execVpop (f : VQuant) (u : VSlot) (t : ElemTy) (p d : BitVec 2) (a : Opnd) (s : State) : Result :=
  let pr := s.cur.pred u p
  s.orFault u.slot (do
    let (pa, xa, k1) ← s.operand s.cur u.slot a
    pure ((k1.keepA u.slot pa).push (some (match u with | .va => .pa d.toNat | .vb => .pb d.toNat))
      (.word (popBits f t pa.val &&& pr)) (s.cur.cycle + 3 + xa)))

/-- VANY and VALL (10 R248). -/
def flagFrom (d : BitVec 4) (v : Bool) (s : State) : Result :=
  let k := s.cur
  .next (s.setCur (k.push (some (.f d.toNat)) (.word (boolWord v)) (k.cycle + 3)))

def execVany (u : VSlot) (p : BitVec 2) (d : BitVec 4) (s : State) : Result := flagFrom d (s.cur.pred u p != 0) s
def execVall (u : VSlot) (p : BitVec 2) (d : BitVec 4) (s : State) : Result := flagFrom d (s.cur.pred u p == fullMask) s

def execVidx (p : VBin) (s : State) : Result := vTwo p.u p.d p.a p.b (s.cur.pred p.u p.p) 2 idxVal s

def execVslide (u : VSlot) (n : BitVec 6) (d a : Opnd) (b : OpB) (s : State) : Result :=
  vTwo u d a b fullMask 2 (slideVal n.toNat) s

/-- VDOT (10 R259): 32-bit lanes. -/
def execVdot (p : VBin) (s : State) : Result :=
  let d := s.cur.vOld p.u p.d
  vTwo p.u p.d p.a p.b (s.cur.pred p.u p.p) 4 (fun a b => buildLanes (dotLane p.t d a b)) s

def execVsat (p : VUn) (s : State) : Result :=
  vOne p.u p.d p.a (s.cur.pred p.u p.p) 2 (mapElems 32 (satLane p.t)) s

def execVexpm (p : VBit) (s : State) : Result := vBits p 6 (zipElems 32 expmF32) s

def execVround (rm : RMode) (p : VUn) (s : State) : Result := vUn p 3 (fun t => roundElem t rm) s

def execVplj (q : BitVec 1) (u : VSlot) (_t : ElemTy) (d a b : Opnd) (s : State) : Result :=
  vTwo u d a (.op b) fullMask 3 (joinVal q.toNat) s

def execVpls (q hi : BitVec 1) (u : VSlot) (_t : ElemTy) (d a : Opnd) (s : State) : Result :=
  vOne u d a fullMask 3 (splitVal q.toNat hi.toNat (s.cur.vOld u d)) s

def execVcomp (p : VBit1) (s : State) : Result := vOne p.u p.d p.a fullMask 4 (compVal (s.cur.pred p.u p.p)) s

end Sys2Proof.Machine
end

