-- ==== Sys2Proof/Machine/Epilogue.lean ====
section
/-!
DEFINITION. The epilogue processor: words (05 R104, 11 R279), the program checks of MEPI (R278), the run of one element, and
MDRN (R280).
-/
namespace Sys2Proof.Machine

open Sys2Proof

/-- Fields of an epilogue word. -/
def eOp (w : W32) : Nat := (w.extractLsb' 28 4).toNat
def eD (w : W32) : Nat := (w.extractLsb' 24 4).toNat
def eA (w : W32) : Nat := (w.extractLsb' 20 4).toNat
def eB (w : W32) : Nat := (w.extractLsb' 16 4).toNat
def eImm (w : W32) : Nat := (w.extractLsb' 0 16).toNat

/-- Whether every field that the operation leaves unused is zero, and the operation is assigned (11 R278, R279). -/
def epiWordOk (w : W32) : Bool :=
  let d0 := eD w == 0
  let a0 := eA w == 0
  let b0 := eB w == 0
  let i := eImm w
  match eOp w with
  | 0 => d0 && a0 && b0 && i == 0
  | 1 | 2 | 3 | 4 | 5 => i % 2 ^ 15 == 0
  | 6 => i == 0
  | 7 => b0 && i / 2 ^ 7 == 0
  | 8 => i / 2 ^ 6 == 0
  | 9 => (eB w == 2 || ((b0 || eB w == 1) && i == 0))
  | 10 => b0
  | 11 => b0 && i == 0
  | 12 => d0 && b0 && i == 0
  | 13 => d0 && a0 && b0 && i == 0
  | _ => false

/-- A program up to and including its first EEND, at most 32 words; none when there is none. -/
def epiTake : Nat → List W32 → Option (List W32)
  | 0, _ => none
  | _, [] => none
  | n + 1, w :: ws => if eOp w = 13 then some [w] else (epiTake n ws).map (w :: ·)

def usesCol (ws : List W32) : Bool := ws.any (fun w => eOp w == 9 && eB w == 0)
def usesRow (ws : List W32) : Bool := ws.any (fun w => eOp w == 9 && eB w == 1)

/-- The refusals of MEPI (11 R278). -/
def epiOk (ws : List W32) : Bool :=
  ws.all epiWordOk && (ws.filter (fun w => eOp w == 12)).length == 1 && !(usesCol ws && usesRow ws)

/-- MEPI (11 R278): the words are read at start. -/
def execMepi (slot : BitVec 4) (off : BitVec 21) (s : State) : Result :=
  let k := s.cur
  let base := tileBase s.modid s.me + off.toNat
  let room := (2 ^ 21 - off.toNat) / 4
  let ws := (List.range (min 32 room)).map (fun i =>
    (BitVec.ofNat 32 (leNat ((List.range 4).map (fun b => s.seenByte (base + 4 * i + b))))))
  s.mxEnd (
    if off.toNat % 4 ≠ 0 then .error ⟨tAlign, 0, 0xFFFFFFFF00000000 + off.setWidth 64, 0⟩
    else match s.tileSound base (match epiTake 32 ws with | some p => 4 * p.length | none => 4 * ws.length), epiTake 32 ws with
      | .error f, _ => .error f
      | _, none => if room < 32 then .error ⟨tStream, sfBounds, 0xFFFFFFFF00200000, 0⟩ else .error ⟨tIllegal, 0, 0, 3⟩
      | _, some p =>
        if !epiOk p then .error ⟨tIllegal, 0, 0, 3⟩
        else
          let busy := p.length + 4
          let k1 := k.startMx busy
          .ok { k1 with grp := { k1.grp with mx := { k1.grp.mx with
            epi := Sparse.put k1.grp.mx.epi slot.toNat ⟨p, k.cycle + busy⟩ } } })

/-! ## The run of one element -/

def bf16ToF32 (h : Nat) : Nat := h * 65536

/-- A two-operand word in f32 or wrapping i32 arithmetic. -/
def epiArith (i32 : Bool) (f : ElemTy → Nat → Nat → Nat) (a b : Nat) : Nat := f (if i32 then .i32 else .f32) a b

def epiRm (i : Nat) : RMode := RMode.ofCode (BitVec.ofNat 2 (i / 16))
def epiTy (i : Nat) : ElemTy := ElemTy.ofCode (BitVec.ofNat 4 i)

/-- One word: the registers after it, and the output when it is ESTO. `side` is the side value of the element. -/
def epiStep (side : Nat) (w : W32) (e : List Nat) : List Nat :=
  let d := eD w
  let r (n : Nat) : Nat := nth 0 e n
  let a := r (eA w)
  let b := r (eB w)
  let i := eImm w
  let wide := decide (2 ^ 15 ≤ i)
  match eOp w with
  | 1 => setNth e d (epiArith wide addElem a b)
  | 2 => setNth e d (epiArith wide mulElem a b)
  | 3 => setNth e d (fmaElem (if wide then .i32 else .f32) false (r d) a b)
  | 4 => setNth e d (epiArith wide (fun t => pickElem t true) a b)
  | 5 => setNth e d (epiArith wide (fun t => pickElem t false) a b)
  | 6 => if b = 0 then e else setNth e d a
  | 7 => setNth e d (cvtLane (epiTy i) (if i / 64 % 2 = 1 then .i32 else .f32) (epiRm i) a)
  | 8 => setNth e d (widenElem (epiTy i) (roundTo (epiTy i) (epiRm i) ((f32Val a).mul (f32Val b))))
  | 9 => setNth e d (addElem .f32 a (if eB w = 2 then bf16ToF32 i else side))
  | 10 => setNth e d (mulElem .f32 a (bf16ToF32 i))
  | 11 => setNth e d (vexp2F32 a)
  | _ => e

/-- The output of a program for one element (11 R279): what ESTO named. -/
def epiRun (side : Nat) : List W32 → List Nat → Nat
  | [], _ => 0
  | w :: ws, e => if eOp w = 12 then nth 0 e (eA w) else epiRun side ws (epiStep side w e)

/-- The registers e0 to e15 after an element's run: words after ESTO still run, up to EEND. -/
def epiFile (side : Nat) (ws : List W32) (e : List Nat) : List Nat := ws.foldl (fun e w => epiStep side w e) e

/-- The registers at the start of an element's run (11 R279). -/
def epiInit (el : Elem) (i j : Nat) : List Nat :=
  let e1 : Nat := match el.tag with
    | none => 0
    | some .integer => intCode 32 (clampInt el.m' (-2147483648) 2147483647)
    | some _ => roundTo .i32 .ne el.value
  [promote .f32 .ne false 0 el, e1, i, j] ++ List.replicate 12 0

/-- The side values: read at start, +0 past the end of the walk (11 R280). -/
def State.sideVals (s : State) (d : Desc) (n : Nat) : Except Flt (List Nat × List Nat) :=
  match s.readElems d n (Desc.ord d) with
  | .error f => .error f
  | .ok (v, ms) => .ok ((List.range n).map (fun i => v / 2 ^ (32 * i) % 2 ^ 32), ms)

/-- The elements of a side stream. -/
def sideElems (d : Desc) (n : Nat) : List Nat := (List.range n).map (· + Desc.ord d)

/-- The epilogue registers a drain leaves. -/
def Core.keepE (k : Core) (e : List Nat) : Core :=
  let file : Sparse W32 := (List.range 16).filterMap (fun i => let v := BitVec.ofNat 32 (nth 0 e i); if v = 0 then none else some (i, v))
  { k with grp := { k.grp with mx := { k.grp.mx with e := file } } }

/-- MDRN (11 R280). -/
def execMdrn (ac : BitVec 4) (side : Option (BitVec 4)) (q : BitVec 4) (t : ElemTy) (slot : BitVec 4) (s : State) : Result :=
  let k := s.cur
  s.mxEnd (match Sparse.find? k.grp.mx.epi slot.toNat with
    | none => .error ⟨tIllegal, 0, 0, 3⟩
    | some p => do
      let rr ← k.regionFor ac false
      let r := rr.region
      let needs := usesCol p.words || usesRow p.words
      let n := if usesCol p.words then r.cols else r.rows
      let (k1, vals, pins) ← (match side, needs with
        | none, false => .ok (k, [], [])
        | some _, false | none, true => .error (streamFlt sfBadRegion)
        | some a, true => do
          let d ← s.mxStream k a .f32 false true false
          let (vals, ms) ← s.sideVals d n
          .ok (k.advance a d n ms, vals, s.pinLines d (sideElems d n)) : Except Flt (Core × List Nat × List Nat))
      let d ← s.outStream k1 q t r
      s.drainCheck k r
      let sideOf (i j : Nat) : Nat := nth 0 vals (if usesCol p.words then j else i)
      let k2 ← s.drain k1 q d r (p.words.length + 8) pins (fun i j el => epiRun (sideOf i j) p.words (epiInit el i j))
      .ok (k2.keepE (epiFile (sideOf (r.rows - 1) (r.cols - 1)) p.words
        (epiInit (k.elemAt (elemKey r (r.rows - 1) (r.cols - 1))) (r.rows - 1) (r.cols - 1)))))

/-! ## The lines an MX instruction pins (09 R222) -/

/-- Elements of streams a, b, the output and the side stream that the MX instruction at hand uses, with its streams and how far it advances
each. -/
def Core.mxUses (k : Core) (i : Instr) : List (BitVec 4 × (Desc → List Nat) × (Desc → Nat)) :=
  let region (ac : BitVec 4) (usesK : Bool) (f : RegionReg → List (BitVec 4 × (Desc → List Nat) × (Desc → Nat))) :=
    match k.regionFor ac usesK with | .ok r => f r | .error _ => []
  let product (p : MArgs) (both : Bool) := region p.ac p.k.isNone (fun r =>
    (if both then [(p.qa, fun d => lineElems d (mmaLen p r) r.region.rows, fun d => r.region.rows * Desc.count d 0)] else []) ++
      [(p.qb, fun d => lineElems d (mmaLen p r) r.region.cols, fun d => r.region.cols * Desc.count d 0)])
  let output (r : Region) (d : Desc) : List Nat := lineElems d r.cols r.rows
  let past (r : Region) (d : Desc) : Nat := r.rows * Desc.count d 0
  match i with
  | .mma p | .mmaz p => product p true
  | .mmag p => product p (k.rank == 0)
  | .mnrm ac q _ _ _ _ => region ac false (fun r => [(q, output r.region, past r.region)])
  | .mdrn ac side q _ slot => region ac false (fun r =>
    (match side, Sparse.find? k.grp.mx.epi slot.toNat with
      | some a, some p =>
        let n := if usesCol p.words then r.region.cols else r.region.rows
        [(a, fun d => sideElems d n, fun _ => n)]
      | _, _ => []) ++ [(q, output r.region, past r.region)])
  | _ => []

/-- The sectors of an MX instruction's streams, each use from where the one before left its stream, with whether their lines leave L2 past
L3. -/
def State.mxSectors (s : State) (k : Core) (i : Instr) : List (Bool × Nat) :=
  ((k.mxUses i).foldl (fun (w : Sparse StreamReg × List (Bool × Nat)) u => match Sparse.find? w.1 u.1.toNat with
    | some r => (Sparse.put w.1 u.1.toNat { r with desc := Desc.setOrd r.desc (Desc.ord r.desc + u.2.2 r.desc) },
        w.2 ++ (s.streamSectors r.desc (u.2.1 r.desc)).map (fun x => (Desc.space r.desc != 2, x)))
    | none => w) (k.grp.q, [])).2

/-- The lines of an MX instruction, each with whether it leaves L2 past L3. -/
def State.mxPins (s : State) (k : Core) (i : Instr) : List (Bool × Nat) := ((s.mxSectors k i).map (fun x => (x.1, x.2 / 8))).eraseDups

/-- Whether an instruction uses the matrix engine's streams through the fabric. -/
def Core.mxFabric (k : Core) (i : Instr) : Bool :=
  (k.mxUses i).any (fun u => match Sparse.find? k.grp.q u.1.toNat with | some r => Desc.fabric r.desc | none => false)

/-- The MX instructions of the bundles still to issue. -/
def Core.mxAhead (k : Core) : List Instr :=
  (k.grp.bundles.drop k.grp.idx).flatMap (fun b => (b.instrs.filter (fun p => p.1 == .mx)).map (·.2))

/-- MX_PIN_COMPLETE: every line of the MX instructions that core `core` holds for is pinned, its sectors in their home L2 (09 R222, 12 R294). -/
def execMxPinComplete (s : State) : Result :=
  let n := s.about.core
  let k := s.core n
  if !k.grp.active || k.pinned then .next s
  else
    let had := (k.pins.filter (fun p => p.upto.isNone)).map (·.line)
    let secs := (k.mxAhead.flatMap (({ s with me := n } : State).mxSectors k)).eraseDups
    let ls := (((secs.map (fun x => (x.1, x.2 / 8))).eraseDups).filter (fun l => !had.contains l.2)).take 256
    let held := had ++ ls.map (·.2)
    let s1 := (secs.filter (fun x => held.contains (x.2 / 8))).foldl (fun s x => s.fetchSector (64 * x.2) x.1) s
    .next ((ls.foldl (fun s l => s.pinLine l.1 l.2) s1).setCore n { k with pinned := true, pins := k.pins ++ ls.map (fun l => ⟨l.2, none, false⟩) })

end Sys2Proof.Machine
end

