-- ==== Sys2Proof/Machine/Engines.lean ====
section
/-!
DEFINITION. The EN-slot instructions (13 R308 to R331, 15 R358 to R386, 16 R392 to R407, 03 R57 to R61, 19 R463 to R466, 05
R112, R113). Each checks its operands group-precisely and then hands a message or a command to an engine as an ordered operation
of the open group; engine results come back later as asynchronous writes (06 R134).
-/
namespace Sys2Proof.Machine

open Sys2Proof

/-- w register of a destination; code 60 discards. -/
def wNum (d : Opnd) : Option Nat := match d with | .own n => some n.toNat | _ => none
def pairLo (p : Option WPair) : Option Nat := p.map (fun p => 2 * p.toNat)
def pairHi (p : Option WPair) : Option Nat := p.map (fun p => 2 * p.toNat + 1)

/-- The slice member the current core runs. -/
def State.whoIs (s : State) : Who :=
  match s.cur.run with
  | some r => ⟨s.me, r.kernel, r.slice, r.rank⟩
  | none => ⟨s.me, 0, 0, 0⟩

/-- A message of the current core. -/
def State.msgOf (s : State) (pa : Nat) (va : Word) (op : SyncOp) (reply : ReplyTo) (σ : Scope) (acq : Bool) : SyncMsg :=
  ⟨some s.whoIs, dieOf s.me, homeEngine pa, pa, va, op, reply, σ, acq, 0, none, false⟩

/-- The physical address of a sync object or word, or the trap (13 R329, 15 R360, R373, 16 R393). `memory` asks for DRAM or CXL
memory whatever the mode (15 R360). -/
def State.syncTarget (s : State) (va : Word) (align : Nat) (a : Access) (memory : Bool) : Except Flt (Nat × Bool) :=
  if va.toNat % align ≠ 0 then .error ⟨tAlign, 0, va, a.kind⟩
  else match s.resolve s.me va a false with
    | .trap c => .error ⟨c, 0, va, a.kind⟩
    | .phys pa missed =>
      match rangeOf pa with
      | .dram | .cxl => .ok (pa, missed)
      | _ => if memory then .error ⟨tProt, 0, va, a.kind⟩ else .ok (pa, missed)
    | _ => .error ⟨tProt, 0, va, a.kind⟩

/-- Pending w registers (06 R133), counted until their result arrives (17 R422). -/
def Core.pendAll (k : Core) (rs : List (Option Nat)) : Core :=
  (rs.filterMap id).foldl (fun k n => k.pendW n) k

/-- The operands of an EN instruction with the ports they leave. -/
def Core.enOps (k : Core) (a : Opnd) (b : Option OpB) : Word × Word × Core :=
  let pa := k.opnd .en a
  match b with
  | none => (pa.word, 0, k.keepA .en pa)
  | some b =>
    let pb := k.opndB .en b
    (pa.word, pb.word, (k.keepA .en pa).keepB .en pb)

/-- Sending an operation to the home of `va`: an optional release first, the message, and its w registers pending. -/
def State.sendSync (s : State) (k : Core) (va : Word) (align : Nat) (a : Access) (memory : Bool) (op : SyncOp)
    (main status : Option Nat) (σ : Scope) (acq rel : Bool) : Except Flt Core :=
  match s.syncTarget va align a memory with
  | .error f => .error f
  | .ok (pa, missed) =>
    let k1 := k.missIf missed va
    let k2 := if rel then k1.emit (.release σ) else k1
    .ok ((k2.emit (.sync (s.msgOf pa va op (.w main status) σ acq))).pendAll [main, status])

/-- An instruction whose EN operands are a and b and whose result goes to one w register. -/
def enOne (d a : Opnd) (b : Option OpB) (align : Nat) (σ : Scope) (acq rel : Bool) (op : Word → SyncOp) (s : State) : Result :=
  let (va, v, k) := s.cur.enOps a b
  s.orFault .en (s.sendSync k va align .read false (op v) (wNum d) none σ acq rel)

/-- The same with a result in a w pair. -/
def enPair (d : Option WPair) (a : Opnd) (b : Option OpB) (align : Nat) (σ : Scope) (acq rel : Bool) (op : Word → SyncOp)
    (s : State) : Result :=
  let (va, v, k) := s.cur.enOps a b
  s.orFault .en (s.sendSync k va align .read false (op v) (pairLo d) (pairHi d) σ acq rel)

/-! ## Blocking instructions (06 R129, 13 R331, 15 R364, R377) -/

/-- What an earlier issue of the bundle at hand has kept of its wait. -/
def Core.keptNow (k : Core) : Option Kept := k.kept.find? (fun e => e.start == k.grp.start && e.bundle == k.grp.idx)

/-- The wait of the bundle at hand noted for a reissue. -/
def Core.keep (k : Core) (expiry : Option Nat) : Core :=
  { k with kept := k.kept.filter (fun e => !(e.start == k.grp.start && e.bundle == k.grp.idx)) ++
      [⟨k.grp.start, k.grp.idx, expiry, k.keptNow.bind (·.phase)⟩] }

/-- A blocking instruction: with its answer it writes its results at issue + 1; without one its request is sent once, and the
bundle holds. -/
def blockOn (a : Opnd) (b : Option OpB) (align : Nat) (acc : Access) (memory : Bool) (op : Word → SyncOp) (timeout : Word → Option Nat)
    (main status : Option Nat) (σ : Scope) (acq rel : Bool) (s : State) : Result :=
  let k0 := s.cur
  let (va, v, k) := k0.enOps a b
  match s.syncTarget va align acc memory with
  | .error f => s.orFault .en (.error f)
  | .ok (pa, missed) =>
    match k0.wait.answer with
    | some (x, y) =>
      let due := k.cycle + 1
      .next (s.setCur (((k.missIf missed va).push (main.map RegName.w) (.word x) due).push (status.map RegName.w) (.word y) due))
    | none =>
      if k0.wait.sent then .next s
      else
        let expiry := match k0.keptNow with | some e => e.expiry | none => (timeout v).map (fun us => s.ns + 1000 * us)
        let s1 := if rel then s.release s.me else s
        let s1 := match op v with | .wmon _ _ _ _ => s1.pushWord s1.me pa | _ => s1
        let m := { s.msgOf pa va (op v) .wait σ acq with expiry := expiry, after := (s1.core s.me).rels }
        let s2 := s1.modCur (fun k => ({ k with wait := { k.wait with sent := true, since := some (k.wait.since.getD s.ns) } } : Core).keep expiry)
        .next { s2 with msgs := s2.msgs ++ [m] }

/-! ## Copy commands, attention requests and updates -/

/-- A block of `n` bytes in own tile SRAM, read at issue (13 R308, R313, 16 R393, R407, 19 R464). -/
def State.tileBlock (s : State) (va : Word) (n : Nat) : Except Flt Nat :=
  if va.toNat % n ≠ 0 then .error ⟨tAlign, 0, va, 0⟩
  else match placeOf s.me va with
    | .tile c o =>
      if c ≠ s.me ∨ va.toNat < 0xFFFFFFFF00000000 ∨ 0xFFFFFFFF00200000 ≤ va.toNat then .error ⟨tProt, 0, va, 0⟩
      else if (List.range n).any (fun i => s.poisoned (tileBase s.modid s.me + o + i)) then .error ⟨tEccUe, 0, va, 0⟩
      else .ok (leNat ((List.range n).map (fun i => s.seenByte (tileBase s.modid s.me + o + i))))
    | _ => .error ⟨tProt, 0, va, 0⟩

/-- A command block handed to an engine with a release at `.mod` (13 R314, 16 R407, 19 R465). -/
def enBlock (d a : Opnd) (n : Nat) (op : Option Nat → Nat → Op) (s : State) : Result :=
  let (va, _, k) := s.cur.enOps a none
  s.orFault .en (match s.tileBlock va n with
    | .error f => .error f
    | .ok blk => .ok (((k.emit (.release .mod)).emit (op (wNum d) blk)).pendAll [wNum d]))

def execEnNop (s : State) : Result := .next s
def execBtc (p : EUn) (s : State) : Result := enBlock p.d p.a 128 (fun wd b => .bte .one wd (BitVec.ofNat 1024 b) s.cur.cycle) s
def execBtcm (p : EUn) (s : State) : Result := enBlock p.d p.a 128 (fun wd b => .bte .multi wd (BitVec.ofNat 1024 b) s.cur.cycle) s
def execBtcg (p : EUn) (s : State) : Result := enBlock p.d p.a 128 (fun wd b => .bte .gather wd (BitVec.ofNat 1024 b) s.cur.cycle) s
def execAttn (p : EUn) (s : State) : Result := enBlock p.d p.a 128 (fun wd b => .attn wd (BitVec.ofNat 1024 b) s.cur.cycle) s

/-- MUPD (19 R463): privileged. -/
def mupdOf (op : Nat) (p : EUn) (s : State) : Result :=
  if !s.cur.priv then .next (s.faultAt .en tPrivilege 0 0 3)
  else enBlock p.d p.a 64 (fun wd b => .mupd op wd (BitVec.ofNat 512 b)) s

def execMupdWrite (p : EUn) (s : State) : Result := mupdOf 0 p s
def execMupdCommit (p : EUn) (s : State) : Result := mupdOf 1 p s
def execMupdAbort (p : EUn) (s : State) : Result := mupdOf 2 p s

/-! ## Stage rings (13 R329 to R331) -/

def execRinit (loader : Bool) (p : EArgs) (s : State) : Result := enOne p.d p.a (some p.b) 1024 .mod false false (.rinit loader) s
def execRacq (p : EUn) (s : State) : Result := enOne p.d p.a none 1024 .mod true false (fun _ => .racq) s
def execRpub (p : EArgs) (s : State) : Result := enOne p.d p.a (some p.b) 1024 .mod false true .rpub s
def execRels (p : EArgs) (s : State) : Result := enOne p.d p.a (some p.b) 1024 .mod false true .rels s
def execRpois (p : EArgs) (s : State) : Result := enOne p.d p.a (some p.b) 1024 .mod false false .rpois s
def execAwait (poll : Bool) (p : EUn) (s : State) : Result :=
  if poll then enOne p.d p.a none 1024 .mod true false (fun _ => .await true) s
  else blockOn p.a none 1024 .read false (fun _ => .await false) (fun _ => none) (wNum p.d) none .mod true false s

/-! ## Atomics, monitors and signals (15 R358 to R365) -/

def orderScope : AOrder → Scope | .relaxed => .die | .acq s | .rel s | .ar s => s.scope
def orderAcq : AOrder → Bool | .acq _ | .ar _ => true | _ => false
def orderRel : AOrder → Bool | .rel _ | .ar _ => true | _ => false

/-- An atomic (15 R359). -/
def atomicOf (d : Option WPair) (a : Opnd) (b : OpB) (t : AType) (o : AOrder) (op : Word → SyncOp) (s : State) : Result :=
  let (va, v, k) := s.cur.enOps a (some b)
  s.orFault .en (s.sendSync k va t.bytes .write true (op v) (pairLo d) (pairHi d) (orderScope o) (orderAcq o) (orderRel o))

def execAadd (p : AArgs) (s : State) : Result := atomicOf p.d p.a p.b p.t p.o (.atomic .add p.t) s
def execAmin (p : AArgs) (s : State) : Result := atomicOf p.d p.a p.b p.t p.o (.atomic .min p.t) s
def execAmax (p : AArgs) (s : State) : Result := atomicOf p.d p.a p.b p.t p.o (.atomic .max p.t) s
def execAand (p : AArgs) (s : State) : Result := atomicOf p.d p.a p.b p.t p.o (.atomic .and p.t) s
def execAor (p : AArgs) (s : State) : Result := atomicOf p.d p.a p.b p.t p.o (.atomic .or p.t) s
def execAxor (p : AArgs) (s : State) : Result := atomicOf p.d p.a p.b p.t p.o (.atomic .xor p.t) s
def execAswp (p : AArgs) (s : State) : Result := atomicOf p.d p.a p.b p.t p.o (.aswp p.t) s
def execAfadd (d : Option WPair) (a : Opnd) (b : OpB) (o : AOrder) (s : State) : Result :=
  atomicOf d a b .u32 o (.atomic .fadd .u32) s

/-- ACAS compares with w_d as it stands at issue; code 60 reads as 0. -/
def execAcas (p : AArgs) (s : State) : Result :=
  let old := match pairLo p.d with | some n => s.cur.word (.w n) | none => 0
  atomicOf p.d p.a p.b p.t p.o (.acas p.t old) s

def execRed (f : RedFn) (t : AType) (o : ROrder) (a : Opnd) (b : OpB) (s : State) : Result :=
  let (va, v, k) := s.cur.enOps a (some b)
  let (σ, rel) := match o with | .relaxed => (Scope.die, false) | .rel x => (x.scope, true)
  s.orFault .en (match s.syncTarget va t.bytes .write true with
    | .error e => .error e
    | .ok (pa, missed) =>
      let k1 := k.missIf missed va
      .ok ((if rel then k1.emit (.release σ) else k1).emit (.sync (s.msgOf pa va (.red f t v) .none σ false))))

/-- WMON (15 R362 to R364): a poll does not hold; 0xFFFF_FFFF is no timeout. -/
def execWmon (d : WPair) (a : Opnd) (v : WPair) (narrow : Bool) (c : Cond) (σ : AScope) (s : State) : Result :=
  let val := s.cur.word (.w (2 * v.toNat))
  let t := (s.cur.word (.w (2 * v.toNat + 1))).toNat % 2 ^ 32
  let size := if narrow then 4 else 8
  let lo := some (2 * d.toNat)
  let hi := some (2 * d.toNat + 1)
  if t = 0 then
    let (va, _, k) := s.cur.enOps a (some (pairOpnd v))
    s.orFault .en (s.sendSync k va size .write true (.wmon narrow c val true) lo hi σ.scope true false)
  else
    blockOn a (some (pairOpnd v)) size .write true (fun _ => .wmon narrow c val false)
      (fun _ => if t = 0xFFFFFFFF then none else some t) lo hi σ.scope true false s

def execSigdec (d : Option WPair) (a : Opnd) (amt : SigAmt) (σ : AScope) (s : State) : Result :=
  match amt with
  | .plain b =>
    let (va, v, k) := s.cur.enOps a (some b)
    s.orFault .en (s.sendSync k va 16 .write true (.sigdec v 0) (pairLo d) (pairHi d) σ.scope false true)
  | .err p =>
    let (va, _, k) := s.cur.enOps a (some (pairOpnd p))
    s.orFault .en (s.sendSync k va 16 .write true
      (.sigdec (k.word (.w (2 * p.toNat))) (k.word (.w (2 * p.toNat + 1)))) (pairLo d) (pairHi d) σ.scope false true)

/-! ## Phasers and straggler records (15 R373 to R377, R386). The releases cover the phaser's scope whatever it is: every byte
the core has stored goes to its home. -/

def execPhnew (p : EArgs) (s : State) : Result := enOne p.d p.a (some p.b) 4096 .mod false false .phnew s
def execPhreg (p : EArgs) (s : State) : Result := enOne p.d p.a (some p.b) 4096 .mod false false .phreg s
def execPhdrop (p : EArgs) (s : State) : Result := enOne p.d p.a (some p.b) 4096 .mod false true .phdrop s
def execPhsig (p : EArgs) (s : State) : Result := enOne p.d p.a (some p.b) 4096 .mod false true .phsig s
def execPhbyt (p : EArgs) (s : State) : Result := enOne p.d p.a (some p.b) 4096 .mod false false .phbyt s
def execPhpois (p : EArgs) (s : State) : Result := enOne p.d p.a (some p.b) 4096 .mod false false .phpois s
def execPhrd (d : Option WPair) (a : Opnd) (k : BitVec 2) (s : State) : Result :=
  enPair d a none 4096 .mod false false (fun _ => .phrd k.toNat) s

/-- The timeout of PHWAIT and PHSW in µs; 0xFF_FFFF is none. -/
def phTimeout (v : Word) : Option Nat :=
  let t := (v.extractLsb' 40 24).toNat
  if t = 0xFFFFFF then none else some t

/-- A phaser wait: a poll does not hold. -/
def phWaitOf (d a b : Opnd) (rel : Bool) (op : Word → SyncOp) (s : State) : Result :=
  let (_, v, _) := s.cur.enOps a (some (.op b))
  if phTimeout v = some 0 then enOne d a (some (.op b)) 4096 .mod true rel op s
  else blockOn a (some (.op b)) 4096 .read false op phTimeout (wNum d) none .mod true rel s

def execPhwait (d a b : Opnd) (s : State) : Result := phWaitOf d a b false .phwait s
def execPhsw (d a b : Opnd) (s : State) : Result := phWaitOf d a b true (fun v => .phsw v (s.cur.keptNow.bind (·.phase))) s

def execStrg (p : PArgs) (s : State) : Result := enPair p.d p.a (some p.b) 4096 .mod false false .strg s

/-- STRG of a wired barrier: the issuing die answers (15 R386). -/
def execStrgBar (p : PArgs) (s : State) : Result :=
  let (sel, word, k) := s.cur.enOps p.a (some p.b)
  .next (s.setCur ((k.emit (.strgBar sel word (pairLo p.d) (pairHi p.d))).pendAll [pairLo p.d, pairHi p.d]))

/-! ## Sequences (16 R392 to R403) -/

/-- SQNEW and SQFORK: the block is read at issue (16 R393). -/
def sqBlock (d : Option WPair) (a b : Opnd) (op : BitVec 256 → SyncOp) (s : State) : Result :=
  let (va, blk, k) := s.cur.enOps a (some (.op b))
  s.orFault .en (match s.syncTarget va 64 .read false with
    | .error f => .error f
    | .ok _ => match s.tileBlock blk 32 with
      | .error f => .error f
      | .ok v => s.sendSync k va 64 .read false (op (BitVec.ofNat 256 v)) (pairLo d) (pairHi d) .mod false false)

def execSqnew (d : Option WPair) (a b : Opnd) (s : State) : Result := sqBlock d a b .sqnew s
def execSqfork (t : Bool) (d : Option WPair) (a b : Opnd) (s : State) : Result := sqBlock d a b (.sqfork false t) s
def execSqforkF (t : Bool) (d : Option WPair) (a b : Opnd) (s : State) : Result := sqBlock d a b (.sqfork true t) s
def execSqres (p : PArgs) (s : State) : Result := enPair p.d p.a (some p.b) 64 .mod false false .sqres s
def execSqcmt (p : PArgs) (s : State) : Result := enPair p.d p.a (some p.b) 64 .mod false true .sqcmt s
def execSqlen (d : Option WPair) (a : Opnd) (s : State) : Result := enPair d a none 64 .mod true false (fun _ => .sqlen) s
def execSqlenH (p : PArgs) (s : State) : Result := enPair p.d p.a (some p.b) 64 .mod false false .sqlenH s
def execSqrel (d : Option WPair) (a : Opnd) (s : State) : Result := enPair d a none 64 .mod false false (fun _ => .sqrel) s
def execSqmap (p : PArgs) (s : State) : Result := enPair p.d p.a (some p.b) 64 .mod false false .sqmap s

/-- SQTIER (16 R403): an engine command, released at `.mod`; it reads w_b and w_(b+1). -/
def sqTier (op : Nat) (d : Option WPair) (a : Opnd) (b : WPair) (s : State) : Result :=
  enPair d a (some (pairOpnd b)) 64 .mod false true
    (fun _ => .sqtier op (s.cur.word (.w (2 * b.toNat))) (s.cur.word (.w (2 * b.toNat + 1)))) s

def execSqtierMove (d : Option WPair) (a : Opnd) (b : WPair) (s : State) : Result := sqTier 0 d a b s
def execSqtierL3 (d : Option WPair) (a : Opnd) (b : WPair) (s : State) : Result := sqTier 1 d a b s
def execSqtierTile (d : Option WPair) (a : Opnd) (b : WPair) (s : State) : Result := sqTier 2 d a b s
def execSqtierUnstage (d : Option WPair) (a : Opnd) (b : WPair) (s : State) : Result := sqTier 3 d a b s

/-! ## Launching (03 R57 to R61) -/

/-- The physical addresses of the record's four 64-byte lines, with the units their translation missed, or the trap (03 R58). -/
def State.recordLines (s : State) (va : Word) : Except Flt (List Nat × List Nat) :=
  if va.toNat % 64 ≠ 0 then .error ⟨tAlign, 0, va, 0⟩
  else (List.range 4).foldr (fun i (r : Except Flt (List Nat × List Nat)) =>
    let a := va + BitVec.ofNat 64 (64 * i)
    let one : Except Flt (Nat × List Nat) := match s.resolve s.me a .read false with
      | .trap c => .error ⟨c, 0, a, 0⟩
      | .own o => .ok (tileBase s.modid s.me + o, [])
      | .nbr c o => .ok (tileBase s.modid c + o, [])
      | .mram _ => .error ⟨tProt, 0, a, 0⟩
      | .phys pa missed => if rangeOf pa = .device then .error ⟨tProt, 0, a, 0⟩ else .ok (pa, if missed then [unitOf a] else [])
    match one with
    | .error f => .error f
    | .ok (pa, ms) => if s.readFails pa then .error ⟨tEccUe, 0, a, 0⟩ else match r with
      | .ok (ps, us) => .ok (pa :: ps, ms ++ us) | .error f => .error f) (.ok ([], []))

/-- LAUNCH and LAUNCHW; LAUNCHW of a gang or in a handler acts as LAUNCH (03 R61, 17 R417). -/
def launchOf (waits : Bool) (d : BitVec 4) (a : Opnd) (s : State) : Result :=
  let (va, _, k) := s.cur.enOps a none
  let single := match k.run with | some r => r.width == 1 | none => true
  let cont := waits && single && !k.trap.active
  s.orFault .en (match s.recordLines va with
    | .error f => .error f
    | .ok (ls, ms) => .ok ((((k.missAll ms).emit (.release .mod)).emit (.launch cont va ls d.toNat)).pendW d.toNat))

def execLaunch (d : BitVec 4) (a : Opnd) (s : State) : Result := launchOf false d a s
def execLaunchw (d : BitVec 4) (a : Opnd) (s : State) : Result := launchOf true d a s

/-! ## Housekeeping -/

def execEnXcp (x : XArgs) (s : State) : Result := xcpFrom .en x s
def execEnMovl (d : Opnd) (l : Lit) (s : State) : Result := movlOf .en d l s
def execEnAdd (p : SArgs) (s : State) : Result := scalarTwo .en p (fun a b => a + b) s

end Sys2Proof.Machine
end

