-- ==== Sys2Proof/Machine/Registers.lean ====
section
/-!
DEFINITION. The registers of BAR 0 (19 R450): launch queue blocks (03 R43 to R46), translation registers (12 R303, R304, R306) and
the configuration blocks of the dies (19 R451), as the host and privileged slices read and write them, and the steps that a write
of one of them starts.
-/
namespace Sys2Proof.Machine

open Sys2Proof

/-- Bits [lo+len-1 : lo] of a word, in place. -/
def keepBits (v : Word) (lo len : Nat) : Word := BitVec.ofNat 64 (v.toNat / 2 ^ lo % 2 ^ len * 2 ^ lo)
def bitsOf (v : Word) (lo len : Nat) : Nat := v.toNat / 2 ^ lo % 2 ^ len

/-! ## Host memory -/

/-- Whether a host port is up (19 R449). -/
def State.hostUp (s : State) : Bool := !(s.linksDown.contains 0 && s.linksDown.contains 1)

def State.hostBytes (s : State) (a n : Nat) : List Byte := Mem.reads s.hostMem a n
def State.hostPut (s : State) (a : Nat) (bs : List Byte) : State := { s with hostMem := Mem.writes s.hostMem a bs }

/-! ## Launch queues -/

def State.queue (s : State) (q : Nat) : HostQueue := Sparse.get s.queues HostQueue.reset q
def State.setQueue (s : State) (q : Nat) (h : HostQueue) : State := { s with queues := Sparse.put s.queues q h }

def HostQueue.en (h : HostQueue) : Bool := h.qcfg.getLsbD 0
def HostQueue.cxl (h : HostQueue) : Bool := h.qcfg.getLsbD 1
def HostQueue.irq (h : HostQueue) : Bool := h.qcfg.getLsbD 2
def HostQueue.size (h : HostQueue) : Nat := 2 ^ (bitsOf h.qcfg 8 4 + 4)

/-- An error of a queue: the QSTAT bit set, EN cleared, and the queue's vector when IRQ = 1 (03 R44, R46). -/
def State.queueError (s : State) (q bit : Nat) : State :=
  let h := s.queue q
  let s := s.setQueue q { h with qstat := h.qstat ||| BitVec.ofNat 64 (2 ^ bit), qcfg := h.qcfg &&& ~~~(1 : Word) }
  if h.irq then s.raise q else s

/-- The launch unit sees a new tail: OVERRUN when it exceeds the head by more than QSIZE (03 R46). -/
def State.newTail (s : State) (q : Nat) (tail : W32) : State :=
  let h := s.queue q
  if !h.en then s
  else if h.size < (tail - h.qhead.setWidth 32).toNat then s.queueError q 0
  else s.setQueue q { h with tail := tail }

/-- A write of QTAIL: ignored in CXL mode (03 R43, R45). -/
def State.writeQtail (s : State) (q : Nat) (v : Word) : State :=
  let h := s.queue q
  if h.cxl then s else (s.setQueue q { h with qtail := v.setWidth 32 |>.setWidth 64 }).newTail q (v.setWidth 32)

/-- Whether the host has trained CXL on a port that is up (19 R449). -/
def State.hostCxl (s : State) : Bool := [0, 1].any (fun p => !s.linksDown.contains p && !s.plainPorts.contains p)

/-- A write of QCFG (03 R44). With a host that has not trained CXL the queue is in PCIe mode (19 R449), and in minimal mode it stays disabled
(R477). -/
def State.writeQcfg (s : State) (q : Nat) (v : Word) : State :=
  let h := s.queue q
  let size := min (bitsOf v 8 4) 11
  let cxl := v.getLsbD 1 && s.hostCxl
  let en := v.getLsbD 0 && s.mss.boot == .running
  let cfg : Word := BitVec.ofNat 64 (size * 256 + bitsOf v 2 1 * 4 + (if cxl then 2 else 0) + (if en then 1 else 0))
  let changed := h.en && (bitsOf h.qcfg 8 4 != size || h.cxl != cxl)
  let h1 := { h with qcfg := cfg, undef := (h.undef && h.en) || changed }
  s.setQueue q (if en then { h1 with qhead := h.qtail, tail := h.qtail.setWidth 32 } else h1)

/-- A write of QSTAT: ones clear (03 R46). -/
def State.writeQstat (s : State) (q : Nat) (v : Word) : State :=
  let h := s.queue q
  s.setQueue q { h with qstat := h.qstat &&& ~~~v }

/-! ## Translation registers -/

/-- The accesses of a core under way were translated before the present invalidation (12 R304). -/
def Core.markOld (k : Core) : Core :=
  { k with
    gloads := k.gloads.map (fun g => { g with old := true }), landings := k.landings.map (fun l => { l with old := true })
    pins := k.pins.map (fun p => { p with old := true }), grp := { k.grp with old := k.grp.active } }

/-- A write of TLBINV (12 R304): ignored while BUSY; every entry of a TLB or walk cache that covers a named unit goes. -/
def State.writeTlbinv (s : State) (v : Word) : State :=
  if s.xregs.busy then s
  else
    let first := bitsOf v 16 41
    let n := bitsOf v 0 16 + 1
    let hit (t : TlbEntry) : Bool := v.getLsbD 63 ||
      decide ((if t.big then t.unit / 32 * 32 else t.unit) < first + n ∧
        first < (if t.big then t.unit / 32 * 32 + 32 else t.unit + 1))
    let old (e : WalkEntry) : Bool := v.getLsbD 63 || decide (e.unit < first + n ∧ first < e.unit + e.units)
    let gone := (s.walked.filter (fun p => old p.2)).map (·.1)
    { s with
      xregs := { s.xregs with busy := true, msgs := s.msgs.filter (fun m => m.who.isSome), launches := s.launches }
      walked := s.walked.filter (fun p => !old p.2)
      walkCache := s.walkCache.map (fun p => (p.1, p.2.filter (fun a => !gone.contains a)))
      cores := s.cores.map (fun (p : Nat × Core) => (p.1, { p.2.markOld with tlb := p.2.tlb.filter (fun t => !hit t) }))
      dies := s.dies.map (fun (p : Nat × Die) => (p.1, { p.2 with l2tlb := p.2.l2tlb.filter (fun t => !hit t) })) }

/-- Records of the fault queue (12 R303). -/
def State.fqSize (s : State) : Nat := 2 ^ (bitsOf s.xregs.fqcfg 8 4 + 4)

/-- Fault records that wait are written while the queue is on and has room (12 R306, R307). -/
def State.pumpFaults (s : State) : State :=
  s.faults.foldl (fun s f =>
    if f.written ∨ !s.xregs.fqcfg.getLsbD 0 ∨ s.fqSize ≤ (s.xregs.fqtail - s.xregs.fqhead).toNat then s
    else
      let kid := match s.kernel? f.kernel with | some k => (recKid k.record).toNat | none => 0
      let v := f.va.toNat + kid * 2 ^ 64 + f.core * 2 ^ 96 + f.kind.toNat * 2 ^ 120 + f.slice % 2 ^ 64 * 2 ^ 128 +
        f.token.toNat * 2 ^ 192
      let at_ := s.xregs.fqbase.toNat + s.xregs.fqtail.toNat % s.fqSize * 32
      let s := s.hostPut at_ (leBytes 32 v)
      let s := { s with
        xregs := { s.xregs with fqtail := s.xregs.fqtail + 1 }
        faults := s.faults.map (fun (g : FaultRec) => if g.token = f.token then { g with written := true } else g) }
      if s.xregs.fqcfg.getLsbD 1 then s.raise 64 else s) s

/-- Slice records of every die that satisfy a condition, changed. -/
def State.modRecs (s : State) (sel : SliceRec → Bool) (f : SliceRec → SliceRec) : State :=
  { s with dies := s.dies.map (fun (p : Nat × Die) =>
      (p.1, { p.2 with recs := p.2.recs.map (fun (r : SliceRec) => if sel r then f r else r) })) }

/-- A waiting record becomes ready again, its deadline unchanged (04 R82). -/
def State.wakeRec (s : State) (kernel slice : Nat) : State :=
  s.modRecs (fun (r : SliceRec) => r.kernel == kernel && r.slice == slice && (match r.st with | .waiting _ => true | _ => false))
    (fun r => { r with st := .queued, readySince := some s.ns })

/-- A slice that holds no core ends with an error: its record goes and its retirement words are sent. -/
def State.endAway (s : State) (core kernel slice : Nat) (err : Word) : State :=
  let gone := s.dies.flatMap (fun (p : Nat × Die) => p.2.recs.filter (fun (r : SliceRec) => r.kernel == kernel && r.slice == slice))
  let s := { s with dies := s.dies.map (fun (p : Nat × Die) =>
    (p.1, { p.2 with
      recs := p.2.recs.filter (fun (r : SliceRec) => !(r.kernel == kernel && r.slice == slice))
      ctxUsed := p.2.ctxUsed.filter (fun i => !(gone.any (fun (r : SliceRec) => r.home == p.1 && r.ctx.any (fun c => c.2 == i)))) })) }
  (s.tellEngines core kernel slice (some (err.setWidth 8))).sendWords kernel slice (some err)

/-- Whether the slice of a fault record still waits for its answer: it is leaving its core, or has left it. -/
def State.waitsFor (s : State) (f : FaultRec) : Bool :=
  (s.members f.kernel f.slice).any (fun n => match (s.core n).run with | some r => r.leave == some (.pageFault f.token.toNat) | none => false) ||
    s.dies.any (fun (p : Nat × Die) => p.2.recs.any (fun r => r.kernel == f.kernel && r.slice == f.slice && r.st == .waiting (.host f.token.toNat)))

/-- A write of FQRESP (12 R306): the waiting slice the token names becomes ready, or ends with PAGE_FAULT. -/
def State.writeFqresp (s : State) (v : Word) : State :=
  let token : W32 := v.setWidth 32
  match s.faults.find? (fun (f : FaultRec) => f.token == token && f.written && s.waitsFor f) with
  | none => s
  | some f =>
    let s := { s with faults := s.faults.filter (fun (g : FaultRec) => g.token != token) }
    let err := errWord f.slice (some f.core) 1 tPageFault
    if v.getLsbD 32 then
      if (s.members f.kernel f.slice).isEmpty then s.endAway f.core f.kernel f.slice err else s.retireSlice f.kernel f.slice (some err)
    else
      let s := s.wakeRec f.kernel f.slice
      (s.members f.kernel f.slice).foldl (fun s n => s.modCore n (fun k => { k with run := k.run.map (fun r =>
        match r.leave with | some (.pageFault _) => { r with leave := none } | _ => r) })) s

/-! ## Configuration blocks -/

/-- A field of a configuration block as a write stores it (03 R55, R56, 04 R79, 15 R357, R384, 17 R427, R431, 18 R442, 20 R480). -/
def DieCfg.write (c : DieCfg) (off : Nat) (v : Word) : DieCfg :=
  let nz (x : Nat) : Nat := if x = 0 then 1 else x
  let sched := BitVec.ofNat 64 (bitsOf v 48 1 * 2 ^ 48 + nz (bitsOf v 32 16) * 2 ^ 32 + nz (bitsOf v 16 16) * 2 ^ 16 + bitsOf v 0 12)
  let strg := BitVec.ofNat 64 (bitsOf v 24 1 * 2 ^ 24 + min (nz (bitsOf v 16 5)) 16 * 2 ^ 16 + bitsOf v 0 16)
  if off = 0x00 then { c with dqobase := keepBits v 16 36 }
  else if off = 0x08 then { c with dqosize := BitVec.ofNat 64 (min (bitsOf v 0 17) 65536) }
  else if off = 0x10 then { c with dqerrcnt := 0 }
  else if off = 0x40 then { c with schedcfg := sched }
  else if off = 0x80 then { c with sovbase := keepBits v 16 48 }
  else if off = 0x88 then { c with sovsize := keepBits v 0 16 }
  else if off = 0x90 then { c with strgcfg := strg }
  else if 0x98 ≤ off ∧ off < 0xC0 then { c with barmask := setNth c.barmask ((off - 0x98) / 8) (v.setWidth 32) }
  else if off = 0xC0 then { c with ctxbase := keepBits v 16 36 }
  else if off = 0xC8 then { c with ctxsize := keepBits v 0 16 }
  else if off = 0xD0 then { c with evtcfg := keepBits v 0 33 }
  else if off = 0xE0 then { c with rasstat := if v.getLsbD 0 then c.rasstat &&& ~~~(1 : Word) else c.rasstat }
  else if off = 0xF0 then { c with tstinj := keepBits v 62 2 ||| keepBits v 44 10 ||| keepBits v 32 11 }
  else if off = 0xF8 then { c with tstmask := v }
  else c

def DieCfg.read (c : DieCfg) (off : Nat) : Word :=
  if off = 0x00 then c.dqobase else if off = 0x08 then c.dqosize else if off = 0x10 then c.dqerrcnt
  else if off = 0x18 then c.dqerrw else if off = 0x40 then c.schedcfg else if off = 0x80 then c.sovbase
  else if off = 0x88 then c.sovsize else if off = 0x90 then c.strgcfg
  else if 0x98 ≤ off ∧ off < 0xC0 ∧ off % 8 = 0 then (nth 0 c.barmask ((off - 0x98) / 8)).setWidth 64
  else if off = 0xC0 then c.ctxbase else if off = 0xC8 then c.ctxsize else if off = 0xD0 then c.evtcfg
  else if off = 0xE0 then c.rasstat else if off = 0xE8 then c.rasaddr else if off = 0xF0 then c.tstinj
  else if off = 0xF8 then c.tstmask else 0

/-- The always-on copy of a die's block (19 R451). -/
def State.cfgOf (s : State) (d : Nat) : DieCfg := Sparse.get s.cfgFile DieCfg.reset d

/-- A die works from its block: the fields the die itself updates stay as it has them (19 R451). -/
def State.applyCfg (s : State) (d : Nat) : State :=
  let c := s.cfgOf d
  s.modDie d (fun x => { x with cfg := { c with
    dqerrcnt := x.cfg.dqerrcnt, dqerrw := x.cfg.dqerrw, rasstat := x.cfg.rasstat, rasaddr := x.cfg.rasaddr } })

/-- A write of a configuration block: it lands in the always-on file; a write that clears a field the die updates reaches
that field at once. -/
def State.writeCfg (s : State) (d off : Nat) (v : Word) : State :=
  if off = 0x10 ∨ off = 0xE0 then s.modDie d (fun x => { x with cfg := x.cfg.write off v })
  else { s with cfgFile := Sparse.put s.cfgFile d ((s.cfgOf d).write off v) }

def State.readCfg (s : State) (d off : Nat) : Word :=
  if off = 0x10 ∨ off = 0x18 ∨ off = 0xE0 ∨ off = 0xE8 then (s.die d).cfg.read off else (s.cfgOf d).read off

/-! ## BAR 0 as a whole -/

/-- The fuse digest (19 R450, R470): Cuff ceilings, EXPEN, power ceiling, write-rate limit, rollback counter. -/
def Mss.fuseDigest (m : Mss) : BitVec 384 :=
  Config.digestOf 3 [Config.fuse 1, Config.fuse 2, Config.fuse 3, Config.fuse 0, Config.fuse 8, m.rollback]

/-- The module information block (19 R450); the places of its fields are the model's (notes/assumptions/13.md). -/
def State.infoReg (s : State) (off : Nat) : Word :=
  if off = 0x00 then BitVec.ofNat 64 s.modid
  else if off = 0x08 then 0xA1
  else if 0x80 ≤ off ∧ off < 0xB0 then BitVec.ofNat 64 (s.mss.fuseDigest.toNat / 2 ^ (8 * (0xB0 - 8 - off)))
  else if 0x40 ≤ off ∧ off < 0x60 then BitVec.ofNat 64 (((nth [] s.cxl ((off - 0x40) / 8)).map (·.2)).foldl (· + ·) 0)
  else 0

/-- An 8-byte read of BAR 0 (19 R206, R450). -/
def State.readReg (s : State) (off : Nat) : Word :=
  if off < 0x10000 then s.infoReg off
  else if off < 0x11000 then
    let h := s.queue ((off - 0x10000) / 0x40)
    match off % 0x40 with
    | 0x00 => h.qbase | 0x08 => h.qcfg | 0x10 => h.qtail | 0x18 => h.qhead | 0x20 => h.qcbase | 0x28 => h.qtline
    | 0x30 => h.qstat | _ => 0
  else if off = 0x20000 then s.xregs.ptroot
  else if off = 0x20010 then (if s.xregs.busy then 1 else 0)
  else if off = 0x20018 then s.xregs.fqbase
  else if off = 0x20020 then s.xregs.fqcfg
  else if off = 0x20028 then s.xregs.fqtail.setWidth 64
  else if off = 0x20030 then s.xregs.fqhead.setWidth 64
  else if 0x100000 ≤ off ∧ off < 0x140000 then s.readCfg ((off - 0x100000) / 0x1000) (off % 0x1000)
  else 0

/-- An 8-byte write of BAR 0. -/
def State.writeReg (s : State) (off : Nat) (v : Word) : State :=
  if off < 0x10000 then s
  else if off < 0x11000 then
    let q := (off - 0x10000) / 0x40
    let h := s.queue q
    match off % 0x40 with
    | 0x00 => s.setQueue q { h with qbase := v &&& ~~~(0xFF : Word), undef := h.undef || (h.en && h.qbase != (v &&& ~~~(0xFF : Word))) }
    | 0x08 => s.writeQcfg q v
    | 0x10 => s.writeQtail q v
    | 0x20 => s.setQueue q { h with qcbase := v &&& ~~~(0xF : Word) }
    | 0x28 => s.setQueue q { h with qtline := v &&& ~~~(0x3F : Word), undef := h.undef || (h.en && h.qtline != (v &&& ~~~(0x3F : Word))) }
    | 0x30 => s.writeQstat q v
    | _ => s
  else if off = 0x20000 then { s with xregs := { s.xregs with ptroot := keepBits v 13 39 } }
  else if off = 0x20008 then s.writeTlbinv v
  else if off = 0x20018 then { s with xregs := { s.xregs with fqbase := v &&& ~~~(0x1F : Word) } }
  else if off = 0x20020 then ({ s with xregs := { s.xregs with fqcfg := keepBits v 8 4 ||| keepBits v 0 2 } } : State).pumpFaults
  else if off = 0x20030 then ({ s with xregs := { s.xregs with fqhead := v.setWidth 32 } } : State).pumpFaults
  else if off = 0x20038 then s.writeFqresp v
  else if 0x100000 ≤ off ∧ off < 0x140000 then s.writeCfg ((off - 0x100000) / 0x1000) (off % 0x1000) v
  else s

/-! ## The steps -/

/-- Whether the function answers the host: not while it boots or is in deep-off (19 R477, R478). -/
def State.answers (s : State) : Bool := match s.mss.boot with | .running | .minimal _ => true | _ => false

/-- A host write of a register, lost while the function does not answer or no host port is up. -/
def State.fromHost (s : State) (f : State → State) : Result := .next (if s.answers && s.hostUp then f s else s)

/-- QTAIL_WRITE: the host writes `value` to QTAIL of queue `n`. -/
def execQtailWrite (s : State) : Result := s.fromHost (fun s => s.writeQtail s.about.n s.about.value)

/-- TAIL_LINE_INVALIDATE: the launch unit re-reads the tail line of queue `n`; `flag` says that the read fails (03 R45, R46). -/
def execTailLineInvalidate (s : State) : Result :=
  let q := s.about.n
  let h := s.queue q
  .next (if !h.en || !h.cxl || (s.hostUp && !s.hostCxl) then s
    else if s.about.flag || !s.hostUp then s.queueError q 1
    else s.newTail q (BitVec.ofNat 32 (leNat (s.hostBytes h.qtline.toNat 4))))

def execQcfgWrite (s : State) : Result := s.fromHost (fun s => s.writeQcfg s.about.n s.about.value)
def execQstatClear (s : State) : Result := s.fromHost (fun s => s.writeQstat s.about.n s.about.value)
def execDqerrcntWrite (s : State) : Result := s.fromHost (fun s => s.writeCfg s.about.die 0x10 s.about.value)
def execRasstatClear (s : State) : Result := s.fromHost (fun s => s.writeCfg s.about.die 0xE0 s.about.value)
def execTlbinvWrite (s : State) : Result := s.fromHost (fun s => s.writeTlbinv s.about.value)

/-- Accesses in progress that hold a translation from before the invalidation (12 R304): loads and writes on their way, accesses of an open
group, pinned lines, operations on their way to a sync engine, and records being read. Engines translate as they move bytes. -/
def State.holdsTranslations (s : State) : Bool :=
  s.cores.any (fun p =>
    let k := p.2
    k.gloads.any (fun g => g.old && !g.device) || k.landings.any (·.old) || k.pins.any (·.old) || (k.grp.old && k.grp.ops.any (fun o => match o with
      | .globalStore _ _ | .rawStore _ _ | .land _ _ _ | .drained _ _ _ _ _ | .sync _ | .launch _ _ _ _ => true
      | .gload g => !g.device
      | _ => false))) ||
    s.msgs.any (fun m => s.xregs.msgs.contains m) || s.launches.any (fun l => s.xregs.launches.contains l)

def execTlbinvComplete (s : State) : Result :=
  .next (if s.holdsTranslations then s else { s with xregs := { s.xregs with busy := false } })

def execFqrespWrite (s : State) : Result := s.fromHost (fun s => s.writeFqresp s.about.value)

/-- The places of the MSI-X table and of the pending bits in BAR 2 (notes/assumptions/83.md): 68 entries of 16 bytes. -/
def msixTable : Nat := 0x8000
def msixPending : Nat := 0x9000

/-- A write of a word of the MSI-X table: a vector that is no longer masked sends its message. -/
def State.writeMsix (s : State) (i : Nat) (v : Word) : State :=
  let s1 := { s with msix := Sparse.put s.msix i v }
  { s1 with pending := s1.pending.filter (fun x => s1.masked x) }

/-- An 8-byte read of BAR 2 (19 R450, R453). -/
def State.readBar2 (s : State) (off : Nat) : Word :=
  if off = 0 then s.mss.mbcmd
  else if off = 8 then s.mss.mbstat
  else if 0x1000 ≤ off ∧ off < 0x2000 then BitVec.ofNat 64 (leNat (Mem.reads s.mss.buf (off - 0x1000) 8))
  else if msixTable ≤ off ∧ off < msixTable + 68 * 16 then s.msixWord ((off - msixTable) / 8)
  else if msixPending ≤ off ∧ off < msixPending + 16 then
    BitVec.ofNat 64 ((s.pending.filter (fun v => v / 64 == (off - msixPending) / 8)).map (fun v => 2 ^ (v % 64))).sum
  else 0

/-- An 8-byte write of BAR 2 (19 R450, R453): the MSI-X table, the argument buffer, or MBCMD, which starts a command when GO is set and none is
running. A code that names no command ends at once (notes/assumptions/33.md). -/
def State.writeMailbox (s : State) (off : Nat) (v : Word) : State :=
  if msixTable ≤ off ∧ off < msixTable + 68 * 16 then s.writeMsix ((off - msixTable) / 8) v
  else if 0x1000 ≤ off ∧ off < 0x2000 then
    { s with mss := { s.mss with buf := Mem.writes s.mss.buf (off - 0x1000) (leBytes 8 v.toNat) } }
  else if off ≠ 0 ∨ s.mss.mbcmd.getLsbD 63 then s
  else
    let code := bitsOf v 0 8
    if !v.getLsbD 63 then { s with mss := { s.mss with mbcmd := BitVec.ofNat 64 code } }
    else if 1 ≤ code ∧ code ≤ 12 then
      { s with mss := { s.mss with mbcmd := BitVec.ofNat 64 (2 ^ 63 + code), mbstat := BitVec.ofNat 64 (0x100 + code) } }
    else ({ s with mss := { s.mss with mbcmd := BitVec.ofNat 64 code, mbstat := BitVec.ofNat 64 (2 ^ 63 + 0x300 + code) } } : State).raise 65

/-- REGISTER_WRITE: the host writes `value` at byte `n` of BAR 0, or of BAR 2 when `flag` is set. -/
def execRegisterWrite (s : State) : Result :=
  s.fromHost (fun s => if s.about.flag then s.writeMailbox s.about.n s.about.value else s.writeReg s.about.n s.about.value)

/-- CONFIG_APPLY: die `die` applies its block. -/
def execConfigApply (s : State) : Result := .next (s.applyCfg s.about.die)

end Sys2Proof.Machine
end

