-- ==== Sys2Proof/Machine/Log.lean ====
section
/-!
DEFINITION. The access log of the management subsystem (19 R471 to R473): entries, chain, checkpoints and bounds.
-/
namespace Sys2Proof.Machine

open Sys2Proof

/-- Log entry types (19 R471). -/
def logCommit : Nat := 1
def logAbort : Nat := 2
def logExport : Nat := 3
def logCuff : Nat := 4
def logPinned : Nat := 5
def logPower : Nat := 6
def logBoot : Nat := 7
def logFw : Nat := 8
def logPriv : Nat := 9
def logMinimal : Nat := 10
def logSeal : Nat := 11

/-- Entries that may still be written (19 R473). -/
def Mss.logFree (m : Mss) : Nat := 1048576 - (m.logHead - m.logFloor)

/-- Whether an entry of a type may be written: types 5, 6, 7 and 10 may use the last 64 places. -/
def Mss.logRoom (m : Mss) (ty : Nat) : Bool :=
  if ty = logPinned ∨ ty = logPower ∨ ty = logBoot ∨ ty = logMinimal then decide (0 < m.logFree) else decide (64 ≤ m.logFree)

/-- A signature of the identity key: a free value. -/
def State.sign (s : State) : BitVec 768 × State :=
  (Config.freeKey s.free ++ Config.freeKey (s.free + 1), { s with free := s.free + 2 })

/-- The signed checkpoint of the newest entry, with DROPPED (19 R472, R473). -/
def State.takeCheckpoint (s : State) : State :=
  let (sig, s) := s.sign
  { s with mss := { s.mss with checkpoint := ⟨s.mss.logHead - 1, s.mss.chain, s.mss.dropped, sig⟩ } }

/-- Appending an entry: SEQ, type, time since boot, payload; the chain value; a checkpoint at every 4,096th. An entry that
finds no place raises DROPPED. -/
def State.logEntry (s : State) (ty : Nat) (payload : Nat) : State :=
  if !s.mss.logRoom ty then { s with mss := { s.mss with dropped := s.mss.dropped + 1 } }
  else
    let e : BitVec 512 := BitVec.ofNat 512
      (s.mss.logHead + ty * 2 ^ 64 + (s.ns - s.mss.bootedAt) % 2 ^ 64 * 2 ^ 128 + payload % 2 ^ 320 * 2 ^ 192)
    let h := sha384 (beBytes 48 s.mss.chain.toNat ++ leBytes 64 e.toNat)
    let s := { s with mss := { s.mss with
      log := Sparse.put s.mss.log s.mss.logHead e, logHead := s.mss.logHead + 1, chain := BitVec.ofNat 384 (beNat h) } }
    if (s.mss.logHead - 1) % 4096 = 0 then s.takeCheckpoint else s

end Sys2Proof.Machine
end

