-- ==== Sys2Proof/Machine/SyncObjects.lean ====
section
/-!
DEFINITION. What the operations of a sync engine share: answers, homes, room and overlap (15 R354, R486), the reads an engine
makes of memory, straggler records (R382 to R385), and the rings (13 R325 to R332).
-/
namespace Sys2Proof.Machine

open Sys2Proof

/-! ## Answers -/

/-- The answer of a blocking wait: to the core that holds, or, for a slice that gave up its core, the end of its wait. -/
def State.answerWait (s : State) (m : SyncMsg) (w : Who) (main status : Word) (acq : Bool) : State :=
  let k := s.core w.core
  if m.watch ∨ !k.runs w then s.wakeRec w.kernel w.slice
  else
    let s := s.setCore w.core { k with wait := { k.wait with answer := some (main, status) } }
    if acq then s.acquire w.core m.scope else s

/-- The answer of an operation: main result and status or result word; `ok` says that an acquire form acquires. -/
def State.answer (s : State) (m : SyncMsg) (main status : Word) (ok : Bool) : State :=
  match m.who with
  | none => s
  | some w =>
    match m.reply with
    | .w a b =>
      let regs := (a.map (fun n => (n, main))).toList ++ (b.map (fun n => (n, status))).toList
      let acq := if ok && m.acquire then some m.scope else none
      if regs.isEmpty && acq.isNone then s else { s with replies := s.replies ++ [⟨w, regs, acq, false⟩] }
    | .wait => s.answerWait m w main status (ok && m.acquire)
    | _ => s

/-! ## Objects -/

def State.obj (s : State) (a : Nat) : Option ObjRec := Sparse.find? s.objs a
def State.putObj (s : State) (a : Nat) (o : Obj) : State :=
  { s with objs := Sparse.put s.objs a ⟨o, match s.obj a with | some r => r.inOverflow | none => false⟩ }
def State.dropObj (s : State) (a : Nat) : State := { s with objs := Sparse.erase s.objs a }

def Obj.ring? : Obj → Option Ring | .ring r => some r | _ => none
def Obj.phaser? : Obj → Option Phaser | .phaser p => some p | _ => none
def Obj.seq? : Obj → Option Seq | .seq q => some q | _ => none

def State.ring? (s : State) (a : Nat) : Option Ring := (s.obj a).bind (fun r => r.obj.ring?)
def State.phaser? (s : State) (a : Nat) : Option Phaser := (s.obj a).bind (fun r => r.obj.phaser?)
def State.seq? (s : State) (a : Nat) : Option Seq := (s.obj a).bind (fun r => r.obj.seq?)

/-- Bytes an object owns at its address (13 R325, 15 R366, 16 R387). -/
def Obj.span : Obj → Nat | .ring r => 64 + 8 * r.slots.length | .phaser _ => 4096 | .seq _ => 64

/-- Room an object takes, rounded up to 64 bytes (15 R354). -/
def round64 (n : Nat) : Nat := (n + 63) / 64 * 64
def Obj.room : Obj → Nat | .ring r => round64 (64 + 8 * r.slots.length) | .phaser _ => 4096 | .seq q => 64 + round64 (16 * q.npages)

/-- Whether [a, a+n) meets [b, b+m). -/
def meets (a n b m : Nat) : Bool := decide (a < b + m ∧ b < a + n)

/-- EXISTS (15 R486): the bytes meet another object's, or a reserved handle; `same` picks the one object that may stand there. -/
def State.overlaps (s : State) (a n : Nat) (same : Obj → Bool) : Bool :=
  s.objs.any (fun (p : Nat × ObjRec) => meets a n p.1 p.2.obj.span && !(p.1 == a && same p.2.obj)) ||
    s.flats.any (fun (p : Nat × Flat) => meets a n p.1 64)

/-- Room used at an engine, in sync SRAM or in the overflow area; a reserved child holds its room. -/
def State.used (s : State) (engine : Nat) (inOverflow : Bool) : Nat :=
  ((s.objs.filter (fun (p : Nat × ObjRec) => homeEngine p.1 == engine && p.2.inOverflow == inOverflow)).map
      (fun (p : Nat × ObjRec) => p.2.obj.room)).foldl (· + ·) 0 +
  ((s.flats.filter (fun (p : Nat × Flat) => homeEngine p.1 == engine && p.2.inOverflow == inOverflow)).map
      (fun (p : Nat × Flat) => 64 + round64 (16 * p.2.table.length))).foldl (· + ·) 0

/-- The configuration an engine works from; another module's engine has its reset configuration here. -/
def State.engineCfg (s : State) (engine : Nat) : DieCfg :=
  if engine / 64 = s.modid then (s.die (engine % 64)).cfg else DieCfg.reset

/-- Where a new object of `n` bytes goes: sync SRAM, then the overflow area (15 R354). -/
def State.place (s : State) (engine n : Nat) : Option Bool :=
  if s.used engine false + n ≤ 0x200000 then some false
  else if s.used engine true + n ≤ (s.engineCfg engine).sovsize.toNat * 0x10000 then some true
  else none

def State.addObj (s : State) (a : Nat) (o : Obj) (inOverflow : Bool) : State := { s with objs := Sparse.put s.objs a ⟨o, inOverflow⟩ }

/-! ## Reads by an engine of a die -/

/-- Error codes of engines (13 R321). -/
def eBadCmd : Nat := 1
def eFaultSrc : Nat := 2
def eFaultDst : Nat := 3
def eProtSrc : Nat := 4
def eProtDst : Nat := 5
def eUe : Nat := 6
def eRing : Nat := 7

/-- A global virtual address as an engine of a die translates and checks it for a slice, not sealed: physical address or engine error
(13 R311, R316, 16 R395). -/
def State.engineAddr (s : State) (die : Nat) (va : Word) (write priv : Bool) : Except Nat Nat :=
  let prot := if write then eProtDst else eProtSrc
  match placeOf 0 va with
  | .virt => match s.xlateDie die va with
    | .fault => .error (if write then eFaultDst else eFaultSrc)
    | .ue => .error eUe
    | .ok pa e _ =>
      if !leafAllows e (if write then .write else .read) priv || s.inGlove pa || s.podGlove pa || !s.rangeAllows pa priv then .error prot
      else if rangeOf pa = .device then .error prot else .ok pa
  | _ => .error prot

/-- The same for a byte that is read or written at once. -/
def State.engineByte (s : State) (die : Nat) (va : Word) (write priv : Bool) : Except Nat Nat :=
  match s.engineAddr die va write priv with
  | .error e => .error e
  | .ok pa => if (if write then s.unbacked pa else s.readFails pa) then .error eUe else .ok pa

/-- `n` bytes from a global address. -/
def State.engineBytes (s : State) (die : Nat) (va : Word) (n : Nat) (priv : Bool) : Except Nat (List Byte) :=
  (List.range n).foldr (fun i (r : Except Nat (List Byte)) =>
    match s.engineByte die (va + BitVec.ofNat 64 i) false priv with
    | .error e => .error e
    | .ok pa => match r with | .ok bs => .ok (s.anyByte pa :: bs) | .error e => .error e) (.ok [])

/-- The physical address at which a report of `n` bytes meets an uncorrectable error, 0 where it meets none (18 R442). -/
def State.lostAt (s : State) (die : Nat) (va : Word) (n : Nat) (priv : Bool) : Nat :=
  ((List.range n).findSome? (fun i => match s.engineAddr die (va + BitVec.ofNat 64 i) true priv with
    | .ok pa => if s.unbacked pa then some pa else none
    | .error _ => none)).getD 0

def State.kernelPriv (s : State) (k : Nat) : Bool := match s.kernel? k with | some x => x.priv | none => false
def State.kernelSealed (s : State) (k : Nat) : Bool := match s.kernel? k with | some x => recSealed x.record | none => false
def State.kidOf (s : State) (k : Nat) : W32 := match s.kernel? k with | some x => recKid x.record | none => 0

/-! ## Straggler records (15 R382 to R385) -/

def Strag.zero : Strag := ⟨0, [], [], [], []⟩

/-- Mesh hops between two stacks, or B-dies (01 R7). -/
def meshHops (a b : Nat) : Nat :=
  let hop (x y : Nat) : Nat := max x y - min x y
  hop (a % 4) (b % 4) + hop (a / 4) (b / 4)

/-- The fixed latency of the path from a die to a sync engine, which is subtracted from a receipt cycle (15 R383). Of two pod ports to a
module the nearer one counts (notes/assumptions/69.md); the hops on the other module are its own. -/
def State.pathFix (s : State) (die engine : Nat) : Nat :=
  let home := engine % 64
  if engine / 64 ≠ s.modid then
    let hops := (Sparse.get s.podPorts [] (engine / 64)).map (meshHops (die / 4))
    900 + 20 * (hops.foldl min (hops.headD 0) + Config.podHops engine)
  else if die = home then 0
  else if die / 4 = home / 4 then 24
  else 24 + 20 * meshHops (die / 4) (home / 4)

/-- A member's latest arrival; one from another core ends its making a victim (15 R385). -/
def Strag.note (g : Strag) (member core : Nat) (kid : W32) : Strag :=
  let moved := match Sparse.find? g.latest member with | some (c, _) => c != core | none => false
  { g with latest := Sparse.put g.latest member (core, kid), victims := if moved then Sparse.erase g.victims member else g.victims }

/-- Members whose lag exceeded THRESH in at least NEED of the record's episodes. -/
def Strag.stragglers (g : Strag) (cfg : Word) : List Nat :=
  let inOverflow (m : Nat) : Nat := (g.eps.filter (fun e => match Sparse.find? e m with | some l => decide (bitsOf cfg 0 16 < l) | none => false)).length
  (List.range 64).filter (fun m => decide (bitsOf cfg 16 5 ≤ inOverflow m))

/-- An episode recorded: lags from the first participant's arrival, the 16 newest kept. A member that becomes persistent makes a victim for
its latest arrival, until it is persistent no longer (15 R385). -/
def Strag.episode (g : Strag) (arr : Sparse Nat) (cfg : Word) : Strag :=
  let first := match arr with | [] => 0 | p :: ps => ps.foldl (fun m q => min m q.2) p.2
  let lags : Sparse Nat := arr.map (fun p => (p.1, min (p.2 - first) 0xFFFF))
  let g1 := { g with count := min (g.count + 1) 0xFFFFFFFF, eps := (lags :: g.eps).take 16 }
  let now := g1.stragglers cfg
  { g1 with
    persist := now
    victims := (now.filter (fun m => !g.persist.contains m)).foldl (fun v m => match Sparse.find? g.latest m with
      | some x => Sparse.put v m x | none => v) (g.victims.filter (fun v => now.contains v.1)) }

/-- One word of a record (15 R386). -/
def Strag.word (g : Strag) (cfg : Word) (k : Nat) : Word :=
  if k = 0 then BitVec.ofNat 64 (bitsOf cfg 0 16 * 2 ^ 48 + bitsOf cfg 16 5 * 2 ^ 40 + g.eps.length * 2 ^ 32 + g.count)
  else if k = 1 then BitVec.ofNat 64 ((g.persist.map (fun m => 2 ^ m)).foldl (· + ·) 0)
  else if k < 18 then BitVec.ofNat 64 (((nth [] g.eps (k - 2)).map (fun p => 2 ^ p.1)).foldl (· + ·) 0)
  else
    let e := nth [] g.eps ((k - 18) / 16)
    BitVec.ofNat 64 (((List.range 4).map (fun i => Sparse.get e 0 ((k - 18) % 16 * 4 + i) * 2 ^ (16 * i))).foldl (· + ·) 0)

/-! ## Stage rings -/

/-- A ring result word (13 R328). -/
def ringWord (status slot code src : Nat) : Word := BitVec.ofNat 64 (status + slot * 2 ^ 8 + code * 2 ^ 16 + src * 2 ^ 24)

/-- The first poisoning is kept (13 R327). -/
def Ring.spoil (r : Ring) (src : Nat) (code : Byte) : Ring := if r.poison.isSome then r else { r with poison := some (src, code) }

def Ring.poisonWord (r : Ring) : Word := match r.poison with | some (s, c) => ringWord 2 0 c.toNat s | none => 0

def Ring.slotAt (r : Ring) (i : Nat) : RingSlot := nth ⟨.empty, 0, none⟩ r.slots i
def Ring.setSlot (r : Ring) (i : Nat) (x : RingSlot) : Ring := { r with slots := setNth r.slots i x }

/-- The credit rows of R325. -/
def Ring.credit (r : Ring) (slot n : Nat) : Ring :=
  let x := r.slotAt slot
  if x.tag = .filling then
    if x.deliv + n < r.expect then r.setSlot slot { x with deliv := x.deliv + n }
    else if x.deliv + n = r.expect then r.setSlot slot { x with deliv := x.deliv + n, tag := .full }
    else r.spoil 3 1
  else r.spoil 3 2

/-- Taking the slot at PNEXT, when it is EMPTY. -/
def Ring.take (r : Ring) (owner : Option Loader) : Option (Nat × Ring) :=
  if (r.slotAt r.pnext).tag = .empty then
    some (r.pnext, { r.setSlot r.pnext ⟨.filling, 0, owner⟩ with pnext := (r.pnext + 1) % max 1 r.slots.length })
  else none

/-- The end of a loader, a slice (source 1) or a walk (source 2), with its code when it failed (13 R326). -/
def Ring.loaderEnds (r : Ring) (l : Loader) (code : Option Byte) : Ring :=
  match code with
  | some c => { r.spoil (match l with | .slice _ _ => 1 | .walk _ => 2) c with loader := none }
  | none =>
    if r.slots.any (fun x => x.tag == .filling && x.owner == some l) then { r.spoil 3 4 with loader := none }
    else { r with ended := true, loader := none }

/-- An uncorrectable error in an object's state (18 R440). -/
def Ring.checkUe (r : Ring) (ue : Bool) : Ring := if ue then r.spoil 3 5 else r

/-- An object is written anew: the poison of its bytes ends (18 R441, 15 R376). -/
def State.cleanState (s : State) (a n : Nat) : State := { s with poison := s.poison.filter (fun p => !meets p 64 a n) }

/-- Ending every wait of a ring that is poisoned; `watch` waits end too. -/
def State.endWaits (s : State) (ms : List SyncMsg) (w : Word) : State := ms.foldl (fun s m => s.answer m w w false) s

/-- An operation on the ring at `m.addr`, checked in the order of R329; the waiting forms are evaluated later. -/
def State.ringOp (s : State) (m : SyncMsg) : State :=
  let err (c : Nat) : State := s.answer m (ringWord 4 0 c 0) 0 false
  if paModule m.addr ≠ s.modid then err 6
  else match m.op with
  | .rinit loader cfg =>
    let n := bitsOf cfg 32 7
    if s.overlaps m.addr (64 + 8 * min n 64) (fun o => o.ring?.isSome) then err 8
    else if 64 < n ∨ bitsOf cfg 39 25 ≠ 0 ∨ bitsOf cfg 0 32 = 0 then err 5
    else
      let s := match s.ring? m.addr with
        | some r => (s.endWaits r.waits ((r.spoil 3 3).poisonWord)).dropObj m.addr
        | none => s
      if n = 0 then s.answer m 0 0 false
      else match s.place m.engine (round64 (64 + 8 * n)) with
        | none => s.answer m (ringWord 4 0 7 0) 0 false
        | some inOverflow =>
          let who : Option Loader := if loader then m.who.map (fun w => .slice w.kernel w.slice) else none
          ((s.cleanState m.addr (64 + 8 * n)).addObj m.addr (.ring ⟨bitsOf cfg 0 32, List.replicate n ⟨.empty, 0, none⟩, 0, 0, none, false, who, []⟩) inOverflow).answer m 0 0 false
  | op =>
    match s.ring? m.addr with
    | none => err 1
    | some r0 =>
      let r := r0.checkUe (s.spoiled m.addr (64 + 8 * r0.slots.length))
      let bad : Bool := match op with
        | .rpub v => bitsOf v 38 26 != 0
        | .rels v => bitsOf v 6 58 != 0
        | .rpois v => bitsOf v 8 56 != 0
        | _ => false
      let slot : Nat := match op with | .rpub v => bitsOf v 32 6 | .rels v => bitsOf v 0 6 | _ => 0
      let put (r : Ring) : State := s.putObj m.addr (.ring r)
      if bad then err 5
      else if r.slots.length ≤ slot then err 2
      else if r.poison.isSome then (put r).answer m r.poisonWord 0 false
      else match op with
        | .racq =>
          match r.take (m.who.map (fun w => .slice w.kernel w.slice)) with
          | some (i, r1) => (put r1).answer m (ringWord 0 i 0 0) 0 true
          | none => (put r).answer m (ringWord 1 0 0 0) 0 true
        | .rpub v =>
          let n := bitsOf v 0 32
          let r1 := if n = 0 then r else r.credit slot n
          (put r1).answer m r1.poisonWord 0 false
        | .rels _ =>
          if (r.slotAt slot).tag = .draining then (put (r.setSlot slot ⟨.empty, 0, none⟩)).answer m 0 0 false
          else (put r).answer m (ringWord 4 0 3 0) 0 false
        | .rpois v => (put (r.spoil 0 (v.setWidth 8))).answer m 0 0 false
        | .await _ => put { r with waits := r.waits ++ [m] }
        | _ => s

/-- Evaluating the AWAITs of a ring in arrival order (13 R325, R327, R331, R332). The wait of a slice that gave up its core takes
no slot. -/
def evalAwaits : List SyncMsg → Nat → Ring → State → Ring × State
  | [], _, r, s => (r, s)
  | m :: ms, a, r, s =>
    let full := (r.slotAt r.cnext).tag == .full
    let poll := m.op == .await true
    if r.poison.isSome then evalAwaits ms a r (s.answer m r.poisonWord 0 false)
    else if full && m.watch then evalAwaits ms a r (s.answer m 0 0 false)
    else if full then
      let x := r.slotAt r.cnext
      let r1 := { r.setSlot r.cnext { x with tag := .draining } with cnext := (r.cnext + 1) % max 1 r.slots.length }
      evalAwaits ms a r1 (s.answer m (ringWord 0 r.cnext 0 0) 0 true)
    else if r.ended then evalAwaits ms a r (s.answer m (ringWord 2 0 0 3) 0 false)
    else if poll then evalAwaits ms a r (s.answer m (ringWord 5 0 0 0) 0 false)
    else evalAwaits ms a { r with waits := r.waits ++ [m] } s

def State.evalRing (s : State) (a : Nat) (r : Ring) : State :=
  if r.waits.isEmpty then s
  else
    let (r1, s1) := evalAwaits r.waits a { r with waits := [] } s
    s1.putObj a (.ring r1)

end Sys2Proof.Machine
end

