-- ==== Sys2Proof/Machine/Phasers.lean ====
section
/-!
DEFINITION. Phasers (15 R366 to R377), STRG (R386), and memory words: atomics, reductions, monitors and signals (R359 to R365).
-/
namespace Sys2Proof.Machine

open Sys2Proof

/-! ## Phasers -/

/-- A phaser result word (15 R375). -/
def phWord (phase : W32) (status member code src : Nat) : Word :=
  BitVec.ofNat 64 (phase.toNat * 2 ^ 32 + src * 2 ^ 24 + code * 2 ^ 16 + member * 2 ^ 8 + status)

def Phaser.spoil (p : Phaser) (src : Nat) (code : Byte) : Phaser := if p.poison.isSome then p else { p with poison := some (src, code) }
def Phaser.poisonWord (p : Phaser) (member : Nat) : Word :=
  match p.poison with | some (s, c) => phWord p.phase 2 member c.toNat s | none => 0

def Member.signals (m : Member) : Bool := m.mode != 1
def Phaser.active (p : Phaser) (mode : Nat) : Nat := (p.members.filter (fun m => m.2.mode == mode && !m.2.pending)).length
def Phaser.signallers (p : Phaser) : Nat := p.active 0 + p.active 2
def Phaser.arrivals (p : Phaser) : Nat := (p.members.filter (fun m => m.2.arrived)).length

/-- A word of the state (15 R366). -/
def Phaser.word (p : Phaser) (k : Nat) : Word :=
  match k with
  | 0 => BitVec.ofNat 64 (p.phase.toNat * 2 ^ 32 + (if p.poison.isSome then 2 ^ 31 else 0) + p.active 2 * 2 ^ 24 + p.active 1 * 2 ^ 17 +
      p.active 0 * 2 ^ 10 + p.arrivals * 2 ^ 3 + p.scope.code.toNat)
  | 1 => BitVec.ofNat 64 p.expect
  | 2 => BitVec.ofNat 64 p.recv
  | _ => BitVec.ofNat 64 (((p.members.filter (fun m => m.2.arrived)).map (fun m => 2 ^ m.1)).foldl (· + ·) 0)

/-- An uncorrectable error in its state (18 R440). -/
def Phaser.checkUe (p : Phaser) (ue : Bool) : Phaser := if ue then p.spoil 3 5 else p

/-- Whether an agent lies in the phaser's scope instance (15 R373, 14 R338): a core, or an engine of a die (and quad). -/
def inScope (σ : Scope) (engine modid creator die : Nat) (quad core : Option Nat) : Bool :=
  let home := engine % 64
  let here := engine / 64 == modid
  match σ with
  | .core => core == some creator
  | .quad => quad == some (quadOf creator)
  | .die => here && die == home
  | .stack => here && die / 4 == home / 4
  | .mod => here
  | .pod => true

/-- Setting a member. -/
def Phaser.setMember (p : Phaser) (k : Nat) (m : Member) : Phaser := { p with members := Sparse.put p.members k m }

/-- An arrival of member k at a corrected cycle (15 R369): the phaser and the phase arrived for, or nothing when the early bit is
set already. -/
def Phaser.arrive (p : Phaser) (k : Nat) (m : Member) (cycle core : Nat) (kid : W32) : Option (Phaser × W32) :=
  let p1 := { p with strag := p.strag.note k core kid }
  if m.arrived ∨ m.pending then
    if m.early then none else some (p1.setMember k { m with early := true }, p.phase + 1)
  else some ({ p1.setMember k { m with arrived := true } with arr := Sparse.put p.arr k cycle }, p.phase)

/-- Whether a phaser advances (15 R367). -/
def Phaser.ready (p : Phaser) : Bool :=
  let n := p.signallers
  p.poison.isNone && p.recv == p.expect && ((decide (1 ≤ n) && p.arrivals == n) || (n == 0 && decide (0 < p.expect)))

/-- The advance as one step (15 R367). -/
def Phaser.advance (p : Phaser) (cycle : Nat) (cfg : Word) : Phaser :=
  let kept := p.members.filter (fun m => !m.2.dropping)
  let early : Sparse Nat := (kept.filter (fun m => m.2.early)).map (fun m => (m.1, cycle))
  { p with
    phase := p.phase + 1, expect := 0, recv := 0
    strag := p.strag.episode p.arr cfg
    members := kept.map (fun m => (m.1, { m.2 with pending := false, arrived := m.2.early, early := false }))
    arr := early }

/-- The lowest free member index. -/
def Phaser.freeIndex (p : Phaser) : Option Nat := (List.range 64).find? (fun k => (Sparse.find? p.members k).isNone)

/-- Dropping a member (15 R370): it goes at once while its registration is pending, else at the next advance, and its arrival
counts when it still owes one. -/
def Phaser.drop (p : Phaser) (k : Nat) (m : Member) (cycle core : Nat) (kid : W32) : Phaser :=
  if m.pending then { p with members := Sparse.erase p.members k }
  else
    let p1 := if m.signals && !m.arrived then (match p.arrive k m cycle core kid with | some (q, _) => q | none => p) else p
    match Sparse.find? p1.members k with
    | some m1 => p1.setMember k { m1 with dropping := true }
    | none => p1

/-- Members of a retiring slice that are bound to it (15 R371). -/
def Phaser.sliceEnds (p : Phaser) (kernel slice : Nat) (code : Option Byte) (cycle core : Nat) (kid : W32) : Phaser :=
  let mine := p.members.filter (fun m => m.2.bound == some (kernel, slice))
  if mine.isEmpty then p
  else match code with
    | some c => p.spoil 1 c
    | none => mine.foldl (fun p m => match Sparse.find? p.members m.1 with
      | some x => p.drop m.1 x cycle core kid
      | none => p) p

/-- Delivered bytes (15 R372). -/
def Phaser.creditBytes (p : Phaser) (n engine modid die : Nat) (quad : Option Nat) : Phaser :=
  if p.poison.isSome then p
  else if inScope p.scope engine modid p.creator die quad none then { p with recv := p.recv + n } else p.spoil 3 4

/-- Reserved bits of an operand (15 R374). -/
def phBadArg (op : SyncOp) : Bool :=
  match op with
  | .phnew v => bitsOf v 7 1 != 0 || bitsOf v 10 6 != 0 || bitsOf v 19 5 != 0 || bitsOf v 25 39 != 0 || decide (64 < bitsOf v 0 7) ||
      bitsOf v 8 2 == 3 || bitsOf v 16 3 == 0 || bitsOf v 16 3 == 7
  | .phreg v => bitsOf v 2 6 != 0 || bitsOf v 9 55 != 0 || bitsOf v 0 2 == 3
  | .phdrop v | .phsig v => bitsOf v 6 58 != 0
  | .phwait v => bitsOf v 32 8 != 0
  | .phsw v _ => bitsOf v 6 34 != 0
  | .phpois v => bitsOf v 8 56 != 0
  | .strg w => decide (273 < w.toNat)
  | _ => false

/-- The member a result names (15 R375). -/
def waitMember (op : SyncOp) : Nat := match op with | .phdrop v | .phsig v | .phsw v _ => bitsOf v 0 6 | _ => 0

/-- The member an operation names, with whether its mode must signal, and must signal and wait. -/
def phMember (op : SyncOp) : Option (Nat × Bool × Bool) :=
  match op with
  | .phdrop v => some (bitsOf v 0 6, false, false)
  | .phsig v => some (bitsOf v 0 6, true, false)
  | .phsw v _ => some (bitsOf v 0 6, true, true)
  | _ => none

/-- The phase that the member's PHSW has arrived for, kept for a reissue on its core, or in its slice's record (15 R377). -/
def State.keepPhase (s : State) (w : Who) (ph : W32) : State :=
  let mark (l : List Kept) : List Kept := l.mapIdx (fun i e => if i + 1 = l.length then { e with phase := some ph } else e)
  if (s.core w.core).runs w then s.modCore w.core (fun k => { k with kept := mark k.kept })
  else s.modRecs (fun r => r.kernel == w.kernel && r.slice == w.slice)
    (fun r => { r with waits := r.waits.map (fun x => if x.1 = w.rank then (x.1, mark x.2) else x) })

/-- An operation on the phaser at `m.addr`, checked in the order of R373; waits are evaluated later. `cycle` is the engine cycle. -/
def State.phaserOp (s : State) (m : SyncMsg) (cycle : Nat) : State :=
  let w := m.who.getD ⟨0, 0, 0, 0⟩
  let at_ := cycle - s.pathFix m.die m.engine
  let kid := s.kidOf w.kernel
  let inside (σ : Scope) (creator : Nat) : Bool := inScope σ m.engine s.modid creator m.die (some (quadOf w.core)) (some w.core)
  let reply (s : State) (v : Word) (ok : Bool) : State :=
    match m.op with | .phrd _ | .strg _ => s.answer m 0 v ok | _ => s.answer m v 0 ok
  let err (ph : W32) (c : Nat) : State := reply s (phWord ph 4 (waitMember m.op) c 0) false
  match m.op with
  | .phnew v =>
    let old := s.phaser? m.addr
    let σ := Scope.ofCode (BitVec.ofNat 6 (bitsOf v 16 3))
    if s.overlaps m.addr 4096 (fun o => o.phaser?.isSome) then err 0 8
    else
    let ph : W32 := match old with | some p => p.phase | none => 0
    if (match old with | some p => !inside p.scope p.creator | none => false) then err ph 4
    else if !v.getLsbD 24 && bitsOf v 16 3 != 0 && bitsOf v 16 3 != 7 && !inside σ w.core then err ph 4
    else if phBadArg m.op then err ph 5
    else
      let s := match old with
        | some p => (p.waits.foldl (fun (s : State) (x : SyncMsg × W32) => s.answer x.1 ((p.spoil 3 3).poisonWord (waitMember x.1.op)) 0 false) s).dropObj m.addr
        | none => s
      let s := s.cleanState m.addr 4096
      if v.getLsbD 24 then reply s 0 false
      else match s.place m.engine 4096 with
        | none => reply s (phWord 0 4 0 7 0) false
        | some inOverflow =>
          let ms : Sparse Member := (List.range (bitsOf v 0 7)).map (fun k => (k, ⟨bitsOf v 8 2, false, false, none, false, false⟩))
          reply (s.addObj m.addr (.phaser ⟨0, 0, 0, ms, σ, w.core, none, [], [], Strag.zero⟩) inOverflow) 0 false
  | op =>
    match s.phaser? m.addr with
    | none => err 0 1
    | some p0 =>
      let p := p0.checkUe (s.spoiled m.addr 4096)
      let put (p : Phaser) : State := s.putObj m.addr (.phaser p)
      let member := (phMember op).bind (fun x => (Sparse.find? p.members x.1).map (fun y => (x, y)))
      let exempt : Bool := match op with | .phrd _ => true | _ => false
      if !inside p.scope p.creator then err p.phase 4
      else if phBadArg op then err p.phase 5
      else if (phMember op).isSome && member.isNone then err p.phase 2
      else if (match member with | some (x, y) => (x.2.1 && !y.signals) || (x.2.2 && y.mode != 2) | none => false) then err p.phase 3
      else if p.poison.isSome && !exempt then reply (put p) (p.poisonWord (waitMember op)) false
      else match op with
        | .phreg v =>
          match p.freeIndex with
          | none => reply (put p) (phWord p.phase 1 0 0 0) false
          | some k =>
            let now := p.signallers == 0
            let bound := if v.getLsbD 8 then some (w.kernel, w.slice) else none
            let p1 := p.setMember k ⟨bitsOf v 0 2, !now, false, bound, false, false⟩
            reply (put p1) (phWord (if now then p.phase else p.phase + 1) 0 k 0 0) false
        | .phdrop v =>
          match member with
          | some (_, y) => reply (put (p.drop (bitsOf v 0 6) y at_ w.core kid)) (phWord p.phase 0 (bitsOf v 0 6) 0 0) false
          | none => s
        | .phsig v =>
          let k := bitsOf v 0 6
          match member with
          | some (_, y) => match p.arrive k y at_ w.core kid with
            | none => reply (put p) (phWord (p.phase + 1) 1 k 0 0) false
            | some (p1, ph) => reply (put p1) (phWord ph 0 k 0 0) false
          | none => s
        | .phsw v again =>
          let k := bitsOf v 0 6
          match again with
          | some ph => put { p with waits := p.waits ++ [(m, ph + 1)] }
          | none => match member with
            | some (_, y) => match p.arrive k y at_ w.core kid with
              | none => reply (put p) (phWord p.phase 1 k 0 0) false
              | some (p1, ph) =>
                let s1 := s.putObj m.addr (.phaser { p1 with waits := p1.waits ++ [(m, ph + 1)] })
                if m.reply = .wait then s1.keepPhase w ph else s1
            | none => s
        | .phwait v => put { p with waits := p.waits ++ [(m, v.setWidth 32)] }
        | .phbyt v => reply (put { p with expect := min (p.expect + v.toNat) (2 ^ 64 - 1) }) (phWord p.phase 0 0 0 0) false
        | .phrd k => (put p).answer m (p.word k) (phWord p.phase 0 0 0 0) false
        | .phpois v => reply (put (p.spoil 0 (v.setWidth 8))) (phWord p.phase 0 0 0 0) false
        | .strg i => (put p).answer m (p.strag.word (s.engineCfg m.engine).strgcfg i.toNat) (phWord p.phase 0 0 0 0) false
        | _ => s

/-- Whether a phase wait is satisfied: sext(PHASE − target, 32) ≥ 0 (15 R374). -/
def reachedPhase (phase target : W32) : Bool := decide (0 ≤ (phase - target).toInt)

/-- A poll: timeout field 0. -/
def isPoll (op : SyncOp) : Bool := match op with | .phwait v | .phsw v _ => bitsOf v 40 24 == 0 | _ => false

/-- Waits of a phaser in arrival order (15 R368, R374, R376); PHSW's acquire, like PHWAIT's, is at the phaser's scope. -/
def evalPhWaits : List (SyncMsg × W32) → Phaser → State → Phaser × State
  | [], p, s => (p, s)
  | (m, t) :: ms, p, s =>
    let m1 := { m with scope := p.scope }
    if p.poison.isSome then evalPhWaits ms p (s.answer m1 (p.poisonWord (waitMember m.op)) 0 false)
    else if reachedPhase p.phase t then evalPhWaits ms p (s.answer m1 (phWord p.phase 0 (waitMember m.op) 0 0) 0 true)
    else if isPoll m.op then evalPhWaits ms p (s.answer m1 (phWord p.phase 5 (waitMember m.op) 0 0) 0 false)
    else evalPhWaits ms { p with waits := p.waits ++ [(m, t)] } s

/-- The evaluation of a phaser: at most one advance, then the waits (15 R367, R368), which no answer reaches while no route leads to its home (19
R458). -/
def State.evalPhaser (s : State) (a : Nat) (p : Phaser) (cycle : Nat) : State :=
  let go := p.ready
  let lost := s.lostRoute (homeEngine a)
  let p1 := if go then p.advance cycle (s.engineCfg (homeEngine a)).strgcfg else p
  if !go && p.waits.isEmpty then s
  else if lost then s.putObj a (.phaser p1)
  else
    let (p2, s1) := evalPhWaits p1.waits { p1 with waits := [] } s
    s1.putObj a (.phaser p2)

/-! ## Words of memory (15 R359 to R365) -/

/-- The new value of a read-modify-write; f32 addition rounds once (15 R359). -/
def redValue (fn : RedFn) (t : AType) (old v : Nat) : Nat :=
  let n := 8 * t.bytes
  let signed := match t with | .i64 | .i32 => true | _ => false
  let le := if signed then decide (signedOf n old ≤ signedOf n v) else decide (old ≤ v)
  match fn with
  | .add => (old + v) % 2 ^ n
  | .min => if le then old else v
  | .max => if le then v else old
  | .and => old &&& v
  | .or => old ||| v
  | .xor => old ^^^ v
  | .fadd => addElem .f32 old v

def State.wordAt (s : State) (pa n : Nat) : Nat := leNat (s.anyBytes pa n)
def State.wordFails (s : State) (pa n : Nat) : Bool := (List.range n).any (fun i => s.readFails (pa + i))

/-- An atomic at its home as one step: the old value comes back, extended by its type. -/
def State.atomicAt (s : State) (m : SyncMsg) (t : AType) (f : Nat → Option Nat) : State :=
  if s.wordFails m.addr t.bytes then s.answer m 6 4 true
  else
    let old := s.wordAt m.addr t.bytes
    let s1 := match f old with | some v => s.putBytes m.addr (leBytes t.bytes v) | none => s
    let signed := match t with | .i64 | .i32 => true | _ => false
    s1.answer m (extend signed t.bytes old) 0 true

/-- The operations on a word; FIRSTERR is written before COUNT, and only when it reads 0 (02 R40). A report of a kernel that meets an uncorrectable
error has no instruction to consume it (18 R442; notes/assumptions/55.md). -/
def State.wordOp (s : State) (m : SyncMsg) : State :=
  match m.op with
  | .atomic fn t v => s.atomicAt m t (fun old => some (redValue fn t old (v.toNat % 2 ^ (8 * t.bytes))))
  | .aswp t v => s.atomicAt m t (fun _ => some (v.toNat % 2 ^ (8 * t.bytes)))
  | .acas t o v => s.atomicAt m t (fun old => if old = o.toNat % 2 ^ (8 * t.bytes) then some (v.toNat % 2 ^ (8 * t.bytes)) else none)
  | .red fn t v =>
    if s.wordFails m.addr t.bytes then s.unowned (if paModule m.addr ≠ s.modid then m.die else m.engine % 64) 1 m.addr
    else s.putBytes m.addr (leBytes t.bytes (redValue fn t (s.wordAt m.addr t.bytes) (v.toNat % 2 ^ (8 * t.bytes))))
  | .sigdec v e =>
    if s.wordFails m.addr 16 then
      (if m.who.isNone then s.unowned (if paModule m.addr ≠ s.modid then m.die else m.engine % 64) 1 m.addr else s.answer m 6 4 true)
    else
      let s1 := if e ≠ 0 ∧ s.wordAt (m.addr + 8) 8 = 0 then s.putBytes (m.addr + 8) (leBytes 8 e.toNat) else s
      let old := BitVec.ofNat 64 (s1.wordAt m.addr 8)
      (s1.putBytes m.addr (leBytes 8 (old - v).toNat)).answer m old 0 true
  | .wmon _ _ _ _ =>
    -- the evaluation of the engine cycle compares it (15 R355)
    { s with monitors := s.monitors ++ [m] }
  | _ => s

/-- Armed monitors whose condition holds, or whose word is lost, and polls are answered (15 R363). A monitor at a home that no route leads to goes
on to its expiry (18 R447, 19 R458); what a poll of it reads is free (notes/assumptions/88.md). -/
def State.evalMonitors (s : State) : State :=
  let ms := s.monitors
  ms.foldl (fun s m =>
    match m.op with
    | .wmon narrow c v poll =>
      let n := if narrow then 4 else 8
      let x : Word := BitVec.ofNat 64 (s.wordAt m.addr n)
      if s.lostRoute m.engine then
        (if poll then s.tick.answer m (if narrow then (s.freeWord.setWidth 32).setWidth 64 else s.freeWord) 5 false else { s with monitors := s.monitors ++ [m] })
      else if s.wordFails m.addr n then s.answer m 6 4 false
      else if condAt (if narrow then .z32 else .w64) c x v then s.answer m x 0 true
      else if poll then s.answer m x 5 false
      else { s with monitors := s.monitors ++ [m] }
    | _ => s) { s with monitors := [] }

end Sys2Proof.Machine
end

