-- ==== Sys2Proof/Machine/Sequences.lean ====
section
/-!
DEFINITION. Grow-only sequences at their home (16 R387 to R406): the lookup, creation, reservation, commit, fork, tier commands,
release, and page counts.
-/
namespace Sys2Proof.Machine

open Sys2Proof

/-- Slot size, slots per page, capacity (16 R388). -/
def Seq.slot (q : Seq) : Nat := 2 ^ (q.logsz + 6)
def Seq.spp (q : Seq) : Nat := 2 ^ (10 - q.logsz)
def Seq.capacity (q : Seq) : Nat := q.npages * q.spp

def SeqEntry.none : SeqEntry := ⟨0, false, false, 0, 0, 0, 0, false, []⟩
def Seq.entry (q : Seq) (g : Nat) : SeqEntry := nth SeqEntry.none q.table g
def Seq.setEntry (q : Seq) (g : Nat) (e : SeqEntry) : Seq := { q with table := setNth q.table g e }

/-- A sequence result word (16 R394). -/
def seqWord (status code value : Nat) : Word := BitVec.ofNat 64 (value % 2 ^ 32 * 2 ^ 32 + code * 2 ^ 16 + status)

/-- The lookup of R391: the sequence key, page, slot address and levels passed. -/
def State.resolveSlot (s : State) : Nat → Nat → Nat → Nat → Option (Nat × Nat × Nat × Nat)
  | 0, _, _, _ => none
  | f + 1, a, slot, lv =>
    match s.seq? a with
    | none => none
    | some q =>
      let g := slot / q.spp
      let off := slot % q.spp
      let e := q.entry g
      if e.own ∧ e.vf ≤ off then some (a, g, e.pva + off * q.slot, lv)
      else match q.parent with
        | some p => s.resolveSlot f p slot (lv + 1)
        | none => none

/-- The pages of page index g that the lookup reaches for the first `lim` slots of it. -/
def State.reach (s : State) : Nat → Nat → Nat → Nat → List (Nat × Nat)
  | 0, _, _, _ => []
  | f + 1, a, g, lim =>
    match s.seq? a with
    | none => []
    | some q =>
      let e := q.entry g
      let up (l : Nat) : List (Nat × Nat) := match q.parent with | some p => if l = 0 then [] else s.reach f p g l | none => []
      if e.own then (if e.vf < lim then [(a, g)] else []) ++ up (min lim e.vf) else up lim

/-- Every page the lookup reaches for the slots [0, n) of a sequence. -/
def State.reachAll (s : State) (a n : Nat) : List (Nat × Nat) :=
  match s.seq? a with
  | none => []
  | some q => (List.range ((n + q.spp - 1) / q.spp)).flatMap (fun g => s.reach 5 a g (min q.spp (n - g * q.spp)))

/-- The frame of a page in physical memory, as the home die translates it. -/
def State.frameOf (s : State) (a pva : Nat) : Option Nat :=
  match s.xlateDie (homeDie a) (signVa pva) with | .ok pa _ _ => some pa | _ => none

/-- Committed slots keep their bytes (14 R353). -/
def State.freeze (s : State) (a first n : Nat) : State :=
  match s.seq? a with
  | none => s
  | some q =>
    { s with frozen := s.frozen ++ (List.range n).filterMap (fun i =>
        match s.resolveSlot 5 a (first + i) 0 with
        | some (_, _, va, _) => (s.frameOf a va).map (fun pa => (pa, q.slot))
        | none => none) }

/-- A frame the program may use again. -/
def State.thaw (s : State) (pa : Nat) : State :=
  { s with frozen := s.frozen.filter (fun r => !decide (pa ≤ r.1 ∧ r.1 < pa + 0x10000)) }

/-- The Clen mirror (16 R387). -/
def State.mirror (s : State) (a clen : Nat) : State := s.putBytes a (leBytes 8 clen)

/-- A sync engine writes the bytes of an object back: core stores to them are lost (13 R325, 16 R387). What the bytes of a ring or a phaser
then read as is free (notes/assumptions/74.md). -/
def State.writeObject (s : State) (a : Nat) : State :=
  match Sparse.find? s.objs a with
  | none => s
  | some o => match o.obj with
    | .seq q => s.mirror a q.clen
    | x => ({ s with mem := Mem.writes s.mem a (freeBytes s.free x.span), free := s.free + x.span } : State).markSpan a x.span

/-! ## Page counts (16 R404, R405) -/

/-- A pinned page: the audit interrupt and a log entry naming handle, page and direction. -/
def State.auditPin (s : State) (handle : Word) (g dir : Nat) : State :=
  (s.raise 66).logEntry logPinned (handle.toNat + g * 2 ^ 64 + dir * 2 ^ 96)

def State.setSeq (s : State) (a : Nat) (q : Seq) : State := s.putObj a (.seq q)

def State.incPage (s : State) (p : Nat × Nat) : State :=
  match s.seq? p.1 with
  | none => s
  | some q =>
    let e := q.entry p.2
    if e.pin then s
    else if e.ref = 255 then (s.setSeq p.1 (q.setEntry p.2 { e with pin := true })).auditPin q.handle p.2 0
    else s.setSeq p.1 (q.setEntry p.2 { e with ref := e.ref + 1 })

/-- A decrement; a page whose count reaches 0 is freed and its owner's list entry written (R389). -/
def State.decPage (s : State) (p : Nat × Nat) : State × Nat :=
  match s.seq? p.1 with
  | none => (s, 0)
  | some q =>
    let e := q.entry p.2
    if e.pin then (s, 0)
    else if e.ref = 0 then ((s.setSeq p.1 (q.setEntry p.2 { e with pin := true })).auditPin q.handle p.2 1, 0)
    else
      let s1 := s.setSeq p.1 (q.setEntry p.2 { e with ref := e.ref - 1 })
      if e.ref = 1 then
        let s2 := match s.frameOf p.1 e.pva with | some pa => s1.thaw pa | none => s1
        let s3 := match s2.xlateDie (homeDie p.1) (signVa (q.list + 8 * p.2)) with
          | .ok pa _ _ => s2.putBytes pa (leBytes 8 (e.pva + 1))
          | _ => s2
        (s3, 1)
      else (s1, 0)

def State.decPages (s : State) (ps : List (Nat × Nat)) : State × Nat :=
  ps.foldl (fun r p => let x := r.1.decPage p; (x.1, r.2 + x.2)) (s, 0)

/-- One header reference less; the sequence goes when none is left, and its parent's reference with it (R404). Answers the pages
freed. -/
def State.unhold (s : State) : Nat → Nat → State × Nat
  | 0, _ => (s, 0)
  | f + 1, a =>
    match s.seq? a with
    | none => (s, 0)
    | some q =>
      let s1 := s.setSeq a { q with refs := q.refs - 1 }
      if 1 < q.refs then (s1, 0)
      else
        let own := ((List.range q.npages).filter (fun g => (q.entry g).own)).map (fun g => (a, g))
        let up := match q.parent with
          | none => []
          | some p => (List.range ((q.forkpos + q.spp - 1) / q.spp)).flatMap (fun g =>
              let lim := min q.spp (q.forkpos - g * q.spp)
              let e := q.entry g
              let l := if e.own then min lim e.vf else lim
              if l = 0 then [] else s.reach 5 p g l)
        let (s2, n) := s1.decPages (own ++ up)
        let s3 := s2.dropObj a
        match q.parent with
        | none => (s3, n)
        | some p => let (s4, m) := s3.unhold f p; (s4, n + m)

def State.hold (s : State) (a : Nat) : State :=
  match s.seq? a with | some q => s.setSeq a { q with refs := q.refs + 1 } | none => s

/-! ## Creation (16 R395, R400) -/

/-- A field of a creation block. -/
def blkField (b : BitVec 256) (lo len : Nat) : Nat := b.toNat / 2 ^ lo % 2 ^ len

/-- One list entry read by the engine: page VA, whether it lies in CXL memory, whether in the Glove; or an error code. -/
def State.listEntry (s : State) (die : Nat) (list g : Nat) (priv : Bool) : Except Nat (Nat × Bool × Bool) :=
  match s.engineBytes die (signVa (list + 8 * g)) 8 priv with
  | .error e => .error (0x80 + e)
  | .ok bs =>
    let v := leNat bs
    if v % 0x10000 ≠ 0 ∨ 2 ^ 57 ≤ v then .error 5
    else match placeOf 0 (signVa v) with
      | .virt => match s.xlateDie die (signVa v) with
        | .ok pa e _ =>
          if !leafAllows e .write priv || s.podGlove pa then .error 5
          else match rangeOf pa with
            | .dram => .ok (v, false, s.inGlove pa)
            | .cxl => .ok (v, true, s.inGlove pa)
            | _ => .error 5
        | _ => .error 5
      | _ => .error 5

/-- List entries from g on: an unreadable entry is reported before a bad page (R395). -/
def State.listEntries (s : State) (die list : Nat) (priv : Bool) (gs : List Nat) : Except Nat (List (Nat × Bool × Bool)) :=
  let rs := gs.map (fun g => s.listEntry die list g priv)
  match rs.filterMap (fun r => match r with | .error e => if 0x80 ≤ e then some e else none | .ok _ => none) with
  | e :: _ => .error e
  | [] => rs.foldr (fun r acc => match r, acc with
    | .ok x, .ok xs => .ok (x :: xs) | .error e, _ => .error e | _, .error e => .error e) (.ok [])

/-- The checks of R395 behind EXISTS: fields, list, sealing. `g0` is the first page read. -/
def State.checkBlock (s : State) (m : SyncMsg) (blk : BitVec 256) (fork : Bool) (g0 : Nat) :
    Except Nat (List (Nat × Bool × Bool)) :=
  let w := m.who.getD ⟨0, 0, 0, 0⟩
  let f := blkField blk
  let np := f 64 16
  let resv := f 57 7 ≠ 0 ∨ f 84 4 ≠ 0 ∨ f 89 39 ≠ 0 ∨ f 160 32 ≠ 0 ∨ f 249 7 ≠ 0 ∨ (!fork ∧ (f 128 32 ≠ 0 ∨ f 192 57 ≠ 0))
  if resv ∨ 10 < f 80 4 ∨ np = 0 ∨ 2 ^ 32 ≤ np * 2 ^ (10 - f 80 4) ∨ f 0 6 ≠ 0 then .error 5
  else match s.listEntries (m.engine % 64) (f 0 57) (s.kernelPriv w.kernel) ((List.range np).drop g0) with
    | .error e => .error e
    | .ok es =>
      if f 88 1 = 1 then (if !s.kernelSealed w.kernel || es.any (fun e => !e.2.2) then .error 9 else .ok es)
      else if es.any (fun e => e.2.2) then .error 9 else .ok es

/-- A failing sequence operation. -/
def State.seqFail (s : State) (m : SyncMsg) (status code : Nat) : State := s.answer m 0 (seqWord status code 0) false

def ownEntry (vf : Nat) (e : Nat × Bool × Bool) : SeqEntry := ⟨e.1, true, e.2.1, 0, vf, 1, 0, false, []⟩

/-- The pages that the engine reads and checks for an update block: the list from entry `g0` on, and the pages it names (R395). -/
def blockAddrs (blk : BitVec 256) (g0 : Nat) (es : List (Nat × Bool × Bool)) : List Word :=
  (List.range es.length).map (fun i => signVa (blkField blk 0 57 + 8 * (g0 + i))) ++ es.map (fun e => signVa e.1)

def State.seqNew (s : State) (m : SyncMsg) (blk : BitVec 256) : State :=
  if s.overlaps m.addr 64 (fun _ => false) then s.seqFail m 4 8
  else match s.checkBlock m blk false 0 with
    | .error e => s.seqFail m 4 e
    | .ok es =>
      let s := s.noteAddrs (m.engine % 64) (blockAddrs blk 0 es)
      let np := blkField blk 64 16
      match s.place m.engine (64 + round64 (16 * np)) with
      | none => s.seqFail m 4 7
      | some inOverflow =>
        let q : Seq := ⟨m.va, blkField blk 0 57, blkField blk 80 4, np, 1, 0, false, blkField blk 88 1 == 1, 0, 0, 0, 0, none,
          es.map (ownEntry 0), []⟩
        (((s.cleanState m.addr (64 + 16 * np)).addObj m.addr (.seq q) inOverflow).mirror m.addr 0).answer m (BitVec.ofNat 64 q.capacity) (seqWord 0 0 0) false

/-- The child's handle as the engine checks it (R400): its physical address or the error. -/
def State.childAddr (s : State) (m : SyncMsg) (va : Word) : Except Nat Nat :=
  let w := m.who.getD ⟨0, 0, 0, 0⟩
  if va.toNat % 64 ≠ 0 then .error 5
  else match placeOf 0 va with
    | .virt => match s.xlateDie (m.engine % 64) va with
      | .ok pa e _ =>
        if !leafAllows e .read (s.kernelPriv w.kernel) || s.inGlove pa || s.podGlove pa || !s.rangeAllows pa (s.kernelPriv w.kernel) then .error 5
        else if paModule pa ≠ s.modid then .error 6
        else .ok pa
      | _ => .error 5
    | _ => .error 5

/-- SQFORK and SQFORK.F on the parent `q` (R400, R401). -/
def State.seqFork (s : State) (m : SyncMsg) (q : Seq) (flat trap : Bool) (blk : BitVec 256) : State :=
  let childVa := signVa (blkField blk 192 57)
  let p := blkField blk 128 32
  let np := blkField blk 64 16
  match s.childAddr m childVa with
  | .error e => s.seqFail m 4 e
  | .ok child =>
    if s.overlaps child 64 (fun _ => false) then s.seqFail m 4 8
    else if q.clen < p then s.seqFail m 4 2
    else if blkField blk 80 4 ≠ q.logsz ∨ (blkField blk 88 1 = 1) ≠ (q.isSealed = true) ∨ np * q.spp < p then s.seqFail m 4 5
    else
      let g0 := if flat then 0 else p / q.spp
      match s.checkBlock m blk true g0 with
      | .error e => s.seqFail m 4 e
      | .ok es =>
        let s := s.noteAddrs (m.engine % 64) (childVa :: blockAddrs blk g0 es)
        match s.place (homeEngine child) (64 + round64 (16 * np)) with
        | none => s.seqFail m 4 7
        | some inOverflow =>
        if !flat ∧ q.depth = 3 then
          let s1 := s.seqFail m 8 0
          if trap then
            match s1.replies.reverse, m.who with
            | r :: rs, some w =>
              if s1.replies.length = s.replies.length then { s1 with replies := s1.replies ++ [⟨w, [], none, true⟩] }
              else { s1 with replies := (rs.reverse) ++ [{ r with trap := true }] }
            | [], some w => { s1 with replies := [⟨w, [], none, true⟩] }
            | _, none => s1
          else s1
        else if !flat ∧ q.refs = 0xFFFF then s.seqFail m 1 0
        else
            let table := List.replicate (min g0 np) SeqEntry.none ++
              (List.range es.length).map (fun i => ownEntry (if i = 0 ∧ !flat then p % q.spp else 0) (nth (0, false, false) es i))
            if flat then
              let s1 := s.hold m.addr
              let id := s1.nextId
              let w := m.who.getD ⟨0, 0, 0, 0⟩
              { s1 with
                nextId := id + 1
                flats := Sparse.put s1.flats child ⟨blk, childVa, m.addr, m, inOverflow, table⟩
                cmds := s1.cmds ++ [⟨id, m.engine % 64, .one, 0, w, none, .flatten child, .queued, 0, 0, 0, 0, []⟩] }
            else
              let pages := s.reachAll m.addr p
              let s1 := pages.foldl (fun s x => s.incPage x) s
              let s2 := s1.hold m.addr
              let c : Seq := ⟨childVa, blkField blk 0 57, q.logsz, np, 1, q.depth + 1, false, q.isSealed, p, p, p, 0, some m.addr, table, []⟩
              (((s2.cleanState child (64 + 16 * np)).addObj child (.seq c) inOverflow).mirror child p).answer m (BitVec.ofNat 64 pages.length) (seqWord 0 0 (q.depth + 1)) false

/-! ## Commits and tiers -/

/-- Consecutive set bits from bit 0. -/
def runLen (b : BitVec 256) : Nat → Nat → Nat
  | 0, i => i
  | f + 1, i => if b.getLsbD i then runLen b f (i + 1) else i

/-- SQCMT (R397). -/
def State.seqCommit (s : State) (m : SyncMsg) (q : Seq) (v : Word) : State :=
  let f := bitsOf v 0 32
  let c := bitsOf v 32 8 + 1
  if bitsOf v 40 24 ≠ 0 then s.seqFail m 4 5
  else if f < q.clen ∨ q.rlen < f + c then s.seqFail m 4 2
  else if (List.range c).any (fun i => q.cbmap.getLsbD (f + i - q.clen)) then s.seqFail m 4 2
  else
    let mask : BitVec 256 := BitVec.ofNat 256 ((2 ^ c - 1) * 2 ^ (f - q.clen))
    let b := q.cbmap ||| mask
    let k := runLen b 256 0
    let s1 := (s.setSeq m.addr { q with cbmap := b >>> k, clen := q.clen + k }).freeze m.addr f c
    let s2 := if k = 0 then s1 else s1.mirror m.addr (q.clen + k)
    s2.answer m (BitVec.ofNat 64 (q.clen + k)) (seqWord 0 0 k) false

/-- The destination page of a move: aligned, writable, DRAM or CXL memory (R403); in the Glove or not. -/
def State.movePage (s : State) (m : SyncMsg) (va : Word) : Except Nat Bool :=
  let w := m.who.getD ⟨0, 0, 0, 0⟩
  if va.toNat % 0x10000 ≠ 0 then .error 5
  else match placeOf 0 va with
    | .virt => match s.xlateDie (m.engine % 64) va with
      | .ok pa e _ =>
        if !leafAllows e .write (s.kernelPriv w.kernel) || s.podGlove pa then .error 5
        else match rangeOf pa with | .dram | .cxl => .ok (s.inGlove pa) | _ => .error 5
      | _ => .error 5
    | _ => .error 5

/-- SQTIER reaching its sequence (R403): the checks, then UNSTAGE at once, or a command that holds one reference. -/
def State.seqTier (s : State) (m : SyncMsg) (q : Seq) (op : Nat) (v0 v1 : Word) : State :=
  let g := bitsOf v0 0 16
  let e := q.entry g
  let start (s : State) (copy : Bool) : State :=
    let s1 := s.hold m.addr
    let id := s1.nextId
    let w := m.who.getD ⟨0, 0, 0, 0⟩
    { s1 with
      nextId := id + 1
      tiers := s1.tiers ++ [⟨id, m, m.addr, g, op, v1⟩]
      cmds := if copy then s1.cmds ++ [⟨id, m.engine % 64, .one, 0, w, none, .tier id, .queued, 0, 0, 0, 0, []⟩] else s1.cmds }
  if bitsOf v0 16 48 ≠ 0 ∨ (op % 2 = 1 ∧ v1 ≠ 0) then s.seqFail m 4 5
  else if q.npages ≤ g ∨ !e.own ∨ q.clen < (g + 1) * q.spp then s.seqFail m 4 2
  else match op with
    | 0 => match s.movePage m v1 with
      | .error c => s.seqFail m 4 c
      | .ok glove =>
        let s := s.noteAddrs (m.engine % 64) [v1]
        if glove != q.isSealed then s.seqFail m 4 9 else if q.refs = 0xFFFF then s.seqFail m 4 3 else start s true
    | 1 => if q.refs = 0xFFFF then s.seqFail m 4 3 else start s false
    | 2 =>
      if v1.toNat % 0x10000 ≠ 0 ∨ 2 ^ 21 ≤ v1.toNat then s.seqFail m 4 5
      else if q.refs = 0xFFFF then s.seqFail m 4 3 else start s true
    | _ =>
    let s1 := e.kept.foldl (fun s pa => s.keepPage pa false) s
    (s1.setSeq m.addr (q.setEntry g { e with stage := 0, stagepa := 0, kept := [] })).answer m 0 (seqWord 0 0 0) false

/-- The header as SQLEN.H reads it (R388). -/
def Seq.header (q : Seq) : BitVec 512 :=
  BitVec.ofNat 512 (q.cbmap.toNat + q.clen * 2 ^ 256 + q.rlen * 2 ^ 288 + q.forkpos * 2 ^ 320 + (if q.isSealed then 2 ^ 369 else 0) +
    (if q.released then 2 else 1) * 2 ^ 370 + q.depth * 2 ^ 372 + q.logsz * 2 ^ 374 + q.refs % 65536 * 2 ^ 378 + q.npages * 2 ^ 394 +
    q.list / 64 % 2 ^ 51 * 2 ^ 410)

/-- The header with the parent's handle. -/
def State.headerOf (s : State) (q : Seq) : BitVec 512 :=
  q.header ||| BitVec.ofNat 512 ((match q.parent.bind (fun p => s.seq? p) with | some p => p.handle.toNat / 64 % 2 ^ 51 | none => 0) * 2 ^ 461)

/-- An operation on the sequence at `m.addr` (R392 to R404). -/
def State.seqOp (s : State) (m : SyncMsg) : State :=
  if paModule m.addr ≠ s.modid then s.seqFail m 4 6
  else match m.op with
  | .sqnew blk => s.seqNew m blk
  | op =>
    match s.seq? m.addr with
    | none => s.seqFail m 4 1
    | some q =>
      let anyState : Bool := match op with | .sqlen | .sqlenH _ | .sqrel => true | _ => false
      if op ≠ .sqrel ∧ s.spoiled m.addr (64 + 16 * q.npages) then s.seqFail m 4 0x86
      else if q.released ∧ !anyState then s.seqFail m 4 3
      else match op with
        | .sqres n =>
          let n := n.toNat
          if n = 0 ∨ 256 < n then s.seqFail m 4 5
          else if 256 < q.rlen - q.clen + n then s.seqFail m 6 0
          else if q.capacity < q.rlen + n then s.seqFail m 7 0
          else (s.setSeq m.addr { q with rlen := q.rlen + n }).answer m (BitVec.ofNat 64 q.rlen) (seqWord 0 0 (q.rlen + n)) false
        | .sqcmt v => s.seqCommit m q v
        | .sqlen => s.answer m (BitVec.ofNat 64 q.clen) (seqWord 0 0 q.rlen) true
        | .sqlenH k =>
          if 8 ≤ k.toNat then s.seqFail m 4 5
          else s.answer m ((s.headerOf q).extractLsb' (64 * k.toNat) 64) (seqWord 0 0 0) false
        | .sqfork flat trap blk => s.seqFork m q flat trap blk
        | .sqrel =>
          if q.released then s.seqFail m 4 3
          else
            let s1 := s.setSeq m.addr { q with released := true }
            let (s2, n) := s1.unhold 5 m.addr
            s2.answer m (BitVec.ofNat 64 n) (seqWord 0 0 (q.refs - 1)) false
        | .sqmap v =>
          if bitsOf v 32 32 ≠ 0 then s.seqFail m 4 5
          else if q.rlen ≤ v.toNat then s.seqFail m 4 2
          else match s.resolveSlot 5 m.addr v.toNat 0 with
            | none => s.seqFail m 4 2
            | some (a, g, va, lv) =>
              let e := match s.seq? a with | some x => x.entry g | none => SeqEntry.none
              let value := (if e.tier then 1 else 0) + e.stage * 2 + (if v.toNat < q.clen then 8 else 0) + (if a = m.addr then 16 else 0) + lv * 32
              s.answer m (signVa va) (seqWord 0 0 value) false
        | .sqtier op v0 v1 => s.seqTier m q op v0 v1
        | _ => s

end Sys2Proof.Machine
end

