-- ==== Sys2Proof/Machine/Commands.lean ====
section
/-!
DEFINITION. How a command of an engine ends: the status in wd, ring credits, the end of a ring walk (13 R318 to R323, R325, R326), and
accepting commands (13 R314, 16 R407).
-/
namespace Sys2Proof.Machine

open Sys2Proof

/-- Bits of a command block (13 R308, 16 R407). -/
def cmdField (b : BitVec 1024) (lo len : Nat) : Nat := (b.extractLsb' lo len).toNat

/-- The status of a command in wd (13 R314); the write is lost when the slice has retired (13 R323, 07 R157). -/
def State.status (s : State) (who : Who) (wd : Option Nat) (st : Nat) : State :=
  match wd with
  | none => s
  | some n => { s with replies := s.replies ++ [⟨who, [(n, BitVec.ofNat 64 st)], none, false⟩] }

def State.cmd? (s : State) (id : Nat) : Option BteCmd := s.cmds.find? (fun c => c.id == id)
def State.modCmd (s : State) (id : Nat) (f : BteCmd → BteCmd) : State :=
  { s with cmds := s.cmds.map (fun c => if c.id = id then f c else c) }
def State.dropCmd (s : State) (id : Nat) : State := { s with cmds := s.cmds.filter (fun c => c.id != id) }

/-- The end of a ring walk at its ring (13 R322, R326). -/
def State.walkEnds (s : State) (c : BteCmd) (code : Option Byte) : State :=
  s.objs.foldl (fun s p => match p.2.obj with
    | .ring r => if r.loader = some (.walk c.id) then s.putObj p.1 (.ring (r.loaderEnds (.walk c.id) code)) else s
    | _ => s) s

/-- A program command ends with a status 0, 2 or 4 and an engine error code. -/
def State.endCmd (s : State) (c : BteCmd) (st : Nat) (ecode : Nat) : State :=
  let s1 := s.dropCmd c.id
  let s2 := if cmdField c.block 576 2 = 2 then s1.walkEnds c (if st = 4 then some (BitVec.ofNat 8 ecode) else none) else s1
  s2.status c.who c.wd st

/-- A ring credit has been applied with a result (13 R318 to R322): the command ends, or its walk goes on. -/
def State.creditDone (s : State) (id st ecode : Nat) : State :=
  match s.cmd? id with
  | some c =>
    let total := cmdField c.block 768 32
    if cmdField c.block 576 2 = 2 ∧ st = 0 ∧ c.rep + 1 < total then s.modCmd id (fun c => { c with st := .walking, rep := c.rep + 1 })
    else s.endCmd c st ecode
  | none => s

/-- A credit of an engine report reaching a ring (13 R325, R327). -/
def State.ringCredit (s : State) (m : SyncMsg) (slot n : Nat) : State :=
  let fin (s : State) (st ecode : Nat) : State := match m.reply with | .cmd id => s.creditDone id st ecode | _ => s
  match s.ring? m.addr with
  | none => fin s 4 eRing
  | some r0 =>
    let r := r0.checkUe (s.spoiled m.addr (64 + 8 * r0.slots.length))
    if r.slots.length ≤ slot then fin s 4 eRing
    else if r.poison.isSome then fin (s.putObj m.addr (.ring r)) 2 0
    else
      let r1 := r.credit slot n
      let s1 := s.putObj m.addr (.ring r1)
      if (r.slotAt slot).tag ≠ .filling then fin s1 4 eRing
      else if r1.poison.isSome then fin s1 2 0
      else fin s1 0 0

/-! ## Accepting commands -/

/-- Program commands of a die that wait to start (13 R315). -/
def State.queuedCmds (s : State) (die : Nat) : Nat :=
  (s.cmds.filter (fun c => c.die == die && c.st == .queued && c.role == .program)).length

/-- FULL reaches wd at issue + 4, or at the group's end (13 R314, 16 R407). -/
def State.refuseCmd (s : State) (n : Nat) (wd : Option Nat) (issued : Nat) : State :=
  match wd with
  | none => s
  | some w => s.modCore n (fun k => { k with
      inflight := k.inflight ++ [⟨.w w, .word 1, max (issued + 4) (k.cycle + 1), true⟩], wpend := k.wpend.filter (· != w) })

/-- A BTC, BTCM or BTCG of core n once its group has completed: accepted, or FULL (13 R314). -/
def State.acceptBte (s : State) (n : Nat) (who : Who) (kind : BteKind) (wd : Option Nat) (block : BitVec 1024) (issued : Nat) : State :=
  if s.queuedCmds (dieOf n) < 64 then
    { s with nextId := s.nextId + 1, cmds := s.cmds ++ [⟨s.nextId, dieOf n, kind, block, who, wd, .program, .queued, 0, 0, 0, (s.core n).rels, []⟩] }
  else s.refuseCmd n wd issued

/-- An ATTN request: FULL when the quad's engine holds 8 (16 R407). -/
def State.acceptAttn (s : State) (n : Nat) (who : Who) (wd : Option Nat) (block : BitVec 1024) (issued : Nat) : State :=
  if (s.attns.filter (fun a => quadOf a.who.core == quadOf n)).length < 8 then
    { s with nextId := s.nextId + 1, attns := s.attns ++ [⟨s.nextId, who, wd, block, false, none, 0, (s.core n).rels⟩] }
  else s.refuseCmd n wd issued

end Sys2Proof.Machine
end

