-- ==== Sys2Proof/Machine/Islands.lean ====
section
/-!
DEFINITION. Power islands (01 R11, 17 R429 to R432): the ways down, and the steps of the event controllers.
-/
namespace Sys2Proof.Machine

open Sys2Proof

/-- The next lower state with the time of the step (17 R430). -/
def lowerOf : IslandSt → Option (IslandSt × Nat)
  | .run => some (.idle, 10) | .idle => some (.retain, 100) | .retain => some (.off, 1000) | .off => none

/-- Emptying the caches of a quad's cores before RETAIN (17 R429). -/
def State.emptyQuad (s : State) (q : Nat) : State :=
  (List.range 4).foldl (fun s i =>
    let n := 4 * q + i
    (s.release n).modCore n (fun k => { k with l1 := [], icache := [], tlb := [] })) s

/-- The step down from a state begins. -/
def State.lower (s : State) (n : Nat) (st : IslandSt) : State :=
  match lowerOf st with
  | none => s
  | some (t, d) =>
    let s1 := if st = .idle ∧ n < 512 then s.emptyQuad n else s
    s1.setIsland n { s1.island n with going := some (t, s.ns + d), wake := false }

/-- Memory of a range of physical addresses is lost: it reads as an unlisted byte. -/
def dropRange (m : List Host.Cell) (lo n : Nat) : List Host.Cell := m.filter (fun c => !decide (lo ≤ c.1 ∧ c.1 < lo + n))

/-- What an island loses when it reaches OFF (17 R429): the tile SRAM of a quad reads as zeros afterwards, and a die's L2 TLB is empty. -/
def State.lose (s : State) (n : Nat) : State :=
  if n < 512 then
    let lo := tileBase s.modid (4 * n)
    { s with mem := dropRange s.mem lo (4 * 0x200000), poison := s.poison.filter (fun p => !decide (lo ≤ p ∧ p < lo + 4 * 0x200000)) }
  else if n < 576 then s.modDie (n - 512) (fun d => { d with l2tlb := [] })
  else s

/-- A die's uncore island that wakes from RETAIN or OFF loads its configuration block (19 R451). -/
def State.reloadCfg (s : State) (n : Nat) (old new : IslandSt) : State :=
  if 512 ≤ n ∧ n < 576 ∧ new = .run ∧ (old = .retain ∨ old = .off) then s.applyCfg (n - 512) else s

/-- Whether a core has a slice, or one bound to it. -/
def State.coreTaken (s : State) (n : Nat) : Bool :=
  (s.core n).run.isSome || (s.die (dieOf n)).recs.any (fun r => r.bound.contains n)

def State.quadTaken (s : State) (q : Nat) : Bool := (List.range 4).any (fun i => s.coreTaken (4 * q + i))
def State.dieTaken (s : State) (d : Nat) : Bool := (List.range 8).any (fun q => s.quadTaken (8 * d + q))

/-- The die whose EVTCFG an island follows (17 R431, R432). -/
def islandDie (n : Nat) : Nat := if n < 512 then n / 8 else if n < 576 then n - 512 else (n - 576) / 4 * 4

def State.evt (s : State) (n lo len : Nat) : Nat := (s.die (islandDie n)).cfg.evtcfg.toNat / 2 ^ lo % 2 ^ len

/-- Whether nothing keeps an island from going further down: no bound slice of a quad, or of an uncore's die with its launch
queue. -/
def State.mayLower (s : State) (n : Nat) : Bool :=
  if n < 512 then !s.quadTaken n
  else if n < 576 then !s.dieTaken (n - 512) && (s.die (n - 512)).dq.isEmpty
  else decide (580 ≤ n)

/-- ISLAND_TRANSITION_COMPLETE: the transition of island `n` ends once its time has passed; a wake asked meanwhile follows. -/
def execIslandTransitionComplete (s : State) : Result :=
  let n := s.about.n
  let i := s.island n
  .next (match i.going with
    | none => s
    | some (st, at_) =>
      if s.ns < at_ then s
      else
        let s1 := ((if st = .off then s.lose n else s).reloadCfg n i.st st).setIsland n ⟨st, s.ns, none, false⟩
        if i.wake then s1.wake n else s1)

/-- QUAD_ISLAND_IDLE: quad island `n` with no bound slice starts for IDLE. -/
def execQuadIslandIdle (s : State) : Result :=
  let n := s.about.n
  .next (if n < 512 ∧ s.awake n ∧ !s.quadTaken n then s.lower n .run else s)

/-- A timeout of island `n` in a state (17 R431): `us` is 0xFFFF for never. -/
def State.timeout (s : State) (n us : Nat) (st : IslandSt) : Bool :=
  (s.island n).st == st && (s.island n).going.isNone && us != 0xFFFF && decide ((s.island n).since + 1000 * us ≤ s.ns) && s.mayLower n

/-- IDLE2RET_EXPIRY of island `n`. -/
def execIdle2retExpiry (s : State) : Result :=
  let n := s.about.n
  .next (if n < 640 ∧ s.timeout n (s.evt n 0 16) .idle then s.lower n .idle else s)

/-- Bytes of sync objects that lie in the sync SRAM of a die, and in its overflow area. -/
def State.syncRoom (s : State) (die : Nat) (inOverflow : Bool) : Nat :=
  ((s.objs.filter (fun (p : Nat × ObjRec) => paModule p.1 == s.modid && homeDie p.1 == die && p.2.inOverflow == inOverflow)).map
    (fun (p : Nat × ObjRec) => match p.2.obj with
      | .ring r => (64 + 8 * r.slots.length + 63) / 64 * 64 | .phaser _ => 4096 | .seq q => 64 + (16 * q.npages + 63) / 64 * 64)).foldl (· + ·) 0

/-- Every sync object of a die moves into its overflow area (17 R432). -/
def State.spill (s : State) (die : Nat) : State :=
  { s with objs := s.objs.map (fun (p : Nat × ObjRec) =>
      if paModule p.1 = s.modid ∧ homeDie p.1 = die then (p.1, { p.2 with inOverflow := true }) else p) }

/-- RET2OFF_EXPIRY of island `n`: NOOFF stops it at RETAIN, and so does an uncore island whose objects do not fit. Dirty lines of the die's L2,
or of the quarter's L3 banks, 64 of them, are written back before. -/
def execRet2offExpiry (s : State) : Result :=
  let n := s.about.n
  .next (if n < 640 ∧ s.timeout n (s.evt n 16 16) .retain ∧ s.evt n 32 1 = 0 then
      if 512 ≤ n ∧ n < 576 then
        let d := n - 512
        if s.syncRoom d false + s.syncRoom d true ≤ (s.die d).cfg.sovsize.toNat * 0x10000 then ((s.spill d).emptyL2 d).lower n .retain else s
      else if 576 ≤ n then
        (s.emptyL3 ((n - 576) / 4) (fun l => Config.l3Bank l % 256 / 64 == (n - 576) % 4)).lower n .retain
      else s.lower n .retain
    else s)

/-- Whether a die's uncore has something to serve (17 R432). -/
def State.uncoreBusy (s : State) (d : Nat) : Bool :=
  s.dieTaken d || (List.range 8).any (fun q => (s.island (8 * d + q)).st == .run) || !(s.die d).dq.isEmpty ||
    s.msgs.any (fun m => m.engine == s.modid * 64 + d) || s.cmds.any (fun c => c.die == d) || s.mail.any (fun m => m.dst == d) ||
    s.words.any (fun w => w.dest == some d) || s.attns.any (fun q => dieOf q.who.core == d) ||
    s.tiers.any (fun t => t.msg.engine == s.modid * 64 + d) || s.launches.any (fun l => dieOf l.who.core == d)

/-- UNCORE_IDLE: the uncore island of die `die` starts for IDLE. -/
def execUncoreIdle (s : State) : Result :=
  let n := uncoreIsland s.about.die
  .next (if s.about.die < 64 ∧ s.awake n ∧ !s.uncoreBusy s.about.die then s.lower n .run else s)

/-- BDIE_QUARTER_IDLE: quarter island `n` starts for IDLE when no uncore island of its stack that is awake has something to serve; `flag` says that
one needs it all the same, or that traffic passes. -/
def execBdieQuarterIdle (s : State) : Result :=
  let n := s.about.n
  .next (if 580 ≤ n ∧ n < 640 ∧ s.awake n ∧ !s.about.flag ∧
      (List.range 4).all (fun k => let d := (n - 576) / 4 * 4 + k; !(s.awake (uncoreIsland d) && s.uncoreBusy d)) then s.lower n .run
    else s)

end Sys2Proof.Machine
end

