-- ==== Sys2Proof/Machine/SyncEngine.lean ====
section
/-!
DEFINITION. The engine cycle (15 R354 to R356): the order of updates within one cycle (13 R332, 15 R368, 16 R406), then the
evaluation of advances, waits, monitors and kernel dependences (03 R52, R53); the steps SYNC_OPERATION_ARRIVAL, WMON_TIMEOUT and
PHASER_WAIT_TIMEOUT.
-/
namespace Sys2Proof.Machine

open Sys2Proof

/-- Place of an operation within its engine cycle. Reads of a phaser come after its updates (notes/assumptions/21.md). -/
def opOrder (op : SyncOp) : Nat :=
  match op with
  | .rcredit _ _ | .rpub _ | .phcredit _ | .phbyt _ | .sqcmt _ => 1
  | .rels _ | .phsig _ | .phsw _ _ | .phdrop _ | .sqres _ => 2
  | .racq | .phreg _ | .sqfork _ _ _ => 3
  | .rpois _ | .phpois _ | .sqtier _ _ _ => 4
  | .sliceEnd _ _ _ code => if code.isSome then 4 else 2
  | .rinit _ _ | .phnew _ | .sqlen | .sqlenH _ | .sqmap _ => 5
  | .sqrel | .phrd _ | .strg _ => 6
  | .sqnew _ => 7
  | .await _ | .phwait _ => 8
  | .atomic _ _ _ | .aswp _ _ | .acas _ _ _ | .red _ _ _ | .wmon _ _ _ _ | .sigdec _ _ => 0

/-- A retiring slice at an engine: rings it loads, phasers it is bound to. -/
def State.sliceEndAt (s : State) (engine core kernel slice : Nat) (code : Option Byte) (cycle : Nat) : State :=
  s.objs.foldl (fun s p =>
    if homeEngine p.1 ≠ engine ∨ !p.2.obj.concerns kernel slice then s
    else match p.2.obj with
      | .ring r => s.putObj p.1 (.ring (r.loaderEnds (.slice kernel slice) code))
      | .phaser x => s.putObj p.1 (.phaser (x.sliceEnds kernel slice code (cycle - s.pathFix (dieOf core) engine) core (s.kidOf kernel)))
      | .seq _ => s) s

/-- One message applied. -/
def State.applyMsg (s : State) (m : SyncMsg) (cycle : Nat) : State :=
  match m.op with
  | .rinit _ _ | .racq | .rpub _ | .await _ | .rels _ | .rpois _ => s.ringOp m
  | .rcredit slot n => s.ringCredit m slot n
  | .phcredit n =>
    match s.phaser? m.addr with
    | none => s
    | some p => s.putObj m.addr (.phaser ((p.checkUe (s.spoiled m.addr 4096)).creditBytes n m.engine s.modid m.die (m.who.map (fun w => quadOf w.core))))
  | .phnew _ | .phreg _ | .phdrop _ | .phsig _ | .phwait _ | .phsw _ _ | .phbyt _ | .phrd _ | .phpois _ | .strg _ => s.phaserOp m cycle
  | .sqnew _ | .sqres _ | .sqcmt _ | .sqlen | .sqlenH _ | .sqfork _ _ _ | .sqrel | .sqmap _ | .sqtier _ _ _ => s.seqOp m
  | .sliceEnd c k sl code => s.sliceEndAt m.engine c k sl code cycle
  | .atomic _ _ _ | .aswp _ _ | .acas _ _ _ | .red _ _ _ | .wmon _ _ _ _ | .sigdec _ _ => s.wordOp m

/-! ## Dependences on signals (03 R52, R53) -/

/-- Where a signal lies, as the launch unit translates it. -/
def State.signalPa (s : State) (va : Word) : Option Nat :=
  match placeOf 0 va with
  | .virt => match s.walk va with | .leaf e big => some (leafPa e big va) | _ => none
  | _ => none

/-- Whether the address names host memory of this module (09 R488). -/
def State.isHost (s : State) (pa : Nat) : Bool := rangeOf pa == .host && paModule pa == s.modid

/-- Whether the launch unit's access to a signal is turned away: another module's host window (09 R488), or a byte of the Glove (R209). -/
def State.refused (s : State) (pa : Nat) : Bool := rangeOf pa == .host || s.inGlove pa || s.podGlove pa

/-- COUNT ≤ 0 as an acquire reads it (notes/assumptions/66.md for a signal the access is refused to). -/
def State.signalReached (s : State) (va : Word) (host : Bool) : Bool :=
  match s.signalPa va with
  | none => false
  | some pa =>
    if s.isHost pa then host && s.hostUp && decide ((BitVec.ofNat 64 (leNat (s.hostBytes (pa % 2 ^ 45) 8)) : Word).toInt ≤ 0)
    else !host && !s.refused pa && !s.wordFails pa 8 && decide ((BitVec.ofNat 64 (s.wordAt pa 8) : Word).toInt ≤ 0)

/-- A kernel becomes runnable once every dependence is satisfied (03 R53). -/
def Kernel.settle (k : Kernel) (ns : Nat) : Kernel :=
  if k.runnable.isNone ∧ k.rejected.isNone ∧ k.deps.all (·.sat) then { k with runnable := some ns } else k

/-- The signals that dependences wait for. -/
def State.awaited (s : State) : List Word :=
  s.kernels.flatMap (fun (p : Nat × Kernel) => if p.2.runnable.isSome then [] else p.2.deps.filterMap (fun d => if d.sat then none else d.signal))

/-- Signal dependences that are reached stay satisfied (03 R52). The walks of their addresses have used their table entries (12 R301). -/
def State.evalDeps (s : State) (host : Bool) : State :=
  if s.kernels.all (fun p => p.2.runnable.isSome || p.2.rejected.isSome) then s
  else { s.awaited.foldl State.keepWalk s with kernels := s.kernels.map (fun (p : Nat × Kernel) =>
    if p.2.runnable.isSome then p
    else (p.1, ({ p.2 with deps := p.2.deps.map (fun d => match d.signal with
      | some va => if d.sat then d else { d with sat := s.signalReached va host }
      | none => d) } : Kernel).settle s.ns)) }

/-! ## The engine cycle -/

/-- Conditions evaluated at the end of an engine cycle: objects of the engine, then monitors and dependences. -/
def State.evaluate (s : State) (engine cycle : Nat) : State :=
  let s1 := s.objs.foldl (fun (s : State) (p : Nat × ObjRec) =>
    if homeEngine p.1 ≠ engine then s
    else match s.obj p.1 with
      | some ⟨.ring r, _⟩ => s.evalRing p.1 r
      | some ⟨.phaser x, _⟩ => s.evalPhaser p.1 x cycle
      | _ => s) s
  (s1.evalMonitors).evalDeps false

/-- What every write to memory may release: armed monitors and signal dependences. -/
def State.settle (s : State) : State := (s.evalMonitors).evalDeps false

/-- The first cycle of an engine that has not been played, of the two fabric cycles of the present nanosecond or later ones (01 R13);
`late` passes over the first of the two. -/
def State.nextCycle (s : State) (engine late : Nat) : Nat := max (2 * s.ns + late % 2) (Sparse.get s.engCycle 0 engine)

/-- Whether that cycle lies in the present nanosecond. -/
def State.cycleLeft (s : State) (engine late : Nat) : Bool := decide (s.nextCycle engine late ≤ 2 * s.ns + 1)

/-- One engine cycle: the messages in the order of their kinds, arrival order within a kind, then the evaluation. -/
def State.engineCycle (s : State) (engine : Nat) (ms : List SyncMsg) (late : Nat) : State :=
  let c := s.nextCycle engine late
  let s := { s with engCycle := Sparse.put s.engCycle engine (c + 1) }
  let ordered := (List.range 9).flatMap (fun i => ms.filter (fun m => opOrder m.op == i))
  (ordered.foldl (fun s m => s.applyMsg m c) s).evaluate engine c

/-- One message in the next engine cycle, when that lies in the present nanosecond; else it is on its way still. -/
def State.deliver (s : State) (m : SyncMsg) : State :=
  if s.cycleLeft m.engine 0 then s.engineCycle m.engine [m] 0 else { s with msgs := s.msgs ++ [m] }

/-- Whether the die of an engine of this module is awake (17 R432). -/
def State.engineAwake (s : State) (engine : Nat) : Bool := engine / 64 != s.modid || s.awake (uncoreIsland (engine % 64))

/-- Operations on phasers, the end of a slice bound to one among them. -/
def SyncOp.atPhaser : SyncOp → Bool
  | .phnew _ | .phreg _ | .phdrop _ | .phsig _ | .phwait _ | .phsw _ _ | .phbyt _ | .phrd _ | .phpois _ | .strg _ | .phcredit _ | .sliceEnd _ _ _ _ => true
  | _ => false

/-- Whether a message waits for a route to its home (notes/assumptions/88.md). -/
def State.stranded (s : State) (m : SyncMsg) : Bool := s.lostRoute m.engine && m.op.atPhaser

/-- The core whose instruction sent a message; the reports of engines come from none. -/
def SyncMsg.sender (m : SyncMsg) : Option Who := match m.op with | .rcredit _ _ | .phcredit _ => none | _ => m.who

/-- Whether message j, which was sent earlier, has to be applied before message i: same engine, and the same core, or the retirement of j's
slice (15 R356), or any two of one die to a die of another module (19 R455). One that waits for a route holds none of the others up. -/
def State.before (s : State) (j i : SyncMsg) : Bool :=
  j.engine == i.engine && (!s.stranded j || s.stranded i) && ((j.engine / 64 != s.modid && j.die == i.die) || (match j.sender, i.sender with
    | some a, some b => a.core == b.core
    | some a, none => (match i.op with | .sliceEnd _ k sl _ => a.kernel == k && a.slice == sl | _ => false)
    | none, _ => false))

/-- A message sent by an agent: applied at once, or on its way when `flag` says so, the engine's die sleeps, no route leads there, or an earlier one
comes first. -/
def State.send (s : State) (m : SyncMsg) : State :=
  if s.about.flag || !s.engineAwake m.engine || s.stranded m || s.msgs.any (fun j => s.before j m) then { s with msgs := s.msgs ++ [m] } else s.deliver m

/-- Whether the picked messages may arrive in one engine cycle, in this order. -/
def State.mayArrive (s : State) (picks : List Nat) : Bool :=
  let dummy : SyncMsg := ⟨none, 0, 0, 0, 0, .racq, .none, .mod, false, 0, none, false⟩
  let at_ (i : Nat) : SyncMsg := nth dummy s.msgs i
  let e := (at_ (nth 0 picks 0)).engine
  picks.length == (dedup picks).length && picks.all (fun i => decide (i < s.msgs.length) && (at_ i).engine == e && !s.stranded (at_ i) &&
    (match (at_ i).who with | some w => s.releasedFor w (at_ i).after | none => true) &&
    (List.range i).all (fun j => !s.before (at_ j) (at_ i) ||
      (picks.contains j && decide (picks.idxOf j < picks.idxOf i ∧ opOrder (at_ j).op ≤ opOrder (at_ i).op))))

/-- SYNC_OPERATION_ARRIVAL: the messages `picks` reach their home in the next engine cycle of the present nanosecond, the second of its two
when `n` is odd, or wake its die first; with no message, the cycle of die `die` evaluates. -/
def execSyncOperationArrival (s : State) : Result :=
  let a := s.about
  .next (match a.picks with
    | [] => if s.cycleLeft (s.modid * 64 + a.die) a.n then s.engineCycle (s.modid * 64 + a.die) [] a.n else s
    | i :: _ =>
      if !s.mayArrive a.picks then s
      else
        let ms := a.picks.filterMap (fun j => s.msgs[j]?)
        let rest := (List.range s.msgs.length).filterMap (fun j => if a.picks.contains j then none else s.msgs[j]?)
        let e := match s.msgs[i]? with | some m => m.engine | none => 0
        if !s.engineAwake e then s.wake (uncoreIsland (e % 64))
        else if s.cycleLeft e a.n then ({ s with msgs := rest } : State).engineCycle e ms a.n
        else s)

/-- WMON_TIMEOUT: the expiry of monitor `n` is applied (15 R355, R363); what it last read at a home that no route leads to is free (19 R458). A slice
that gave up its core becomes ready. -/
def execWmonTimeout (s : State) : Result :=
  .next (match s.monitors[s.about.n]? with
    | none => s
    | some m =>
      if (match m.expiry with | some e => decide (s.ns < e) | none => true) then s
      else
        let s1 := { s with monitors := s.monitors.eraseIdx s.about.n }
        match m.op with
        | .wmon narrow _ _ _ =>
          if s.lostRoute m.engine then s1.tick.answer m (if narrow then (s.freeWord.setWidth 32).setWidth 64 else s.freeWord) 5 false
          else s1.answer m (BitVec.ofNat 64 (s1.wordAt m.addr (if narrow then 4 else 8))) 5 false
        | _ => s1)

/-- The expiry of a phase wait that has not come to its home, for want of a route (18 R447): message `n`, the phase its result names free. -/
def State.strandedTimeout (s : State) (n : Nat) : State :=
  match s.msgs[n]? with
  | none => s
  | some m =>
    let wait : Bool := match m.op with | .phwait _ | .phsw _ _ => true | _ => false
    let ended : Bool := match m.expiry with | some e => decide (e ≤ s.ns) | none => isPoll m.op
    if wait && s.stranded m && ended then
      (({ s with msgs := s.msgs.eraseIdx n } : State).tick).answer m (phWord ((s.freeWord.setWidth 32)) 5 (waitMember m.op) 0 0) 0 false
    else s

/-- PHASER_WAIT_TIMEOUT: the expiry of wait `n` of the phaser at address `value` (15 R374), or of message `n` on its way to a phaser when `flag` says
so (18 R447). The phase a result names is free while no route leads to the home (notes/assumptions/88.md). -/
def execPhaserWaitTimeout (s : State) : Result :=
  let a := s.about.value.toNat
  .next (if s.about.flag then s.strandedTimeout s.about.n else match s.phaser? a with
    | none => s
    | some p => match p.waits[s.about.n]? with
      | none => s
      | some (m, _) =>
        if (match m.expiry with | some e => decide (s.ns < e) | none => true) then s
        else (s.putObj a (.phaser { p with waits := p.waits.eraseIdx s.about.n })).answer m
          (phWord (if s.lostRoute (homeEngine a) then (s.freeWord.setWidth 32) else p.phase) 5 (waitMember m.op) 0 0) 0 false)

end Sys2Proof.Machine
end

