-- ==== Sys2Proof/Machine/Barrier.lean ====
section
/-!
DEFINITION. Wired barriers (15 R378 to R380) with their straggler records (R382 to R385), STRG of a barrier (R386), and the step
WIRED_BARRIER_REACH.
-/
namespace Sys2Proof.Machine

open Sys2Proof

/-- The present fabric cycle, one of the two of the nanosecond (01 R13; notes/assumptions/64.md). -/
def State.fabricCycle (s : State) : Nat := 2 * s.ns + Config.freeNat s.free % 2

/-- Key of the record of mask bm`m` as core n names it: bm2 of each quad, bm3 to bm7 of the die. -/
def maskKey (n m : Nat) : Nat := dieOf n * 64 + (if m = 2 then quadOf n % 8 else 8 * m)

def State.maskRec (s : State) (key : Nat) : MaskRec := Sparse.get s.masks ⟨none, [], Strag.zero⟩ key
def State.setMask (s : State) (key : Nat) (r : MaskRec) : State := { s with masks := Sparse.put s.masks key r }

/-- The member mask of the next episode: the four cores of a quad, or BARMASK (R378). -/
def State.maskNow (s : State) (n m : Nat) : W32 :=
  if m = 2 then BitVec.ofNat 32 (0xF * 2 ^ (quadOf n % 8 * 4)) else nth 0 (s.die (dieOf n)).cfg.barmask (m - 3)

/-- The mask in force: that of the open episode, or the one the next episode will have. -/
def State.maskFor (s : State) (n m : Nat) : W32 := ((s.maskRec (maskKey n m)).mask).getD (s.maskNow n m)

/-- Whether core n takes part in bm`m`. -/
def State.takesPart (s : State) (n m : Nat) : Bool :=
  m == 1 || (s.maskFor n m).getLsbD (n % 32)

/-- Cores of a mask on the die of core n. -/
def maskCores (n : Nat) (w : W32) : List Nat := ((List.range 32).filter (fun i => w.getLsbD i)).map (fun i => dieOf n * 32 + i)

/-- Cycles of a core's own clock in 10 ns, rounded up (R379). -/
def State.tenNs (s : State) (n : Nat) : Nat := (10 * Sparse.get s.mhz 3600 (quadOf n) + 999) / 1000

/-- An episode completes as core n reaches it: every member's bundle may issue after the delay of R379. It counts from n's cycle for the members of
n's gang, whose cycles are in step, and from their own for the others. A mask that has been passed is kept in `reached` as m + 8 until the bundle
issues. -/
def State.passBarrier (s : State) (n m : Nat) (cores : List Nat) : State :=
  let mates := match (s.core n).run with | some r => s.members r.kernel r.slice | none => [n]
  let now := (s.core n).cycle
  cores.foldl (fun s c =>
    let k := s.core c
    let d := if m ≤ 2 then 2 else s.tenNs c
    s.setCore c { k with reached := some (m + 8), holdUntil := max k.holdUntil ((if mates.contains c then now else k.cycle) + d) }) s

/-- Core n reaches bm`m` with the release of 14 R339. A core outside the mask only releases and passes. -/
def State.reachBarrier (s : State) (n m : Nat) : State :=
  let s := s.release n
  if !s.takesPart n m then s.modCore n (fun k => { k with reached := some (m + 8), atSync := false })
  else
    let s := s.modCore n (fun k => { k with reached := some m, atSync := false, wait := { k.wait with since := some s.ns } })
    if m = 1 then
      match (s.core n).run with
      | none => s
      | some r =>
        let ms := s.members r.kernel r.slice
        if ms.all (fun c => (s.core c).reached == some 1) then s.passBarrier n 1 ms else s
    else
      let key := maskKey n m
      let w := s.maskFor n m
      let r := s.maskRec key
      let kid := match (s.core n).run with | some x => s.kidOf x.kernel | none => 0
      let arr := Sparse.put r.arr (n % 32) s.fabricCycle
      let s := s.tick
      let g := r.strag.note (n % 32) n kid
      if (List.range 32).all (fun i => !w.getLsbD i || (Sparse.find? arr i).isSome) then
        (s.setMask key ⟨none, [], g.episode arr (s.die (dieOf n)).cfg.strgcfg⟩).passBarrier n m (maskCores n w)
      else s.setMask key ⟨some w, arr, g⟩

/-- Withdrawing a reach (R380). -/
def State.withdraw (s : State) (n : Nat) : State :=
  match (s.core n).reached with
  | none => s
  | some m =>
    let s1 := s.modCore n (fun k => { k with reached := none })
    if m = 1 ∨ 8 ≤ m then s1
    else
      let r := s1.maskRec (maskKey n m)
      let arr := Sparse.erase r.arr (n % 32)
      s1.setMask (maskKey n m) { r with arr := arr, mask := if arr.isEmpty then none else r.mask }

/-- STRG of a wired barrier on the issuing die (R386): the word and the result. -/
def State.strgBar (s : State) (n : Nat) (sel word : Word) : Word × Word :=
  let m := bitsOf sel 0 3
  let q := bitsOf sel 3 3
  if 273 < word.toNat ∨ bitsOf sel 6 58 ≠ 0 ∨ m < 2 ∨ (m ≠ 2 ∧ q ≠ 0) then (0, phWord 0 4 0 5 0)
  else
    let key := dieOf n * 64 + (if m = 2 then q else 8 * m)
    ((s.maskRec key).strag.word (s.die (dieOf n)).cfg.strgcfg word.toNat, 0)

/-- WIRED_BARRIER_REACH: core `core`, whose bundle has come to its barrier and waits for its release alone, reaches it. -/
def execWiredBarrierReach (s : State) : Result :=
  let n := s.about.core
  let k := s.core n
  let m := k.bundle.hdr.sync.toNat
  .next (if k.grp.active ∧ m ≠ 0 ∧ k.atSync = true ∧ k.reached = none ∧ k.allLanded = true then
      s.reachBarrier n m
    else s)

end Sys2Proof.Machine
end

