-- ==== Sys2Proof/Machine/Boundary.lean ====
section
/-!
DEFINITION. What happens at a group boundary beside the next group (17 R420 to R427): budget marks and traps, pre-emption, FORK_DEPTH,
the power-fail freeze, and leaving the core; the steps BUDGET_EXHAUSTED, BUDGET_TRAP and PREEMPT_STOP.
-/
namespace Sys2Proof.Machine

open Sys2Proof

/-- Whether a context record of a die is free (17 R427). -/
def State.ctxFree (s : State) (d : Nat) : Bool :=
  decide ((s.die d).ctxUsed.length < (s.die d).cfg.ctxsize.toNat % 65536)

/-- Changing what a core knows of its slice. -/
def State.modRun (s : State) (n : Nat) (f : Run → Run) : State := s.modCore n (fun k => { k with run := k.run.map f })

/-- The slice starts to leave core n (17 R421). -/
def State.startLeave (s : State) (n : Nat) (l : Leave) : State :=
  (s.modCore n (fun k => { k with wait := Wait.none })).modRun n (fun r => { r with leave := some l, preempt := false })

/-- Marking every other member of a gang as a victim is marked (07 R155, 04 R80). -/
def State.markGang (s : State) (n : Nat) : State :=
  match (s.core n).run with
  | none => s
  | some r => ((s.members r.kernel r.slice).filter (· != n)).foldl (fun s m =>
      s.modRun m (fun q => if q.leave.isSome then q else { q with preempt := true })) s

/-- The slice's children that have not completed (03 R60): records on their way, in a device launch queue, and kernels. -/
def State.childOpen (s : State) (kernel slice : Nat) : Bool :=
  let mine (w : Who) : Bool := w.kernel == kernel && w.slice == slice
  s.launches.any (fun l => l.waits && mine l.who) ||
    s.dies.any (fun (p : Nat × Die) => p.2.dq.any (fun e => e.waits && mine e.who)) ||
    s.kernels.any (fun (p : Nat × Kernel) => p.2.done.isNone && (match p.2.parent with | some (w, _) => mine w | none => false))

/-- ISSUED has reached the allowance: every member is marked, once per allowance (17 R425). -/
def State.markBudget (s : State) (n : Nat) : State :=
  let k := s.core n
  match k.run with
  | none => s
  | some r =>
    if recBudget (s.recOf n) = 0 ∨ k.issued < k.trap.allow.toNat ∨ r.marked = some k.trap.allow then s
    else (s.members r.kernel r.slice).foldl (fun s m =>
      s.modRun m (fun q => { q with budgetMark := true, marked := some k.trap.allow })) s

/-- An ERET from a BUDGET trap: the allowance of every member grows once, with rank 0 (17 R425). -/
def State.growAllowance (s : State) (n : Nat) : State :=
  let k := s.core n
  match k.run with
  | none => s
  | some r =>
    if k.trap.info.code = tBudget ∧ r.rank = 0 then
      let b := BitVec.ofNat 64 (recBudget (s.recOf n))
      (s.members r.kernel r.slice).foldl (fun s m =>
        s.modCore m (fun q => { q with trap := { q.trap with allow := q.trap.allow + b } })) s
    else s

/-- A landing point outside a handler, with no leave in progress (17 R420). -/
def Core.landsNow (k : Core) : Bool :=
  k.landing && !k.trap.active && !k.grp.active && (match k.run with | some r => r.leave.isNone && !r.ended | none => false)

/-- BUDGET at a landing point (17 R425): a trap whose saved PC is the next group. -/
def State.budgetTrap (s : State) (n : Nat) : State :=
  let k := s.core n
  (s.modRun n (fun r => { r with budgetMark := false })).trapTo n ⟨tBudget, 0, 0, 3, 0, .c⟩ k.pc (max k.cycle k.holdUntil)

/-- A victim stops; one with children still open waits for them (03 R60). -/
def State.stop (s : State) (n : Nat) (r : Run) : State :=
  s.startLeave n (if s.childOpen r.kernel r.slice || !r.again.isEmpty then .launchw else .preempt)

/-- What acts at a landing point, in the order of 17 R426: BUDGET, then pre-emption. -/
def State.land (s : State) (n : Nat) : Option State :=
  let k := s.core n
  if !k.landsNow then none
  else match k.run with
    | none => none
    | some r =>
      if r.budgetMark then some (s.budgetTrap n)
      else if r.preempt then some (s.stop n r)
      else none

/-- Whether a leaving slice's core has drained (17 R421): register writes, loads, the matrix engine and its commits, output bytes. -/
def Core.drained (k : Core) : Bool :=
  k.inflight.isEmpty && k.gloads.isEmpty && k.nloads.isEmpty && k.landings.isEmpty && k.accPend.isEmpty && k.qpend.isEmpty &&
    decide (k.mx.busy ≤ k.cycle) && !k.afterEret && !k.grp.active && !k.lostData && !k.accLost

/-- BUDGET_EXHAUSTED: the slice on core `core` is marked when its ISSUED has reached the allowance. -/
def execBudgetExhausted (s : State) : Result := .next (s.markBudget s.about.core)

/-- BUDGET_TRAP: a marked slice on core `core` traps at its landing point. -/
def execBudgetTrap (s : State) : Result :=
  let n := s.about.core
  let k := s.core n
  .next (if k.landsNow && (match k.run with | some r => r.budgetMark | none => false) then s.budgetTrap n else s)

/-- PREEMPT_STOP: a victim on core `core` stops at its landing point; BUDGET comes first (R426). -/
def execPreemptStop (s : State) : Result :=
  let n := s.about.core
  let k := s.core n
  .next (if k.landsNow && (match k.run with | some r => r.preempt && !r.budgetMark | none => false) then
      (match k.run with | some r => s.stop n r | none => s)
    else s)

end Sys2Proof.Machine
end

