-- ==== Sys2Proof/Machine/Bte.lean ====
section
/-!
DEFINITION. The block-transfer engine of a die (13 R308 to R324), its own copies (04 R71, 16 R401, R403), and the steps
BTE_COMMAND_START, BTE_COMMAND_COMPLETE, RING_WALK_SLOT_TAKEN, FLATTEN_COPY_COMPLETE and SQTIER_COMPLETE.
-/
namespace Sys2Proof.Machine

open Sys2Proof

/-! ## Walks (13 R309) -/

/-- A side descriptor at bit `lo` of a block. -/
structure Side where
  base : Word
  len0 : Nat
  counts : List Nat
  strides : List Int
  deriving DecidableEq, Repr

def signed32 (v : Nat) : Int := (BitVec.ofNat 32 v).toInt

def sideOf (b : BitVec 1024) (lo : Nat) : Side :=
  let f (x n : Nat) : Nat := cmdField b (lo + x) n
  ⟨signVa (f 0 57), f 64 32, [f 96 16 + 1, f 112 16 + 1, f 192 16 + 1], [signed32 (f 128 32), signed32 (f 160 32), signed32 (f 224 32)]⟩

def sideResv (b : BitVec 1024) (lo : Nat) : Bool := cmdField b (lo + 57) 7 != 0 || cmdField b (lo + 208) 16 != 0

/-- Bytes of the walk. -/
def Side.total (d : Side) : Nat := d.counts.foldl (· * ·) d.len0

/-- Offsets of the rows of the outer dimensions, dimension 1 fastest. -/
def rowOffs : List Nat → List Int → List Int
  | c :: cs, x :: xs => (rowOffs cs xs).flatMap (fun o => (List.range c).map (fun (i : Nat) => o + (i : Int) * x))
  | _, _ => [0]

/-- Addresses of the walk in order, shifted by `by_` (R309, R320). -/
def Side.walk (d : Side) (by_ : Int) : List Word :=
  (rowOffs d.counts d.strides).flatMap (fun o => (List.range d.len0).map (fun (i : Nat) => d.base + BitVec.ofInt 64 (o + by_ + (i : Int))))

/-- Lowest and highest byte of the walk as integers. -/
def Side.reach (d : Side) (by_ : Int) : Int × Int :=
  let ext := (d.counts.zip d.strides).map (fun p => ((p.1 : Int) - 1) * p.2)
  let b := (d.base + BitVec.ofInt 64 by_).toInt
  (b + (ext.map (fun x => min x 0)).foldl (· + ·) 0, b + d.len0 - 1 + (ext.map (fun x => max x 0)).foldl (· + ·) 0)

/-! ## Bytes (13 R316) -/

/-- A virtual address as the BTE reaches it for a command of `who` on a die. -/
def State.bteByte (s : State) (who : Who) (die : Nat) (va : Word) (write : Bool) : Except Nat Nat :=
  let prot := if write then eProtDst else eProtSrc
  let priv := s.kernelPriv who.kernel
  let fin (pa : Nat) : Except Nat Nat :=
    if write then (if s.unbacked pa then .error eUe else .ok pa)
    else if s.readFails pa then .error eUe
    else if !s.blockValid pa then .error prot else .ok pa
  match placeOf who.core va with
  | .tile c o => fin (tileBase s.modid c + o)
  | .mram o => if write then .error prot else fin (mramBase s.modid who.core + o)
  | .nowhere => .error prot
  | .virt => match s.xlateDie die va with
    | .fault => .error (if write then eFaultDst else eFaultSrc)
    | .ue => .error eUe
    | .ok pa e _ =>
      if !leafAllows e (if write then .write else .read) priv || s.podGlove pa then .error prot
      else if s.inGlove pa ∧ !write then fin pa
      else if !s.rangeAllows pa priv then .error prot
      else if rangeOf pa = .device then .error prot else fin pa

/-- One byte of a copy: its source and every destination, or the first error. Sealed bytes move only from one sealed range to
another, for a SEALED kernel, and never to another module (R316, 19 R457); MRAM takes no byte that is not authenticated, as those of
sealed ranges are (19 R465; notes/assumptions/29.md). -/
def State.pairOf (s : State) (kernel : Nat) (src : Except Nat Nat) (dsts : List (Except Nat Nat)) : Except Nat (Nat × List Nat) :=
  match src with
  | .error e => .error e
  | .ok p => match dsts.foldr (fun d (r : Except Nat (List Nat)) => match d, r with
      | .ok q, .ok qs => .ok (q :: qs) | .error e, _ => .error e | _, .error e => .error e) (.ok []) with
    | .error e => .error e
    | .ok qs =>
      if s.inGlove p then
        if qs.any (fun q => paModule q != s.modid) then .error eProtDst
        else if !s.kernelSealed kernel || qs.any (fun q => !s.inGlove q) then .error eProtSrc
        else .ok (p, qs)
      else if qs.any (fun q => s.inGlove q || rangeOf q == .mram) then .error eProtDst
      else .ok (p, qs)

/-- Bytes a die writes at their homes; sectors written whole lose their poison (18 R441). -/
def State.putMany (s : State) (die : Nat) (cs : List (Nat × Byte)) : State :=
  let s1 := cs.foldl (fun s c => s.sendByte die c.1 c.2) s
  { s1 with poison := s1.poison.filter (fun p => !(List.range 64).all (fun i => cs.any (fun c => c.1 == p + i))) }

/-- Length of the longest prefix that satisfies a condition. -/
def prefixLen (f : Nat → Bool) : Nat → Nat → Nat
  | 0, i => i
  | n + 1, i => if f i then prefixLen f n (i + 1) else i

/-- Whether a byte lies in the module's own MRAM. -/
def State.isMram (s : State) (pa : Nat) : Bool := rangeOf pa == .mram && paModule pa == s.modid

/-- The blocks of MRAM among the bytes to be written are written under 18 R446; those that fail. -/
def State.wearFor (s : State) (qs : List Nat) : State × List Nat :=
  (dedup ((qs.filter s.isMram).map mramBlock)).foldl (fun r b => match r.1.mramWrite (b / 1024) b with
    | (s1, true) => (s1, r.2)
    | (s1, false) => (s1, b :: r.2)) (s, [])

/-- A copy of a die's BTE (R310, R316, R319): the state, the engine error (0 when none), and the bytes of the prefix that was written.
With an error each aligned 8-byte chunk of the other destination bytes is old or new, and which failing byte was met first is open; both
are free values (notes/assumptions/7.md). -/
def State.copyPairs (s : State) (die kernel : Nat) (pairs : List (Except Nat Nat × List (Except Nat Nat))) : State × Nat × Nat :=
  let ps := pairs.map (fun p => s.pairOf kernel p.1 p.2)
  let seed := s.free
  let read := ps.filterMap (fun p => match p with | .ok (a, _) => some a | .error _ => none)
  let (s1, bad) := (s.tick.fetchAll read).wearFor (ps.flatMap (fun p => match p with | .ok (_, qs) => qs | .error _ => []))
  let kept (q : Nat) : Bool := !(s.isMram q && bad.contains (mramBlock q))
  let errs := ps.filterMap (fun p => match p with | .error e => some e | .ok (_, qs) => if qs.all kept then none else some eUe)
  let done (q : Nat) : Bool := kept q && (errs.isEmpty || Config.freeBool (seed * 2 ^ 52 + q / 8))
  let cells := ps.flatMap (fun p => match p with
    | .ok (a, qs) => (qs.filter done).map (fun q => (q, s.anyByte a)) | .error _ => [])
  let whole (i : Nat) : Bool := match ps[i]? with | some (.ok (_, qs)) => qs.all done | _ => false
  match errs with
  | [] => (s1.putMany die cells, 0, ps.length)
  | e :: _ => (s1.putMany die cells, nth e errs (Config.freeNat seed % errs.length), prefixLen whole ps.length 0)

/-! ## Command blocks (13 R308, R311, R312) -/

def BteCmd.f (c : BteCmd) (lo len : Nat) : Nat := cmdField c.block lo len
def BteCmd.ckind (c : BteCmd) : Nat := c.f 576 2
def BteCmd.caddr (c : BteCmd) : Word := BitVec.ofNat 64 (c.f 512 64)

/-- Target cores of a multicast; DIEMASK 0 is the issuing die. -/
def BteCmd.cores (c : BteCmd) : List Nat :=
  let dm := c.f 640 64
  let dies := if dm = 0 then [c.die] else (List.range 64).filter (fun d => Nat.testBit dm d)
  dies.flatMap (fun d => ((List.range 32).filter (fun i => Nat.testBit (c.f 704 32) i)).map (fun i => 32 * d + i))

/-- The gather list: addresses and lengths, or the error (R312). -/
def State.gatherList (s : State) (c : BteCmd) : Except Nat (List (Word × Nat)) :=
  let list := signVa (c.f 0 57)
  let n := c.f 64 32
  if c.f 0 4 ≠ 0 ∨ n = 0 ∨ 4096 < n ∨ c.f 57 7 ≠ 0 ∨ c.f 96 160 ≠ 0 then .error 1
  else
    let bs := (List.range (16 * n)).map (fun i => match s.bteByte c.who c.die (list + BitVec.ofNat 64 i) false with
      | .error e => (Except.error e : Except Nat Byte)
      | .ok pa => if s.inGlove pa then .error eProtSrc else .ok (s.anyByte pa))
    match bs.filterMap (fun b => match b with | .error e => some e | .ok _ => none) with
    | e :: _ => .error e
    | [] =>
      let raw := bs.filterMap (fun b => match b with | .ok x => some x | .error _ => none)
      let es := (List.range n).map (fun k => leNat ((raw.drop (16 * k)).take 16))
      if es.any (fun e => e / 2 ^ 57 % 128 != 0 || e / 2 ^ 96 != 0 || e / 2 ^ 64 % 2 ^ 32 == 0) then .error 1
      else .ok (es.map (fun e => (signVa (e % 2 ^ 57), e / 2 ^ 64 % 2 ^ 32)))

/-- The segments of the source walk; a gather list is read once, when the command starts (R310). -/
def BteCmd.segs (c : BteCmd) : List (Word × Nat) :=
  match c.kind with
  | .gather => c.gather
  | _ =>
    let d := sideOf c.block 0
    (rowOffs d.counts d.strides).map (fun o => (d.base + BitVec.ofInt 64 o, d.len0))

def segTotal (l : List (Word × Nat)) : Nat := (l.map (·.2)).foldl (· + ·) 0

/-- Lowest and highest byte of segments. -/
def segReach (l : List (Word × Nat)) (by_ : Int) : Int × Int :=
  match l with
  | [] => (0, -1)
  | p :: ps =>
    let at_ (q : Word × Nat) : Int := (q.1 + BitVec.ofInt 64 by_).toInt
    ps.foldl (fun (r : Int × Int) q => (min r.1 (at_ q), max r.2 (at_ q + q.2 - 1))) (at_ p, at_ p + p.2 - 1)

def crosses (a b : Int × Int) : Bool := decide (a.1 ≤ b.2 ∧ b.1 ≤ a.2)

/-- Reserved fields of a block (R308). -/
def BteCmd.resv (c : BteCmd) : Bool :=
  let nz (lo len : Nat) : Bool := c.f lo len != 0
  nz 960 64 || nz 800 32 || nz 736 32 || nz 590 18 || nz 578 6 || (c.ckind != 2 && (nz 896 64 || nz 832 64 || nz 768 32)) ||
    (c.ckind != 1 && nz 584 6) || (c.ckind == 3 && nz 512 64) || (c.kind != .multi && (nz 704 32 || nz 640 64)) ||
    (c.kind != .gather && sideResv c.block 0) || sideResv c.block 256

/-- Where a CKIND 0 report goes: a page of global memory, which DRAM and CXL memory are (R311; notes/assumptions/87.md). -/
def State.reportAddr (s : State) (die : Nat) (va : Word) (priv : Bool) : Except Nat Nat :=
  match s.engineAddr die va true priv with
  | .error e => .error e
  | .ok pa => match rangeOf pa with | .dram | .cxl => .ok pa | _ => .error eProtDst

/-- The checks of R311 before any byte moves, with those of a gather list, which they answer as it was read; an engine error otherwise. -/
def State.blockCheck (s : State) (c : BteCmd) : Except Nat (List (Word × Nat)) :=
  let dst := sideOf c.block 256
  let low := (0xFFFFFFFF00000000 : Word).toInt
  if c.resv ∨ dst.len0 = 0 ∨ (c.kind ≠ .gather ∧ (sideOf c.block 0).len0 = 0) ∨ (c.ckind = 2 ∧ c.f 768 32 = 0) ∨
      (c.ckind = 0 ∧ c.f 512 4 ≠ 0) then .error 1
  else if c.kind = .multi ∧ (c.f 704 32 = 0 ∨ dst.base.toInt < low ∨ low + 2 ^ 21 ≤ dst.base.toInt ∨ (dst.reach 0).1 < low ∨
      low + 2 ^ 21 ≤ (dst.reach 0).2) then .error 1
  else match (if c.kind = .gather then s.gatherList c else .ok []) with
    | .error e => .error e
    | .ok list =>
      let segs := ({ c with gather := list } : BteCmd).segs
      if segTotal segs ≠ dst.total then .error 1
      else if c.ckind ≠ 2 ∧ crosses (segReach segs 0) (dst.reach 0) then .error 1
      else if c.ckind = 0 then
        match s.reportAddr c.die c.caddr (s.kernelPriv c.who.kernel) with
        | .ok _ => .ok list
        | .error e => .error (if e = eFaultDst then eFaultDst else eProtDst)
      else .ok list

/-- The ring a command names, on this module (R320, R321). -/
def State.cmdRing (s : State) (c : BteCmd) : Option Nat :=
  match placeOf 0 c.caddr with
  | .virt => match s.xlateDie c.die c.caddr with
    | .ok pa e _ => if leafAllows e .read (s.kernelPriv c.who.kernel) && !s.inGlove pa && paModule pa == s.modid && (s.ring? pa).isSome
        then some pa else none
    | _ => none
  | _ => none

/-- The first address of the tile window (R204). -/
def tileWindow : Word := 0xFFFFFFFF00000000

/-- Where a byte of a multicast lands in one tile (R310). -/
def multiByte (modid k : Nat) (a : Word) : Except Nat Nat :=
  let o := (a - tileWindow).toNat
  if 2 ^ 21 ≤ o then .error eProtDst else .ok (tileBase modid k + o)

/-- The addresses of one repetition, source and destination (R310, R320). -/
def BteCmd.repAddrs (c : BteCmd) : List (Word × Word) :=
  let sadv : Int := if c.ckind = 2 then (BitVec.ofNat 64 (c.f 832 64)).toInt * c.rep else 0
  let dadv : Int := if c.ckind = 2 then (BitVec.ofNat 64 (c.f 896 64)).toInt * c.slot else 0
  (c.segs.flatMap (fun g => (List.range g.2).map (fun (i : Nat) => g.1 + BitVec.ofInt 64 (sadv + i)))).zip ((sideOf c.block 256).walk dadv)

/-- Where they lie. -/
def State.repPairs (s : State) (c : BteCmd) : List (Except Nat Nat × List (Except Nat Nat)) :=
  c.repAddrs.map (fun p =>
    (s.bteByte c.who c.die p.1 false,
      match c.kind with
      | .multi => c.cores.map (fun (k : Nat) => multiByte s.modid k p.2)
      | _ => [s.bteByte c.who c.die p.2 true]))

/-! ## Reports (13 R318, R319, 15 R372, 14 R349) -/

/-- A completion word of a command: to a phaser's delivery port, or to memory; lost with a record when it cannot be written. -/
def State.completionWord (s0 : State) (die : Nat) (who : Who) (quad : Bool) (va : Word) (st ecode tag bytes : Nat) : State :=
  let s := s0.noteAddrs die [va]
  match s.reportAddr die va (s.kernelPriv who.kernel) with
  | .error _ => s.unowned die 7 0
  | .ok pa =>
    if s.unbacked pa then s.unowned die 7 pa
    else
    let port := pa % 4096 == 48 && (s.phaser? (pa - 48)).isSome
    if port then
      if st = 0 then
        let m : SyncMsg := ⟨if quad then some who else none, die, homeEngine pa, pa - 48, 0, .phcredit bytes, .none, .mod, false, 0, none, false⟩
        s.send m
      else s
    else (s.putBytes (pa + 8) (leBytes 8 bytes)).putBytes pa (leBytes 8 (tag * 2 ^ 32 + ecode * 256 + st))

/-- The end of a program command that does not credit a ring. -/
def State.finishBte (s : State) (c : BteCmd) (st ecode bytes : Nat) (word : Bool) : State :=
  let s1 := if c.ckind = 0 ∧ word then s.completionWord c.die c.who false c.caddr st ecode (c.f 608 32) bytes else s
  s1.endCmd c st ecode

/-- The end of an R-stage copy: the slice starts once every copy is done, or fails (04 R71). -/
def State.finishStage (s : State) (c : BteCmd) (ecode : Nat) : State :=
  (s.dropCmd c.id).modRecs (fun (r : SliceRec) => r.kernel == c.who.kernel && r.slice == c.who.slice && r.stages.contains c.id)
    (fun (r : SliceRec) => { r with
      stages := r.stages.filter (· != c.id)
      stageErr := if ecode = 0 then r.stageErr else some (r.stageErr.getD (BitVec.ofNat 8 ecode)) })

/-! ## Starting (13 R315) -/

/-- Commands that hold one of the 8 running places of a die. -/
def State.running (s : State) (die : Nat) : Nat := (s.cmds.filter (fun c => c.die == die && c.st == .running)).length

/-- Rank of a waiting command: R-stage copies, then flatten and SQTIER copies, then program commands. -/
def BteCmd.rank (c : BteCmd) : Nat := match c.role with | .stage _ _ => 0 | .flatten _ | .tier _ => 1 | .program => 2

/-- The next command of a die to start. -/
def State.nextCmd (s : State) (die : Nat) : Option BteCmd :=
  (List.range 3).findSome? (fun r => s.cmds.find? (fun c => c.die == die && c.st == .queued && c.rank == r))

/-- The pages that the checks of a command use: its gather list and CADDR. -/
def BteCmd.checkAddrs (c : BteCmd) : List Word :=
  (if c.kind = .gather then (List.range (16 * min (c.f 64 32) 4096 / 4096 + 1)).map (fun i => signVa (c.f 0 57) + BitVec.ofNat 64 (4096 * i)) else []) ++
    (if c.ckind = 3 then [] else [c.caddr])

/-- A program command starts: its checks, then its bytes, or its walk. -/
def State.startProgram (s0 : State) (c : BteCmd) : State :=
  let s := s0.noteAddrs c.die c.checkAddrs
  match s.blockCheck c with
  | .ok list =>
    let go (st : CmdSt) (slot : Nat) (s : State) : State := s.modCmd c.id (fun c => { c with st := st, slot := slot, gather := list })
    if c.ckind ≠ 1 ∧ c.ckind ≠ 2 then go .running 0 s
    else match s.cmdRing c with
      | none => s.finishBte c 4 eRing 0 true
      | some a =>
        if c.ckind = 1 then go .running (c.f 584 6) s
        else match s.ring? a with
          | none => s.finishBte c 4 eRing 0 true
          | some r =>
            if r.poison.isSome then s.finishBte c 2 0 0 true
            else go .walking 0 (s.putObj a (.ring (if r.loader.isNone then { r with loader := some (.walk c.id) } else r)))
  | .error e => s.finishBte c 4 e 0 (c.f 512 4 == 0 && (match s.reportAddr c.die c.caddr (s.kernelPriv c.who.kernel) with
      | .ok _ => true | .error _ => false))

/-- BTE_COMMAND_START: the next command of die `die` starts, if a running place is free and the release at its issue is complete. -/
def execBteCommandStart (s : State) : Result :=
  let d := s.about.die
  .next (match s.nextCmd d with
    | none => s
    | some c =>
      if 8 ≤ s.running d ∨ !s.releasedFor c.who c.after then s
      else if c.role ≠ .program then s.modCmd c.id (fun c => { c with st := .running })
      else s.startProgram c)

/-- RING_WALK_SLOT_TAKEN: walk `n` takes the slot at PNEXT and a running place, or ends because its ring is gone or poisoned. -/
def execRingWalkSlotTaken (s0 : State) : Result :=
  .next (match s0.cmd? s0.about.n with
    | none => s0
    | some c =>
      let s := s0.noteAddrs c.die [c.caddr]
      if c.st ≠ .walking then s0
      else match s.cmdRing c with
        | none => s.endCmd c 4 eRing
        | some a => match s.ring? a with
          | none => s.endCmd c 4 eRing
          | some r =>
            if r.poison.isSome then s.endCmd c 2 0
            else if 8 ≤ s.running c.die then s
            else match r.take (some (.walk c.id)) with
              | none => s
              | some (i, r1) => (s.putObj a (.ring r1)).modCmd c.id (fun c => { c with st := .running, slot := i }))

/-! ## Completing -/

/-- The credit of T·D bytes to the command's ring slot (R318, R320). -/
def State.sendCredit (s0 : State) (c : BteCmd) (bytes : Nat) : State :=
  let s := s0.noteAddrs c.die [c.caddr]
  match s.cmdRing c with
  | none => s.endCmd c 4 eRing
  | some a =>
    let m : SyncMsg := ⟨none, c.die, homeEngine a, a, c.caddr, .rcredit c.slot bytes, .cmd c.id, .mod, false, 0, none, false⟩
    let s1 := s.modCmd c.id (fun c => { c with st := .credit, done := c.done + bytes })
    s1.send m

/-- A program command's bytes, then its report. -/
def State.completeProgram (s : State) (c : BteCmd) : State :=
  let dadv : Int := (BitVec.ofNat 64 (c.f 896 64)).toInt * c.slot
  let sadv : Int := (BitVec.ofNat 64 (c.f 832 64)).toInt * c.rep
  if c.ckind = 2 ∧ crosses (segReach c.segs sadv) ((sideOf c.block 256).reach dadv) then s.endCmd c 4 1
  else
    let (s0, e, n) := s.copyPairs c.die c.who.kernel (s.repPairs c)
    let s1 := s0.noteAddrs c.die (c.repAddrs.flatMap (fun p => [p.1, p.2]))
    let d := if c.kind = .multi then c.cores.length else 1
    if e ≠ 0 then s1.finishBte c 4 e n true
    else if c.ckind = 1 ∨ c.ckind = 2 then s1.sendCredit c (n * d)
    else s1.finishBte c 0 0 (n * d) true

/-- Start of an entry's region for a tuple of tile indices (02 R30, R31). -/
def footStart (e : BitVec 128) (j : List W32) : Nat :=
  let f (lo len : Nat) : Nat := (e.extractLsb' lo len).toNat
  let term (lo : Nat) : Nat := f (lo + 4) 7 * 2 ^ f lo 4 * 64 * (nth 0 j (f (lo + 11) 3)).toNat
  f 0 51 * 64 + term 86 + term 100 + term 114
def footLen (e : BitVec 128) : Nat := ((e.extractLsb' 55 16).toNat + 1) * 64
def footLocal (e : BitVec 128) : Nat := (e.extractLsb' 71 15).toNat * 64
def footMode (e : BitVec 128) : Nat := (e.extractLsb' 51 2).toNat
def footSpace (e : BitVec 128) : Nat := (e.extractLsb' 53 2).toNat

/-- The sequence and the byte position in it that an address of one of its pages names; one that a page had before a move names it still,
unless another page has it now (02 R33, 22 R485). -/
def State.seqPlace (s : State) (va : Nat) : Option (Nat × Seq × Nat) :=
  let page := va / 0x10000 * 0x10000
  let look (f : Seq → Option Nat) : Option (Nat × Seq × Nat) := s.objs.findSome? (fun p => match p.2.obj with
    | .seq q => (f q).map (fun g => (p.1, q, g * 0x10000 + va % 0x10000))
    | _ => none)
  match look (fun q => (List.range q.npages).find? (fun g => (q.entry g).own && (q.entry g).pva == page)) with
  | some r => some r
  | none => look (fun q => (q.old.find? (fun x => x.2 == page)).map (·.1))

/-- The address of byte `k` of an entry's region that starts at `start`. A region over sequence pages goes on from slot to slot of the
sequence that BASE names (02 R33, 16 R391; notes/assumptions/26.md). With BASE in no page of a live sequence it is read by virtual address
(notes/assumptions/92.md). -/
def State.stageByte (s : State) (e : BitVec 128) (start k : Nat) : Option Word :=
  let base := footStart e []
  match (if footSpace e = 2 then s.seqPlace base else none) with
  | none => some (signVa (start + k))
  | some (a, q, pos) =>
    let n := pos + (start - base) + k
    match (if n / q.slot < q.rlen then s.resolveSlot 5 a (n / q.slot) 0 else none) with
    | some (_, _, va, _) => some (signVa (va + n % q.slot))
    | none => none

/-- An R-stage copy of entry `i` into a core's tile SRAM for the slice's first iteration (04 R71, 02 R33). A position past the
sequence's end is FAULT_SRC (notes/assumptions/92.md). -/
def State.completeStage (s : State) (c : BteCmd) (core i : Nat) : State :=
  let rec_ := match s.kernel? c.who.kernel with | some k => k.record | none => 0
  let e := recFoot rec_ i
  let vas := (List.range (footLen e)).map (fun k => s.stageByte e (footStart e (nestTuple rec_ (sliceFirst rec_ c.who.slice))) k)
  let (s1, err, _) := s.copyPairs c.die c.who.kernel ((vas.zip (List.range vas.length)).map (fun p =>
    ((match p.1 with | some va => s.bteByte c.who c.die va false | none => .error eFaultSrc),
      [if footLocal e + p.2 < 2 ^ 21 then .ok (tileBase s.modid core + footLocal e + p.2) else .error eProtDst])))
  (s1.noteAddrs c.die (vas.filterMap id)).finishStage c err

/-- BTE_COMMAND_COMPLETE: command `n` has moved its bytes and reports, a program command or an R-stage copy. -/
def execBteCommandComplete (s : State) : Result :=
  .next (match s.cmd? s.about.n with
    | none => s
    | some c =>
      if c.st ≠ .running then s
      else match c.role with
        | .program => s.completeProgram c
        | .stage core i => s.completeStage c core i
        | .flatten _ | .tier _ => s)

/-! ## Copies for sequences (16 R401, R403) -/

/-- FLATTEN_COPY_COMPLETE: the copies of flattening command `n` end; the child comes into being, or none does. -/
def execFlattenCopyComplete (s : State) : Result :=
  .next (match s.cmd? s.about.n with
    | none => s
    | some c => match c.role with
      | .flatten child =>
        if c.st ≠ .running then s
        else match Sparse.find? s.flats child with
          | none => s.dropCmd c.id
          | some fl =>
            let p := blkField fl.blk 128 32
            let q : Seq := ⟨fl.childVa, blkField fl.blk 0 57, blkField fl.blk 80 4, blkField fl.blk 64 16, 1, 0, false,
              blkField fl.blk 88 1 == 1, 0, p, p, 0, none, fl.table, []⟩
            let dstVa (slot : Nat) : Nat := (q.entry (slot / q.spp)).pva + slot % q.spp * q.slot
            let pairs := (List.range p).flatMap (fun slot => match s.resolveSlot 5 fl.parent slot 0 with
              | none => [(.error eFaultSrc, [])]
              | some (_, _, va, _) => (List.range q.slot).map (fun k =>
                  (s.bteByte c.who c.die (signVa (va + k)) false, [s.bteByte c.who c.die (signVa (dstVa slot + k)) true])))
            let (s0, e, _) := s.copyPairs c.die c.who.kernel pairs
            let s1 := s0.noteAddrs c.die ((List.range p).flatMap (fun slot => match s.resolveSlot 5 fl.parent slot 0 with
              | some (_, _, va, _) => [signVa va, signVa (dstVa slot)] | none => []))
            let s2 := (({ s1 with flats := Sparse.erase s1.flats child } : State).dropCmd c.id)
            let s3 := if e ≠ 0 then s2.seqFail fl.msg 4 (0x80 + e)
              else ((((s2.cleanState child (64 + 16 * q.npages)).addObj child (.seq q) fl.inOverflow).mirror child p).freeze child 0 p).answer fl.msg 0 (seqWord 0 0 0) false
            (s3.unhold 5 fl.parent).1
      | _ => s)

/-- The entry of a page after its work is done, the page whose bytes stay frozen, and the result. -/
def State.tierDone (s : State) (t : TierCmd) : State :=
  match s.seq? t.seq with
  | none => s
  | some q =>
    let e := q.entry t.page
    match t.op with
    | 0 =>
      let va := t.arg.toNat % 2 ^ 57
      let pa := s.frameOf t.seq va
      let s1 := match s.frameOf t.seq e.pva with | some old => s.thaw old | none => s
      let s2 := match pa with | some p => { s1 with frozen := s1.frozen ++ [(p, 0x10000)] } | none => s1
      let cxl := match pa with | some p => rangeOf p == .cxl | none => false
      (s2.setSeq t.seq { q.setEntry t.page { e with pva := va, tier := cxl } with old := (t.page, e.pva) :: q.old }).answer t.msg (signVa e.pva) (seqWord 0 0 0) false
    | 1 =>
      let pa := s.frameOf t.seq e.pva
      let s1 := match pa with | some pa => s.keepPage pa true | none => s
      (s1.setSeq t.seq (q.setEntry t.page { e with stage := 1, kept := dedup (e.kept ++ pa.toList) })).answer t.msg 0 (seqWord 0 0 0) false
    | _ =>
      let core := match t.msg.who with | some w => w.core | none => 0
      (s.setSeq t.seq (q.setEntry t.page { e with stage := 2, stagepa := tileBase s.modid core + t.arg.toNat % 2 ^ 21 })).answer
        t.msg 0 (seqWord 0 0 0) false

/-- SQTIER_COMPLETE: the work of tier command `n` is done (16 R403); its reference ends with it. -/
def execSqtierComplete (s : State) : Result :=
  .next (match s.tiers.find? (fun t => t.id == s.about.n) with
    | none => s
    | some t =>
      let fin (s : State) : State := (({ s with tiers := s.tiers.filter (fun x => x.id != t.id) } : State).unhold 5 t.seq).1
      if t.op = 1 then fin (s.tierDone t)
      else match s.cmds.find? (fun c => c.role == .tier t.id) with
        | none => s
        | some c =>
          if c.st ≠ .running then s
          else
            let core := match t.msg.who with | some w => w.core | none => 0
            let pva := match s.seq? t.seq with | some q => (q.entry t.page).pva | none => 0
            let dst (k : Nat) : Except Nat Nat :=
              if t.op = 0 then s.bteByte c.who c.die (t.arg + BitVec.ofNat 64 k) true
              else if t.arg.toNat + k < 2 ^ 21 then .ok (tileBase s.modid core + t.arg.toNat + k) else .error eProtDst
            let (s0, e, _) := s.copyPairs c.die c.who.kernel ((List.range 0x10000).map (fun k =>
              (s.bteByte c.who c.die (signVa (pva + k)) false, [dst k])))
            let s1 := s0.noteAddrs c.die ([signVa pva] ++ (if t.op = 0 then [t.arg] else []))
            let s2 := s1.dropCmd c.id
            fin (if e ≠ 0 then s2.seqFail t.msg 4 (0x80 + e) else s2.tierDone t))

end Sys2Proof.Machine
end

