-- ==== Sys2Proof/Machine/Attention.lean ====
section
/-!
DEFINITION. The attention engine of a quad (16 R407 to R413, 22 R484): its arithmetic, its checks, its reads and writes, and
the steps ATTN_REQUEST_START and ATTN_REQUEST_COMPLETE.
-/
namespace Sys2Proof.Machine

open Sys2Proof

/-! ## Arithmetic (R411, R412) -/

/-- Numerator of a finite value over 2^300; products of the element types a request may name are exact there. -/
def over300 : FNum → Int
  | .fin neg n d => (if neg then -1 else 1) * ((n * 2 ^ 300 / d : Nat) : Int)
  | _ => 0

/-- The exact sum of products: a NaN or Inf − Inf gives NaN. -/
def exactSum (ps : List FNum) : FNum :=
  let pos := ps.contains (.inf false)
  let neg := ps.contains (.inf true)
  if ps.any FNum.isNan || (pos && neg) then .nan
  else if pos then .inf false
  else if neg then .inf true
  else
    let x := (ps.map over300).foldl (· + ·) 0
    if x = 0 then .fin (ps.all FNum.isNeg && !ps.isEmpty) 0 1 else .fin (decide (x < 0)) x.natAbs (2 ^ 300)

/-- The score of a position: the exact dot product rounded once, times SCALE rounded once. -/
def attnScore (scale : Nat) (q k : List FNum) : Nat :=
  f32Rne ((f32Val (f32Rne (exactSum (List.zipWith FNum.mul q k)))).mul (f32Val scale))

/-- A softmax state of a row: m, l and o as f32 codes. -/
structure RowState where
  m : Nat
  l : Nat
  o : List Nat
  deriving DecidableEq, Repr

def f32NegInf : Nat := 0xFF800000

/-- The state of no position. -/
def RowState.empty (hd : Nat) : RowState := ⟨f32NegInf, 0, List.replicate hd 0⟩
def RowState.nan (hd : Nat) : RowState := ⟨f32Nan, f32Nan, List.replicate hd f32Nan⟩

def isNanCode (v : Nat) : Bool := (f32Val v).isNan

/-- The larger of two f32 codes, −0 below +0. -/
def f32Max (a b : Nat) : Nat := if (f32Val a).lt true (f32Val b) then b else a

/-- ex(s, m): 1 when the values are equal, else VEXPM (R411). -/
def attnEx (s m : Nat) : Nat :=
  if !isNanCode s && !isNanCode m && !(f32Val s).lt false (f32Val m) && !(f32Val m).lt false (f32Val s) then 0x3F800000
  else expmF32 s m

/-- rne(rne(x1·a1) + rne(x2·a2)). -/
def mixTwo (x1 a1 x2 a2 : Nat) : Nat :=
  f32Rne ((f32Val (f32Rne ((f32Val x1).mul (f32Val a1)))).add (f32Val (f32Rne ((f32Val x2).mul (f32Val a2)))))

/-- The merge of two states (R412). -/
def RowState.merge (a b : RowState) : RowState :=
  let hd := a.o.length
  if isNanCode a.m || isNanCode b.m then .nan hd
  else
    let m := f32Max a.m b.m
    if m = f32NegInf then .empty hd
    else
      let a1 := attnEx a.m m
      let a2 := attnEx b.m m
      ⟨m, mixTwo a.l a1 b.l a2, List.zipWith (fun x y => mixTwo x a1 y a2) a.o b.o⟩

/-- The state of the visible positions of one page (R411): scores with value rows, in ascending order. -/
def blockRow (hd : Nat) (ps : List (Nat × List FNum)) : RowState :=
  match ps with
  | [] => .empty hd
  | p :: rest =>
    if ps.any (fun x => isNanCode x.1) then .nan hd
    else
      let mb := rest.foldl (fun m x => f32Max m x.1) p.1
      ps.foldl (fun (st : RowState) x =>
        let w := ElemTy.value .bf16 (roundTo .bf16 .ne (f32Val (attnEx x.1 mb)))
        ⟨mb, f32Rne ((f32Val st.l).add w), List.zipWith (fun o v => f32Rne ((f32Val o).add (w.mul v))) st.o x.2⟩)
        ⟨mb, 0, List.replicate hd 0⟩

/-- An exact quotient. -/
def quotNum (a b : FNum) : FNum :=
  match a, b with
  | .nan, _ | _, .nan | .inf _, .inf _ => .nan
  | .inf s, .fin t _ _ => .inf (s ^^ t)
  | .fin s _ _, .inf t => .fin (s ^^ t) 0 1
  | .fin s n d, .fin t m e => .fin (s ^^ t) (n * e) (d * m)

/-- Whether a row's output is masked: l = 0 (R412). -/
def RowState.masked (r : RowState) : Bool := !isNanCode r.m && (f32Val r.l).isZero

/-- One element of the final output (R412). -/
def RowState.out (r : RowState) (ty : ElemTy) (o : Nat) : Nat :=
  if isNanCode r.m || isNanCode r.l then roundTo ty .ne .nan
  else if r.masked then 0
  else roundTo ty .ne (quotNum (f32Val o) (f32Val r.l))

/-! ## Requests (R408) -/

def AttnReq.f (q : AttnReq) (lo len : Nat) : Nat := cmdField q.block lo len
def AttnReq.seqVa (q : AttnReq) : Word := BitVec.ofNat 64 (q.f 0 64)
def AttnReq.first (q : AttnReq) : Nat := q.f 64 32
def AttnReq.last (q : AttnReq) : Nat := q.f 96 32
def AttnReq.rows (q : AttnReq) : Nat := q.f 448 4 + 1
def AttnReq.hd (q : AttnReq) : Nat := if q.f 452 1 = 1 then 128 else 64
def AttnReq.kvTy (q : AttnReq) : ElemTy := ElemTy.ofCode (BitVec.ofNat 4 (q.f 456 4))
def AttnReq.qTy (q : AttnReq) : ElemTy := ElemTy.ofCode (BitVec.ofNat 4 (q.f 460 4))
def AttnReq.oTy (q : AttnReq) : ElemTy := ElemTy.ofCode (BitVec.ofNat 4 (q.f 480 4))
def AttnReq.state (q : AttnReq) : Word := BitVec.ofNat 64 (q.f 192 64)
def AttnReq.glove (q : AttnReq) : Bool := q.f 475 1 == 1
def AttnReq.stride (q : AttnReq) : Nat := q.f 640 32
/-- Bytes of the whole block (R409). -/
def AttnReq.size (q : AttnReq) : Nat := 160 + 64 * q.hd

/-- Row 1 of R410. -/
def AttnReq.badArg (q : AttnReq) : Bool :=
  let nz (lo len : Nat) : Bool := q.f lo len != 0
  let qt (t : ElemTy) : Bool := t == .f32 || t == .bf16
  nz 704 320 || nz 484 28 || nz 477 3 || nz 453 3 || q.f 464 2 == 3 || q.f 466 2 == 3 ||
    (!(q.f 466 2 == 1 || q.f 466 2 == 2) && nz 320 64) || (q.f 464 2 != 2 && nz 256 64) || !qt q.qTy || !qt q.oTy ||
    !(q.kvTy == .bf16 || q.kvTy == .f16 || q.kvTy == .e4m3 || q.kvTy == .e5m2) ||
    decide (q.last < q.first ∨ q.stride < q.last - q.first) || nz 192 6

/-- Pages of the range: first page and how many. -/
def AttnReq.pages (q : AttnReq) (spp : Nat) : Nat × Nat :=
  let p := q.first / spp
  (p, if q.first < q.last then (q.last + spp - 1) / spp - p else 0)

/-- A request's address as its engine reaches it; never a sealed byte, and no MRAM byte to write. -/
def State.attnByte (s : State) (q : AttnReq) (va : Word) (write : Bool) : Except Nat Nat :=
  match s.bteByte q.who (dieOf q.who.core) va write with
  | .error e => .error e
  | .ok pa => if s.inGlove pa || (write && rangeOf pa == .mram) then .error (if write then eProtDst else eProtSrc) else .ok pa

/-- Bytes a request reads. -/
def State.attnBytes (s : State) (q : AttnReq) (va : Word) (n : Nat) : Except Nat (List Byte) :=
  (List.range n).foldr (fun i (r : Except Nat (List Byte)) =>
    match s.attnByte q (va + BitVec.ofNat 64 i) false with
    | .error e => .error e
    | .ok pa => match r with | .ok bs => .ok (s.anyByte pa :: bs) | .error e => .error e) (.ok [])

/-- A byte of a key or value row (R413, 09 R209): from the staged copy, or at the resolved address inside or outside the Glove as the
request says. -/
def State.kvByte (s : State) (q : AttnReq) (e : SeqEntry) (va : Nat) : Except Nat Nat :=
  if e.stage = 2 then
    let pa := e.stagepa + va % 0x10000
    if s.readFails pa then .error eUe else .ok pa
  else match s.xlateDie (dieOf q.who.core) (signVa va) with
    | .fault => .error eFaultSrc
    | .ue => .error eUe
    | .ok pa l _ =>
      if !leafAllows l .read (s.kernelPriv q.who.kernel) || s.inGlove pa != q.glove || s.podGlove pa then .error eProtSrc
      else if !q.glove && !s.rangeAllows pa (s.kernelPriv q.who.kernel) then .error eProtSrc
      else if s.readFails pa then .error eUe else .ok pa

def State.kvBytes (s : State) (q : AttnReq) (e : SeqEntry) (va n : Nat) : Except Nat (List Byte) :=
  (List.range n).foldr (fun i (r : Except Nat (List Byte)) =>
    match s.kvByte q e (va + i) with
    | .error x => .error x
    | .ok pa => match r with | .ok bs => .ok (s.anyByte pa :: bs) | .error x => .error x) (.ok [])

/-- Elements of a row. -/
def elemsOf (t : ElemTy) (bs : List Byte) (n : Nat) : List FNum :=
  (List.range n).map (fun i => t.value (leNat ((bs.drop (i * (t.bits / 8))).take (t.bits / 8))))

/-! ## Checks (R410 rows 2 to 8) -/

/-- The sequence a request names, with its address; or the ECODE of rows 2 to 4. -/
def State.attnSeq (s : State) (q : AttnReq) : Except Nat (Nat × Seq) :=
  let priv := s.kernelPriv q.who.kernel
  match placeOf 0 q.seqVa with
  | .virt => match s.xlateDie (dieOf q.who.core) q.seqVa with
    | .fault => .error 0x82
    | .ue => .error 0x86
    | .ok pa e _ =>
      if !leafAllows e .read priv || s.inGlove pa || s.podGlove pa || !s.rangeAllows pa priv then .error 0x84
      else if paModule pa ≠ s.modid then .error 6
      else match s.seq? pa with
        | none => .error 1
        | some x => .ok (pa, x)
  | _ => .error 0x84

/-- Rows 5 to 8 for a sequence found. -/
def State.attnCheck (s : State) (q : AttnReq) (a : Nat) (x : Seq) : Nat :=
  let es := q.kvTy.bits / 8
  if s.spoiled a (64 + 16 * x.npages) then 0x86
  else if x.released ∨ x.refs = 0xFFFF then 3
  else if 64 < (q.pages x.spp).2 ∨ q.f 416 16 % es ≠ 0 ∨ q.f 432 16 % es ≠ 0 ∨ x.slot < q.f 416 16 + q.hd * es ∨
      x.slot < q.f 432 16 + q.hd * es then 5
  else if x.clen < q.last then 2
  else if q.glove ≠ x.isSealed ∨ (q.glove ∧ !s.kernelSealed q.who.kernel) then 9
  else 0

/-! ## Writing and reporting (R409) -/

/-- The record as a number of 256 bits. -/
def attnRecord (status code masked tag tmiss page0 nproc : Nat) : Nat :=
  nproc % 65536 * 2 ^ 160 + page0 % 2 ^ 32 * 2 ^ 128 + tmiss % 2 ^ 64 * 2 ^ 64 + tag * 2 ^ 32 + masked * 65536 + code * 256 + status

/-- Writing some of the bytes: none is written where one of them cannot be. -/
def State.attnPut (s : State) (q : AttnReq) (va : Word) (bs : List Byte) : Option State :=
  let ts := (List.range bs.length).filterMap (fun i => match s.attnByte q (va + BitVec.ofNat 64 i) true with
    | .ok pa => some (pa, nth 0 bs i) | .error _ => none)
  if ts.length = bs.length then some (s.putMany (dieOf q.who.core) ts) else none

/-- The record, bytes 8 to 31 before bytes 0 to 7; one that cannot be written is lost with an unowned error (13 R318). -/
def State.putRecord (s : State) (q : AttnReq) (rec_ : Nat) : State :=
  let bs := leBytes 32 rec_
  let lost (s : State) : State := s.unowned (dieOf q.who.core) 7 (s.lostAt (dieOf q.who.core) q.state 32 (s.kernelPriv q.who.kernel))
  match s.attnPut q (q.state + 8) (bs.drop 8) with
  | none => lost s
  | some s1 => match s1.attnPut q q.state (bs.take 8) with
    | none => lost s1
    | some s2 => s2

/-- The credit of a request's report to its ring or phaser (R409). -/
def State.attnCredit (s0 : State) (q : AttnReq) : State :=
  let die := dieOf q.who.core
  let va := BitVec.ofNat 64 (q.f 320 64)
  let s := s0.noteAddrs die [va]
  match s.engineAddr die va false (s.kernelPriv q.who.kernel) with
  | .error _ => s.unowned die 7 0
  | .ok pa =>
    let op : SyncOp := if q.f 466 2 = 1 then .rcredit (q.f 468 6) q.size else .phcredit q.size
    let m : SyncMsg := ⟨some q.who, die, homeEngine pa, pa, va, op, .none, .mod, false, 0, none, false⟩
    s.send m

/-- A request ends with a status in wd; its reference on the sequence ends with it (R404, R413). -/
def State.endAttn (s : State) (q : AttnReq) (st : Nat) : State :=
  let s1 := ({ s with attns := s.attns.filter (fun x => x.id != q.id) } : State)
  let s2 := match q.hold with | some a => (s1.unhold 5 a).1 | none => s1
  s2.status q.who q.wd st

/-- A request that fails before any page (R410). -/
def State.attnFails (s : State) (q : AttnReq) (code page0 : Nat) : State :=
  (s.putRecord q (attnRecord 4 code 0 (q.f 672 32) 0 page0 0)).endAttn q 4

/-- Whether the credit of an earlier request of a quad's engine is still on its way (22 R484); one that waits for a route is not waited for. -/
def State.creditDue (s : State) (quad : Nat) : Bool :=
  s.msgs.any (fun m => !s.stranded m && (match m.op, m.who with
    | .rcredit _ _, some w => quadOf w.core == quad
    | .phcredit _, some w => quadOf w.core == quad
    | _, _ => false))

/-- ATTN_REQUEST_START: the oldest request of quad `quad` starts when none of the quad runs, the release at its issue is complete and the
credit of the request before has come (22 R484): rows 1 to 8, CLEN read, reference held. -/
def execAttnRequestStart (s : State) : Result :=
  let mine := s.attns.filter (fun q => quadOf q.who.core == s.about.quad)
  .next (match mine with
    | [] => s
    | q :: _ =>
      if mine.any (·.running) ∨ s.creditDue s.about.quad ∨ !s.releasedFor q.who q.after then s
      else if q.badArg then s.attnFails q 5 0
      else match s.attnSeq q with
        | .error e => s.attnFails q e 0
        | .ok (a, x) =>
          match s.attnCheck q a x with
          | 0 =>
            let s1 := s.hold a
            { s1 with attns := s1.attns.map (fun y => if y.id = q.id then { y with running := true, hold := some a, clen := x.clen } else y) }
          | e => s.attnFails q e (q.first / x.spp))

/-! ## The work of a request (R411, R413) -/

/-- What a request reads before its pages: query rows, starting states, bitmap bits by row. -/
structure AttnIn where
  q : List (List FNum)
  st : List RowState
  bits : List Nat
  deriving DecidableEq, Repr

/-- Results in order, or the first error. -/
def allOk {α : Type} (l : List (Except Nat α)) : Except Nat (List α) :=
  l.foldr (fun x (r : Except Nat (List α)) => match x with
    | .error e => .error e
    | .ok v => match r with | .ok vs => .ok (v :: vs) | .error e => .error e) (.ok [])

def State.attnInput (s : State) (q : AttnReq) : Except Nat AttnIn :=
  let hd := q.hd
  let rows := List.range q.rows
  let qs := q.qTy.bits / 8
  match allOk (rows.map (fun r => s.attnBytes q (BitVec.ofNat 64 (q.f 128 64) + BitVec.ofNat 64 (r * hd * qs)) (hd * qs))) with
  | .error e => .error e
  | .ok qb =>
    let st := if q.f 476 1 = 0 then .ok (rows.map (fun _ => RowState.empty hd)) else
      allOk (rows.map (fun r =>
        match s.attnBytes q (q.state + BitVec.ofNat 64 (32 + 4 * r)) 4, s.attnBytes q (q.state + BitVec.ofNat 64 (96 + 4 * r)) 4,
          s.attnBytes q (q.state + BitVec.ofNat 64 (160 + 4 * r * hd)) (4 * hd) with
        | .ok m, .ok l, .ok o => .ok ⟨leNat m, leNat l, (List.range hd).map (fun c => leNat ((o.drop (4 * c)).take 4))⟩
        | .error e, _, _ => .error e
        | _, .error e, _ => .error e
        | _, _, .error e => .error e))
    match st with
    | .error e => .error e
    | .ok st =>
      let n := q.last - q.first
      let bits := if q.f 464 2 ≠ 2 ∨ n = 0 then .ok (rows.map (fun _ => 0)) else
        allOk (rows.map (fun r =>
          let b0 := r * q.stride
          match s.attnBytes q (BitVec.ofNat 64 (q.f 256 64) + BitVec.ofNat 64 (b0 / 8)) ((b0 + n + 7) / 8 - b0 / 8) with
          | .ok bs => .ok (leNat bs / 2 ^ (b0 % 8))
          | .error e => .error e))
      match bits with
      | .error e => .error e
      | .ok bits => .ok ⟨qb.map (fun b => elemsOf q.qTy b hd), st, bits⟩

/-- Whether position t is visible to row r (R411). -/
def AttnReq.visible (q : AttnReq) (i : AttnIn) (r t : Nat) : Bool :=
  match q.f 464 2 with
  | 0 => true
  | 1 => decide ((t : Int) ≤ (BitVec.ofNat 64 (q.f 576 64)).toInt + (r : Int))
  | _ => Nat.testBit (nth 0 i.bits r) (t - q.first)

/-- Where the pages of a request stand: row states, pages processed, pages skipped, the error met. -/
structure AttnOut where
  st : List RowState
  nproc : Nat
  tmiss : Nat
  err : Option Nat
  deriving DecidableEq, Repr

/-- One page (R411, R413). -/
def State.attnPage (s : State) (q : AttnReq) (a : Nat) (x : Seq) (i : AttnIn) (o : AttnOut) (g : Nat) : AttnOut :=
  if o.err.isSome then o
  else
    let lo := max q.first (g * x.spp)
    let hi := min q.last ((g + 1) * x.spp)
    let ts := (List.range (hi - lo)).map (fun k => lo + k)
    let found := ts.filterMap (fun t => (s.resolveSlot 5 a t 0).map (fun r =>
      (t, r.2.2.1, match s.seq? r.1 with | some y => y.entry r.2.1 | none => SeqEntry.none)))
    if q.f 474 1 = 1 ∧ found.any (fun f => f.2.2.tier && f.2.2.stage == 0) then
      { o with tmiss := o.tmiss + 2 ^ (g - (q.pages x.spp).1) }
    else
      let n := q.hd * (q.kvTy.bits / 8)
      match allOk (found.map (fun f => match s.kvBytes q f.2.2 (f.2.1 + q.f 416 16) n, s.kvBytes q f.2.2 (f.2.1 + q.f 432 16) n with
        | .ok k, .ok v => .ok (f.1, elemsOf q.kvTy k q.hd, elemsOf q.kvTy v q.hd)
        | .error e, _ => .error e
        | _, .error e => .error e)) with
      | .error e => { o with err := some e }
      | .ok kv =>
        { o with
          nproc := o.nproc + 1
          st := (List.range q.rows).map (fun r =>
            let seen := (kv.filter (fun p => q.visible i r p.1)).map (fun p => (attnScore (q.f 384 32) (nth [] i.q r) p.2.1, p.2.2))
            (nth (RowState.empty q.hd) o.st r).merge (blockRow q.hd seen)) }

/-- The state bytes of a request with their offsets in the block (R409). -/
def AttnReq.stateBytes (q : AttnReq) (st : List RowState) : List (Nat × Byte) :=
  let put (off : Nat) (v : Nat) : List (Nat × Byte) := (List.range 4).map (fun k => (off + k, nth 0 (leBytes 4 v) k))
  (List.range q.rows).flatMap (fun r =>
    let x := nth (RowState.empty q.hd) st r
    put (32 + 4 * r) x.m ++ put (96 + 4 * r) x.l ++
      (List.range q.hd).flatMap (fun c => put (160 + 4 * (r * q.hd + c)) (nth 0 x.o c)))

/-- The final output bytes with their offsets. -/
def AttnReq.outBytes (q : AttnReq) (st : List RowState) : List (Nat × Byte) :=
  let n := q.oTy.bits / 8
  (List.range q.rows).flatMap (fun r =>
    let x := nth (RowState.empty q.hd) st r
    (List.range q.hd).flatMap (fun c =>
      let bs := leBytes n (x.out q.oTy (nth 0 x.o c))
      (List.range n).map (fun k => ((r * q.hd + c) * n + k, nth 0 bs k))))

/-- The end of a request whose checks passed: state and output, record, report. With an error each aligned 8-byte chunk of state and
output is old or new, by a free choice (notes/assumptions/7.md). -/
def State.finishAttn (s : State) (q : AttnReq) (page0 : Nat) (o : AttnOut) : State :=
  let ok := o.err.isNone && o.tmiss == 0
  let outVa := BitVec.ofNat 64 (q.f 512 64)
  let cells := (q.stateBytes o.st).map (fun p => (s.attnByte q (q.state + BitVec.ofNat 64 p.1) true, p.2)) ++
    (if ok && outVa != 0 then (q.outBytes o.st).map (fun p => (s.attnByte q (outVa + BitVec.ofNat 64 p.1) true, p.2)) else [])
  let good := cells.filterMap (fun p => match p.1 with | .ok pa => some (pa, p.2) | .error _ => none)
  let err := match o.err with
    | some e => some e
    | none => (cells.filterMap (fun p => match p.1 with | .error e => some e | .ok _ => none)).head?
  let masked := ((List.range q.rows).map (fun r => if (nth (RowState.empty q.hd) o.st r).masked then 2 ^ r else 0)).foldl (· + ·) 0
  let tag := q.f 672 32
  match err with
  | some e =>
    let seed := s.free
    let s1 := s.tick.putMany (dieOf q.who.core) (good.filter (fun p => Config.freeBool (seed * 2 ^ 52 + p.1 / 8)))
    (s1.putRecord q (attnRecord 4 (0x80 + e) 0 tag o.tmiss page0 o.nproc)).endAttn q 4
  | none =>
    let st := if o.tmiss = 0 then 0 else 3
    let s1 := (s.putMany (dieOf q.who.core) good).putRecord q (attnRecord st 0 masked tag o.tmiss page0 o.nproc)
    let s2 := if q.f 466 2 = 0 then s1 else s1.attnCredit q
    s2.endAttn q st

/-- The pages a request on the sequence at `a` uses: handle, blocks and slots. -/
def State.attnAddrs (s : State) (q : AttnReq) (a : Nat) : List Word :=
  let v (lo : Nat) : Word := BitVec.ofNat 64 (q.f lo 64)
  let span (b : Word) (n : Nat) : List Word := if n = 0 then [] else [b, b + BitVec.ofNat 64 (n - 1)]
  span q.seqVa 1 ++ span q.state q.size ++ span (v 128) (q.rows * q.hd * (q.qTy.bits / 8)) ++
    (if q.f 512 64 = 0 then [] else span (v 512) (q.rows * q.hd * (q.oTy.bits / 8))) ++
    (if q.f 464 2 = 2 then span (v 256) ((q.rows * q.stride + 7) / 8) else []) ++
    (List.range (q.last - q.first)).filterMap (fun k => (s.resolveSlot 5 a (q.first + k) 0).map (fun r => signVa r.2.2.1))

/-- ATTN_REQUEST_COMPLETE: the running request of quad `quad` does its work, writes and reports. `flag` says that its credit is
still on its way after it. -/
def execAttnRequestComplete (s : State) : Result :=
  .next (match s.attns.find? (fun q => quadOf q.who.core == s.about.quad && q.running) with
    | none => s
    | some q => match q.hold with
      | none => s
      | some a => match s.seq? a with
        | none => s
        | some x =>
          let (page0, n) := q.pages x.spp
          let s := s.noteAddrs (dieOf q.who.core) (s.attnAddrs q a)
          match s.attnInput q with
          | .error e => s.finishAttn q page0 ⟨(List.range q.rows).map (fun _ => RowState.empty q.hd), 0, 0, some e⟩
          | .ok i =>
            s.finishAttn q page0 ((List.range n).foldl (fun o k => s.attnPage q a x i o (page0 + k)) ⟨i.st, 0, 0, none⟩))

end Sys2Proof.Machine
end

