-- ==== Sys2Proof/Machine/Launch.lean ====
section
/-!
DEFINITION. The launch unit (03, 02 R18 to R40, 18 R437 to R439): checks of a record, acceptance, dependences, hand-over, retirement
words, failure and completion; the steps RECORD_ACCEPT, HOST_SIGNAL_POLL, DEVICE_QUEUE_ENQUEUE_DONE, KERNEL_HANDOVER,
RETIREMENT_WORD_ARRIVAL and KERNEL_COMPLETE.
-/
namespace Sys2Proof.Machine

open Sys2Proof

/-! ## Checks (02 R21, R23, R30, R31) -/

/-- One stride term: dimension, multiplier, exponent. -/
def footTerm (e : BitVec 128) (i : Nat) : Nat × Nat × Nat :=
  let f (lo len : Nat) : Nat := (e.extractLsb' lo len).toNat
  (f (86 + 14 * i + 11) 3, f (86 + 14 * i + 4) 7, f (86 + 14 * i) 4)

/-- Bytes a term adds for each step of its dimension. -/
def termStride (t : Nat × Nat × Nat) : Nat := t.2.1 * 2 ^ t.2.2 * 64

def footTerms (e : BitVec 128) : List (Nat × Nat × Nat) := (List.range 3).map (footTerm e)

/-- The footprint entries in use. -/
def recFeet (r : BitVec 2048) : List (BitVec 128) := (List.range (min (recNfoot r) 8)).map (recFoot r)

/-- Row 2: reserved bits of the record, the nest, the dependences and the entries. -/
def recReserved (r : BitVec 2048) : Bool :=
  let nz (lo len : Nat) : Bool := recField r lo len != 0
  nz 21 43 || nz 296 24 || nz 448 64 || nz (512 + 235) 21 ||
    (nestDims r != 7 && (List.range 6).any (fun d => decide (nestDims r ≤ d) && (nestCount r d != 0 || nestRev r d))) ||
    (List.range 4).any (fun k =>
      let d := recDep r k
      match (d.extractLsb' 62 2).toNat with
      | 0 => d != 0
      | 1 => d.extractLsb' 57 5 != 0
      | 2 => d.extractLsb' 32 30 != 0
      | _ => true) ||
    (List.range 8).any (fun k => decide (recNfoot r ≤ k) && recFoot r k != 0) ||
    (recFeet r).any (fun e => footMode e != 3 && footLocal e != 0)

/-- Row 5. -/
def footBad (r : BitVec 2048) (e : BitVec 128) : Bool :=
  let terms := footTerms e
  let top := (terms.map (fun t => termStride t * (if t.1 < nestDims r then nestCount r t.1 - 1 else 0))).foldl (· + ·) 0
  footSpace e == 3 || terms.any (fun t => t.1 == 6 || (t.1 == 7 && (t.2.1 != 0 || t.2.2 != 0))) ||
    (decide (0 < nestTotal r) && decide (2 ^ 57 < (e.extractLsb' 0 51).toNat * 64 + top + footLen e)) ||
    (decide (1 < nestGrain r) && footMode e == 3 && terms.any (fun t => t.1 != 7 && t.2.1 != 0))

/-- R-stage local ranges, pairwise. -/
def stageClash : List (Nat × Nat) → Bool
  | [] => false
  | p :: ps => ps.any (fun q => meets p.1 p.2 q.1 q.2) || stageClash ps

def recStages (r : BitVec 2048) : List (Nat × Nat) :=
  ((recFeet r).filter (fun e => footMode e == 3)).map (fun e => (footLocal e, footLen e))

/-- The first code of 02 R21 that applies. -/
def recCheck (r : BitVec 2048) : Option Byte :=
  if recVer r ≠ 1 then some 0x01
  else if recReserved r then some 0x02
  else if recGang r = 3 then some 0x03
  else if nestGrain r = 0 ∨ nestDims r = 7 ∨ 2 ^ 40 < nestTotal r then some 0x04
  else if 8 < recNfoot r ∨ (recFeet r).any (footBad r) then some 0x05
  else if (recFeet r).any (fun e => footSpace e == 1 && (!recSealed r || footMode e != 0)) ∨ (recSealed r ∧ recReplica r = 0) then some 0x06
  else if stageClash (recStages r) ∨ (recStages r).any (fun p => decide (2 ^ 21 < p.1 + p.2)) then some 0x07
  else if recProgram r &&& 1 ≠ 0 ∨ !canonical (recProgram r) ∨ recHandler r &&& 1 ≠ 0 ∨ !canonical (recHandler r) ∨
      recSignal r &&& 15 ≠ 0 ∨ !canonical (recSignal r) ∨
      (List.range 4).any (fun k => (recDep r k).extractLsb' 62 2 == 1 && (recDep r k).extractLsb' 0 4 != 0) then some 0x08
  else none

/-! ## Kernels -/

def State.setKernel (s : State) (n : Nat) (k : Kernel) : State := { s with kernels := Sparse.put s.kernels n k }
def State.modKernel (s : State) (n : Nat) (f : Kernel → Kernel) : State :=
  match s.kernel? n with | some k => s.setKernel n (f k) | none => s

/-- The dies of a kernel in ascending order (02 R35, 04 R62). -/
def replicaDies (r : BitVec 2048) : List Nat :=
  if recReplica r = 0 then List.range 64 else (List.range 64).filter (fun d => (recReplica r).getLsbD d)

/-- The next slice of a die's walker of a kernel, also while a restore has still to return the kernel to the die (17 R435). -/
def Die.walker (x : Die) (n : Nat) : Option Nat :=
  match Sparse.find? x.next n, Sparse.find? x.back n with
  | some p, _ => some p.1
  | none, some p => some p.1
  | none, none => none

/-- Slices of a kernel that a die has published. -/
def State.publishedBy (s : State) (n : Nat) (k : Kernel) (d : Nat) : Nat :=
  let m := (replicaDies k.record).length
  let i := (replicaDies k.record).idxOf d
  match (s.die d).walker n with
  | some nx => (nx - i) / max 1 m
  | none => 0

/-- Whether a slice has been published by the die that owns it first (04 R62, R63). -/
def State.published (s : State) (n : Nat) (k : Kernel) (slice : Nat) : Bool :=
  let ds := replicaDies k.record
  match (s.die (nth 0 ds (slice % max 1 ds.length))).walker n with
  | some nx => decide (slice < nx)
  | none => false

/-- Whether every slice has been published, or none will be (04 R69). -/
def State.allPublished (s : State) (n : Nat) (k : Kernel) : Bool :=
  k.done.isSome || k.rejected.isSome || k.failed ||
    (k.runnable.isSome && s.dies.all (fun (p : Nat × Die) => (Sparse.find? p.2.back n).isNone) && (replicaDies k.record).all (fun d =>
      let m := (replicaDies k.record).length
      let i := (replicaDies k.record).idxOf d
      decide ((sliceCount k.record + m - 1 - i) / max 1 m ≤ s.publishedBy n k d)))

/-- Trackers forget a kernel once it has completed and every kernel accepted before its completion has had all of its slices
published on every die (04 R69). -/
def State.forget (s : State) : State :=
  let open_ := (s.kernels.filter (fun (p : Nat × Kernel) => !s.allPublished p.1 p.2)).map (fun (p : Nat × Kernel) => p.1)
  let gone (n : Nat) : Bool := match s.kernel? n with
    | some k => (match k.done with | some c => open_.all (fun j => decide (c ≤ j)) | none => false)
    | none => true
  { s with dies := s.dies.map (fun (p : Nat × Die) => (p.1, { p.2 with next := p.2.next.filter (fun e => !gone e.1) })) }

/-! ## Completion (02 R38 to R40, 03 R49, R51, R56, R60) -/

/-- The report through a signal object. A failed update of host memory, another module's among it (09 R488), is an unowned error of die 0
(notes/assumptions/55.md); a signal that translates nowhere, or to a byte of the Glove, is left as it is (notes/assumptions/56.md). -/
def State.reportSignal (s : State) (va : Word) (err : Word) : State :=
  let s := s.keepWalk va
  match s.signalPa va with
  | none => s
  | some pa =>
    if s.refused pa && !s.isHost pa then (if rangeOf pa == .host then s.unowned 0 8 pa else s)
    else if s.isHost pa then
      let a := pa % 2 ^ 45
      if !s.hostUp then s.unowned 0 8 pa
      else
        let s1 := if err ≠ 0 ∧ leNat (s.hostBytes (a + 8) 8) = 0 then s.hostPut (a + 8) (leBytes 8 err.toNat) else s
        s1.hostPut a (leBytes 8 (BitVec.ofNat 64 (leNat (s1.hostBytes a 8)) - 1).toNat)
    else s.send ⟨none, 0, homeEngine pa, pa, va, .sigdec 1 err, .none, .mod, false, 0, none, false⟩

/-- The report of a kernel with SIGNAL = 0: into the completion array, at the size its queue had when the kernel was accepted (03 R44, R49), or
in the registers of R56. With no host link the entry is lost and the vector is raised all the same (notes/assumptions/57.md); a kernel
of the management subsystem's launch path reports nowhere (notes/assumptions/58.md). -/
def State.reportQueue (s : State) (k : Kernel) : State :=
  match k.source with
  | .host q i size =>
    let h := s.queue q
    let s1 := if s.hostUp then
        s.hostPut (h.qcbase.toNat + i % size * 16) (leBytes 16 (i % 2 ^ 32 + (recKid k.record).toNat * 2 ^ 32 + k.error.toNat * 2 ^ 64))
      else s
    if h.irq then s1.raise q else s1
  | .device d =>
    if k.error = 0 then s
    else
      let c := (s.die d).cfg.dqerrcnt.toNat % 65536
      let s1 := s.modDie d (fun x => { x with cfg := { x.cfg with dqerrcnt := BitVec.ofNat 64 (min (c + 1) 0xFFFF), dqerrw := k.error } })
      if c = 0 then s1.raise 66 else s1
  | .mailbox => s

/-- A continuation whose last child has completed becomes ready, its wd holding the child's first-error word (03 R60). The record may
still be on its way out of the core: it then finds the child complete. -/
def State.childDone (s : State) (n : Nat) : State :=
  match s.kernel? n with
  | none => s
  | some k =>
    match k.parent, k.done with
    | some (w, wd), some _ =>
      let mine (r : SliceRec) : Bool := r.kernel == w.kernel && r.slice == w.slice && (r.st == .waiting .child || r.st == .waiting .queueRoom)
      let s1 := s.setKernel n { k with parent := none }
      let more := s1.childOpen w.kernel w.slice
      if s.dies.any (fun (p : Nat × Die) => p.2.recs.any mine) then
        s1.modRecs mine (fun r =>
          let r1 := { r with words := r.words ++ [(wd, k.error)] }
          if r.st = .waiting .child ∧ more = false then { r1 with st := .queued, readySince := some s.ns } else r1)
      else s
    | _, _ => s

/-- A kernel completes: its report, the successors that name it, its waiting parent. -/
def State.completeKernel (s : State) (n : Nat) : State :=
  match s.kernel? n with
  | none => s
  | some k =>
    let s1 := s.setKernel n { k with done := some s.accepted }
    let s2 := if recSignal k.record ≠ 0 then s1.reportSignal (recSignal k.record) k.error else s1.reportQueue k
    let s3 := { s2 with kernels := s2.kernels.map (fun (p : Nat × Kernel) =>
      (p.1, ({ p.2 with deps := p.2.deps.map (fun (d : Dep) => if d.kernel = some n then { d with sat := true } else d) } : Kernel).settle s2.ns)) }
    (s3.childDone n).forget

/-! ## Acceptance (03 R42, R47, R50 to R53) -/

/-- The dependences of a record at its acceptance. -/
def State.depsOf (s : State) (r : BitVec 2048) : List Dep :=
  (List.range 4).filterMap (fun k =>
    let d := recDep r k
    match (d.extractLsb' 62 2).toNat with
    | 1 => some ⟨some (signVa (d.extractLsb' 0 57).toNat), none, false⟩
    | 2 =>
      match s.kidTable.reverse.find? (fun n => s.kidOf n == d.extractLsb' 0 32) with
      | none => some ⟨none, none, true⟩
      | some n => some ⟨none, some n, match s.kernel? n with | some x => x.done.isSome | none => true⟩
    | _ => none)

/-- The kernel-id table with a place for one more entry: the oldest completed entry goes when it is full; nothing when none has
completed. -/
def State.kidRoom (s : State) : Option (List Nat) :=
  if s.kidTable.length < 4096 then some s.kidTable
  else (s.kidTable.find? (fun n => match s.kernel? n with | some k => k.done.isSome | none => true)).map (fun n => s.kidTable.erase n)

/-- A record enters under the next acceptance number; one that fails a check completes at once (02 R22). -/
def State.acceptKernel (s : State) (r : BitVec 2048) (source : KSource) (priv : Bool) (parent : Option (Who × Nat)) : State :=
  match s.kidRoom with
  | none => s
  | some table =>
    let n := s.accepted
    let code := recCheck r
    let err : Word := match code with | some c => errWord (2 ^ 41 - 1) none 2 c | none => 0
    let k : Kernel := ⟨r, source, priv, if code.isSome then [] else s.depsOf r, none, code, [], [], code.isSome, err, none, parent⟩
    let s1 := { s with accepted := n + 1, kidTable := table ++ [n], kernels := Sparse.put s.kernels n (k.settle s.ns) }
    if code.isSome then s1.completeKernel n else s1.evalDeps false

/-- A record of free bytes, for a queue whose contents are undefined (03 R44). -/
def freeRecord (seed : Nat) : BitVec 2048 :=
  BitVec.ofNat 2048 (leNat ((List.range 256).map (fun i => Config.freeByte (seed * 256 + i))))

/-- Whether queue `t` of the turn (64 host queues, then 64 device queues) has a record to take (03 R47, R50). -/
def State.mayAccept (s : State) (t : Nat) : Bool :=
  if t < 64 then
    let h := s.queue t
    let i := h.qhead.toNat % 2 ^ 32
    let old := (i + 2 ^ 32 - h.size) % 2 ^ 32
    h.en && h.tail != h.qhead.setWidth 32 && !s.kernels.any (fun (p : Nat × Kernel) =>
      (match p.2.source with | .host q j _ => q == t && j == old | _ => false) && recSignal p.2.record == 0 && p.2.done.isNone)
  else !(s.die (t - 64)).dq.isEmpty

/-- Records of a die that wait for its device queue become ready (03 R60). -/
def State.queueRoomFreed (s : State) (d : Nat) : State :=
  s.modDie d (fun x => { x with recs := x.recs.map (fun (r : SliceRec) =>
    if r.st = .waiting .queueRoom then { r with st := .queued, readySince := some s.ns } else r) })

/-- One record taken from queue `t`. -/
def State.acceptFrom (s : State) (t : Nat) : State :=
  let s := { s with turn := (t + 1) % 128 }
  if t < 64 then
    let h := s.queue t
    let i := h.qhead.toNat % 2 ^ 32
    if s.about.flag || !s.hostUp then s.queueError t 1
    else
      let bytes := s.hostBytes (h.qbase.toNat + i % h.size * 256) 256
      let (r, s1) := if h.undef then (freeRecord s.free, s.tick) else (BitVec.ofNat 2048 (leNat bytes), s)
      (s1.setQueue t { h with qhead := BitVec.ofNat 64 ((i + 1) % 2 ^ 32) }).acceptKernel r (.host t i h.size) false none
  else
    let d := t - 64
    match (s.die d).dq with
    | [] => s
    | e :: rest =>
      let s1 := (s.modDie d (fun x => { x with dq := rest })).queueRoomFreed d
      let r := match e.overflow with | some pa => BitVec.ofNat 2048 (leNat (s.bytes pa 256)) | none => e.record
      s1.acceptKernel r (.device d) false (if e.waits then some (e.who, e.wd) else none)

/-- RECORD_ACCEPT: the next queue of the turn that has a record gives one; `flag` says that reading its slot fails. -/
def execRecordAccept (s : State) : Result :=
  .next (if s.frozenPower || s.kidRoom.isNone || s.mss.boot != .running then s
    else match ((List.range 128).map (fun i => (s.turn + i) % 128)).find? (fun t => s.mayAccept t) with
      | none => s
      | some t => s.acceptFrom t)

/-- HOST_SIGNAL_POLL: signal dependences in host memory are read again (03 R52). -/
def execHostSignalPoll (s : State) : Result := .next (s.evalDeps true)

/-- Where a record goes in the device launch queue of a die: one of the 256 places in sync SRAM, else the lowest free slot of the overflow
area (03 R55); nothing when neither has room. -/
def State.dqPlace (s : State) (d : Nat) : Option (Option Nat) :=
  let x := s.die d
  if (x.dq.filter (·.overflow.isNone)).length < 256 then some none
  else
    let taken := x.dq.filterMap (·.overflow)
    ((List.range (min x.cfg.dqosize.toNat (taken.length + 1))).map (fun i => x.cfg.dqobase.toNat + 256 * i)).find?
      (fun a => !taken.contains a) |>.map some

def State.dqRoom (s : State) (d : Nat) : Bool := (s.dqPlace d).isSome

/-- A record enters the device launch queue of a die; one in the overflow area lies in memory alone. -/
def State.enqueue (s : State) (d : Nat) (place : Option Nat) (record : BitVec 2048) (l : LaunchPend) : State :=
  match place with
  | none => s.modDie d (fun x => { x with dq := x.dq ++ [⟨record, l.who, l.wd, l.waits, none⟩] })
  | some pa =>
    let bs := leBytes 256 record.toNat
    (((List.range 256).foldl (fun (s : State) i => s.sendByte d (pa + i) (nth 0 bs i)) s).clearPoison pa 256).modDie d
      (fun x => { x with dq := x.dq ++ [⟨0, l.who, l.wd, l.waits, some pa⟩] })

/-- DEVICE_QUEUE_ENQUEUE_DONE: the queue logic takes or refuses the record of `LAUNCH` number `n`, which it reads once the release before it
is complete (03 R58); LAUNCHW of a record that finds no room waits for room (R60). -/
def execDeviceQueueEnqueueDone (s : State) : Result :=
  .next (match s.launches[s.about.n]? with
    | none => s
    | some l =>
      let d := dieOf l.who.core
      if !s.releasedFor l.who l.after then s
      else
        let s1 := { s with launches := s.launches.eraseIdx s.about.n }
        match s.dqPlace d with
        | some place =>
          let s2 := s1.enqueue d place (BitVec.ofNat 2048 (leNat (l.lines.flatMap (fun a => s.anyBytes a 64)))) l
          if l.waits then s2 else s2.status l.who (some l.wd) 0
        | none =>
          if l.waits then s1.modRun l.who.core (fun r =>
            if r.kernel = l.who.kernel ∧ r.slice = l.who.slice then { r with again := r.again ++ [(l.wd, l.va)] } else r)
          else s1.status l.who (some l.wd) 1)

/-- KERNEL_HANDOVER of kernel `kernel` to die `die`: the remaining deadline turned local (04 R62, R64, R76); a sleeping uncore wakes
first (21 R482). A kernel that a restore returns goes on where its walker was (17 R435). -/
def execKernelHandover (s : State) : Result :=
  let d := s.about.die
  let n := s.about.kernel
  .next (match s.kernel? n with
    | none => s
    | some k => match k.runnable with
      | none => s
      | some t =>
        if k.done.isSome ∨ k.failed ∨ s.frozenPower ∨ !(replicaDies k.record).contains d ∨ k.handed.contains d ∨ 512 ≤ (s.die d).next.length then s
        else if !s.awake (uncoreIsland d) then s.wake (uncoreIsland d)
        else
          let local_ := s.ns + (s.die d).skew
          let dl := if recDeadline k.record = 0 then none else some (local_ + (recDeadline k.record - (s.ns - t)))
          let first := ((s.die d).walker n).getD ((replicaDies k.record).idxOf d)
          (((s.applyCfg d).modDie d (fun x => { x with
            next := Sparse.put x.next n (first, dl), back := x.back.filter (fun p => p.1 != n || !p.2.2.isEmpty) }))).setKernel n
            { k with handed := k.handed ++ [d] })

/-! ## Retirement words and failure (04 R66 to R68, 18 R438) -/

/-- A record of a slice that has never started. -/
def SliceRec.fresh (r : SliceRec) : Bool :=
  r.ctx.isEmpty && !r.restored && (match r.st with | .queued | .offered _ _ _ | .transfer _ | .copy _ => true | _ => false)

/-- Whether a slice has started on some die. -/
def State.begun (s : State) (n slice : Nat) : Bool :=
  s.dies.any (fun (p : Nat × Die) => p.2.recs.any (fun r => r.kernel == n && r.slice == slice && !r.fresh))

/-- A kernel fails: its records that have not started are discarded with retirement words of status 0x02, and slices its walkers
have not published clear the edges to them at once. -/
def State.failKernel (s : State) (n : Nat) (err : Word) : State :=
  match s.kernel? n with
  | none => s
  | some k =>
    if k.failed ∨ k.done.isSome then s
    else
      let gone := dedup (s.dies.flatMap (fun (p : Nat × Die) =>
        (p.2.recs.filter (fun (r : SliceRec) => r.kernel == n && r.fresh)).map (·.slice) ++ (Sparse.get p.2.back (0, []) n).2))
      let dead := gone.filter (fun sl => !s.begun n sl)
      let clears (e : Nat × Nat) : Bool := e.1 == n && !s.published n k e.2
      let s1 := { s with dies := s.dies.map (fun (p : Nat × Die) => (p.1, { p.2 with
        reserve := (match p.2.reserve with | some (q, a, b) => if a = n then none else some (q, a, b) | none => none)
        back := p.2.back.map (fun (e : Nat × Nat × List Nat) => if e.1 = n then (e.1, e.2.1, []) else e)
        recs := (p.2.recs.filter (fun (r : SliceRec) => !(r.kernel == n && r.fresh))).map (fun (r : SliceRec) =>
          let es := r.edges.filter (fun e => !clears e)
          { r with edges := es, readySince := if es.isEmpty ∧ r.readySince.isNone then some s.ns else r.readySince }) })) }
      dead.foldl (fun s sl => s.sendWords n sl (some 2)) (s1.setKernel n { k with failed := true, error := err })

/-- RETIREMENT_WORD_ARRIVAL: word `n` reaches its tracker or the launch unit. -/
def execRetirementWordArrival (s : State) : Result :=
  .next (match s.words[s.about.n]? with
    | none => s
    | some w =>
      let s1 := { s with words := s.words.eraseIdx s.about.n }
      match w.dest with
      | some d =>
        if !s.awake (uncoreIsland d) then s.wake (uncoreIsland d)
        else s1.modDie d (fun x => { x with recs := x.recs.map (fun (r : SliceRec) =>
          let es := r.edges.filter (fun e => !(e.1 == w.kernel && e.2 == w.slice))
          { r with edges := es, readySince := if es.isEmpty ∧ r.readySince.isNone then some s.ns else r.readySince }) })
      | none =>
        let s2 := s1.modKernel w.kernel (fun k => if k.retired.contains w.slice then k else { k with retired := k.retired ++ [w.slice] })
        (match w.err with | some e => s2.failKernel w.kernel e | none => s2).forget)

/-- Whether a kernel has nothing left to retire (18 R437). -/
def State.finished (s : State) (n : Nat) (k : Kernel) : Bool :=
  k.done.isNone && k.runnable.isSome &&
    (if k.failed then decide (((replicaDies k.record).map (s.publishedBy n k)).foldl (· + ·) 0 ≤ k.retired.length)
     else decide (sliceCount k.record ≤ k.retired.length))

/-- KERNEL_COMPLETE of kernel `kernel`. -/
def execKernelComplete (s : State) : Result :=
  let n := s.about.kernel
  .next (match s.kernel? n with
    | none => s
    | some k => if s.finished n k then s.completeKernel n else s)

end Sys2Proof.Machine
end

