-- ==== Sys2Proof/Machine/Context.lean ====
section
/-!
DEFINITION. Context records (17 R421 to R428): their bytes, leaving a core, resuming on one; the steps CONTEXT_RECORD_WRITE and
LONG_WAIT_YIELD.
-/
namespace Sys2Proof.Machine

open Sys2Proof

/-! ## The bytes of a record (17 R428) -/

/-- A field of a record: offset, bytes, value. -/
abbrev Piece := Nat × Nat × Nat

/-- The bytes that are not 0, in order of the fields. -/
def pieceCells (ps : List Piece) : List (Nat × Byte) :=
  ps.flatMap (fun (p : Piece) => if p.2.2 = 0 then [] else
    (List.range p.2.1).filterMap (fun i => let b := BitVec.ofNat 8 (p.2.2 / 2 ^ (8 * i)); if b = 0 then none else some (p.1 + i, b)))

/-- The 6-bit code a port keeps; a literal names no register and is kept as code 60 (notes/assumptions/30.md). -/
def Port.code6 (p : Port) : Nat := match p.code with | .op o => o.code.toNat | .lit _ => 60

def portTag (p : Port) : Nat := p.code6 + (if p.void then 256 else 0)

/-- Scalar slots with ports, and the vector ports, in the order of SPORT and VPORT. -/
def scalarPorts : List (Slot × Bool) := [Slot.c, .i0, .i1, .ls, .en].flatMap (fun s => [(s, false), (s, true)])
def vectorPorts : List (Slot × Bool) := [Slot.va, .vb].flatMap (fun s => [(s, false), (s, true)])

def portAt (ps : Sparse Port) (x : Slot × Bool) : Port := Sparse.get ps Port.init (portKey x.1 x.2)

/-- Fields of a list of equal width. -/
def pieceRow (off n : Nat) (vs : List Nat) : List Piece := (List.range vs.length).map (fun i => (off + n * i, n, nth 0 vs i))

def wordsOf (m : Sparse Word) (n : Nat) : List Nat := (List.range n).map (fun i => (Sparse.get m 0 i).toNat)
def vecsOf (m : Sparse Vec) (n : Nat) : List Nat := (List.range n).map (fun i => (Sparse.get m 0 i).toNat)

/-- Ports saved at one place: tags of scalars beside their values, vector tags and values apart. -/
def portPieces (ps : Sparse Port) (scalar tags vals : Nat) : List Piece × List Piece × List Piece :=
  ((List.range scalarPorts.length).flatMap (fun i =>
      let p := portAt ps (nth (.c, false) scalarPorts i)
      [(scalar + 16 * i, 8, p.word.toNat), (scalar + 16 * i + 8, 8, portTag p)]),
    pieceRow tags 8 (vectorPorts.map (fun x => portTag (portAt ps x))),
    pieceRow vals 256 (vectorPorts.map (fun x => (portAt ps x).val.toNat)))

/-- File and index of a latch entry (17 R424). A write of another field of a loop level than INDEX has an index of 8 and above
(notes/assumptions/31.md). -/
def latchFile (r : RegName) : Nat × Nat :=
  match r with
  | .c n => (0, n) | .f n => (1, n) | .x n => (2, n) | .y n => (3, n) | .z n => (4, n) | .w n => (5, n)
  | .va n => (6, n) | .vb n => (7, n) | .pa n => (8, n) | .pb n => (9, n) | .ac n => (10, n) | .i n => (11, n) | .j n => (12, n)
  | .loop k .index => (11, k) | .loop k .start => (11, 8 + k) | .loop k .last => (11, 16 + k) | .loop k .count => (11, 24 + k)

/-- The register of a latch entry. -/
def latchReg (file ix : Nat) : RegName :=
  match file with
  | 0 => .c ix | 1 => .f ix | 2 => .x ix | 3 => .y ix | 4 => .z ix | 5 => .w ix | 6 => .va ix | 7 => .vb ix
  | 8 => .pa ix | 9 => .pb ix | 10 => .ac ix | 12 => .j ix
  | _ => if ix < 8 then .loop ix .index else if ix < 16 then .loop (ix - 8) .start
    else if ix < 24 then .loop (ix - 16) .last else .loop (ix - 24) .count

/-- The latch bank from an offset on, ended by 0xFF. A masked vector entry is saved with the register's present lanes in
place of the inactive ones (notes/assumptions/31.md). -/
def latchPieces (k : Core) : Nat → List Latch → List Piece
  | off, [] => [(off, 1, 0xFF)]
  | off, l :: ls =>
    let (f, i) := latchFile l.reg
    match l.val with
    | .vec v m => (off, 4, f + i * 256 + l.rest * 65536 + 2 ^ 24) :: (off + 16, 256, (mixLanes m v (k.wide l.reg)).toNat) ::
        latchPieces k (off + 272) ls
    | v => (off, 3, f + i * 256 + l.rest * 65536) :: (off + 8, 8, v.toWord.toNat) :: latchPieces k (off + 16) ls

/-- The correction counter, the status and the armed register. -/
def MxSt.chkWord (m : MxSt) : Nat :=
  m.ncorr.toNat + (match m.chk with
    | none => 0
    | some c => (match c.status with | .clean => 1 | .ue => 2 | .det => 3) * 2 ^ 16 + c.ac * 2 ^ 20 + 2 ^ 24)

/-- The record of a core whose slice leaves it, in order of its offsets. -/
def Core.record (k : Core) : List Piece :=
  let rank := match k.run with | some r => r.rank | none => 0
  let t := k.trap
  let act := t.active
  let bit (b : Bool) (n : Nat) : Nat := if b then 2 ^ n else 0
  let lv (i : Nat) : LoopLevel := nth ⟨0, 0, 0, 0⟩ k.loops i
  let (sp, vt, vv) := portPieces k.ports 0x680 0x1C00 0x1800
  let (tsp, tvt, tvv) := portPieces t.ports 0x46000 0x460A0 0x46100
  [(0, 8, 1 + bit k.mx.dead 8 + k.loops.length * 2 ^ 9 + rank * 2 ^ 12 + bit k.mx.dead 14 + bit act 15),
    (0x8, 8, k.pc.toNat), (0x10, 8, t.allow.toNat), (0x18, 8, k.issued)] ++
  (List.range 6).flatMap (fun i => let l := lv i
    [(0x20 + 32 * i, 8, l.start.toNat), (0x28 + 32 * i, 8, l.last.toNat), (0x30 + 32 * i, 4, l.count.toNat), (0x34 + 32 * i, 4, l.index.toNat)]) ++
  pieceRow 0xE0 4 ((List.range 6).map (fun i => (nth 0 k.j i).toNat)) ++
  pieceRow 0x100 8 (wordsOf k.regs.c 16) ++ [(0x180, 8, k.regs.f.toNat)] ++
  pieceRow 0x188 8 ([1, 2, 3].map (fun i => (predOf k.regs.pa i).toNat) ++ [1, 2, 3].map (fun i => (predOf k.regs.pb i).toNat)) ++
  [(0x1B8, 8, k.mx.chkWord)] ++
  (if act then pieceRow 0x1C0 8 [t.tcause.toNat, t.tpc.toNat, t.info.addr.toNat, t.twhere.toNat, t.tmode.toNat] else []) ++
  pieceRow 0x200 8 (wordsOf k.regs.x 32) ++ pieceRow 0x300 8 (wordsOf k.regs.y 32) ++ pieceRow 0x400 8 (wordsOf k.regs.z 32) ++
  pieceRow 0x500 8 (wordsOf k.regs.w 16) ++ [(0x580, 8, (k.wpend.map (fun n => 2 ^ n)).foldl (· ||| ·) 0)] ++
  pieceRow 0x600 8 (wordsOf k.regs.ac 16) ++ sp ++
  pieceRow 0x800 64 ((List.range 16).map (fun i => match Sparse.find? k.q i with | some q => q.desc.toNat | none => 0)) ++
  [(0xC00, 8, (k.q.map (fun q => 2 ^ q.1)).foldl (· ||| ·) 0), (0xC08, 8, (k.mx.epi.map (fun e => 2 ^ e.1)).foldl (· ||| ·) 0)] ++
  k.mx.epi.flatMap (fun e => pieceRow (0x1000 + 128 * e.1) 4 (e.2.words.map (·.toNat))) ++ vv ++ vt ++
  pieceRow 0x2000 256 (vecsOf k.regs.va 32) ++ pieceRow 0x4000 256 (vecsOf k.regs.vb 32) ++
  (if k.mx.dead then [] else k.acc.map (fun e => (0x6000 + 16 * e.1, 16, leNat e.2.record))) ++
  (if act then tsp ++ tvt ++ tvv ++ latchPieces k 0x46800 t.bank else [])

/-- The size of a record (17 R427). -/
def ctxSpan : Nat := 0x48000
def State.ctxBase (s : State) (die i : Nat) : Nat := (s.die die).cfg.ctxbase.toNat + i * ctxSpan

/-- Bytes in order of their addresses: the fields of a record already stand so. -/
def inOrder (cs : List (Nat × Byte)) : List (Nat × Byte) := if Sparse.rising cs then cs else Sparse.puts [] cs

/-- Whether the bytes of a record are plain memory: DRAM, or CXL memory that is backed and has no byte of an expander's own. -/
def State.plainRecord (s : State) (pa : Nat) : Bool :=
  [pa, pa + ctxSpan - 1].all (fun a => !s.unbacked a && (rangeOf a == .dram || (rangeOf a == .cxl && s.cxlLosses == 0)))

/-- The parts of a record that its form holds (17 R428): the light or the full form, and the area of a handler that was running. -/
def recordSpans (light active : Bool) : List (Nat × Nat) :=
  (0, if light then 0x6000 else 0x46000) :: (if active then [(0x46000, 0x2000)] else [])

/-- A record written by die `d`: every byte of the parts it holds, those no field names as 0. -/
def State.putRecordAt (s : State) (d pa : Nat) (spans : List (Nat × Nat)) (ps : List Piece) : State :=
  if !s.plainRecord pa then
    let cells := inOrder (pieceCells ps)
    spans.foldl (fun s p =>
      ((List.range p.2).foldl (fun s i => s.sendByte d (pa + p.1 + i) (Sparse.get cells 0 (p.1 + i))) s).clearPoison (pa + p.1) p.2) s
  else
    let held (a : Nat) : Bool := spans.any (fun p => decide (pa + p.1 ≤ a ∧ a < pa + p.1 + p.2))
    let icy (a : Nat) : Bool := s.frozen.any (fun r => decide (r.1 ≤ a ∧ a < r.1 + r.2))
    let cells := inOrder (((pieceCells ps).map (fun c => (pa + c.1, c.2))).filter (fun (c : Nat × Byte) => !icy c.1))
    let kept := s.mem.filter (fun (c : Host.Cell) => !held c.1 || icy c.1)
    spans.foldl (fun s p => s.markSpan (pa + p.1) p.2)
      ({ s.stir pa with mem := Sparse.merge kept cells, poison := s.poison.filter (fun p => !held p) } : State)

/-! ## Reading a record -/

/-- The bytes of a record that are not 0, by offset. -/
def State.recordCells (s : State) (pa : Nat) : List (Nat × Byte) :=
  if !s.plainRecord pa then
    (List.range ctxSpan).filterMap (fun i => let b := s.byte (pa + i); if b = 0 then none else some (i, b))
  else (s.mem.filter (fun (c : Host.Cell) => decide (pa ≤ c.1 ∧ c.1 < pa + ctxSpan))).map (fun c => (c.1 - pa, c.2))

/-- A field of a record. -/
def fieldAt (w : List (Nat × Byte)) (off n : Nat) : Nat :=
  (w.filter (fun c => decide (off ≤ c.1 ∧ c.1 < off + n))).foldl (fun a c => a + c.2.toNat * 2 ^ (8 * (c.1 - off))) 0

/-- Whether a record that core n loads meets an uncorrectable error (18 R441). -/
def State.recordFails (s : State) (pa : Nat) : Bool :=
  s.unbacked pa || s.unbacked (pa + ctxSpan - 1) ||
    (let w := s.recordCells pa
     let hdr := fieldAt w 0 8
     s.poison.any (fun p => (recordSpans (Nat.testBit hdr 8) (Nat.testBit hdr 15)).any (fun q => decide (pa + q.1 ≤ p ∧ p < pa + q.1 + q.2))))

/-- A file of registers from a record: registers that hold 0 are not listed. -/
def fileAt (bits : Nat) (w : List (Nat × Byte)) (off n : Nat) : Sparse (BitVec bits) :=
  (List.range n).filterMap (fun i =>
    let v := fieldAt w (off + bits / 8 * i) (bits / 8)
    if v = 0 then none else some (i, BitVec.ofNat bits v))

/-- A port from its value, tag and slot. -/
def portFrom (cycle : Nat) (x : Slot × Bool) (val tag : Nat) : Nat × Port :=
  let o := Opnd.ofCode (x.1 == .c) (BitVec.ofNat 6 tag)
  (portKey x.1 x.2, ⟨BitVec.ofNat 2048 val, .op o, nameOf x.1 o, cycle, Nat.testBit tag 8⟩)

def portsFrom (cycle : Nat) (w : List (Nat × Byte)) (scalar tags vals : Nat) : Sparse Port :=
  Sparse.puts [] ((List.range scalarPorts.length).map (fun i =>
      portFrom cycle (nth (.c, false) scalarPorts i) (fieldAt w (scalar + 16 * i) 8) (fieldAt w (scalar + 16 * i + 8) 8)) ++
    (List.range vectorPorts.length).map (fun i =>
      portFrom cycle (nth (.va, false) vectorPorts i) (fieldAt w (vals + 256 * i) 256) (fieldAt w (tags + 8 * i) 8)))

/-- A latched word: all ones of a w register that still waits for its engine is its pending value (06 R133). -/
def latchWord (waits : Nat → Bool) (r : RegName) (v : Word) : RVal :=
  match r with | .w n => if waits n && v == BitVec.allOnes 64 then .mark else .word v | _ => .word v

/-- The latch bank from an offset on. -/
def latchesFrom (w : List (Nat × Byte)) : Nat → Nat → List Latch
  | 0, _ => []
  | f + 1, off =>
    let file := fieldAt w off 1
    if file = 0xFF ∨ ctxSpan ≤ off then []
    else
      let reg := latchReg file (fieldAt w (off + 1) 1)
      let rest := fieldAt w (off + 2) 1
      if fieldAt w (off + 3) 1 % 2 = 1 then
        ⟨reg, .vec (BitVec.ofNat 2048 (fieldAt w (off + 16) 256)) (BitVec.allOnes 64), rest⟩ :: latchesFrom w f (off + 272)
      else ⟨reg, latchWord (fun n => Nat.testBit (fieldAt w 0x580 8) n) reg (BitVec.ofNat 64 (fieldAt w (off + 8) 8)), rest⟩ ::
        latchesFrom w f (off + 16)

/-- Elements of the array from a full record. -/
def accFrom (w : List (Nat × Byte)) : Sparse Elem :=
  let cells := w.filter (fun c => decide (0x6000 ≤ c.1 ∧ c.1 < 0x46000))
  (dedup (cells.map (fun c => (c.1 - 0x6000) / 16))).map (fun key =>
    (key, Elem.ofRecord (leBytes 16 (fieldAt cells (0x6000 + 16 * key) 16))))

/-- A check armed again on the region its register describes, with its status and counter (17 R423). -/
def chkFrom (acc : Sparse Elem) (ac : Sparse Word) (word : Nat) : Option Check :=
  if !Nat.testBit word 24 then none
  else
    let n := word / 2 ^ 20 % 16
    let r := (regionOf (Sparse.get ac 0 n)).region
    let el (i j : Nat) : Elem := (Sparse.get acc Elem.zero (elemKey r i j)).seen
    let st : ChkStatus := match word / 2 ^ 16 % 4 with | 2 => .ue | 3 => .det | _ => .clean
    some ⟨n, r, sumCols r el, sumRows r el, st, 0⟩

/-- The trap state of a record whose HDR[15] is set (17 R416, R424). -/
def trapFrom (cycle : Nat) (w : List (Nat × Byte)) (allow : Word) : TrapSt :=
  let f := fieldAt w
  if !Nat.testBit (f 0 8) 15 then { TrapSt.reset with allow := allow }
  else
    let cause := f 0x1C0 8
    let where_ := f 0x1D8 8
    let mode := f 0x1E0 8
    ⟨true, ⟨BitVec.ofNat 8 cause, BitVec.ofNat 8 (cause / 256), BitVec.ofNat 64 (f 0x1D0 8), BitVec.ofNat 2 (where_ / 256),
      where_ / 8 % 4, Slot.ofCode (BitVec.ofNat 4 (where_ % 8))⟩, BitVec.ofNat 64 (f 0x1C8 8), mode % 8, allow,
      latchesFrom w 256 0x46800, portsFrom cycle w 0x46000 0x460A0 0x46100⟩

/-- A core that loads a record (17 R423): every stream unchecked; a light record leaves the array at 0. -/
def Core.load (k : Core) (w : List (Nat × Byte)) : Core :=
  let f := fieldAt w
  let hdr := f 0 8
  let light := Nat.testBit hdr 8
  let acc := if light then [] else accFrom w
  let ac := fileAt 64 w 0x600 16
  let pred (off : Nat) : Sparse Word := (fileAt 64 w off 3).map (fun p => (p.1 + 1, p.2))
  let allow := BitVec.ofNat 64 (f 0x10 8)
  let on (off i : Nat) : Bool := Nat.testBit (f off 8) i
  { k with
    regs := ⟨fileAt 64 w 0x100 16, BitVec.ofNat 16 (f 0x180 8), fileAt 64 w 0x200 32, fileAt 64 w 0x300 32, fileAt 64 w 0x400 32,
      fileAt 64 w 0x500 16, fileAt 2048 w 0x2000 32, fileAt 2048 w 0x4000 32, pred 0x188, pred 0x1A0, ac⟩
    loops := (List.range (hdr / 2 ^ 9 % 8)).map (fun i => ⟨BitVec.ofNat 64 (f (0x20 + 32 * i) 8), BitVec.ofNat 64 (f (0x28 + 32 * i) 8),
      BitVec.ofNat 32 (f (0x30 + 32 * i) 4), BitVec.ofNat 32 (f (0x34 + 32 * i) 4)⟩)
    j := (List.range 6).map (fun i => BitVec.ofNat 32 (f (0xE0 + 4 * i) 4))
    pc := BitVec.ofNat 64 (f 0x8 8)
    issued := f 0x18 8
    ports := portsFrom k.cycle w 0x680 0x1C00 0x1800
    q := ((List.range 16).filter (on 0xC00)).map (fun i => (i, ⟨BitVec.ofNat 512 (f (0x800 + 64 * i) 64), false, 0⟩))
    acc := acc
    mx := { MxSt.reset with
      accNew := acc, busy := k.mx.busy
      epi := ((List.range 16).filter (on 0xC08)).map (fun i =>
        let ws := (List.range 32).map (fun j => BitVec.ofNat 32 (f (0x1000 + 128 * i + 4 * j) 4))
        (i, ⟨(epiTake 32 ws).getD ws, k.cycle⟩))
      chk := if light then none else chkFrom acc ac (f 0x1B8 8)
      ncorr := BitVec.ofNat 16 (f 0x1B8 8)
      dead := Nat.testBit hdr 14 }
    wpend := (List.range 16).filter (on 0x580)
    trap := trapFrom k.cycle w allow }

/-! ## Waits of a slice (04 R82) -/

def SyncMsg.ofSlice (m : SyncMsg) (kernel slice : Nat) : Bool :=
  match m.who with | some w => w.kernel == kernel && w.slice == slice && m.reply == .wait | none => false

/-- The waits of a slice at rings, phasers and monitors, and those on their way there, changed or removed. -/
def State.mapWaits (s : State) (sel : SyncMsg → Bool) (f : SyncMsg → Option SyncMsg) : State :=
  let one (l : List SyncMsg) : List SyncMsg := l.filterMap (fun m => if sel m then f m else some m)
  let two (l : List (SyncMsg × W32)) : List (SyncMsg × W32) := l.filterMap (fun p => if sel p.1 then (f p.1).map (fun m => (m, p.2)) else some p)
  { s with
    msgs := one s.msgs, monitors := one s.monitors
    objs := s.objs.map (fun (p : Nat × ObjRec) => (p.1, { p.2 with obj := match p.2.obj with
      | .ring r => .ring { r with waits := one r.waits }
      | .phaser x => .phaser { x with waits := two x.waits }
      | .seq q => .seq q })) }

/-- Whether a wait of one rank is still open. -/
def State.waitOpen (s : State) (kernel slice rank : Nat) : Bool :=
  let mine (m : SyncMsg) : Bool := m.ofSlice kernel slice && (match m.who with | some w => w.rank == rank | none => false)
  s.msgs.any mine || s.monitors.any mine || s.objs.any (fun (p : Nat × ObjRec) => match p.2.obj with
    | .ring r => r.waits.any mine | .phaser x => x.waits.any (fun y => mine y.1) | .seq _ => false)

/-! ## Leaving a core -/

/-- Why a slice whose last member has left is not ready yet, if it is not. -/
def State.leaveWait (s : State) (kernel slice rank : Nat) (die : Nat) (again : Bool) (l : Leave) : Option WaitFor :=
  match l with
  | .preempt | .yield => none
  | .launchw =>
    if again then (if s.dqRoom die then none else some .queueRoom)
    else if s.childOpen kernel slice then some .child else none
  | .longWait => if s.waitOpen kernel slice rank then some .wait else none
  | .pageFault t => if s.faults.any (fun f => f.token == BitVec.ofNat 32 t) then some (.host t) else none

/-- A member's core, when it may write its record: it leaves, or has issued its last EXIT while another member leaves (21 R483), it has
drained, a LAUNCHW's record has been taken or refused, and its record is not written yet. -/
def State.mayWriteRecord (s : State) (n : Nat) (r : Run) (rec_ : SliceRec) : Bool :=
  (s.core n).drained && !rec_.ctx.any (fun c => c.1 == r.rank) && s.ctxFree (dieOf n) &&
    (match r.leave with
    | none => r.ended && (s.members r.kernel r.slice).any (fun m => match (s.core m).run with | some q => q.leave.isSome | none => false)
    | some .launchw => !s.launches.any (fun l => l.who.kernel == r.kernel && l.who.slice == r.slice && l.waits)
    | some _ => true)

/-- The lowest record number of a die that is free. -/
def State.freeCtx (s : State) (d : Nat) : Nat :=
  let used := (s.die d).ctxUsed
  match (List.range (used.length + 1)).find? (fun i => !used.contains i) with | some i => i | none => used.length

/-- The kernel `p` is a child of the slice and has completed: the register it writes, with its word. -/
def Kernel.childWord (k : Kernel) (kernel slice : Nat) : Option (Nat × Word) :=
  match k.parent, k.done with
  | some (w, wd), some _ => if w.kernel = kernel ∧ w.slice = slice then some (wd, k.error) else none
  | _, _ => none

/-- The last member has written its record: the gang's cores are freed, and the slice is ready or waits (17 R421, 04 R81, R82). -/
def State.leaveDone (s : State) (kernel slice die : Nat) : State :=
  let ms := s.members kernel slice
  let waits := ms.filterMap (fun m => match (s.core m).run with
    | some q => (match q.leave with | some l => s.leaveWait kernel slice q.rank die (!q.again.isEmpty) l | none => none)
    | none => none)
  let gave := (ms.filter (fun m => !(s.core m).kept.isEmpty)).map (fun m => ((s.core m).rank, (s.core m).kept))
  let forks := (ms.filter (fun m => (s.core m).forkTrap != .none)).map (fun m => ((s.core m).rank, (s.core m).forkTrap))
  let marks := ms.filterMap (fun m => (s.core m).run.map (fun q => (q.rank, q.budgetMark, q.marked)))
  let again := ms.flatMap (fun m => match (s.core m).run with | some q => q.again | none => [])
  -- a child that has completed meanwhile gives its word
  let words := s.kernels.filterMap (fun (p : Nat × Kernel) => p.2.childWord kernel slice)
  let s1 := ms.foldl (fun s m => s.vacate m) s
  let st : RecState := match waits with | w :: _ => .waiting w | [] => .queued
  let s2 := { s1 with kernels := s1.kernels.map (fun (p : Nat × Kernel) =>
    (p.1, if (p.2.childWord kernel slice).isSome then { p.2 with parent := none } else p.2)) }
  s2.modRecs (fun r => r.kernel == kernel && r.slice == slice && r.st == .started)
    (fun r => { r with
      st := st, readySince := if st = .queued then some s.ns else none, bound := [], waits := gave, words := r.words ++ words, forks := forks, marks := marks, again := again, home := die })

/-- CONTEXT_RECORD_WRITE: core `core`, drained, writes its record as a release at `.mod` and gives up its slice. -/
def execContextRecordWrite (s : State) : Result :=
  let n := s.about.core
  let d := dieOf n
  .next (match (s.core n).run with
    | none => s
    | some r => match (s.die d).recs.find? (fun x => x.kernel == r.kernel && x.slice == r.slice && x.st == .started) with
      | none => s
      | some rec_ =>
        if !s.mayWriteRecord n r rec_ then s
        else
          let s := s.release n
          let i := s.freeCtx d
          let s1 := s.putRecordAt d (s.ctxBase d i) (recordSpans (s.core n).mx.dead (s.core n).trap.active) (s.core n).record
          let s2 := (s1.modDie d (fun x => { x with ctxUsed := x.ctxUsed ++ [i] })).modRecs
            (fun x => x.kernel == r.kernel && x.slice == r.slice && x.st == .started)
            (fun x => { x with
              ctx := x.ctx ++ [(r.rank, i)], home := d
              progress := x.progress.filter (fun p => p.1 != r.rank) ++ [(r.rank, if r.ended then r.last + 1 else r.ordinal)] })
          if rec_.ctx.length + 1 < r.width then s2 else s2.leaveDone r.kernel r.slice d)

/-- LONG_WAIT_YIELD: the slice on core `core` has been blocked for longer than YIELDTHR and gives up its core, once a context record is
free (04 R82, 15 R380, 17 R427). A reach of a wired barrier is withdrawn. -/
def execLongWaitYield (s : State) : Result :=
  let n := s.about.core
  let k := s.core n
  let us := bitsOf (s.die (dieOf n)).cfg.schedcfg 16 16
  .next (match k.run, k.wait.since with
    | some r, some t =>
      let atBarrier := match k.reached with | some m => decide (m < 8) | none => k.atSync
      let past := match k.reached with | some m => decide (8 ≤ m) | none => false
      if r.leave.isSome ∨ s.ns ≤ t + 1000 * us ∨ (k.wait.answer.isSome && !atBarrier) = true ∨ past = true ∨ !s.ctxFree (dieOf n) then s
      else
        let s1 := if k.reached.isSome then s.withdraw n else s
        let s2 := s1.mapWaits (fun m => m.ofSlice r.kernel r.slice && (match m.who with | some w => w.rank == r.rank | none => false))
          (fun m => some { m with watch := true })
        ((s2.modRun n (fun q => { q with leave := some .longWait, preempt := false })).modCore n (fun k =>
          { k.dropGroup with pc := if k.grp.active then k.grp.start else k.pc })).markGang n
    | _, _ => s)

/-- Member `i` of a slice that resumes loads its record on the core bound to it (17 R423), with the words its children gave it and its
interrupted wait. Engine writes delivered meanwhile come after its first bundle (R422). -/
def State.resumeMember (s : State) (rec_ : SliceRec) (kern : Kernel) (i : Nat) : State :=
  let n := nth 0 rec_.bound i
  match rec_.ctx.find? (fun c => c.1 == i) with
  | none => s
  | some (_, x) =>
    let cells := s.recordCells (s.ctxBase rec_.home x)
    let last := sliceLast kern.record rec_.slice
    let ord := match rec_.progress.find? (fun p => p.1 == i) with | some p => p.2 | none => sliceFirst kern.record rec_.slice
    let (owed, marked) := match rec_.marks.find? (fun p => p.1 == i) with | some p => p.2 | none => (false, none)
    let run : Run := ⟨rec_.kernel, rec_.slice, min ord last, last, i, rec_.bound.length, kern.priv, rec_.deadline, owed, false, none,
      decide (last < ord), marked, []⟩
    let kept := match rec_.waits.find? (fun p => p.1 == i) with | some p => p.2 | none => []
    let words := if i = 0 then rec_.words else []
    let s1 := s.modCore n (fun k =>
      let k1 := Core.load k.idle cells
      { k1 with
        regs := words.foldl (fun (r : Regs) v => r.commit (.w v.1) (.word v.2)) k1.regs
        wpend := words.foldl (fun (l : List Nat) v => l.erase v.1) k1.wpend
        run := some run, wait := Wait.none, kept := kept, holdUntil := k.cycle, resuming := true
        forkTrap := match rec_.forks.find? (fun p => p.1 == i) with | some p => p.2 | none => .none })
    s1.acquire n .mod

/-- LAUNCHWs that found their queue full are issued again as their slice resumes on core n (03 R60): their addresses are translated anew, and
the slice leaves at once. One that faults keeps its turn until the handler has returned (notes/assumptions/80.md). -/
def State.launchAgain (s : State) (n : Nat) : List (Nat × Word) → State
  | [] => s
  | (wd, va) :: rest =>
    match ({ s with me := n } : State).recordLines va with
    | .ok (ls, ms) =>
      let k := s.core n
      let s1 := ms.foldl (fun s u => s.missOn n u) s
      let l : LaunchPend := ⟨k.who n, wd, true, va, ls, k.rels⟩
      State.launchAgain (({ s1 with launches := s1.launches ++ [l] } : State).modRun n (fun r => { r with leave := some .launchw })) n rest
    | .error f =>
      (s.modRun n (fun r => { r with again := (wd, va) :: rest, preempt := true, leave := none })).trapTo n
        ⟨f.code, f.sub, f.addr, f.kind, 0, .en⟩ (s.core n).pc (s.core n).cycle

/-- A slice that resumes on the cores bound to it, each member with the most issue cycles that any of them counted (02 R28); its records are free
again. A LAUNCHW that found its queue full goes to the queue again (03 R60). A record with an uncorrectable error ends the slice (18 R440). -/
def State.resumeOn (s : State) (die : Nat) (rec_ : SliceRec) : State :=
  match s.kernel? rec_.kernel with
  | none => s
  | some kern =>
    if rec_.ctx.any (fun c => s.recordFails (s.ctxBase rec_.home c.2)) then
      s.endAway (nth 0 rec_.bound 0) rec_.kernel rec_.slice (errWord rec_.slice rec_.bound.head? 1 tEccUe)
    else
    let s1 := (List.range rec_.bound.length).foldl (fun s i => s.resumeMember rec_ kern i) s
    let most := (rec_.bound.map (fun n => (s1.core n).issued)).foldl max 0
    let s2 := rec_.bound.foldl (fun s n => s.modCore n (fun k => { k with issued := most })) s1
    let used := rec_.ctx.map (·.2)
    let s3 := (s2.mapWaits (fun m => m.watch && m.ofSlice rec_.kernel rec_.slice) (fun _ => none)).modDie rec_.home (fun x => { x with
      ctxUsed := x.ctxUsed.filter (fun i => !used.contains i) })
    let s4 := ({ s3 with replies := s3.replies ++ rec_.late } : State).modRecs
      (fun r => r.kernel == rec_.kernel && r.slice == rec_.slice && r.st == .started)
      (fun r => { r with ctx := [], late := [], waits := [], progress := [], words := [], forks := [], marks := [], again := [], home := die })
    s4.launchAgain (nth 0 rec_.bound 0) rec_.again

end Sys2Proof.Machine
end

