-- ==== Sys2Proof/Machine/Schedule.lean ====
section
/-!
DEFINITION. The die schedulers (04, 17 R427): publication with its edges, rank, binding, starting and resuming, ageing, pre-emption
marks, stealing. The steps SLICE_PUBLISH, SLICE_BIND, SLICE_START, SLICE_RESUME, RECORD_AGED, PREEMPT_MARK and the seven of a steal.
-/
namespace Sys2Proof.Machine

open Sys2Proof

/-! ## Publication (04 R63, R65, R67) -/

/-- The regions of an entry over a slice (02 R32): first byte and length. -/
def sliceRegions (r : BitVec 2048) (e : BitVec 128) (slice : Nat) : List (Nat × Nat) :=
  if nestTotal r = 0 then []
  else (List.range (sliceLast r slice + 1 - sliceFirst r slice)).map (fun i => (footStart e (nestTuple r (sliceFirst r slice + i)), footLen e))

/-- W and RW. -/
def footWrites (e : BitVec 128) : Bool := footMode e == 1 || footMode e == 2

/-- Whether footprints of two slices meet, one of the two entries writing (R65). -/
def feetMeet (ra : BitVec 2048) (sa : Nat) (rb : BitVec 2048) (sb : Nat) : Bool :=
  (recFeet ra).any (fun e => (recFeet rb).any (fun f =>
    (footWrites e || footWrites f) &&
      (let ys := sliceRegions rb f sb
       (sliceRegions ra e sa).any (fun x => ys.any (fun y => meets x.1 x.2 y.1 y.2)))))

/-- Whether the retirement word of a slice has reached a die: it was sent, and is not on its way there (R66, R67, R69). -/
def State.cleared (s : State) (n : Nat) (k : Kernel) (slice die : Nat) : Bool :=
  (k.done.isSome || k.retired.contains slice || s.words.any (fun w => w.kernel == n && w.slice == slice && w.dest.isNone) ||
    (k.failed && !s.published n k slice)) &&
    !s.words.any (fun w => w.kernel == n && w.slice == slice && w.dest == some die)

/-- The edges of slice `t` of kernel `b` still to clear at a die. -/
def State.edgesOf (s : State) (b : Nat) (kb : Kernel) (t die : Nat) : List (Nat × Nat) :=
  if (recFeet kb.record).isEmpty then []
  else s.kernels.flatMap (fun (p : Nat × Kernel) =>
    let lim := if p.1 < b then (if p.2.rejected.isSome then 0 else sliceCount p.2.record)
      else if p.1 = b ∧ recOrdered kb.record then t else 0
    ((List.range lim).filter (fun sl => !s.cleared p.1 p.2 sl die && feetMeet p.2.record sl kb.record t)).map (fun sl => (p.1, sl)))

/-- A new record of a slice. -/
def SliceRec.new (kernel slice : Nat) (edges : List (Nat × Nat)) (ready : Option Nat) (dl : Option Nat) : SliceRec :=
  ⟨kernel, slice, .queued, edges, ready, none, dl, [], [], none, [], [], [], [], [], [], [], [], 0, false⟩

def isCopy : RecState → Bool | .copy _ => true | _ => false

/-- SLICE_PUBLISH: the walker of die `die` publishes its next slice of kernel `kernel`; those of a kernel that a restore returned come first
(notes/assumptions/84.md). -/
def execSlicePublish (s : State) : Result :=
  let d := s.about.die
  let n := s.about.kernel
  .next (match s.kernel? n, Sparse.find? (s.die d).next n with
    | some k, some (nx, dl) =>
      let again := (Sparse.get (s.die d).back (0, []) n).2
      let sl := again.head?.getD nx
      if sliceCount k.record ≤ sl ∨ k.failed ∨ k.done.isSome ∨ s.frozenPower ∨ 1024 ≤ ((s.die d).recs.filter (·.fresh)).length then s
      else if !s.awake (uncoreIsland d) then s.wake (uncoreIsland d)
      else
        let es := s.edgesOf n k sl d
        let r := SliceRec.new n sl es (if es.isEmpty then some s.ns else none) dl
        (s.modDie d (fun x => { x with
          recs := x.recs ++ [r]
          next := if again.isEmpty then Sparse.put x.next n (sl + (replicaDies k.record).length, dl) else x.next
          back := (x.back.map (fun (e : Nat × Nat × List Nat) => if e.1 = n then (e.1, e.2.1, e.2.2.drop 1) else e)).filter (fun e => e.1 != n || !e.2.2.isEmpty) })).forget
    | _, _ => s)

/-! ## Rank (04 R77) -/

def SliceRec.ready (r : SliceRec) : Bool := r.st == .queued && r.edges.isEmpty

/-- No deadline ranks last. -/
def deadlineLt (a b : Option Nat) : Bool :=
  match a, b with | some x, some y => decide (x < y) | some _, none => true | none, _ => false

def State.prioOf (s : State) (n : Nat) : Nat := match s.kernel? n with | some k => recPrio k.record | none => 0

/-- Whether record a ranks before record b. -/
def State.ranksBefore (s : State) (a b : SliceRec) : Bool :=
  match a.aged, b.aged with
  | some x, some y => decide (x < y)
  | some _, none => true
  | none, some _ => false
  | none, none =>
    if deadlineLt a.deadline b.deadline then true
    else if deadlineLt b.deadline a.deadline then false
    else if s.prioOf a.kernel ≠ s.prioOf b.kernel then decide (s.prioOf b.kernel < s.prioOf a.kernel)
    else if a.kernel ≠ b.kernel then decide (a.kernel < b.kernel)
    else decide (a.slice < b.slice)

/-- Insertion by rank. -/
def State.insertRank (s : State) (r : SliceRec) : List SliceRec → List SliceRec
  | [] => [r]
  | x :: xs => if s.ranksBefore r x then r :: x :: xs else x :: s.insertRank r xs

/-- The ready records of a die, highest rank first. -/
def State.ranked (s : State) (d : Nat) : List SliceRec := ((s.die d).recs.filter (·.ready)).foldl (fun l r => s.insertRank r l) []

/-! ## Binding (04 R71 to R75) -/

/-- The affinity quad of a slice on a die, 0 to 7 (R72). -/
def State.affinity (s : State) (d : Nat) (r : SliceRec) : Option Nat :=
  match s.kernel? r.kernel with
  | none => none
  | some k =>
    if !recSealed k.record then none
    else match (recFeet k.record).find? (fun e => footSpace e == 1) with
      | none => none
      | some e =>
        let va := signVa (footStart e (nestTuple k.record (sliceFirst k.record r.slice)))
        match s.xlateDie d va with
        | .ok pa _ _ =>
          let core := (paLocal pa - 0x100000000000) / 0x400000
          if rangeOf pa = .mram ∧ paModule pa = s.modid ∧ core / 32 = d then some (core / 4 % 8) else none
        | _ => none

/-- Core positions in a quad by gang code (01 R17). -/
def gangPlaces (gang : Nat) : List (List Nat) :=
  match gang with | 0 => [[0], [1], [2], [3]] | 1 => [[0, 1], [2, 3]] | _ => [[0, 1, 2, 3]]

/-- Whether a core of a die is free for a record: not taken, and not held for another gang. -/
def State.freeFor (s : State) (d q n : Nat) (r : SliceRec) : Bool :=
  !s.coreTaken n && (match (s.die d).reserve with | some (rq, a, b) => rq != q || (a == r.kernel && b == r.slice) | none => true)

def IslandSt.order : IslandSt → Nat | .run => 0 | .idle => 1 | .retain => 2 | .off => 3

def State.gangOf (s : State) (r : SliceRec) : Nat := match s.kernel? r.kernel with | some k => recGang k.record | none => 0

/-- The first free place of a record in a quad. -/
def State.placeIn (s : State) (d q : Nat) (r : SliceRec) : Option (List Nat) :=
  ((gangPlaces (s.gangOf r)).map (fun ps => ps.map (fun p => 32 * d + 4 * q + p))).find? (fun ns => ns.all (fun n => s.freeFor d q n r))

/-- The quads a record may use. -/
def State.quadsOf (s : State) (d : Nat) (r : SliceRec) : List Nat :=
  match s.affinity d r with | some q => [q] | none => List.range 8

/-- The cores a record binds to: a quad in RUN first, then IDLE, RETAIN, OFF, the lowest number on a tie (R73). A quad
that steps between two states ranks by the one it leaves (notes/assumptions/93.md). -/
def State.fit (s : State) (d : Nat) (r : SliceRec) : Option (List Nat) :=
  (List.range 4).findSome? (fun o => (s.quadsOf d r).findSome? (fun q =>
    if IslandSt.order (s.island (8 * d + q)).st = o then s.placeIn d q r else none))

/-- The virtual addresses of a slice's footprint, one in each part of it that has one home (02 R32, 09 R207): a 4 KiB block, or a 64-byte unit
of sequence pages. -/
def State.footAddrs (s : State) (r : SliceRec) : List Word :=
  match s.kernel? r.kernel with
  | none => []
  | some k => (recFeet k.record).flatMap (fun e =>
      let part := if footSpace e = 2 then 64 else 4096
      (sliceRegions k.record e r.slice).flatMap (fun x =>
        (List.range ((x.2 + x.1 % part + part - 1) / part)).filterMap (fun i => s.stageByte e x.1 (i * part - x.1 % part))))

/-- Numbers from one to another. -/
def between (a b : Nat) : List Nat := (List.range (max a b + 1 - min a b)).map (· + min a b)

/-- The stacks a request passes from one to another, along its row first (01 R7; notes/assumptions/32.md). -/
def meshRoute (a b : Nat) : List Nat :=
  (between (a % 4) (b % 4)).map (fun x => a / 4 * 4 + x) ++ (between (a / 4) (b / 4)).map (fun y => 4 * y + b % 4)

/-- The stack of a CXL port (01 R9, 12 R296). -/
def cornerOf (port : Nat) : Nat := nth 0 [0, 3, 12, 15] port

/-- The stacks on the path from a die to a byte: to its home, from there to the corner port of CXL memory, or to a pod port. -/
def State.pathStacks (s : State) (d pa : Nat) : List Nat :=
  if paModule pa ≠ s.modid then (Sparse.get s.podPorts [] (paModule pa)).flatMap (meshRoute (d / 4))
  else
    let home := homeDie pa / 4
    meshRoute (d / 4) home ++ (if rangeOf pa = .cxl then meshRoute home (cornerOf (paLocal pa / 2 ^ 41 % 4)) else [])

/-- The islands a bound slice wakes (R74): its quad, the uncore, and the B-die quarters of its stack and of the stacks on the path to its
footprint. -/
def State.pathIslands (s : State) (d : Nat) (r : SliceRec) (cores : List Nat) : List Nat :=
  let passed := (s.footAddrs r).foldl (fun (l : List Nat) va => match s.xlateDie d va with
    | .ok pa _ _ => dedup (l ++ s.pathStacks d pa)
    | _ => l) [d / 4]
  (cores.map quadIsland) ++ [uncoreIsland d] ++ passed.flatMap (fun st => (List.range 4).map (quarterIsland st))

/-- A record is bound: the die works from its block as last written (19 R451), the record's R-stage copies are queued at the die's engine, its
islands wake, its reservation ends. Its place among the aged records ends too (04 R81, R83; notes/assumptions/35.md). The cores of a gang count one
common cycle from now on (14 R346). -/
def State.bind (s : State) (d : Nat) (r : SliceRec) (cores : List Nat) : State :=
  let s := s.applyCfg d
  let entries := match s.kernel? r.kernel with
    | some k => if r.fresh then (List.range (recFeet k.record).length).filter (fun i => footMode (recFoot k.record i) == 3) else []
    | none => []
  let jobs := (List.range cores.length).flatMap (fun i => entries.map (fun e => (i, nth 0 cores i, e)))
  let cs : List BteCmd := (List.range jobs.length).map (fun j =>
    let x := nth (0, 0, 0) jobs j
    ⟨s.nextId + j, d, .one, 0, ⟨x.2.1, r.kernel, r.slice, x.1⟩, none, .stage x.2.1 x.2.2, .queued, 0, 0, 0, 0, []⟩)
  let s1 := { s with nextId := s.nextId + jobs.length, cmds := s.cmds ++ cs }
  let s2 := s1.modDie d (fun x => { x with
    reserve := (match x.reserve with | some (q, a, b) => if a = r.kernel ∧ b = r.slice then none else some (q, a, b) | none => none)
    recs := x.recs.map (fun (y : SliceRec) => if y.kernel = r.kernel ∧ y.slice = r.slice ∧ y.st = .queued then
      { y with st := .started, bound := cores, stages := cs.map (·.id), aged := none } else y) })
  let cycle := (cores.map (fun n => (s2.core n).cycle)).foldl max 0
  let s3 := cores.foldl (fun s n => s.modCore n (fun k => { k with cycle := cycle })) s2
  (s3.noteAddrs d (s3.footAddrs r)).wakeAll (s3.pathIslands d r cores)

/-- The quad to reserve: most free cores, the lowest number on a tie (R75). -/
def State.reserveQuad (s : State) (d : Nat) (r : SliceRec) : Option Nat :=
  let free (q : Nat) : Nat := ((List.range 4).filter (fun p => !s.coreTaken (32 * d + 4 * q + p))).length
  (s.quadsOf d r).foldl (fun (b : Option Nat) q => match b with | none => some q | some x => if free x < free q then some q else some x) none

/-- Changing the record of one slice on one die, which is no copy that a thief keeps. -/
def State.modRec (s : State) (d n sl : Nat) (f : SliceRec → SliceRec) : State :=
  s.modDie d (fun x => { x with recs := x.recs.map (fun (r : SliceRec) => if r.kernel = n ∧ r.slice = sl ∧ isCopy r.st = false then f r else r) })

def State.dropRec (s : State) (d n sl : Nat) (sel : RecState → Bool) : State :=
  s.modDie d (fun x => { x with recs := x.recs.filter (fun (r : SliceRec) => !(r.kernel == n && r.slice == sl && sel r.st)) })

def State.recFor (s : State) (d n sl : Nat) : Option SliceRec := (s.die d).recs.find? (fun r => r.kernel == n && r.slice == sl && !isCopy r.st)

/-- A deadline of one die as another counts it (04 R87). -/
def State.convert (s : State) (v t : Nat) (deadline : Option Nat) : Option Nat :=
  deadline.map (fun dl => dl - (s.ns + (s.die v).skew) + s.ns + (s.die t).skew)

/-- A slice that has left its core on die `v` binds on die `d` of its replica set, which has no record of its own to bind (04 R81;
notes/assumptions/72.md). -/
def State.bindFrom (s : State) (d v n sl : Nat) : State :=
  match s.recFor v n sl, s.kernel? n with
  | some r, some k =>
    let moved := { r with deadline := s.convert v d r.deadline }
    match s.fit d r with
    | some cores =>
      if d = v ∨ 64 ≤ d ∨ !r.ready ∨ r.ctx.isEmpty ∨ !(replicaDies k.record).contains d ∨ (s.ranked d).any (fun x => (s.fit d x).isSome) then s
      else ((s.dropRec v n sl (fun st => !isCopy st)).modDie d (fun x => { x with recs := x.recs ++ [moved] })).bind d moved cores
    | none => s
  | _, _ => s

/-- SLICE_BIND: the scheduler of die `die` binds the highest-ranked record that finds its cores; the highest-ranked one, if a gang that
finds none, reserves a quad. With `flag`, it binds slice `slice` of kernel `kernel`, which has left its core on die `n`. -/
def execSliceBind (s : State) : Result :=
  let d := s.about.die
  .next (if s.frozenPower then s
    else if !s.awake (uncoreIsland d) then s.wake (uncoreIsland d)
    else if s.about.flag then s.bindFrom d s.about.n s.about.kernel s.about.slice
    else
      let s0 := s.modDie d (fun x => { x with reserve := match x.reserve with
        | some (q, a, b) => if x.recs.any (fun r => r.kernel == a && r.slice == b && r.st == .queued) then some (q, a, b) else none
        | none => none })
      let l := s0.ranked d
      let s1 := match l with
        | r :: _ =>
          if s0.gangOf r = 0 ∨ (s0.fit d r).isSome ∨ (s0.die d).reserve.isSome then s0
          else match s0.reserveQuad d r with | some q => s0.modDie d (fun x => { x with reserve := some (q, r.kernel, r.slice) }) | none => s0
        | [] => s0
      match l.findSome? (fun r => (s1.fit d r).map (fun c => (r, c))) with
      | some (r, cores) => s1.bind d r cores
      | none => s1)

/-! ## Starting and resuming (04 R71, 06 R122, 17 R423, R435) -/

/-- A core as a slice starts on it. -/
def startCore (old : Core) (k : Kernel) (run : Run) (pc : Word) : Core :=
  { old.idle with
    run := some run, holdUntil := old.cycle, pc := pc, j := nestTuple k.record run.ordinal
    trap := { TrapSt.reset with allow := BitVec.ofNat 64 (recBudget k.record) } }

/-- The newest complete image of a core, when it is one of the slice's. -/
def Core.imageOf (k : Core) (kid : W32) (slice : Nat) : Option Image :=
  (k.images.find? (·.complete)).filter (fun m => m.kid == kid && m.slice == slice)

/-- A core that resumes from an image (17 R435): what the image does not hold is as at slice start. -/
def State.loadImage (s : State) (n : Nat) (k : Kernel) (run : Run) (img : Image) : State :=
  let c := startCore (s.core n) k { run with ordinal := img.ordinal } img.pc
  let c1 := { c with
    regs := { Regs.zero with c := img.regs.c, f := img.regs.f, x := img.regs.x, y := img.regs.y, z := img.regs.z, w := img.regs.w, ac := img.regs.ac }
    images := [img], loops := img.loops, q := img.q.map (fun p => (p.1, { p.2 with checked := false, ahead := 0 })), issued := img.issued
    trap := { c.trap with allow := img.allow } }
  let s1 := (s.setCore n c1).acquire n .mod
  let s2 := ((img.journal.getD []).foldl (fun s p => s.putBytes (tileBase s.modid n + p.1) p.2) s1)
  if recHandler k.record = 0 then s2 else s2.trapTo n ⟨tPowerLost, 0, 0, 3, 0, .c⟩ img.pc c1.cycle

/-- A bound record whose copies are done and whose quad and die are in RUN, its cores empty. -/
def State.mayStart (s : State) (r : SliceRec) : Bool :=
  r.st == .started && !r.bound.isEmpty && r.stages.isEmpty &&
    r.bound.all (fun n => (s.core n).run.isNone && s.awake (quadIsland n) && s.awake (uncoreIsland (dieOf n)))

/-- The start of a slice on its cores. -/
def State.startOn (s : State) (r : SliceRec) : State :=
  match s.kernel? r.kernel with
  | none => s
  | some k =>
    let w := r.bound.length
    (List.range w).foldl (fun s i =>
      let n := nth 0 r.bound i
      let run : Run := ⟨r.kernel, r.slice, sliceFirst k.record r.slice, sliceLast k.record r.slice, i, w, k.priv, r.deadline, false, false, none, false, none, []⟩
      if r.restored then
        match (s.core n).imageOf (recKid k.record) r.slice with
        | some img => s.loadImage n k run img
        | none => (s.setCore n (startCore (s.core n) k run (recProgram k.record))).acquire n .mod
      else (s.setCore n (startCore (s.core n) k run (recProgram k.record))).acquire n .mod) s

/-- SLICE_START of slice `slice` of kernel `kernel` on die `die`: an R-stage copy that failed ends it as a class 3 error. -/
def execSliceStart (s : State) : Result :=
  .next (match s.recFor s.about.die s.about.kernel s.about.slice with
    | none => s
    | some r =>
      if !r.ctx.isEmpty ∨ s.frozenPower then s
      else match r.stageErr with
        | some c => if r.stages.isEmpty ∧ r.st = .started then s.retireSlice r.kernel r.slice (some (errWord r.slice r.bound.head? 3 c)) else s
        | none => if s.mayStart r then
            (s.startOn r).modRecs (fun x => x.kernel == r.kernel && x.slice == r.slice) (fun x => { x with restored := false })
          else s)

/-- SLICE_RESUME of a slice bound again. -/
def execSliceResume (s : State) : Result :=
  .next (match s.recFor s.about.die s.about.kernel s.about.slice with
    | none => s
    | some r => if !r.ctx.isEmpty ∧ s.mayStart r ∧ !s.frozenPower then s.resumeOn s.about.die r else s)

/-! ## Ageing and pre-emption (04 R78, R80) -/

/-- RECORD_AGED: a record of die `die` that has been ready for too long. -/
def execRecordAged (s : State) : Result :=
  let d := s.about.die
  .next (match s.recFor d s.about.kernel s.about.slice with
    | none => s
    | some r => match r.readySince, s.kernel? r.kernel with
      | some t, some k =>
        let limit := if recDeadline k.record = 0 then bitsOf (s.die d).cfg.schedcfg 32 16 * 1000000 else 4 * recDeadline k.record
        if !r.ready ∨ r.aged.isSome ∨ s.ns ≤ t + limit then s
        else s.modDie d (fun x => { x with
          agedCount := x.agedCount + 1
          recs := x.recs.map (fun (y : SliceRec) => if y.kernel = r.kernel ∧ y.slice = r.slice ∧ isCopy y.st = false then { y with aged := some x.agedCount } else y) })
      | _, _ => s)

/-- The slices that run on a die: their runs on the core of rank 0, with that core. -/
def State.runningOn (s : State) (d : Nat) : List (Nat × Run) :=
  (List.range 32).filterMap (fun i => match (s.core (32 * d + i)).run with
    | some r => if r.rank = 0 then some (32 * d + i, r) else none | none => none)

/-- Whether a ranks after b as a victim: later deadline, later acceptance, higher slice number. -/
def laterRun (a b : Run) : Bool :=
  if deadlineLt b.deadline a.deadline then true
  else if deadlineLt a.deadline b.deadline then false
  else if a.kernel ≠ b.kernel then decide (b.kernel < a.kernel)
  else decide (b.slice < a.slice)

/-- PREEMPT_MARK: ready record (`kernel`, `slice`) of die `die`, with no free core it may use, marks its victim. -/
def execPreemptMark (s : State) : Result :=
  let d := s.about.die
  .next (match s.recFor d s.about.kernel s.about.slice with
    | none => s
    | some r =>
      if !r.ready ∨ (s.fit d r).isSome ∨ !s.ctxFree d then s
      else
        let may := (s.runningOn d).filter (fun p => (s.quadsOf d r).contains (p.1 / 4 % 8))
        match may.foldl (fun (b : Option (Nat × Run)) p => match b with | none => some p | some x => if laterRun p.2 x.2 then some p else some x) none with
        | none => s
        | some (_, v) =>
          let margin := bitsOf (s.die d).cfg.schedcfg 0 12
          let early : Bool := match r.deadline, v.deadline with
            | some a, some b => decide (a + 1000 * margin < b) | some _, none => true | none, _ => false
          if r.aged.isSome ∨ (margin ≠ 0xFFF ∧ early = true) then
            (s.members v.kernel v.slice).foldl (fun s m => s.modRun m (fun q => if q.leave.isSome then q else { q with preempt := true })) s
          else s)

/-! ## Stealing (04 R84 to R87) -/

/-- Whether a die is a victim for a kernel id: a persistent straggler makes it one (15 R385). -/
def State.victimFor (s : State) (d : Nat) (kid : W32) : Bool :=
  let on (cfg : DieCfg) : Bool := cfg.strgcfg.getLsbD 24
  let hit (g : Strag) : Bool := g.victims.any (fun v => dieOf v.2.1 == d && v.2.2 == kid)
  s.objs.any (fun (p : Nat × ObjRec) => match p.2.obj with | .phaser x => on (s.engineCfg (homeEngine p.1)) && hit x.strag | _ => false) ||
    s.masks.any (fun (p : Nat × MaskRec) => on (s.die (p.1 / 64)).cfg && hit p.2.strag)

/-- Stacks at most one hop apart (04 R84). -/
def nearStacks (a b : Nat) : Bool :=
  let hop (x y : Nat) : Nat := max x y - min x y
  decide (hop (a % 4) (b % 4) + hop (a / 4) (b / 4) ≤ 1)

def State.stealOn (s : State) (d : Nat) : Bool := (s.die d).cfg.schedcfg.getLsbD 48

/-- Whether a die is idle enough to steal: a free core, and no ready record it can bind. -/
def State.idleDie (s : State) (d : Nat) : Bool :=
  (List.range 32).any (fun i => !s.coreTaken (32 * d + i)) && (s.ranked d).all (fun r => (s.fit d r).isNone)

def State.sendMail (s : State) (src dst kernel slice : Nat) (k : StealKind) : State := { s with mail := s.mail ++ [⟨src, dst, kernel, slice, k⟩] }

/-- STEAL_REQUEST: die `die` asks die `n` for a slice of kernel `kernel`, which offers its highest stealable one. -/
def execStealRequest (s : State) : Result :=
  let t := s.about.die
  let v := s.about.n
  let n := s.about.kernel
  .next (match s.kernel? n with
    | none => s
    | some k =>
      if t = v ∨ 64 ≤ t ∨ 64 ≤ v ∨ !s.victimFor v (recKid k.record) ∨ !nearStacks (t / 4) (v / 4) ∨ !(replicaDies k.record).contains t ∨
          !s.stealOn t ∨ !s.stealOn v ∨ !s.idleDie t then s
      else
        let can := (s.die v).recs.filter (fun r => r.kernel == n && r.ready && r.fresh && r.bound.isEmpty)
        match can.foldl (fun (b : Option SliceRec) r => match b with | none => some r | some x => if x.slice < r.slice then some r else some x) none with
        | none => s
        | some r =>
          let s1 := { s with nextId := s.nextId + 1 }
          (s1.modRec v n r.slice (fun r => { r with st := .offered t s.ns s.nextId })).sendMail v t n r.slice (.offer s.nextId))

/-- Message `i` between schedulers, when it is the next from its sender to its receiver and the receiver is awake. -/
def State.nextMail (s : State) (i : Nat) : Option (StealMsg × State) :=
  match s.mail[i]? with
  | none => none
  | some m =>
    if (s.mail.take i).any (fun x => x.src == m.src && x.dst == m.dst) ∨ !s.awake (uncoreIsland m.dst) then none
    else some (m, { s with mail := s.mail.eraseIdx i })

/-- A message whose receiver sleeps wakes it. -/
def State.wakeFor (s : State) (i : Nat) : State :=
  match s.mail[i]? with | some m => if s.awake (uncoreIsland m.dst) then s else s.wake (uncoreIsland m.dst) | none => s

/-- STEAL_ACCEPT: message `n`. A thief that takes an offer keeps a copy and accepts, unless it holds 1,024 records that have not started (04
R63); the acceptance of the offer that stands moves the record to TRANSFER, and the victim sends commit with the remaining deadline. -/
def execStealAccept (s : State) : Result :=
  .next (match s.nextMail s.about.n with
    | none => s.wakeFor s.about.n
    | some (m, s1) => match m.kind with
      | .offer tag => match s.recFor m.src m.kernel m.slice with
        | some r =>
          if 1024 ≤ ((s.die m.dst).recs.filter (·.fresh)).length then s
          else (s1.modDie m.dst (fun x => { x with recs := x.recs ++ [{ r with st := .copy m.src }] })).sendMail m.dst m.src m.kernel m.slice (.accept tag)
        | none => s1
      | .accept tag => match s.recFor m.dst m.kernel m.slice with
        | some r => match r.st with
          | .offered t _ mine =>
            if t = m.src ∧ mine = tag then
              (s1.modRec m.dst m.kernel m.slice (fun r => { r with st := .transfer t })).sendMail m.dst m.src m.kernel m.slice
                (.commit (r.deadline.map (fun dl => dl - (s.ns + (s.die m.dst).skew))))
            else s1
          | _ => s1
        | none => s1
      | _ => s)

/-- An OFFERED record returns to QUEUED and void is sent. -/
def State.takeBack (s : State) (v n sl t : Nat) : State :=
  (s.modRec v n sl (fun r => { r with st := .queued })).sendMail v t n sl .void

/-- STEAL_DECLINE: message `n`. A thief declines an offer; the decline returns the record to QUEUED. -/
def execStealDecline (s : State) : Result :=
  .next (match s.nextMail s.about.n with
    | none => s.wakeFor s.about.n
    | some (m, s1) => match m.kind with
      | .offer tag => s1.sendMail m.dst m.src m.kernel m.slice (.decline tag)
      | .decline tag => match s.recFor m.dst m.kernel m.slice with
        | some r => match r.st with
          | .offered t _ mine => if t = m.src ∧ mine = tag then s1.takeBack m.dst m.kernel m.slice t else s1
          | _ => s1
        | none => s1
      | _ => s)

/-- STEAL_OFFER_TIMEOUT: an offer of die `die` has had no reply for 20 µs. -/
def execStealOfferTimeout (s : State) : Result :=
  .next (match s.recFor s.about.die s.about.kernel s.about.slice with
    | none => s
    | some r => match r.st with
      | .offered t since _ => if s.ns < since + 20000 then s else s.takeBack s.about.die r.kernel r.slice t
      | _ => s)

/-- STEAL_VOID_RECEIVE: message `n`: the thief discards the copy it has from that victim. -/
def execStealVoidReceive (s : State) : Result :=
  .next (match s.nextMail s.about.n with
    | none => s.wakeFor s.about.n
    | some (m, s1) => if m.kind = .void then s1.dropRec m.dst m.kernel m.slice (fun st => st == .copy m.src) else s)

/-- STEAL_COMMIT_RECEIVE: message `n`: the thief queues its copy from that victim with the deadline turned local, and acknowledges (R87). -/
def execStealCommitReceive (s : State) : Result :=
  .next (match s.nextMail s.about.n with
    | none => s.wakeFor s.about.n
    | some (m, s1) => match m.kind with
      | .commit left =>
        let s2 := s1.modDie m.dst (fun x => { x with recs := x.recs.map (fun (r : SliceRec) =>
          if r.kernel = m.kernel ∧ r.slice = m.slice ∧ r.st = .copy m.src then
            { r with st := .queued, deadline := left.map (fun l => l + s.ns + (s.die m.dst).skew), aged := none, readySince := some s.ns } else r) })
        s2.sendMail m.dst m.src m.kernel m.slice .ack
      | _ => s)

/-- STEAL_ACK: message `n`: the victim deletes its copy. -/
def execStealAck (s : State) : Result :=
  .next (match s.nextMail s.about.n with
    | none => s.wakeFor s.about.n
    | some (m, s1) => if m.kind = .ack then s1.dropRec m.dst m.kernel m.slice (fun st => st == .transfer m.src) else s)

end Sys2Proof.Machine
end

