-- ==== Sys2Proof/Machine/Arrivals.lean ====
section
/-!
DEFINITION. What arrives at a core: results due in its cycle (06 R124 to R126), load data (R130), stream groups (R131), code lines, page walks (12 R302) and asynchronous engine writes (06 R134, 17 R422).
-/
namespace Sys2Proof.Machine

open Sys2Proof

/-- A pending value of a w register that its result has come before is never written (06 R133, 17 R418). -/
def Core.unmark (k : Core) (w : Nat) : Core :=
  let keeps (r : RegName) (v : RVal) : Bool := !(r == .w w && v == .mark)
  { k with
    inflight := k.inflight.filter (fun p => keeps p.reg p.val), just := k.just.filter (fun p => keeps p.reg p.val)
    trap := { k.trap with bank := k.trap.bank.filter (fun l => keeps l.reg l.val) } }

/-- The writes of a core's present cycle commit, engine writes last (R126). -/
def Core.commitDue (k : Core) : Core :=
  let now := k.inflight.filter (fun p => decide (p.due ≤ k.cycle))
  let ordered := now.filter (fun p => !p.engine) ++ now.filter (·.engine)
  let k1 := ordered.foldl Core.commit { k with inflight := k.inflight.filter (fun p => decide (k.cycle < p.due)) }
  (ordered.filter (·.engine)).foldl (fun k p => match p.reg with | .w n => k.unmark n | _ => k) { k1 with just := k1.just ++ ordered }

/-! ## Code lines and page walks -/

/-- An instruction cache with one more line: 1,024 lines (01 R14). Which one a new line replaces when it is full is free
(notes/assumptions/73.md). -/
def codeAdd (free line : Nat) (bs : List Byte) (m : Sparse (List Byte)) : Sparse (List Byte) :=
  let kept := if m.length < 1024 ∨ (Sparse.find? m line).isSome then m else m.eraseIdx (Config.freeNat free % m.length)
  Sparse.put kept line bs

/-- INSTRUCTION_FETCH_FILL: the line core `core` waits for arrives whole (05 R88, R93). A line that can no longer be read is left out: the
issue of the bundle finds the trap. -/
def execInstructionFetchFill (s : State) : Result :=
  let n := s.about.core
  let k := s.core n
  .next (match k.fetching with
    | none => s
    | some line =>
      let k1 := { k with fetching := none }
      (s.setCore n (match s.codeLine n (BitVec.ofNat 64 line) with
        | some bs => { k1 with icache := codeAdd s.free line bs k1.icache }
        | none => k1)).tick)

/-- PAGE_WALK_COMPLETE: a walker of its stack ends the walk for unit `n` of die `die`, for every core that missed on the page. -/
def execPageWalkComplete (s : State) : Result :=
  let d := s.about.die
  let u := s.about.n
  let w := Sparse.get s.walkers (0, []) (d / 4)
  .next (if !w.2.contains (d, u) then s
    else
      let s1 := { s with walkers := Sparse.put s.walkers (d / 4) (w.1, w.2.filter (· != (d, u))) }
      let cores := (List.range 32).map (fun i => 32 * d + i)
      match s.walk (signVa (u * 0x10000)) with
      | .leaf e big =>
        let t := tlbOf u big e
        let s2 := (s1.noteWalk d (signVa (u * 0x10000))).modDie d (fun x => { x with
          l2tlb := tlbAdd 4096 x.l2tlb t, walks := x.walks.filter (fun m => !t.covers m) })
        (cores.filter (fun c => (s.core c).misses.any (t.covers ·))).foldl (fun s c => s.modCore c (fun k =>
          { k with tlb := tlbAdd 64 k.tlb t, misses := k.misses.filter (fun m => !t.covers m) })) s2
      | _ => (cores.filter (fun c => (s.core c).misses.contains u)).foldl (fun s c => s.modCore c (fun k =>
          { k with misses := k.misses.filter (· != u) })) (s1.modDie d (fun x => { x with walks := x.walks.filter (· != u) })))

/-! ## Load data -/

/-- A sector fetched from its home fills the bytes of L1 that are not dirty (12 R290), and its home L2 holds it (R294). -/
def State.fillSector (s : State) (n pa : Nat) : State :=
  let base := pa / 64 * 64
  ((s.modCore n (fun k => { k with l1 := (List.range 64).foldl (fun m i =>
    match Sparse.find? m (base + i) with
    | some ⟨_, true, _⟩ => m
    | _ => Sparse.put m (base + i) ⟨s.homeByte k k.fences (base + i), false, k.fences⟩) k.l1 })).fitL1 n (pa / 64)).fetchSector base false

/-- The values of a load's registers. -/
def loadVals (g : GLoad) (bs : List Byte) : List (Nat × Word) :=
  g.dests.map (fun d => (d.1, extend g.signed (g.size / max 1 g.dests.length) (leNat (bs.drop d.2))))

/-- Whether an image is complete: its last commit lies 8 cycles back, and its journal has been verified (07 R162). -/
def Image.finished (m : Image) (cycle : Nat) : Bool :=
  m.complete || (m.loads.isEmpty && decide (m.ready ≤ cycle) && (m.journal.isNone || m.verified))

/-- The images of a core that are complete by now. -/
def Core.whole (k : Core) : List Image := (k.images.filter (·.finished k.cycle)).map (fun m => { m with complete := true })

/-- Load data in a core's registers, in the cycle it arrives (R130), or in the latch bank with no remaining offset (17 R418). -/
def Core.takeLoad (k : Core) (latched : Bool) (vs : List (Nat × Word)) : Core :=
  let after (z : Nat) : Bool := k.inflight.any (fun p => p.reg == .z z && !p.engine && decide (k.cycle < p.due))
  let k1 := { k with images := vs.foldl (fun (ms : List Image) (v : Nat × Word) => ms.map (fun (m : Image) => m.take k.cycle 0 (after v.1) v)) k.images }
  if latched then
    { k1 with trap := { k1.trap with
        bank := k1.trap.bank ++ vs.map (fun (v : Nat × Word) => (⟨.z v.1, .word v.2, 0⟩ : Latch)) } }
  else
    let ps := vs.map (fun (v : Nat × Word) => (⟨.z v.1, .word v.2, k.cycle, false⟩ : Pend))
    let k2 := ps.foldl Core.commit k1.commitDue
    { k2 with just := k2.just ++ ps }

/-- LOAD_DATA_ARRIVAL: load `n` of core `core`, served by now with the loads that come before it (14 R344), once nothing on its way sleeps (17
R432). Data with an uncorrectable error ends the slice (18 R440); a prefetch with one is dropped (09 R234). A load issued before the core's last
acquire leaves nothing in L1 (12 R292). -/
def execLoadDataArrival (s0 : State) : Result :=
  let n := s0.about.core
  let s := s0.readAhead n
  let k := s.core n
  .next (match k.gloads[s.about.n]? with
    | none => s0
    | some g0 =>
      if k.cycle < g0.after then s0
      else if !s0.reaches g0.pa && !g0.own.all (·.isSome) then s0.stir g0.pa
      else
        let g := s.serve k g0
        let before := (s.serveList k (fun _ => false) (k.gloads.take s.about.n ++ [g])).take s.about.n
        let s1 := s.setCore n { k with gloads := before ++ k.gloads.drop (s.about.n + 1) }
        if g.ue then
          if g.size = 64 then s1 else s1.killSlice n 1 tEccUe
        else
          let s2 := if g.device || g.raw || g.epoch ≠ k.epoch then s1 else s1.fillSector n g.pa
          s2.modCore n (fun k => k.takeLoad g.latched (loadVals g (g.own.map (·.getD 0)))))

/-! ## Streams -/

/-- STREAM_GROUP_ARRIVAL: the next group of stream `n` of core `core` has arrived; up to 8 are fetched ahead (09 R221). -/
def execStreamGroupArrival (s : State) : Result :=
  let n := s.about.core
  let more (m : Sparse StreamReg) : Sparse StreamReg := match Sparse.find? m s.about.n with
    | some r => if Desc.fabric r.desc && !Desc.writes r.desc && decide (r.ahead < 8) then Sparse.put m s.about.n { r with ahead := r.ahead + 1 } else m
    | none => m
  .next (if s.about.n < 16 then s.modCore n (fun k => { k with q := more k.q, grp := { k.grp with q := more k.grp.q } }) else s)

/-! ## Asynchronous engine writes (R134, 17 R422) -/

/-- One engine result at a core: after the writes of the same cycle, with the acquire made at that write and the trap of SQFORK.T. -/
def State.landReply (s : State) (n : Nat) (r : Reply) : State :=
  let s1 := s.modCore n (fun k =>
    let ps := r.regs.map (fun v => (⟨.w v.1, .word v.2, k.cycle, true⟩ : Pend))
    let k0 := r.regs.foldl (fun k v => k.unmark v.1) k.commitDue
    let k1 := ps.foldl Core.commit k0
    { k1 with just := k1.just ++ ps, wpend := r.regs.foldl (fun l v => l.erase v.1) k1.wpend, forkTrap := if r.trap then .now else k1.forkTrap })
  match r.acquire with | some σ => s1.acquire n σ | none => s1

/-- The core that runs a member, and has not written its record yet. -/
def State.coreOf (s : State) (w : Who) : Option Nat :=
  (s.members w.kernel w.slice).find? (fun n =>
    (match (s.core n).run with | some r => r.rank == w.rank | none => false) &&
      !(s.die (dieOf n)).recs.any (fun (x : SliceRec) => x.kernel == w.kernel && x.slice == w.slice && x.ctx.any (fun c => c.1 == w.rank)))

/-- ASYNC_ENGINE_WRITE: result `n` on its way reaches its member, not before the first bundle of a slice that has resumed (17 R422), or is kept for
a slice that has left its core; a result for a retired slice is lost (13 R323). -/
def execAsyncEngineWrite (s : State) : Result :=
  .next (match s.replies[s.about.n]? with
    | none => s
    | some r =>
      let s1 := { s with replies := s.replies.eraseIdx s.about.n }
      match s1.coreOf r.who with
      | some n => if (s.core n).resuming then s else s1.landReply n r
      | none => s1.modRecs (fun (x : SliceRec) => x.kernel == r.who.kernel && x.slice == r.who.slice && !x.ctx.isEmpty)
          (fun x => { x with late := x.late ++ [r] }))

end Sys2Proof.Machine
end

