-- ==== Sys2Proof/Machine/Fetch.lean ====
section
/-!
DEFINITION. Fetching a group from the instruction cache and the checks the decoder makes on it before any of it issues (05 R88
to R98, 07 R149, 11 R274).
-/
namespace Sys2Proof.Machine

open Sys2Proof

/-! ## Illegal encodings beyond a slot word -/

/-- Instructions that are legal only in a bundle with STOP = 1 (05 R98, 07 R149). -/
def needsStop (i : Instr) : Bool :=
  match i with
  | .br _ | .brt _ _ | .brf _ _ | .call _ | .ret | .jmpi _ _ | .lbrk _ | .lcont | .yield | .exit | .exitK _ | .trap _ | .eret
  | .loop _ _ => true
  | _ => false

/-- Width of the gang a core works in (06 R142). -/
def Core.gangWidth (k : Core) : Nat := match k.run with | some r => r.width | none => 1

/-- Whether the bundle makes an instruction of it illegal. -/
def Core.misplaced (k : Core) (b : Bundle) (i : Instr) : Bool :=
  (needsStop i && !b.hdr.stop) ||
    (match i with
      | .loop _ off => let w := widenWord off; w.getLsbD 0 || decide (w.toNat < b.len) || decide (2 ^ 31 ≤ w.toNat)
      | .mmag _ => k.gangWidth != 4
      | _ => false)

/-- The slot that makes bundle `i` of a group illegal; a missing STOP counts for slot C. -/
def Core.illegalIn (k : Core) (i : Nat) (b : Bundle) : Option Slot :=
  let atEnd := match innermost k.loops with | some l => l.last == b.addr | none => false
  if !b.hdr.stop && (i == 3 || atEnd) then some .c
  else (b.instrs.find? (fun p => k.misplaced b p.2)).map (·.1)

/-- The first illegal bundle, from index `i` on. -/
def Core.illegal (k : Core) : Nat → List Bundle → Option (Nat × Slot)
  | _, [] => none
  | i, b :: bs => match k.illegalIn i b with
    | some s => some (i, s)
    | none => Core.illegal k (i + 1) bs

/-- The slot words that decode before the first that does not. -/
def decodePrefix : List (Slot × W32 × Option W32) → List (Slot × Instr)
  | [] => []
  | (s, w, l) :: r => match decodeWord s w l with
    | .ok i => (s, i) :: decodePrefix r
    | .error _ => []

/-- The slot that makes bundle `i` of a group illegal when not all of its words are instructions: one before the first such word, when the
bundle makes it illegal, else that word's (05 R95, 17 R416); a fault of the header counts for slot C. -/
def Core.badSlot (k : Core) (i : Nat) (a : Word) (bs : List Byte) : Slot :=
  let h := BitVec.ofNat 16 (leNat (bs.take 2))
  if h.extractLsb' 13 3 ≠ 0 then .c
  else match cutWords Slot.all (h.extractLsb' 0 8) (bs.drop 2) with
    | .error _ => .c
    | .ok (ws, n) =>
      let good := decodePrefix ws
      match k.illegalIn i ⟨a, n + 2, headerOf h, good⟩ with
      | some s => s
      | none => match ws[good.length]? with | some p => p.1 | none => .c

/-! ## The bytes of a group -/

/-- Result of reading a group: its bundles and the address after it past pad headers; a code line that has to come first, with the
unit its translation missed; or a trap, with the bundles before it. -/
inductive Fetched
  | ready (bs : List Bundle) (next : Word)
  | wait (line : Nat) (missed : Option Nat)
  | bad (t : TrapInfo) (bs : List Bundle)
  deriving DecidableEq, Repr

/-- The first address of the line after the one an address lies in. -/
def nextLine (a : Word) : Word := BitVec.ofNat 64 (a.toNat / 64 * 64 + 64)

/-- Where the next bundle starts, past any pad header (07 R150); the first argument bounds the lines. -/
def State.skipPads (s : State) (n : Nat) : Nat → Word → Word
  | 0, a => a
  | f + 1, a => match s.lineOf n a with
    | some l => if (l.drop (a.toNat % 64)).take 2 = [0x00, 0x20] then State.skipPads s n f (nextLine a) else a
    | none => a

/-- Reading the bundles of the group at an address (05 R94); the first argument bounds the pad headers passed. -/
def State.fetchFrom (s : State) (n : Nat) : Nat → Word → List Bundle → Fetched
  | 0, a, _ => .wait (a.toNat / 64 * 64) none
  | f + 1, a, bs =>
    let trap (c : Byte) (addr : Word) (kind : BitVec 2) (slot : Slot) : Fetched := .bad ⟨c, 0, addr, kind, bs.length, slot⟩ bs
    match fetchBad n a with
    | some c => trap c a 2 .c
    | none => match Sparse.find? (s.core n).icache (a.toNat / 64 * 64) with
      | none => match s.fetchTrap n a with
        | .error c => trap c a 2 .c
        | .ok m => .wait (a.toNat / 64 * 64) m
      | some l =>
        let here := l.drop (a.toNat % 64)
        match decodeBundle a here with
        | .error _ => trap tIllegal 0 3 ((s.core n).badSlot bs.length a here)
        | .ok b =>
          if b.hdr.pad then State.fetchFrom s n f (nextLine a) bs
          else
            let bs1 := bs ++ [b]
            let after := a + BitVec.ofNat 64 b.len
            if b.hdr.stop ∨ bs1.length = 4 then .ready bs1 (s.skipPads n (2 ^ 51) after)
            else State.fetchFrom s n f after bs1

/-! ## GROUP_DEPENDENCE and PRIVILEGE (05 R96, R111) -/

/-- Registers the ports of the group's slots would name, where an instruction of the group sets them. -/
abbrev PortNames := Sparse (Option RegName)

/-- The register an operand names; a reuse code names its port's. -/
def Core.nameAt (k : Core) (ps : PortNames) (s : Slot) (o : Opnd) : Option RegName :=
  match o with
  | .reuseA | .reuseB =>
    let key := portKey s (o == .reuseB)
    match Sparse.find? ps key with | some r => r | none => (Sparse.get k.ports Port.init key).reg
  | _ => nameOf s o

/-- Registers an instruction reads. -/
def Core.readsAt (k : Core) (ps : PortNames) (s : Slot) (u : Uses) : List RegName := u.reads ++ u.codes.filterMap (k.nameAt ps s)

/-- The ports' names after an instruction (06 R135). -/
def Core.portsAfter (k : Core) (ps : PortNames) (s : Slot) (u : Uses) : PortNames :=
  let p1 := match u.a with | some o => Sparse.put ps (portKey s false) (k.nameAt ps s o) | none => ps
  match u.b with
  | some (.op o) => Sparse.put p1 (portKey s true) (k.nameAt ps s o)
  | some (.lit _) => Sparse.put p1 (portKey s true) none
  | none => p1

/-- The first dependence in a bundle: names of the ports, registers written by earlier bundles, and by the whole group so far. -/
def Core.dependsIn (k : Core) (earlier : List RegName) : List (Slot × Instr) → PortNames → List RegName → Except Slot (PortNames × List RegName)
  | [], ps, ws => .ok (ps, ws)
  | (s, i) :: r, ps, ws =>
    let u := usesOf k.loops.length i
    if (k.readsAt ps s u).any (earlier.contains ·) || u.writes.any (ws.contains ·) then .error s
    else Core.dependsIn k earlier r (k.portsAfter ps s u) (ws ++ u.writes)

/-- The first dependence in a group. -/
def Core.depends (k : Core) : Nat → List Bundle → PortNames → List RegName → Option (Nat × Slot)
  | _, [], _, _ => none
  | i, b :: bs, ps, ws =>
    match k.dependsIn ws b.instrs ps ws with
    | .error s => some (i, s)
    | .ok (ps1, ws1) => Core.depends k (i + 1) bs ps1 ws1

/-- Privileged instructions. -/
def privileged (i : Instr) : Bool := match i with | .wrsys _ _ | .mupdWrite _ | .mupdCommit _ | .mupdAbort _ => true | _ => false

/-- The first privileged instruction of a group. -/
def firstPrivileged : Nat → List Bundle → Option (Nat × Slot)
  | _, [] => none
  | i, b :: bs => match b.instrs.find? (fun p => privileged p.2) with
    | some p => some (i, p.1)
    | none => firstPrivileged (i + 1) bs

/-- The checks of a whole group, in the order of R95. -/
def Core.groupTrap (k : Core) (bs : List Bundle) : Option TrapInfo :=
  let at_ (c : Byte) (p : Nat × Slot) : TrapInfo := ⟨c, 0, 0, 3, p.1, p.2⟩
  match k.illegal 0 bs with
  | some p => some (at_ tIllegal p)
  | none => match k.depends 0 bs [] [] with
    | some p => some (at_ tGroupDep p)
    | none => if k.priv then none else (firstPrivileged 0 bs).map (at_ tPrivilege)

end Sys2Proof.Machine
end

