-- ==== Sys2Proof/Machine/Power.lean ====
section
/-!
DEFINITION. Images (07 R161 to R163), MRAM writes and their wear (18 R446), the scrubber (R444, R445), power loss and its return (17
R433 to R435, 01 R12), booting (19 R476, R477): the steps CKPT_IMAGE_COMPLETE, CKPT_JOURNAL_VERIFIED, SCRUB_VISIT, POWER_FAIL_WARNING,
POWER_RETURN, RESTORE, PERST_RELEASE, COLD_RESET, FIRMWARE_READY and FIRMWARE_WATCHDOG_EXPIRY.
-/
namespace Sys2Proof.Machine

open Sys2Proof

/-- The journal blocks of a core's restart area: two areas of 16 blocks, numbered past the blocks of 09 R204. -/
def journalBlock (core i : Nat) : Nat := 2048 * 1024 + core * 32 + i

/-- The area an image's journal goes to: the one that the older complete image of the core does not use, and the first when that image has no journal
(notes/assumptions/85.md). -/
def journalArea (older : List Image) : Nat :=
  match older.find? (·.complete) with
  | some m => if m.journal.isSome && m.area == 0 then 1 else 0
  | none => 0

/-! ## Images -/

/-- CKPT_IMAGE_COMPLETE: the newest image of core `core`. -/
def execCkptImageComplete (s : State) : Result :=
  .next (s.modCore s.about.core (fun k => match k.images with
    | m :: ms => if m.finished k.cycle then { k with images := { m with complete := true } :: ms } else k
    | [] => k))

/-- CKPT_JOURNAL_VERIFIED: the journal of the newest image of core `core` has been written (R163). One that fails with no spare left stays
unverified, and the image before it in force (18 R446). -/
def execCkptJournalVerified (s : State) : Result :=
  let n := s.about.core
  .next (match (s.core n).images with
    | m :: ms => match m.journal with
      | some j =>
        if m.verified then s
        else
          let bytes := (j.map (fun p => p.2.length)).foldl (· + ·) 0
          let area := journalArea ms
          match s.mramWriteAll n ((List.range ((bytes + 4095) / 4096)).map (fun i => journalBlock n (16 * area + i))) with
          | (s1, ok) => s1.modCore n (fun k => { k with images := if ok then { m with verified := true, area := area } :: ms else ms })
      | none => s
    | [] => s)

/-! ## The scrubber (18 R443 to R445) -/

/-- SCRUB_VISIT of bank `n`, which found `len` corrected errors, with failing blocks `picks`; `flag` says that the sector at `value` holds
uncorrectable data (18 R440 to R442). -/
def execScrubVisit (s : State) : Result :=
  let b := s.about.n
  let s1 := if s.about.flag then
      let pa := s.about.value.toNat / 64 * 64
      ({ s with poison := if s.poison.contains pa then s.poison else s.poison ++ [pa] } : State).unowned (homeDie pa) 4 pa
    else s
  .next (if s.about.len < Config.fuse 5 ∨ s1.lost.contains b ∨ l3Bank + 4096 ≤ b then s1
    else if !s1.bch.contains b then { s1 with bch := s1.bch ++ [b] }
    else if l3Bank ≤ b then
      let s2 := s1.emptyL3 ((b - l3Bank) / 256) (fun l => Config.l3Bank l % 256 == (b - l3Bank) % 256)
      { s2 with lost := s2.lost ++ [b] }
    else
      let core := b / 18
      { s1 with spares := Sparse.put s1.spares core (min 32 (Sparse.get s1.spares 0 core + s.about.picks.length)) })

/-! ## Log entries whose payload the spec leaves open -/

def State.logFree (s : State) (ty : Nat) : State := s.tick.logEntry ty (Config.freeKey s.free).toNat

/-! ## Power loss (17 R433, R434) -/

/-- POWER_FAIL_WARNING: cores finish the group in issue, images still forming are abandoned, the launch unit and the engines stop, and
the power loss is logged. -/
def execPowerFailWarning (s : State) : Result :=
  .next (if s.frozenPower then s
    else ({ s with
      frozenPower := true
      cores := s.cores.map (fun (p : Nat × Core) => (p.1, { p.2 with images := p.2.whole })) } : State).logFree logPower)

/-- Whether the launch unit has a slice's retirement word. -/
def State.retiredSlice (s : State) (n slice : Nat) : Bool := match s.kernel? n with | some k => k.retired.contains slice | none => false

/-- What control storage and the restart shadows hold at the loss: of each core its newest complete image, whose slice has not retired. -/
def State.toSave (s : State) : Saved :=
  let lives (n : Nat) : Bool := match s.kernel? n with | some k => k.done.isNone && k.rejected.isNone | none => false
  let persists (n : Nat) : Bool := lives n && (match s.kernel? n with | some k => recPersist k.record | none => false)
  let ended (n sl : Nat) : Bool := s.words.any (fun w => w.kernel == n && w.slice == sl && w.dest.isNone)
  { kernels := (s.kernels.filter (fun (p : Nat × Kernel) => lives p.1)).map (fun (p : Nat × Kernel) =>
      (p.1, { p.2 with
        parent := none
        retired := p.2.retired ++ (dedup ((s.words.filter (fun w => w.kernel == p.1 && w.dest.isNone)).map (·.slice))).filter (fun sl => !p.2.retired.contains sl) }))
    started := s.dies.flatMap (fun (p : Nat × Die) =>
      (p.2.recs.filter (fun (r : SliceRec) => persists r.kernel && !r.fresh && !ended r.kernel r.slice)).map (fun (r : SliceRec) => (r.kernel, r.slice, p.1)) ++
        p.2.back.flatMap (fun e => e.2.2.map (fun sl => (e.1, sl, p.1))))
    images := s.cores.filterMap (fun (p : Nat × Core) => match p.2.images.find? (·.complete) with
      | some m => if persists m.kernel && !ended m.kernel m.slice && !s.retiredSlice m.kernel m.slice then some (p.1, m.kernel, m.slice) else none
      | none => none)
    walkers := s.dies.flatMap (fun (p : Nat × Die) =>
      (dedup ((p.2.next.map (·.1)) ++ (p.2.back.map (·.1)))).filterMap (fun n => if persists n then (p.2.walker n).map (fun x => (p.1, n, x)) else none)) }

/-- What control storage holds at a loss that comes while a restore is pending: what it held, and what has been accepted since (02 R19, R41). A
core's older image counts unless a newer slice has left one there. -/
def State.saveAll (s : State) : Saved :=
  let new := s.toSave
  match s.saved with
  | none => new
  | some old =>
    let still (i : Nat × Nat × Nat) : Bool := match Sparse.find? old.kernels i.2.1 with
      | some k => ((s.core i.1).imageOf (recKid k.record) i.2.2).isSome | none => false
    { kernels := Sparse.puts old.kernels new.kernels, started := old.started ++ new.started
      images := old.images.filter still ++ new.images, walkers := old.walkers ++ new.walkers }

/-! ## The module without power (01 R12) -/

/-- Memory outside the package keeps its bytes, and so do other modules and MRAM. -/
def State.keepsByte (s : State) (pa : Nat) : Bool := paModule pa != s.modid || rangeOf pa == .mram

def State.isCxl (s : State) (pa : Nat) : Bool := paModule pa == s.modid && rangeOf pa == .cxl

/-- The management subsystem after its power or the module's was gone: what it keeps in MRAM and the Cuff as they were. -/
def Mss.survivors (m : Mss) : Mss :=
  { Mss.reset with
    logHead := m.logHead, logFloor := m.logFloor, log := m.log, chain := m.chain, checkpoint := m.checkpoint, ckRead := m.ckRead
    dropped := m.dropped, rate := m.rate, burst := m.burst, tokens := m.tokens, frac := m.frac, accrued := m.accrued, slotA := m.slotA
    slotB := m.slotB, activeB := m.activeB, rollback := m.rollback, bootCount := m.bootCount, reason := m.reason }

/-- Every block that an import had left OPEN is INVALID (19 R462). -/
def closeBlocks (m : Sparse Nat) : Sparse Nat := m.map (fun (p : Nat × Nat) => if p.2 = blkOpen then (p.1, blkInvalid) else p)

/-- The module with everything volatile at its reset value: MRAM, fuses, the log, firmware slots, worn blocks, Glove marks and the restart shadows
are kept; lines of L2 and L3 that were not written back are lost, and the decoders of the CXL ports are not set until the firmware runs. `cxl` says
that CXL memory keeps its bytes, every line having been written back; else a byte of it holds what its expander holds, the last value written back
or another (01 R12). A byte of LP6 DRAM, for which the spec gives no value after its loss, reads 0 (notes/assumptions/1.md). -/
def State.powerCycle (s : State) (cxl : Bool) : State :=
  { State.reset with
    mem := s.mem.filter (fun (c : Host.Cell) => s.keepsByte c.1 || (cxl && s.isCxl c.1)), hostMem := s.hostMem
    cxlLosses := if cxl then s.cxlLosses else s.cxlLosses + 1
    cores := (s.cores.filter (fun (p : Nat × Core) => p.2.images.any (·.complete))).map (fun (p : Nat × Core) =>
      (p.1, { Core.reset with images := (p.2.images.filter (·.complete)).take 1 }))
    accepted := s.accepted, nextId := s.nextId, floors := s.floors, sealedDram := s.sealedDram
    poison := s.poison.filter (fun p => s.keepsByte p || s.isCxl p)
    blocks := closeBlocks s.blocks, wear := s.wear, spares := s.spares, bch := s.bch, lost := s.lost
    cxl := [], podPorts := s.podPorts, modid := s.modid, noRoute := s.noRoute, linksDown := s.linksDown, plainPorts := s.plainPorts, podSealed := s.podSealed, saved := s.saved
    mss := s.mss.survivors, ns := s.ns, me := s.me, about := s.about, agenda := s.agenda, free := s.free }

/-- Islands that lose power with the module (01 R11, R12), all OFF. -/
def State.darkIslands (s : State) : Sparse Island :=
  ((List.range 640).filter (fun n => !(decide (576 ≤ n ∧ n < 580)))).map (fun n => (n, ⟨.off, s.ns, none, false⟩))

/-! ## Booting (19 R476, R477) -/

/-- Whether a slot may run. -/
def Mss.runs (m : Mss) (f : FwSlot) : Bool := f.valid && decide (m.rollback ≤ f.rollback)

/-- The slot that the ROM boots: the active one, or else the other. -/
def Mss.bootSlot (m : Mss) : Option Bool :=
  let slot (b : Bool) : FwSlot := if b then m.slotB else m.slotA
  if m.runs (slot m.activeB) then some m.activeB else if m.runs (slot (!m.activeB)) then some (!m.activeB) else none

/-- Minimal mode, with its entry in the log. -/
def State.minimal (s : State) (reason : Byte) : State :=
  ({ s with mss := { s.mss with boot := .minimal reason, reason := reason } } : State).logFree logMinimal

/-- The ROM starts: `check` is the reason 3 to 6 of a check that failed, or 0. -/
def State.romBoot (s : State) (check : Nat) : State :=
  let c := s.mss.bootCount
  let s1 := { s with mss := { s.mss with bootCount := c + 1, bootedAt := s.ns } }
  if 3 ≤ check ∧ check ≤ 6 then s1.minimal (BitVec.ofNat 8 check)
  else if 3 ≤ c then s1.minimal s.mss.reason
  else match s.mss.bootSlot with
    | none => s1.minimal 1
    | some b => { s1 with mss := { s1.mss with boot := .booting, runB := b } }

/-- The Cuff at a cold reset: fused values, the bucket full (R469). -/
def Mss.fullCuff (m : Mss) (ns : Nat) : Mss :=
  { m with rate := Config.fuse 1, burst := Config.fuse 2, tokens := Config.fuse 2, frac := 0, accrued := ns }

/-- COLD_RESET; `n` is the reason of a failed check, or 0. A restore that is pending stays pending. -/
def execColdReset (s : State) : Result :=
  let s1 := s.powerCycle false
  .next (({ s1 with mss := { s1.mss.fullCuff s.ns with restorePending := s.mss.restorePending, reason := 2 } } : State).romBoot s.about.n)

/-- Leaving deep-off (R478): the islands get their power, the Cuff and the configuration blocks are as they were, and no restore is pending. -/
def State.leaveDeepOff (s : State) : State := (s.wakeAll (List.range 640)).romBoot s.about.n

/-- PERST_RELEASE on a host port. -/
def execPerstRelease (s : State) : Result := .next (if s.mss.boot = .deepOff then s.leaveDeepOff else s)

/-- POWER_RETURN after a loss (R435): everything volatile is lost, the islands are OFF, the management subsystem boots with a restore
pending; or the end of deep-off. -/
def execPowerReturn (s : State) : Result :=
  .next (if s.mss.boot = .deepOff then s.leaveDeepOff
    else if !s.frozenPower then s
    else
      let s1 := s.powerCycle false
      ({ s1 with
        saved := some s.saveAll, islands := s.darkIslands
        mss := { s1.mss.fullCuff s.ns with restorePending := true, reason := 2 } } : State).romBoot s.about.n)

/-- FIRMWARE_READY: the boot counter is cleared, the fused rollback counter raised, the decoders of the CXL ports set, the boot logged; a pending
restore is reported. -/
def execFirmwareReady (s : State) : Result :=
  .next (if s.mss.boot = .booting then
      let f := if s.mss.runB then s.mss.slotB else s.mss.slotA
      let s1 := ({ s with cxl := expandersAt, mss := { s.mss with boot := .running, bootCount := 0, rollback := max s.mss.rollback f.rollback } } : State).logFree logBoot
      if s1.mss.restorePending then s1.raise 67 else s1
    else s)

/-- FIRMWARE_WATCHDOG_EXPIRY: the ROM starts again. -/
def execFirmwareWatchdogExpiry (s : State) : Result :=
  .next (if s.mss.boot = .booting then ({ s with mss := { s.mss with reason := 2 } } : State).romBoot s.about.n else s)

/-! ## Restore (17 R435) -/

/-- A kernel of control storage that is not persistent ends with class 4, code 0x0F. -/
def State.endLost (s : State) (n : Nat) (k : Kernel) : State :=
  (s.setKernel n { k with failed := true, error := errWord (2 ^ 41 - 1) none 4 tPowerLost }).completeKernel n

/-- A persistent kernel as it comes back, with no die handed it yet: dependences on kernels that are not restored are satisfied. -/
def Kernel.back (k : Kernel) (lost : Nat → Bool) (ns : Nat) : Kernel :=
  let deps := k.deps.map (fun (d : Dep) => match d.kernel with | some n => if lost n then { d with sat := true } else d | none => d)
  if k.runnable.isSome then { k with deps := deps, handed := [], runnable := some ns } else ({ k with deps := deps } : Kernel).settle ns

/-- The local deadline of a kernel on a die, from the present instant. -/
def State.freshDeadline (s : State) (k : Kernel) (d : Nat) : Option Nat :=
  if recDeadline k.record = 0 then none else some (s.ns + (s.die d).skew + recDeadline k.record)

/-- The cores of a gang place whose shadows hold an image of every member of a slice: of several places the one with the newest images, which have the
most issue cycles (02 R28; notes/assumptions/84.md). -/
def State.imageCores (s : State) (x : Saved) (n slice width : Nat) : List Nat :=
  let cs := (x.images.filter (fun i => i.2.1 == n && i.2.2 == slice)).map (·.1)
  let age (c : Nat) : Nat := (((s.core c).images.find? (·.complete)).map (fun (m : Image) => m.issued)).getD 0
  let places := cs.filter (fun c => c % width == 0 && (List.range width).all (fun i => cs.contains (c + i)))
  let newer (b : Option Nat) (c : Nat) : Option Nat := match b with | none => some c | some y => if age y < age c then some c else some y
  match places.foldl newer none with
  | some c => (List.range width).map (c + ·)
  | none => []

/-- A slice comes back: on the cores of its images, or to its die, whose walker publishes it again, to run from its first iteration. -/
def State.backSlice (s : State) (x : Saved) (n : Nat) (k : Kernel) (slice die : Nat) : State :=
  match s.imageCores x n slice (gangWidth k.record) with
  | [] => s.modDie die (fun d =>
      let e := Sparse.get d.back ((replicaDies k.record).idxOf die, []) n
      { d with back := Sparse.put d.back n (e.1, e.2 ++ [slice]) })
  | c :: cs =>
    let at_ := dieOf c
    let r : SliceRec := { SliceRec.new n slice [] (some s.ns) (s.freshDeadline k at_) with st := .started, bound := c :: cs, restored := true }
    (s.modDie at_ (fun d => { d with recs := d.recs ++ [r] })).wakeAll (s.pathIslands at_ r (c :: cs))

/-- The slices of a kernel that its walkers had published and that have not retired, each on its die. -/
def Saved.slicesOf (x : Saved) (n : Nat) (k : Kernel) : List (Nat × Nat) :=
  let own := (x.started.filter (fun t => t.1 == n)).map (fun t => (t.2.1, t.2.2))
  let ds := replicaDies k.record
  let m := max 1 ds.length
  let walked := (x.walkers.filter (fun w => w.2.1 == n)).flatMap (fun w =>
    let i := ds.idxOf w.1
    (List.range ((w.2.2 - i) / m)).map (fun j => (i + j * m, w.1)))
  (own ++ walked.filter (fun p => !own.any (fun q => q.1 == p.1))).filter (fun p => !k.retired.contains p.1)

/-- One persistent kernel returned to its dies: it is handed over to each of them afresh (notes/assumptions/84.md). -/
def State.backKernel (s : State) (x : Saved) (n : Nat) (k : Kernel) : State :=
  let s1 := (x.walkers.filter (fun w => w.2.1 == n)).foldl (fun s w =>
    s.modDie w.1 (fun d => { d with back := Sparse.put d.back n (w.2.2, []) })) s
  (x.slicesOf n k).foldl (fun s p => s.backSlice x n k p.1 p.2) s1

/-- The restore: the kernels come back under their acceptance numbers, the others complete. -/
def State.restoreAll (s : State) (x : Saved) : State :=
  let keep (k : Kernel) : Bool := recPersist k.record
  let lost (n : Nat) : Bool := match Sparse.find? x.kernels n with | some k => !keep k | none => true
  let back := (x.kernels.filter (fun (p : Nat × Kernel) => keep p.2)).map (fun (p : Nat × Kernel) => (p.1, p.2.back lost s.ns))
  let s1 := { s with
    saved := none, mss := { s.mss with restorePending := false }
    kernels := Sparse.puts s.kernels back, kidTable := back.map (·.1) ++ s.kidTable }
  let s2 := back.foldl (fun s p => s.backKernel x p.1 p.2) s1
  (x.kernels.filter (fun (p : Nat × Kernel) => !keep p.2)).foldl (fun s p => s.endLost p.1 p.2) s2

end Sys2Proof.Machine
end

