-- ==== Sys2Proof/Machine/Mss.lean ====
section
/-!
DEFINITION. The management subsystem at work (19 R453 to R478): mailbox commands, imports with MUPD, the Cuff, attestation; links, the
pod and the power manager. Layouts of argument buffers and answers that the spec leaves open are in notes/assumptions/33.md.
-/
namespace Sys2Proof.Machine

open Sys2Proof

/-! ## The mailbox (R453) -/

def mbOk : Nat := 0
def mbDenied : Nat := 2
def mbBadArg : Nat := 3
def mbLogFull : Nat := 4
def mbMinimal : Nat := 5

/-- `n` bytes of the argument buffer. -/
def State.arg (s : State) (off n : Nat) : Nat := leNat (Mem.reads s.mss.buf off n)

/-- Bytes of a result in the buffer. -/
def State.putArg (s : State) (off : Nat) (bs : List Byte) : State := { s with mss := { s.mss with buf := Mem.writes s.mss.buf off bs } }

/-- The end of a command: its status, then vector 65. -/
def State.mbDone (s : State) (status : Nat) : State :=
  let code := bitsOf s.mss.mbcmd 0 8
  ({ s with mss := { s.mss with mbcmd := BitVec.ofNat 64 code, mbstat := BitVec.ofNat 64 (2 ^ 63 + status * 256 + code) } } : State).raise 65

/-- A command of the mailbox: it runs when the host has written it and none of it has run; minimal mode answers only commands
3, 4 and 5 of the list 6, 7, 8, 9 (R477). -/
def State.command (s : State) (code : Nat) (body : State → State) : Result :=
  .next (if s.mss.mbcmd ≠ BitVec.ofNat 64 (2 ^ 63 + code) ∨ s.mss.exporting.isSome then s
    else match s.mss.boot with
      | .running => body s
      | .minimal _ => if 6 ≤ code ∧ code ≤ 9 then body s else s.mbDone mbMinimal
      | _ => s)

/-- A command that the spec refuses without naming the status: DENIED or BAD_ARG. -/
def State.mbOpen (s : State) : State := s.tick.mbDone (if Config.freeBool s.free then mbDenied else mbBadArg)

/-- RESTORE (0x01), when one is pending. -/
def execRestore (s : State) : Result := s.command 1 (fun s => match s.saved with
  | some x => if s.mss.restorePending then (s.restoreAll x).mbDone mbOk else s.mbOpen
  | none => s.mbOpen)

/-- POWER_LIMIT (0x02). -/
def execPowerLimit (s : State) : Result := s.command 2 (fun s =>
  ({ s with mss := { s.mss with powerLimit := min (s.arg 0 4) (Config.fuse 0) } } : State).mbDone mbOk)

/-- The bytes "brx cmd" and "brx import". -/
def brxCmd : List Byte := [0x62, 0x72, 0x78, 0x20, 0x63, 0x6D, 0x64]
def brxImport : List Byte := [0x62, 0x72, 0x78, 0x20, 0x69, 0x6D, 0x70, 0x6F, 0x72, 0x74]

/-- The established SPDM session that a buffer proves: its HMAC over the `n` bytes before it verifies under K_cmd (R461). -/
def State.proven (s : State) (n : Nat) : Option Spdm :=
  match s.mss.sessions.find? (fun x => x.established && x.id.toNat == s.arg 0 4) with
  | none => none
  | some x =>
    let key := hkdfExpand (beBytes 48 x.ems.toNat) brxCmd 48
    if hmac384 key (Mem.reads s.mss.buf 0 n) = Mem.reads s.mss.buf n 48 then some x else none

/-- PRIV_LAUNCH (0x03): a record accepted through the privileged path. -/
def execPrivLaunch (s : State) : Result := s.command 3 (fun s =>
  match s.proven 0x140 with
  | none => s.mbDone mbDenied
  | some _ =>
    if !s.mss.logRoom logPriv then s.mbDone mbLogFull
    else if s.frozenPower || s.kidRoom.isNone then s
    else ((s.logFree logPriv).acceptKernel (BitVec.ofNat 2048 (s.arg 0x40 256)) .mailbox true none).mbDone mbOk)

/-! ## Sealed DRAM (R208, R462) -/

/-- Ranges without the bytes of one range. -/
def cutRange (lo n : Nat) (l : List (Nat × Nat)) : List (Nat × Nat) :=
  l.flatMap (fun r =>
    [(r.1, min (r.1 + r.2) lo - r.1), (max r.1 (lo + n), r.1 + r.2 - max r.1 (lo + n))].filter (fun p => p.2 != 0))

/-- SEAL_DRAM (0x04): range at 0x00, length at 0x08, 1 to mark at 0x10. Zeros are written first, and no cache keeps a byte of it. -/
def execSealDram (s : State) : Result := s.command 4 (fun s =>
  let pa := s.arg 0 8
  let n := s.arg 8 8
  if pa % 0x10000 ≠ 0 ∨ n % 0x10000 ≠ 0 ∨ n = 0 ∨ 2 ^ 52 ≤ pa ∨ paModule pa ≠ s.modid ∨ 0x018000000000 < paLocal pa + n then s.mbDone mbBadArg
  else if !s.mss.logRoom logSeal then s.mbDone mbLogFull
  else
    let s1 := s.logFree logSeal
    let inside (a : Nat) : Bool := decide (pa ≤ a ∧ a < pa + n)
    let rest := cutRange pa n s1.sealedDram
    ({ s1 with
      mem := dropRange s1.mem pa n, poison := s1.poison.filter (fun p => !inside p)
      l2 := s1.l2.filter (fun x => !inside (x.1 * 512)), l3 := s1.l3.filter (fun x => !inside (x.1 * 512))
      altered := s1.altered.filter (fun x => !inside (x.1 * 64))
      cores := s1.cores.map (fun (p : Nat × Core) => (p.1, { p.2 with l1 := p.2.l1.filter (fun b => !inside b.1) }))
      sealedDram := if s.arg 0x10 1 % 2 = 1 then rest ++ [(pa, n)] else rest } : State).mbDone mbOk)

/-! ## The Cuff and exports (R468, R469) -/

/-- Tokens gained up to the present instant. -/
def Mss.accrue (m : Mss) (ns : Nat) : Mss :=
  let gain := m.frac + m.rate * (ns - m.accrued)
  let t := m.tokens + gain / 1000000000
  { m with tokens := min t m.burst, frac := if m.burst ≤ t then 0 else gain % 1000000000, accrued := max m.accrued ns }

def execCuffTokenAccrual (s : State) : Result := .next { s with mss := s.mss.accrue s.ns }

/-- CUFFRATE_WRITE of `value`: only a lower one applies; it is logged and raises vector 66. -/
def execCuffrateWrite (s : State) : Result :=
  let v := bitsOf s.about.value 0 32
  .next (if v < s.mss.rate then
      (({ s with mss := { s.mss.accrue s.ns with rate := v } } : State).logFree logCuff).raise 66
    else s)

/-- CUFFBURST_WRITE of `value`: tokens above the new size are dropped. -/
def execCuffburstWrite (s : State) : Result :=
  let v := bitsOf s.about.value 0 32
  .next (if v < s.mss.burst then
      let m := s.mss.accrue s.ns
      (({ s with mss := { m with burst := v, tokens := min m.tokens v, frac := if v ≤ m.tokens then 0 else m.frac } } : State).logFree logCuff).raise 66
    else s)

/-- EXPORT (0x05): source at 0x00, length at 0x08, host address at 0x10, in 4 KiB units. -/
def execExportRange (s : State) : Result := s.command 5 (fun s =>
  let pa := s.arg 0 8
  let n := s.arg 8 8
  let blocks := (List.range (n / 4096)).map (fun i => pa + 4096 * i)
  if Config.fuse 3 = 0 then s.mbDone mbDenied
  else if pa % 4096 ≠ 0 ∨ n % 4096 ≠ 0 ∨ n = 0 ∨ 2 ^ 46 < n ∨ 2 ^ 52 ≤ pa then s.mbDone mbBadArg
  else if blocks.any (fun b => !s.inGlove b) then s.mbDone mbBadArg
  else if blocks.any (fun b => !s.blockValid b) then s.mbDone mbDenied
  else if !s.mss.logRoom logExport then s.mbDone mbLogFull
  else
    let s1 := s.logFree logExport
    { s1 with mss := { s1.mss with exporting := some ⟨pa, s.arg 0x10 8, n⟩ } })

/-- EXPORT_UNIT: 4 KiB pass the Cuff once 4,096 tokens are there. A unit with an uncorrectable error ends the command (18 R441;
notes/assumptions/33.md). -/
def execExportUnit (s : State) : Result :=
  let m := s.mss.accrue s.ns
  .next (match s.mss.exporting with
    | none => s
    | some e =>
      if m.tokens < 4096 ∨ !s.hostUp then { s with mss := m }
      else if (List.range 64).any (fun i => s.readFails (e.src + 64 * i)) then
        ({ s with mss := { m with exporting := none } } : State).mbOpen
      else
        let s1 := s.hostPut e.dst (s.bytes e.src 4096)
        let left := e.left - 4096
        let s2 := { s1 with mss := { m with
          tokens := m.tokens - 4096, exporting := if left = 0 then none else some ⟨e.src + 4096, e.dst + 4096, left⟩ } }
        if left = 0 then s2.mbDone mbOk else s2)

/-! ## The log (R472, R473) -/

/-- LOG_READ (0x06): entries from the SEQ at 0x00, as many as at 0x08, and then the newest checkpoint, with the DROPPED it signs, to the host
address at 0x10. -/
def execLogRead (s : State) : Result := s.command 6 (fun s =>
  let first := s.arg 0 8
  let n := s.arg 8 8
  if first < s.mss.logFloor ∨ s.mss.logHead < first + n then s.mbDone mbBadArg
  else
    let s1 := s.takeCheckpoint
    let c := s1.mss.checkpoint
    let es := (List.range n).flatMap (fun i => leBytes 64 (Sparse.get s1.mss.log 0 (first + i)).toNat)
    let s2 := s1.hostPut (s.arg 0x10 8) (es ++ leBytes 8 c.seq ++ beBytes 48 c.chain.toNat ++ leBytes 8 c.dropped ++ beBytes 96 c.signature.toNat)
    ({ s2 with mss := { s2.mss with ckRead := c.seq } } : State).mbDone mbOk)

/-- LOG_ACK (0x07): the floor rises to the SEQ at 0x00 when a checkpoint read out covers it. -/
def execLogAck (s : State) : Result := s.command 7 (fun s =>
  let q := s.arg 0 8
  if q ≤ s.mss.ckRead then
    ({ s with mss := { s.mss with
      logFloor := max s.mss.logFloor q, log := s.mss.log.filter (fun e => decide (max s.mss.logFloor q ≤ e.1)) } } : State).mbDone mbOk
  else s.mbOpen)

/-! ## Firmware (R476, R477) -/

/-- FW_UPDATE (0x08): host address of the image at 0x10, its length at 0x18; the image carries its version at 0 and its rollback number at 8. It
goes to the slot that is not marked active. `ok` says that its signature verifies. In minimal mode a success clears the counter and resets the
module. -/
def execFwUpdate (s : State) : Result := s.command 8 (fun s =>
  let image := s.hostBytes (s.arg 0x10 8) (s.arg 0x18 4)
  let slot : FwSlot := ⟨BitVec.ofNat 32 (leNat (image.take 4)), leNat ((image.drop 8).take 8), BitVec.ofNat 384 (beNat (sha384 image)), s.about.ok⟩
  let m := s.mss
  let m1 := if m.activeB then { m with slotA := slot } else { m with slotB := slot }
  let s1 := ({ s with mss := m1 } : State).logFree logFw
  if !s.about.ok then s1.mbOpen
  else
    let s2 := ({ s1 with mss := { s1.mss with activeB := !m.activeB } } : State).mbDone mbOk
    match m.boot with
    | .minimal _ => (({ s2 with mss := { s2.mss with bootCount := 0 } } : State).powerCycle true).romBoot 0
    | _ => s2)

/-- Mode and reason code. -/
def Mss.modeBytes (m : Mss) : List Byte := match m.boot with | .minimal r => [1, r] | _ => [0, 0]

/-- STATUS (0x09): mode and reason, whether a restore is pending, HEAD, FLOOR and DROPPED. -/
def execStatus (s : State) : Result := s.command 9 (fun s =>
  (s.putArg 0 (s.mss.modeBytes ++ leBytes 6 (if s.mss.restorePending then 1 else 0) ++
    leBytes 8 s.mss.logHead ++ leBytes 8 s.mss.logFloor ++ leBytes 8 s.mss.dropped)).mbDone mbOk)

/-! ## Imports (R460 to R466) -/

def Import.blocks (i : Import) : List Nat := (List.range (i.len / 4096)).map (fun b => i.core * 1024 + i.off / 4096 + b)

/-- Blocks in one state. -/
def setBlocks (m : Sparse Nat) (bs : List Nat) (st : Nat) : Sparse Nat := bs.foldl (fun m b => Sparse.put m b st) m

/-- An import session ends without its commit: its blocks are INVALID, and the abort is logged. -/
def State.abortImport (s : State) (n : Nat) (i : Import) : State :=
  ({ s with blocks := setBlocks s.blocks i.blocks blkInvalid, mss := { s.mss with imports := Sparse.erase s.mss.imports n } } : State).logFree logAbort

/-- IMPORT_OPEN (0x0A). -/
def execImportOpen (s : State) : Result := s.command 10 (fun s =>
  match s.proven 0x20 with
  | none => s.mbDone mbDenied
  | some x =>
    let core := s.arg 4 2
    let off := s.arg 8 4
    let len := s.arg 0xC 4
    if 2048 ≤ core ∨ s.arg 6 2 ≠ 0 ∨ off % 4096 ≠ 0 ∨ len % 4096 ≠ 0 ∨ len = 0 ∨ 0x400000 < off + len then s.mbDone mbBadArg
    else match (List.range 16).find? (fun n => (Sparse.find? s.mss.imports n).isNone) with
      | none => s.mbDone mbDenied
      | some n =>
        if s.mss.imports.any (fun (p : Nat × Import) => p.2.core == core && meets off len p.2.off p.2.len) then s.mbDone mbDenied
        else
          let k := hkdfExpand (beBytes 48 x.ems.toNat) (brxImport ++ Mem.reads s.mss.buf 0 32) 40
          let i : Import := ⟨x.id, core, off, len, 0, [], BitVec.ofNat 256 (beNat (k.take 32)), BitVec.ofNat 64 (beNat (k.drop 32))⟩
          (({ s with
            blocks := setBlocks s.blocks i.blocks blkOpen
            mss := { s.mss with imports := Sparse.put s.mss.imports n i } } : State).putArg 0 [BitVec.ofNat 8 n]).mbDone mbOk)

/-- IMPORT_CLOSE (0x0B). -/
def execImportClose (s : State) : Result := s.command 11 (fun s =>
  match s.proven 8 with
  | none => s.mbDone mbDenied
  | some x =>
    let n := s.arg 4 1
    if s.arg 5 3 ≠ 0 then s.mbDone mbBadArg
    else match Sparse.find? s.mss.imports n with
      | none => s.mbDone mbDenied
      | some i =>
        if i.spdm ≠ x.id then s.mbDone mbDenied
        else if !s.mss.logRoom logAbort then s.mbDone mbLogFull
        else (s.abortImport n i).mbDone mbOk)

/-! ### MUPD (R463 to R466) -/

/-- The result word. -/
def mupdWord (next code : Nat) : Word := BitVec.ofNat 64 (next % 2 ^ 32 * 2 ^ 32 + code * 2 ^ 16 + (if code = 0 then 0 else 4))

def updField (b : BitVec 512) (lo len : Nat) : Nat := (b.extractLsb' lo len).toNat

/-- Reserved bits of an update block; FLOOR is reserved but for COMMIT. -/
def updReserved (op : Nat) (b : BitVec 512) : Bool :=
  let nz (lo len : Nat) : Bool := updField b lo len != 0
  nz 327 185 || nz 313 7 || nz 224 32 || nz 152 40 || nz 139 5 || nz 118 10 || nz 57 7 || (op != 1 && nz 320 7)

/-- `len` bytes of MRAM that the sealing unit writes use up the fused rate for a time (R467). -/
def State.pace (s : State) (len : Nat) : State :=
  { s with mss := { s.mss with paced := max s.mss.paced s.ns + len * 1000000000 / Config.fuse 8 } }

/-- A WRITE whose checks up to SEQ have passed: the result code and the state. -/
def State.mupdWrite (s : State) (n : Nat) (i : Import) (b : BitVec 512) (die : Nat) : State × Nat :=
  let len := updField b 64 32
  let off := updField b 96 22
  match s.engineBytes die (signVa (updField b 0 57)) len true, s.engineBytes die (signVa (updField b 256 57)) 16 true with
  | .error e, _ => (s, 0x80 + e)
  | _, .error e => (s, 0x80 + e)
  | .ok ct, .ok tg =>
    match gcmDecrypt (beBytes 32 i.key.toNat) (beBytes 8 i.ivPrefix.toNat ++ leBytes 4 (updField b 192 32)) ((leBytes 64 b.toNat).take 32) ct tg with
    | none => (s, 4)
    | some pt =>
      let blocks := (List.range (len / 4096)).map (fun j => i.core * 1024 + off / 4096 + j)
      match s.mramWriteAll i.core blocks with
      | (s1, false) => (s1.abortImport n i, 6)
      | (s2, true) =>
        let s1 := s2.pace len
        let i1 := { i with next := updField b 192 32 + 1, written := dedup (i.written ++ blocks) }
        let base := mramBase s1.modid i.core + off
        ({ s1 with
          mem := Mem.writes s1.mem base pt, poison := s1.poison.filter (fun p => !decide (base ≤ p ∧ p < base + len))
          mss := { s1.mss with imports := Sparse.put s1.mss.imports n i1 } }, 0)

/-- A COMMIT whose checks have passed: zeroed blocks, each written, verified and counted as wear (18 R446), floor, states and log in one step. A
write that fails aborts the session. -/
def State.mupdCommit (s : State) (n : Nat) (i : Import) (floor : Nat) : State × Nat :=
  let old := Sparse.get s.floors 64 i.core
  let lo := mramBase s.modid i.core + old * 0x10000
  let len := (floor - old) * 0x10000
  match s.mramWriteAll i.core ((List.range (len / 4096)).map (fun j => i.core * 1024 + old * 16 + j)) with
  | (s1, false) => (s1.abortImport n i, 6)
  | (s2, true) =>
    let s1 := s2.pace len
    (({ s1 with
      mem := dropRange s1.mem lo len, poison := s1.poison.filter (fun p => !decide (lo ≤ p ∧ p < lo + len))
      blocks := setBlocks s1.blocks i.blocks blkValid, floors := Sparse.put s1.floors i.core floor
      mss := { s1.mss with imports := Sparse.erase s1.mss.imports n } } : State).logFree logCommit, 0)

/-- One operation of the sealing unit: the new state, the value of s.next, and the code. -/
def State.mupdRun (s : State) (op : Nat) (b : BitVec 512) (die : Nat) : State × Nat × Nat :=
  let n := updField b 144 8
  match (if n < 16 then Sparse.find? s.mss.imports n else none) with
  | none => (s.tick, Config.freeNat s.free, 1)
  | some i =>
    let len := updField b 64 32
    let off := updField b 96 22
    let range := decide (len % 4096 ≠ 0 ∨ len < 4096 ∨ 65536 < len ∨ off % 4096 ≠ 0 ∨ off < i.off ∨ i.off + i.len < off + len)
    if updField b 128 11 ≠ i.core then (s, i.next, 1)
    else if updReserved op b || (op == 0 && range) || (op == 1 && decide (64 < updField b 320 7)) then (s, i.next, 2)
    else if op = 0 then
      if updField b 192 32 ≠ i.next then (s, i.next, 3)
      else
        let r := s.mupdWrite n i b die
        (r.1, if r.2 = 0 then i.next + 1 else i.next, r.2)
    else if op = 1 then
      if !i.blocks.all (fun x => i.written.contains x) then (s, i.next, 5)
      else if !s.mss.logRoom logCommit then (s, i.next, 7)
      else
        let r := s.mupdCommit n i (updField b 320 7)
        (r.1, i.next, r.2)
    else if !s.mss.logRoom logAbort then (s, i.next, 7)
    else (s.abortImport n i, i.next, 0)

/-- MUPD at the end of its group: the sealing unit has it. -/
def State.mupd (s : State) (who : Who) (op : Nat) (wd : Option Nat) (b : BitVec 512) : State :=
  { s with mss := { s.mss with updates := s.mss.updates ++ [⟨who, op, wd, b, (s.core who.core).rels⟩] } }

/-- One operation takes effect: its result goes to wd. -/
def State.runUpdate (s : State) (u : Update) : State :=
  let (s1, next, code) := s.mupdRun u.op u.block (dieOf u.who.core)
  match u.wd with
  | none => s1
  | some w => { s1 with replies := s1.replies ++ [⟨u.who, [(w, mupdWord next code)], none, false⟩] }

/-- The sealing unit applies what has come, in order, each once the release before it is complete; an operation that may write MRAM waits until the
writes before it keep to the fused rate (R467). The first argument bounds the operations. -/
def State.pumpUpdates (s : State) : Nat → State
  | 0 => s
  | f + 1 => match s.mss.updates with
    | [] => s
    | u :: rest =>
      if !s.releasedFor u.who u.after ∨ (u.op ≠ 2 ∧ s.ns < s.mss.paced) then s
      else State.pumpUpdates (({ s with mss := { s.mss with updates := rest } } : State).runUpdate u) f

/-! ## Deep-off (R478) -/

/-- DEEP_OFF (0x0C): dirty lines go home, then everything but the always-on domain loses power. CXL memory keeps what was written back
(notes/assumptions/91.md). -/
def execDeepOff (s : State) : Result := s.command 12 (fun s =>
  if (List.range 64).any (fun q => (s.queue q).en) ∨ s.kernels.any (fun (p : Nat × Kernel) => p.2.done.isNone) ∨ s.mss.restorePending then s.mbDone mbDenied
  else
    let s0 := (s.cores.map (·.1)).foldl (fun s n => s.release n) (s.mbDone mbOk)
    let s1 := (List.range 16).foldl (fun s st => s.emptyL3 st (fun _ => true)) ((List.range 64).foldl (fun s d => s.emptyL2 d) s0)
    let s2 := s1.powerCycle true
    let s3 := { s2 with
      islands := s1.darkIslands, irqs := s1.irqs, cfgFile := s1.cfgFile, mss := { s2.mss with boot := .deepOff }
      dies := s1.dies.map (fun (p : Nat × Die) => (p.1, { Die.reset with cfg := p.2.cfg }))
      cores := s2.cores.map (fun (p : Nat × Core) => (p.1, { p.2 with images := [] })) }
    (s3.cfgFile.map (·.1)).foldl (fun s d => s.applyCfg d) s3)

/-! ## Attestation (R470) -/

/-- An SPDM request: its code (notes/assumptions/8.md) and the body of the answer; a request out of order is an error. -/
def State.spdm (s : State) (code : Byte) (inOrder : Bool) (body : State → State × List Byte) : Result :=
  .next (if !s.answers then s
    else if !inOrder then { s with mss := { s.mss with response := [0x7F, 0x04] } }
    else
      let (s1, bs) := body s
      { s1 with mss := { s1.mss with response := (code &&& 0x7F) :: bs, transcript := s1.mss.transcript ++ [code, code &&& 0x7F] } })

/-- Whether version, capabilities and algorithms have been agreed. -/
def State.agreed (s : State) : Bool := [0x84, 0xE1, 0xE3].all (fun c => s.mss.transcript.contains c)

/-- 48 bytes the spec names and does not state. -/
def State.openBytes (s : State) : State × List Byte := (s.tick, beBytes 48 (Config.freeKey s.free).toNat)

/-- The signature of the identity key, 96 bytes. -/
def State.signed (s : State) (bs : List Byte) : State × List Byte :=
  let (sig, s1) := s.sign
  (s1, bs ++ beBytes 96 sig.toNat)

/-- GET_VERSION: the exchange starts afresh; the version is 1.3. -/
def execGetVersion (s : State) : Result :=
  s.spdm 0x84 true (fun s => ({ s with mss := { s.mss with transcript := [] } }, [0x13]))

def execGetCapabilities (s : State) : Result := s.spdm 0xE1 (s.mss.transcript.contains 0x84) (fun s => s.openBytes)

/-- NEGOTIATE_ALGORITHMS: ECDSA P-384, SHA-384, ECDHE secp384r1 and AES-256-GCM only. -/
def execNegotiateAlgorithms (s : State) : Result :=
  s.spdm 0xE3 (s.mss.transcript.contains 0xE1) (fun s => (s, [1, 2, 3, 4]))

/-- The certificate chain: it ends in the identity key. -/
def certificateChain : List Byte := Config.certificates ++ beBytes 96 Config.identityKey.toNat

def execGetDigests (s : State) : Result := s.spdm 0x81 s.agreed (fun s => (s, sha384 certificateChain))
def execGetCertificate (s : State) : Result := s.spdm 0x82 s.agreed (fun s => (s, certificateChain))
def execChallenge (s : State) : Result := s.spdm 0x83 s.agreed (fun s => s.signed [])

/-- The measurements of R470, by index. -/
def Mss.measurement (m : Mss) (i : Nat) : List Byte :=
  let f := if m.runB then m.slotB else m.slotA
  match i with
  | 1 => beBytes 48 (Config.fuseKey 0).toNat
  | 2 => beBytes 48 f.digest.toNat ++ leBytes 4 f.version.toNat
  | 3 => beBytes 48 m.fuseDigest.toNat
  | 4 => leBytes 8 m.checkpoint.seq ++ beBytes 48 m.checkpoint.chain.toNat
  | 5 => m.modeBytes
  | _ => []

/-- GET_MEASUREMENTS of index `n`, signed in every mode. -/
def execGetMeasurements (s : State) : Result :=
  s.spdm 0xE0 s.agreed (fun s =>
    if 1 ≤ s.about.n ∧ s.about.n ≤ 5 then s.signed (BitVec.ofNat 8 s.about.n :: s.mss.measurement s.about.n)
    else (s, [0, 5]))

/-- KEY_EXCHANGE on host port `n`, with the requester's half of the session id in `value`. The shared secret is a free value. -/
def execKeyExchange (s : State) : Result :=
  s.spdm 0xE4 s.agreed (fun s =>
    let id := BitVec.ofNat 32 (bitsOf s.about.value 0 16 + Config.freeNat s.free % 65536 * 65536)
    let x : Spdm := ⟨id, Config.freeKey (s.free + 1), false, s.about.n⟩
    ({ s with free := s.free + 2, mss := { s.mss with sessions := s.mss.sessions.filter (fun y => y.id != id) ++ [x] } } : State).signed (leBytes 4 id.toNat))

/-- FINISH of session `n`; `ok` says that the requester's proof verifies. -/
def execFinish (s : State) : Result :=
  let id : W32 := BitVec.ofNat 32 s.about.n
  s.spdm 0xE5 (s.about.ok && s.mss.sessions.any (fun x => x.id == id && !x.established)) (fun s =>
    ({ s with mss := { s.mss with sessions := s.mss.sessions.map (fun (x : Spdm) => if x.id = id then { x with established := true } else x) } }, []))

/-- SPDM sessions end, and every import session opened under them is aborted (R461). -/
def State.endSessions (s : State) (sel : Spdm → Bool) : State :=
  let ids := (s.mss.sessions.filter sel).map (·.id)
  let s1 := (s.mss.imports.filter (fun (p : Nat × Import) => ids.contains p.2.spdm)).foldl (fun s p => s.abortImport p.1 p.2) s
  { s1 with mss := { s1.mss with sessions := s1.mss.sessions.filter (fun x => !sel x) } }

/-- END_SESSION of session `n`. -/
def execEndSession (s : State) : Result :=
  let id : W32 := BitVec.ofNat 32 s.about.n
  s.spdm 0xEC (s.mss.sessions.any (fun x => x.id == id && x.established)) (fun s => (s.endSessions (fun x => x.id == id), []))

/-! ## Links, the pod, the power manager (R449, R455 to R458, 01 R15) -/

/-- HOST_LINK_RESET of port `n`: the SPDM sessions it carried end. -/
def execHostLinkReset (s : State) : Result := .next (s.endSessions (fun x => x.port == s.about.n))

def execHostLinkDown (s : State) : Result :=
  .next (if s.about.n < 2 ∧ !s.linksDown.contains s.about.n then { s with linksDown := s.linksDown ++ [s.about.n] } else s)

/-- HOST_LINK_UP of port `n`; `flag` says that the host has not trained CXL on it (R449). -/
def execHostLinkUp (s : State) : Result :=
  let n := s.about.n
  let plain := s.plainPorts.filter (· != n)
  .next { s with linksDown := s.linksDown.filter (· != n), plainPorts := if s.about.flag && decide (n < 2) then plain ++ [n] else plain }

/-- A physical address of the own module under a new MODID. -/
def moveModule (old new pa : Nat) : Nat := if paModule pa = old then new * 2 ^ 46 + paLocal pa else if paModule pa = new then old * 2 ^ 46 + paLocal pa else pa

/-- POD_BRINGUP: MODID becomes `n`, before any work is there. An entry of `picks` is a route: the module in its low 6 bits, and from bit 6 on the
B-die whose pod port leads there, of up to two for each module. -/
def execPodBringup (s : State) : Result :=
  let new := s.about.n % 64
  .next (if s.kernels.any (fun (p : Nat × Kernel) => p.2.done.isNone) ∨ !s.objs.isEmpty ∨ !s.msgs.isEmpty ∨ !s.cmds.isEmpty then s
    else
      let mv := moveModule s.modid new
      { s with
        modid := new, noRoute := (List.range 64).filter (fun m => m != new && !s.about.picks.any (fun p => p % 64 == m))
        podPorts := (List.range 64).filterMap (fun m =>
          let ports := ((s.about.picks.filter (fun p => p % 64 == m)).map (fun p => p / 64 % 16)).take 2
          if ports.isEmpty then none else some (m, ports))
        mem := s.mem.foldl (fun m (c : Host.Cell) => Mem.write m (mv c.1) c.2) []
        l2 := s.l2.map (fun x => (mv (x.1 * 512) / 512, x.2)), l3 := s.l3.map (fun x => (mv (x.1 * 512) / 512, x.2))
        altered := s.altered.map (fun x => (mv (x.1 * 64) / 64, x.2))
        poison := s.poison.map mv, sealedDram := s.sealedDram.map (fun r => (mv r.1, r.2)), frozen := s.frozen.map (fun r => (mv r.1, r.2)) })

def execPodRouteLoss (s : State) : Result :=
  .next (if s.about.n < 64 ∧ s.about.n ≠ s.modid ∧ !s.noRoute.contains s.about.n then { s with noRoute := s.noRoute ++ [s.about.n] } else s)
def execPodRouteRestore (s : State) : Result := .next { s with noRoute := s.noRoute.filter (· != s.about.n) }

/-- POWER_MANAGER_THROTTLE: the clock of quad island `quad` is set to `n` MHz, 400 to 3,600 in steps of 100 (01 R11). -/
def execPowerManagerThrottle (s : State) : Result :=
  .next (if 400 ≤ s.about.n ∧ s.about.n ≤ 3600 ∧ s.about.n % 100 = 0 ∧ s.about.quad < 512 then { s with mhz := Sparse.put s.mhz s.about.quad s.about.n } else s)

end Sys2Proof.Machine
end

