-- ==== Sys2Proof/Machine/Complete.lean ====
section
/-!
DEFINITION. The completion of a group (05 R95, R97): its writes and operations take effect in order, an image is taken (07 R161), and the
sequencer goes on (06 R139, 07 R144 to R159, 02 R27).
-/
namespace Sys2Proof.Machine

open Sys2Proof

/-! ## Operations of a completed group -/

/-- The bytes a global load has when it takes its place in issue order: dirty bytes of its core's L1, and clean ones where the whole
8-byte word is valid (14 R334) and no earlier load of it is under way (R337). -/
def Core.l1Bytes (k : Core) (g : GLoad) : List (Option Byte) :=
  let waits := k.gloads.any (fun j => j.near g.pa g.size)
  let valid (a : Nat) : Bool := (Sparse.find? k.l1 a).isSome
  (List.range g.size).map (fun i =>
    let w := (g.pa + i) / 8 * 8
    match Sparse.find? k.l1 (g.pa + i) with
    | none => none
    | some x =>
      let whole := (List.range 8).all (fun j => decide (w + j < g.pa ∨ g.pa + g.size ≤ w + j) || valid (w + j))
      if x.dirty || (whole && !waits) then some x.val else none)

/-- A global load takes its place in issue order: bytes of its core's own L1 are read now (12 R290), a device register too (09 R206). A
load that L1 serves whole leaves L1 as it is. -/
def State.beginLoad (s : State) (n : Nat) (g : GLoad) : State :=
  let k := s.core n
  let g1 := { g with after := k.fenceAt, epoch := k.epoch, fence := k.fences }
  if g.device then s.setCore n { k with gloads := k.gloads ++ [{ g1 with own := (leBytes 8 (s.readReg g.pa).toNat).map some }] }
  else if g.raw then
    if unstated g.pa then
      { s.setCore n { k with gloads := k.gloads ++ [{ g1 with own := (freeBytes s.free g.size).map some }] } with free := s.free + g.size }
    else s.setCore n { k with gloads := k.gloads ++ [{ g1 with own := List.replicate g.size none }] }
  else
    let own := k.l1Bytes g
    s.setCore n { k with gloads := k.gloads ++ [{ g1 with own := own, raw := own.all (·.isSome) }] }

/-- An LS store to a range L1 does not cache. MRAM is written by `MUPD` and the BTE alone (09 R202, 14 R335), and a range with no stated contents
keeps nothing (notes/assumptions/9.md). -/
def State.rawStore (s : State) (n pa : Nat) (bs : List Byte) : State :=
  if unstated pa || rangeOf pa == .mram then s
  else ((s.serveLoads n (fun g => g.near pa bs.length)).landFirst n).putBytes pa bs

/-- An LS store to global memory: earlier loads of the same words are served first (09 R226), then L1 takes the bytes (12 R290). -/
def State.cacheStore (s : State) (n pa : Nat) (bs : List Byte) : State :=
  ((s.serveLoads n (fun g => g.near pa bs.length)).modCore n (fun k => { k with l1 := l1Store k.fences k.l1 pa bs })).fitL1 n (pa / 64)

/-- Bytes on their way to memory, those of global memory apart from those that land in a stated cycle. -/
def Core.land (k : Core) (path : Path) (due : Nat) (cells : List MByte) (held : Option (Nat × List MByte)) : Core :=
  let part (far : Bool) : List Landing :=
    let here (cs : List MByte) : List MByte := cs.filter (fun c => isGlobal c.pa == far)
    if (here cells).isEmpty then [] else [⟨due, here cells, k.fences, k.rels, path, held.map (fun h => (h.1, here h.2)), false⟩]
  { k with landings := k.landings ++ part false ++ part true }

/-- The output bytes of a group whose last bundle issued in cycle t are held no more (11 R270). -/
def Core.unhold (k : Core) (t : Nat) : Core :=
  { k with landings := k.landings.map (fun l => match l.held with
    | some (c, cs) => { l with held := none, due := max l.due (t + 1), cells := if t < c then cs else l.cells }
    | none => l) }

/-- The physical ranges of a range of virtual addresses as CFLUSH and CINV find them (09 R233): unmapped, sealed and window bytes
are left out. -/
def State.flushSpans (s : State) (n : Nat) (va : Word) (len : Nat) : List (Nat × Nat) :=
  let lo := va.toNat
  let hi := lo + len
  (List.range ((hi + 65535) / 65536 - lo / 65536)).filterMap (fun i =>
    let u := (lo / 65536 + i) * 65536
    let a := max lo u
    let b := min hi (u + 65536)
    match placeOf n (BitVec.ofNat 64 a) with
    | .virt => match s.xlate n (BitVec.ofNat 64 a) with
      | .ok pa _ _ => if s.inGlove pa then none else some (pa, b - a)
      | _ => none
    | _ => none)

/-- CFLUSH and CINV (09 R233). The 8-byte words that meet the range go home whole (14 R334). -/
def State.flushRange (s : State) (n : Nat) (σ : Scope) (va : Word) (len : Nat) (void : Bool) : State :=
  if σ = .core ∨ len = 0 then s
  else
    let spans := s.flushSpans n va len
    let hit (a : Nat) : Bool := spans.any (fun p => decide (p.1 ≤ a ∧ a < p.1 + p.2))
    let s1 := s.flushL1 n (fun a => (List.range 8).any (fun i => hit (a / 8 * 8 + i)))
    if void then s1.modCore n (fun k => { k with l1 := k.l1.filter (fun p => !hit p.1) }) else s1

/-- Operations on memory words push the core's dirty bytes of the word first (12 R293). -/
def SyncOp.onWord (o : SyncOp) : Bool :=
  match o with
  | .atomic _ _ _ | .aswp _ _ | .acas _ _ _ | .red _ _ _ | .wmon _ _ _ _ | .sigdec _ _ => true
  | _ => false

/-- w registers of a core that an engine will write (17 R422). -/
def State.expect (s : State) (n : Nat) (ws : List Nat) : State := s.modCore n (fun k => { k with wpend := k.wpend ++ ws })

/-- A message of a group leaves the core; it waits for what the core's releases cover. -/
def State.post (s : State) (n : Nat) (m : SyncMsg) : State :=
  let s1 := if m.op.onWord then (s.readAhead n).pushWord n m.addr else s.readAhead n
  let s2 := s1.expect n (match m.reply with | .w a b => a.toList ++ b.toList | _ => [])
  { s2 with msgs := s2.msgs ++ [{ m with after := (s2.core n).rels }] }

/-- One operation of core n's group, whose last bundle issued in cycle t, or, when `ahead`, is still to issue. -/
def State.applyOp (ahead : Bool) (s : State) (n t : Nat) (who : Who) (o : Op) : State :=
  match o with
  | .tileStore issued pa bs => s.modCore n (fun k => k.land (.ls issued) (max issued t + 1) (fullCells pa bs) none)
  | .rawStore pa bs => s.rawStore n pa bs
  | .land path due cells => s.modCore n (fun k => k.land path (max due (t + 1)) cells (if ahead && path.isMx then some (0, []) else none))
  | .drained ps at_ due held passed => s.modCore n (fun k => if ahead then k.land (.mx ps) (max due (t + 1)) held (some (at_, passed))
    else k.land (.mx ps) (max due (t + 1)) (if t < at_ then passed else held) none)
  | .globalStore pa bs => s.cacheStore n pa bs
  | .devStore off v => s.writeReg off v
  | .gload g => s.beginLoad n g
  | .nload g => s.modCore n (fun k => { k with
      nloads := k.nloads ++ [{ g with due := max g.due (t + 1), fence := k.fences, rels := k.rels, epoch := k.epoch }]
      inflight := k.inflight ++ g.dests.map (fun d => ⟨.z d.1, .wait g.readAt, max g.due (t + 1), false⟩) })
  | .miss u => s.missOn n u
  | .prefetch level pa => s.prefetch level pa
  | .touch secs => secs.foldl (fun s x => s.fetchSector (64 * x) false) s
  | .fence => s.fence n
  | .phase σ => ((s.fence n).release n).acquire n σ
  | .release _ => s.release n
  | .acquire σ => s.acquire n σ
  | .cflush σ va len => s.flushRange n σ va len false
  | .cinv σ va len => s.flushRange n σ va len true
  | .accCommit p => s.modCore n (fun k => { k with accPend := k.accPend ++ [{ p with due := max p.due (t + 1) }] })
  | .wland w v due => s.modCore n (fun k => { k with inflight := k.inflight ++ [⟨.w w, .word v, max due (t + 1), true⟩] })
  | .sync m => s.post n m
  | .bte kind wd block issued => (s.expect n wd.toList).acceptBte n who kind wd block issued
  | .attn wd block issued => (s.expect n wd.toList).acceptAttn n who wd block issued
  | .launch waits va lines wd =>
    { s.expect n [wd] with launches := s.launches ++ [⟨who, wd, waits, va, lines, (s.core n).rels⟩] }
  | .strgBar sel word main status =>
    let (a, b) := s.strgBar n sel word
    let regs := (main.map (fun w => (w, a))).toList ++ (status.map (fun w => (w, b))).toList
    let s1 := s.expect n (main.toList ++ status.toList)
    { s1 with replies := s1.replies ++ [⟨who, regs, none, false⟩] }
  | .mupd op wd block => (s.expect n wd.toList).mupd who op wd block
  | .wrsys num v => if num = 0x11 then s.modCore n (fun k => { k with trap := { k.trap with tpc := v } }) else s
  | .ckpt _ | .ckptL => s

/-- The operations of a group in issue order. -/
def State.applyOps (ahead : Bool) (s : State) (n t : Nat) (who : Who) (os : List Op) : State := os.foldl (fun s o => State.applyOp ahead s n t who o) s

/-- The dead mark after a group's operations (07 R164). -/
def deadAfter (dead : Bool) (ops : List Op) : Bool :=
  ops.foldl (fun d o => match o with | .ckptL => true | .accCommit _ => false | _ => d) dead

/-! ## The sequencer -/

/-- Copies that name an index register become void when the sequencer has changed it (06 R136): a level pushed, popped or advanced. -/
def voidLevels (old new : List LoopLevel) (cycle : Nat) (ps : Sparse Port) : Sparse Port :=
  (List.range 6).foldl (fun ps i =>
    if (old[i]?).map (·.index) = (new[i]?).map (·.index) then ps else voidPorts ps (.i i) cycle) ps

/-- Copies that name a tile index become void at a restart. -/
def voidTiles (cycle : Nat) (ps : Sparse Port) : Sparse Port := (List.range 6).foldl (fun ps i => voidPorts ps (.j i) cycle) ps

/-- A change of reuse ports, those of the core and those saved at a trap (17 R419). -/
def Core.mapPorts (k : Core) (f : Sparse Port → Sparse Port) : Core :=
  { k with ports := f k.ports, trap := { k.trap with ports := f k.trap.ports } }

/-- The end of a group whose last bundle lies at `a` (06 R139, 07 R151): the loop stack, where to go on when a level loops back, and
whether a level ended there. The first argument bounds the levels. -/
def loopEnd (a : Word) : Nat → List LoopLevel → List LoopLevel × Option Word × Bool
  | 0, ls => (ls, none, false)
  | f + 1, ls =>
    match innermost ls with
    | none => (ls, none, false)
    | some l =>
      if l.last ≠ a then (ls, none, false)
      else if l.more then (bumpIndex ls, some l.start, true)
      else let (r, t, _) := loopEnd a f (ls.take (ls.length - 1)); (r, t, true)

/-- The sequencer goes on past the group: to START of a level that loops back, else after the group. -/
def Core.fallThrough (k : Core) (a next : Word) : Core :=
  let (ls, back, hit) := loopEnd a 7 k.loops
  { k with
    loops := ls, pc := back.getD next, landing := k.landing || hit
    turned := if back.isSome then some (k.cycle + 1, k.loops, k.ports) else k.turned }

/-! ## Images of the restart shadow (07 R161 to R163) -/

/-- The registers once every instruction result in flight has committed. -/
def Core.settled (k : Core) : Regs :=
  let ps := k.inflight.filter (fun (p : Pend) => !p.engine)
  let last := (ps.map (·.due)).foldl max 0
  let ordered := (List.range (last + 1 - k.cycle)).flatMap (fun d => ps.filter (fun p => p.due == k.cycle + d))
  ordered.foldl (fun r p => r.commit p.reg p.val) k.regs

/-- Loop levels once every result in flight has committed. -/
def Core.settledLoops (k : Core) : List LoopLevel :=
  k.inflight.foldl (fun ls p => match p.reg with | .loop i f => setLoopField ls i f p.val.toWord | _ => ls) k.loops

/-- The neighbour loads whose word is the last value a z register is to have, by the cycle they read in (06 R126). -/
def Core.lateLoads (k : Core) : List (Nat × Nat) :=
  (List.range 32).filterMap (fun z =>
    let ps := k.inflight.filter (fun p => p.reg == .z z && !p.engine)
    match ps.foldl (fun (b : Option Pend) p => match b with | some q => if p.due < q.due then b else some p | none => some p) none with
    | some ⟨_, .wait r, _, _⟩ => some (r + 1, z)
    | _ => none)

/-- The image a CKPT group of core n takes: the state after the group. -/
def State.imageOf (s : State) (n : Nat) (journal : Option (List (Nat × Nat))) : Image :=
  let k := s.core n
  let r := k.settled
  let late := ((k.inflight.filter (fun (p : Pend) => !p.engine)).map (·.due) ++ k.qpend.map (·.due) ++ k.accPend.map (·.due) ++
    k.landings.map (·.due)).foldl max k.cycle
  { kernel := (match k.run with | some x => x.kernel | none => 0)
    kid := recKid (s.recOf n), slice := (match k.run with | some x => x.slice | none => 0), pc := k.pc, loops := k.settledLoops
    regs := { r with va := [], vb := [], pa := [], pb := [] }, wpend := k.wpend
    loads := (k.gloads.filter (fun (g : GLoad) => !g.latched)).flatMap (fun g => g.dests.map (fun d => (0, d.1))) ++ k.lateLoads
    q := k.qpend.foldl (fun m p => applyChange m p.q p.change) k.q
    ordinal := (match k.run with | some x => x.ordinal | none => 0), issued := k.issued, allow := k.trap.allow
    journal := journal.map (fun rs => rs.map (fun p => (p.1, (List.range p.2).map (fun i => s.under k (fun _ => true) (tileBase s.modid n + p.1 + i)))))
    area := 0
    ready := late + 8, complete := false, verified := journal.isNone }

/-- Whether a range of core n's tile SRAM has a sector of uncorrectable data that nothing on its way writes whole (18 R441). -/
def State.rangeSpoiled (s : State) (n : Nat) (r : Nat × Nat) : Bool :=
  let a := tileBase s.modid n + r.1
  s.poison.any (fun p => decide (p < a + r.2 ∧ a < p + 64) &&
    !(List.range 64).all (fun i => (s.core n).landings.any (fun l => l.cells.any (fun c => c.pa == p + i && c.mask == 0xFF))))

/-- Taking the image of a group's last CKPT: an earlier incomplete one is abandoned; none is kept while power fails. A journal range with
uncorrectable data ends the slice (18 R440). -/
def State.takeImage (s : State) (n : Nat) (ops : List Op) : State :=
  match ops.reverse.findSome? (fun (o : Op) => match o with | .ckpt j => some j | _ => none) with
  | none => s
  | some j =>
    let img := s.imageOf n j
    if s.frozenPower || (s.core n).run.isNone then s
    else if (j.getD []).any (s.rangeSpoiled n) then s.modCore n (fun k => { k with lostData := true })
    else s.modCore n (fun k => { k with images := img :: k.whole.take 1 })

/-! ## The end of a group -/

/-- The restart between iterations (02 R27): the next tuple, an empty loop stack, PROGRAM. -/
def State.restart (s : State) (n t : Nat) (r : Run) : State :=
  let rec_ := s.recOf n
  s.modCore n (fun k => { k.mapPorts (voidTiles (t + 1)) with
    run := some { r with ordinal := r.ordinal + 1 }, j := nestTuple rec_ (r.ordinal + 1), loops := []
    pc := recProgram rec_, holdUntil := t + 3, landing := true })

/-- Whether a group ends as an iteration does by an LCONT in the END bundle of the innermost of the levels `ls` (07 R152, 17 R420). -/
def Group.natural (g : Group) (ls : List LoopLevel) : Bool :=
  match g.bundles[g.idx]?, innermost ls with
  | some b, some l => l.last == b.addr && b.instrs.any (fun p => p.2 == .lcont)
  | _, _ => false

/-- Where the sequencer goes on in core n, whose group `g` ended in cycle t; leaving the core and the handler come after. `natural` says that
an LCONT ended an iteration at END. -/
def State.goOn (s : State) (n t : Nat) (g : Group) (natural : Bool) : State :=
  let a := match g.bundles[g.idx]? with | some b => b.addr | none => g.start
  match g.ctrl with
  | .next | .yield => s.modCore n (fun k => k.fallThrough a g.nextPc)
  | .goto target => s.modCore n (fun k => { k with pc := target, holdUntil := t + 3, landing := k.landing || natural })
  | .exit => match (s.core n).run with
    | some r => if r.ordinal < r.last then s.restart n t r else s
    | none => s
  | .exitK _ | .eret => s

/-- What ends with the group: the slice, the handler, or the slice's hold on its core. A slice that yields or waits for a child in a group that
traps leaves after the handler, as a pre-empted one does (17 R426; notes/assumptions/80.md for a LAUNCHW beside another transfer). -/
def State.depart (s : State) (n : Nat) (g : Group) (last : Bool) : State :=
  let go (l : Leave) : State := if g.after.isSome then s.modRun n (fun r => { r with preempt := true }) else s.startLeave n l
  let child := g.ops.any (fun (o : Op) => match o with | .launch true _ _ _ => true | _ => false)
  match g.ctrl with
  | .next | .goto _ => if child then go .launchw else s
  | .exit => if last then s.endMember n else if child then go .launchw else s
  | .exitK code => s.killSlice n 1 code
  | .eret => ((s.growAllowance n).leaveHandler n).modCore n (fun k => { k with landing := true })
  | .yield => (go (if child then .launchw else .yield)).markGang n

/-- A trap taken once the group's effects stand, its transfer among them (17 R414): the saved PC is where the slice would go on. -/
def State.trapAfter (s : State) (n t : Nat) (g : Group) : State :=
  let k := s.core n
  match g.after, k.run with
  | some info, some r => if r.ended then s else s.trapTo n info k.pc (max (t + 1) k.holdUntil)
  | _, _ => s

/-- The completion of core n's open group: every effect, then the sequencer. -/
def State.completeGroup (s : State) (n : Nat) : State :=
  let k := s.core n
  let t := k.cycle
  let g := k.grp
  let last := match k.run with | some r => !decide (r.ordinal < r.last) | none => true
  let k1 := { k with
    inflight := k.inflight ++ g.writes.map (fun (p : Pend) => { p with due := max p.due (t + 1) })
    ports := g.ports, q := g.q, qpend := g.qpend, loops := g.loops
    mx := { g.mx with dead := deadAfter k.mx.dead g.ops }
    wait := Wait.none, kept := k.kept.filter (fun e => e.start != g.start)
    grp := Group.none }
  let s1 := State.applyOps false (s.setCore n (k1.unhold t)) n t (k.who n) g.ops
  let s2 := (s1.goOn n t g (g.natural k.loops)).modCore n (fun c => c.mapPorts (voidLevels k.loops c.loops (t + 1)))
  let s3 := if g.old then s2.modCore n Core.markOld else s2
  ((s3.takeImage n g.ops).depart n g last).trapAfter n t g

end Sys2Proof.Machine
end

