-- ==== Sys2Proof/Machine/Dispatch.lean ====
section
/-!
DEFINITION. The meaning of every instruction and step, one arm per constructor of `Instr`.
-/
namespace Sys2Proof.Machine

open Sys2Proof

def exec (i : Instr) (s : State) : Host.Outcome State Fault Refusal :=
  match i with
  | .cNop => Sys2Proof.Machine.execCNop s
  | .br off => Sys2Proof.Machine.execBr off s
  | .brt cond off => Sys2Proof.Machine.execBrt cond off s
  | .brf cond off => Sys2Proof.Machine.execBrf cond off s
  | .call off => Sys2Proof.Machine.execCall off s
  | .ret => Sys2Proof.Machine.execRet s
  | .jmpi a b => Sys2Proof.Machine.execJmpi a b s
  | .loop cnt off => Sys2Proof.Machine.execLoop cnt off s
  | .lbrk n => Sys2Proof.Machine.execLbrk n s
  | .lcont => Sys2Proof.Machine.execLcont s
  | .lrd d level f => Sys2Proof.Machine.execLrd d level f s
  | .lwr src level f => Sys2Proof.Machine.execLwr src level f s
  | .yield => Sys2Proof.Machine.execYield s
  | .exit => Sys2Proof.Machine.execExit s
  | .exitK src => Sys2Proof.Machine.execExitK src s
  | .trap code => Sys2Proof.Machine.execTrap code s
  | .eret => Sys2Proof.Machine.execEret s
  | .ckpt => Sys2Proof.Machine.execCkpt s
  | .ckptT src => Sys2Proof.Machine.execCkptT src s
  | .ckptL => Sys2Proof.Machine.execCkptL s
  | .rdsys d n => Sys2Proof.Machine.execRdsys d n s
  | .wrsys src n => Sys2Proof.Machine.execWrsys src n s
  | .cXcp x => Sys2Proof.Machine.execCXcp x s
  | .cMovl d l => Sys2Proof.Machine.execCMovl d l s
  | .cAdd p => Sys2Proof.Machine.execCAdd p s
  | .fop d e => Sys2Proof.Machine.execFop d e s
  | .iNop u => Sys2Proof.Machine.execINop u s
  | .add p => Sys2Proof.Machine.execAdd p s
  | .sub p => Sys2Proof.Machine.execSub p s
  | .mul p => Sys2Proof.Machine.execMul p s
  | .mulhs p => Sys2Proof.Machine.execMulhs p s
  | .mulhu p => Sys2Proof.Machine.execMulhu p s
  | .divs p => Sys2Proof.Machine.execDivs p s
  | .divu p => Sys2Proof.Machine.execDivu p s
  | .rems p => Sys2Proof.Machine.execRems p s
  | .remu p => Sys2Proof.Machine.execRemu p s
  | .and p => Sys2Proof.Machine.execAnd p s
  | .or p => Sys2Proof.Machine.execOr p s
  | .xor p => Sys2Proof.Machine.execXor p s
  | .andn p => Sys2Proof.Machine.execAndn p s
  | .shl p => Sys2Proof.Machine.execShl p s
  | .shr p => Sys2Proof.Machine.execShr p s
  | .sar p => Sys2Proof.Machine.execSar p s
  | .ror p => Sys2Proof.Machine.execRor p s
  | .min p => Sys2Proof.Machine.execMin p s
  | .max p => Sys2Proof.Machine.execMax p s
  | .minu p => Sys2Proof.Machine.execMinu p s
  | .maxu p => Sys2Proof.Machine.execMaxu p s
  | .abs p => Sys2Proof.Machine.execAbs p s
  | .clz p => Sys2Proof.Machine.execClz p s
  | .ctz p => Sys2Proof.Machine.execCtz p s
  | .popc p => Sys2Proof.Machine.execPopc p s
  | .bfx p => Sys2Proof.Machine.execBfx p s
  | .bfi p => Sys2Proof.Machine.execBfi p s
  | .clmul p => Sys2Proof.Machine.execClmul p s
  | .clmulh p => Sys2Proof.Machine.execClmulh p s
  | .cmp u w c d a b => Sys2Proof.Machine.execCmp u w c d a b s
  | .sel u w k d a b => Sys2Proof.Machine.execSel u w k d a b s
  | .mov p => Sys2Proof.Machine.execMov p s
  | .movl u d l => Sys2Proof.Machine.execMovl u d l s
  | .movh u d l => Sys2Proof.Machine.execMovh u d l s
  | .lea p => Sys2Proof.Machine.execLea p s
  | .xcp u x => Sys2Proof.Machine.execXcp u x s
  | .adds p => Sys2Proof.Machine.execAdds p s
  | .bswap p => Sys2Proof.Machine.execBswap p s
  | .crc32c narrow p => Sys2Proof.Machine.execCrc32c narrow p s
  | .lsNop => Sys2Proof.Machine.execLsNop s
  | .ld k d a b => Sys2Proof.Machine.execLd k d a b s
  | .st sz data a b => Sys2Proof.Machine.execSt sz data a b s
  | .ldx k d a ix => Sys2Proof.Machine.execLdx k d a ix s
  | .stx sz data a ix => Sys2Proof.Machine.execStx sz data a ix s
  | .lsAdd p => Sys2Proof.Machine.execLsAdd p s
  | .lsSub p => Sys2Proof.Machine.execLsSub p s
  | .lsShl p => Sys2Proof.Machine.execLsShl p s
  | .lsMovl d l => Sys2Proof.Machine.execLsMovl d l s
  | .lsAnd p => Sys2Proof.Machine.execLsAnd p s
  | .lsXcp x => Sys2Proof.Machine.execLsXcp x s
  | .scfg q word b => Sys2Proof.Machine.execScfg q word b s
  | .sldd q a b => Sys2Proof.Machine.execSldd q a b s
  | .sstd q a b => Sys2Proof.Machine.execSstd q a b s
  | .srst q => Sys2Proof.Machine.execSrst q s
  | .sadv q b => Sys2Proof.Machine.execSadv q b s
  | .spos d q => Sys2Proof.Machine.execSpos d q s
  | .fence => Sys2Proof.Machine.execFence s
  | .phase sc => Sys2Proof.Machine.execPhase sc s
  | .cflush sc a b => Sys2Proof.Machine.execCflush sc a b s
  | .cinv sc a b => Sys2Proof.Machine.execCinv sc a b s
  | .pref l a b => Sys2Proof.Machine.execPref l a b s
  | .zfill a b => Sys2Proof.Machine.execZfill a b s
  | .ldp d a b => Sys2Proof.Machine.execLdp d a b s
  | .vnop u => Sys2Proof.Machine.execVnop u s
  | .vadd p => Sys2Proof.Machine.execVadd p s
  | .vsub p => Sys2Proof.Machine.execVsub p s
  | .vmul p => Sys2Proof.Machine.execVmul p s
  | .vfma p => Sys2Proof.Machine.execVfma p s
  | .vfms p => Sys2Proof.Machine.execVfms p s
  | .vmin p => Sys2Proof.Machine.execVmin p s
  | .vmax p => Sys2Proof.Machine.execVmax p s
  | .vabs p => Sys2Proof.Machine.execVabs p s
  | .vneg p => Sys2Proof.Machine.execVneg p s
  | .vrcp p => Sys2Proof.Machine.execVrcp p s
  | .vrsq p => Sys2Proof.Machine.execVrsq p s
  | .vexp2 p => Sys2Proof.Machine.execVexp2 p s
  | .vlog2 p => Sys2Proof.Machine.execVlog2 p s
  | .vand p => Sys2Proof.Machine.execVand p s
  | .vor p => Sys2Proof.Machine.execVor p s
  | .vxor p => Sys2Proof.Machine.execVxor p s
  | .vnot p => Sys2Proof.Machine.execVnot p s
  | .vshl p => Sys2Proof.Machine.execVshl p s
  | .vshr p => Sys2Proof.Machine.execVshr p s
  | .vsar p => Sys2Proof.Machine.execVsar p s
  | .vcmp p => Sys2Proof.Machine.execVcmp p s
  | .vsel p => Sys2Proof.Machine.execVsel p s
  | .vcvt rm src p => Sys2Proof.Machine.execVcvt rm src p s
  | .vpack q u t d a b => Sys2Proof.Machine.execVpack q u t d a b s
  | .vunpk q p => Sys2Proof.Machine.execVunpk q p s
  | .vshuf p => Sys2Proof.Machine.execVshuf p s
  | .vbcst j p => Sys2Proof.Machine.execVbcst j p s
  | .vred f p => Sys2Proof.Machine.execVred f p s
  | .vscan f p => Sys2Proof.Machine.execVscan f p s
  | .vclmul p => Sys2Proof.Machine.execVclmul p s
  | .vpopc p => Sys2Proof.Machine.execVpopc p s
  | .vclz p => Sys2Proof.Machine.execVclz p s
  | .vmovl u p d l => Sys2Proof.Machine.execVmovl u p d l s
  | .vxcp u dst ix lane a => Sys2Proof.Machine.execVxcp u dst ix lane a s
  | .vpop f u t p d a => Sys2Proof.Machine.execVpop f u t p d a s
  | .vany u p d => Sys2Proof.Machine.execVany u p d s
  | .vall u p d => Sys2Proof.Machine.execVall u p d s
  | .vidx p => Sys2Proof.Machine.execVidx p s
  | .vslide u n d a b => Sys2Proof.Machine.execVslide u n d a b s
  | .vdot p => Sys2Proof.Machine.execVdot p s
  | .vsat p => Sys2Proof.Machine.execVsat p s
  | .vexpm p => Sys2Proof.Machine.execVexpm p s
  | .vround rm p => Sys2Proof.Machine.execVround rm p s
  | .vplj q u t d a b => Sys2Proof.Machine.execVplj q u t d a b s
  | .vpls q hi u t d a => Sys2Proof.Machine.execVpls q hi u t d a s
  | .vcomp p => Sys2Proof.Machine.execVcomp p s
  | .mxNop => Sys2Proof.Machine.execMxNop s
  | .mma p => Sys2Proof.Machine.execMma p s
  | .mmaz p => Sys2Proof.Machine.execMmaz p s
  | .mmag p => Sys2Proof.Machine.execMmag p s
  | .mzero ac m => Sys2Proof.Machine.execMzero ac m s
  | .mnrm ac q t ov rm scale => Sys2Proof.Machine.execMnrm ac q t ov rm scale s
  | .mnrmAlign ac x => Sys2Proof.Machine.execMnrmAlign ac x s
  | .mdrn ac side q t slot => Sys2Proof.Machine.execMdrn ac side q t slot s
  | .mepi slot off => Sys2Proof.Machine.execMepi slot off s
  | .mchkOff ac => Sys2Proof.Machine.execMchkOff ac s
  | .mchkOn ac => Sys2Proof.Machine.execMchkOn ac s
  | .mld ac off => Sys2Proof.Machine.execMld ac off s
  | .mst ac off => Sys2Proof.Machine.execMst ac off s
  | .mregLo ac l => Sys2Proof.Machine.execMregLo ac l s
  | .mregHi ac l => Sys2Proof.Machine.execMregHi ac l s
  | .mstat ac w => Sys2Proof.Machine.execMstat ac w s
  | .enNop => Sys2Proof.Machine.execEnNop s
  | .btc p => Sys2Proof.Machine.execBtc p s
  | .btcm p => Sys2Proof.Machine.execBtcm p s
  | .btcg p => Sys2Proof.Machine.execBtcg p s
  | .rinit loader p => Sys2Proof.Machine.execRinit loader p s
  | .racq p => Sys2Proof.Machine.execRacq p s
  | .rpub p => Sys2Proof.Machine.execRpub p s
  | .await poll p => Sys2Proof.Machine.execAwait poll p s
  | .rels p => Sys2Proof.Machine.execRels p s
  | .rpois p => Sys2Proof.Machine.execRpois p s
  | .aadd p => Sys2Proof.Machine.execAadd p s
  | .amin p => Sys2Proof.Machine.execAmin p s
  | .amax p => Sys2Proof.Machine.execAmax p s
  | .aand p => Sys2Proof.Machine.execAand p s
  | .aor p => Sys2Proof.Machine.execAor p s
  | .axor p => Sys2Proof.Machine.execAxor p s
  | .aswp p => Sys2Proof.Machine.execAswp p s
  | .acas p => Sys2Proof.Machine.execAcas p s
  | .afadd d a b o => Sys2Proof.Machine.execAfadd d a b o s
  | .red f t o a b => Sys2Proof.Machine.execRed f t o a b s
  | .wmon d a v narrow c sc => Sys2Proof.Machine.execWmon d a v narrow c sc s
  | .sigdec d a amt sc => Sys2Proof.Machine.execSigdec d a amt sc s
  | .phnew p => Sys2Proof.Machine.execPhnew p s
  | .phreg p => Sys2Proof.Machine.execPhreg p s
  | .phdrop p => Sys2Proof.Machine.execPhdrop p s
  | .phsig p => Sys2Proof.Machine.execPhsig p s
  | .phwait d a b => Sys2Proof.Machine.execPhwait d a b s
  | .phsw d a b => Sys2Proof.Machine.execPhsw d a b s
  | .phbyt p => Sys2Proof.Machine.execPhbyt p s
  | .phrd d a k => Sys2Proof.Machine.execPhrd d a k s
  | .phpois p => Sys2Proof.Machine.execPhpois p s
  | .sqnew d a b => Sys2Proof.Machine.execSqnew d a b s
  | .sqres p => Sys2Proof.Machine.execSqres p s
  | .sqcmt p => Sys2Proof.Machine.execSqcmt p s
  | .sqlen d a => Sys2Proof.Machine.execSqlen d a s
  | .sqlenH p => Sys2Proof.Machine.execSqlenH p s
  | .sqfork t d a b => Sys2Proof.Machine.execSqfork t d a b s
  | .sqforkF t d a b => Sys2Proof.Machine.execSqforkF t d a b s
  | .sqrel d a => Sys2Proof.Machine.execSqrel d a s
  | .sqmap p => Sys2Proof.Machine.execSqmap p s
  | .sqtierMove d a b => Sys2Proof.Machine.execSqtierMove d a b s
  | .sqtierL3 d a b => Sys2Proof.Machine.execSqtierL3 d a b s
  | .sqtierTile d a b => Sys2Proof.Machine.execSqtierTile d a b s
  | .sqtierUnstage d a b => Sys2Proof.Machine.execSqtierUnstage d a b s
  | .attn p => Sys2Proof.Machine.execAttn p s
  | .launch d a => Sys2Proof.Machine.execLaunch d a s
  | .launchw d a => Sys2Proof.Machine.execLaunchw d a s
  | .mupdWrite p => Sys2Proof.Machine.execMupdWrite p s
  | .mupdCommit p => Sys2Proof.Machine.execMupdCommit p s
  | .mupdAbort p => Sys2Proof.Machine.execMupdAbort p s
  | .enXcp x => Sys2Proof.Machine.execEnXcp x s
  | .enMovl d l => Sys2Proof.Machine.execEnMovl d l s
  | .enAdd p => Sys2Proof.Machine.execEnAdd p s
  | .strg p => Sys2Proof.Machine.execStrg p s
  | .strgBar p => Sys2Proof.Machine.execStrgBar p s
  | .qtailWrite => Sys2Proof.Machine.execQtailWrite s
  | .tailLineInvalidate => Sys2Proof.Machine.execTailLineInvalidate s
  | .qcfgWrite => Sys2Proof.Machine.execQcfgWrite s
  | .qstatClear => Sys2Proof.Machine.execQstatClear s
  | .recordAccept => Sys2Proof.Machine.execRecordAccept s
  | .hostSignalPoll => Sys2Proof.Machine.execHostSignalPoll s
  | .kernelHandover => Sys2Proof.Machine.execKernelHandover s
  | .slicePublish => Sys2Proof.Machine.execSlicePublish s
  | .retirementWordArrival => Sys2Proof.Machine.execRetirementWordArrival s
  | .sliceBind => Sys2Proof.Machine.execSliceBind s
  | .sliceStart => Sys2Proof.Machine.execSliceStart s
  | .recordAged => Sys2Proof.Machine.execRecordAged s
  | .preemptMark => Sys2Proof.Machine.execPreemptMark s
  | .preemptStop => Sys2Proof.Machine.execPreemptStop s
  | .contextRecordWrite => Sys2Proof.Machine.execContextRecordWrite s
  | .sliceResume => Sys2Proof.Machine.execSliceResume s
  | .longWaitYield => Sys2Proof.Machine.execLongWaitYield s
  | .stealRequest => Sys2Proof.Machine.execStealRequest s
  | .stealAccept => Sys2Proof.Machine.execStealAccept s
  | .stealDecline => Sys2Proof.Machine.execStealDecline s
  | .stealOfferTimeout => Sys2Proof.Machine.execStealOfferTimeout s
  | .stealVoidReceive => Sys2Proof.Machine.execStealVoidReceive s
  | .stealCommitReceive => Sys2Proof.Machine.execStealCommitReceive s
  | .stealAck => Sys2Proof.Machine.execStealAck s
  | .kernelComplete => Sys2Proof.Machine.execKernelComplete s
  | .dqerrcntWrite => Sys2Proof.Machine.execDqerrcntWrite s
  | .deviceQueueEnqueueDone => Sys2Proof.Machine.execDeviceQueueEnqueueDone s
  | .instructionFetchFill => Sys2Proof.Machine.execInstructionFetchFill s
  | .loadDataArrival => Sys2Proof.Machine.execLoadDataArrival s
  | .streamGroupArrival => Sys2Proof.Machine.execStreamGroupArrival s
  | .mxPinComplete => Sys2Proof.Machine.execMxPinComplete s
  | .pageWalkComplete => Sys2Proof.Machine.execPageWalkComplete s
  | .wiredBarrierReach => Sys2Proof.Machine.execWiredBarrierReach s
  | .asyncEngineWrite => Sys2Proof.Machine.execAsyncEngineWrite s
  | .budgetExhausted => Sys2Proof.Machine.execBudgetExhausted s
  | .budgetTrap => Sys2Proof.Machine.execBudgetTrap s
  | .ckptImageComplete => Sys2Proof.Machine.execCkptImageComplete s
  | .ckptJournalVerified => Sys2Proof.Machine.execCkptJournalVerified s
  | .powerFailWarning => Sys2Proof.Machine.execPowerFailWarning s
  | .powerReturn => Sys2Proof.Machine.execPowerReturn s
  | .islandTransitionComplete => Sys2Proof.Machine.execIslandTransitionComplete s
  | .quadIslandIdle => Sys2Proof.Machine.execQuadIslandIdle s
  | .idle2retExpiry => Sys2Proof.Machine.execIdle2retExpiry s
  | .ret2offExpiry => Sys2Proof.Machine.execRet2offExpiry s
  | .uncoreIdle => Sys2Proof.Machine.execUncoreIdle s
  | .bdieQuarterIdle => Sys2Proof.Machine.execBdieQuarterIdle s
  | .bteCommandStart => Sys2Proof.Machine.execBteCommandStart s
  | .bteCommandComplete => Sys2Proof.Machine.execBteCommandComplete s
  | .ringWalkSlotTaken => Sys2Proof.Machine.execRingWalkSlotTaken s
  | .syncOperationArrival => Sys2Proof.Machine.execSyncOperationArrival s
  | .wmonTimeout => Sys2Proof.Machine.execWmonTimeout s
  | .phaserWaitTimeout => Sys2Proof.Machine.execPhaserWaitTimeout s
  | .flattenCopyComplete => Sys2Proof.Machine.execFlattenCopyComplete s
  | .sqtierComplete => Sys2Proof.Machine.execSqtierComplete s
  | .attnRequestStart => Sys2Proof.Machine.execAttnRequestStart s
  | .attnRequestComplete => Sys2Proof.Machine.execAttnRequestComplete s
  | .tlbinvWrite => Sys2Proof.Machine.execTlbinvWrite s
  | .tlbinvComplete => Sys2Proof.Machine.execTlbinvComplete s
  | .fqrespWrite => Sys2Proof.Machine.execFqrespWrite s
  | .registerWrite => Sys2Proof.Machine.execRegisterWrite s
  | .configApply => Sys2Proof.Machine.execConfigApply s
  | .rasstatClear => Sys2Proof.Machine.execRasstatClear s
  | .scrubVisit => Sys2Proof.Machine.execScrubVisit s
  | .restore => Sys2Proof.Machine.execRestore s
  | .powerLimit => Sys2Proof.Machine.execPowerLimit s
  | .privLaunch => Sys2Proof.Machine.execPrivLaunch s
  | .sealDram => Sys2Proof.Machine.execSealDram s
  | .exportRange => Sys2Proof.Machine.execExportRange s
  | .exportUnit => Sys2Proof.Machine.execExportUnit s
  | .cuffTokenAccrual => Sys2Proof.Machine.execCuffTokenAccrual s
  | .cuffrateWrite => Sys2Proof.Machine.execCuffrateWrite s
  | .cuffburstWrite => Sys2Proof.Machine.execCuffburstWrite s
  | .logRead => Sys2Proof.Machine.execLogRead s
  | .logAck => Sys2Proof.Machine.execLogAck s
  | .fwUpdate => Sys2Proof.Machine.execFwUpdate s
  | .status => Sys2Proof.Machine.execStatus s
  | .importOpen => Sys2Proof.Machine.execImportOpen s
  | .importClose => Sys2Proof.Machine.execImportClose s
  | .deepOff => Sys2Proof.Machine.execDeepOff s
  | .perstRelease => Sys2Proof.Machine.execPerstRelease s
  | .coldReset => Sys2Proof.Machine.execColdReset s
  | .firmwareReady => Sys2Proof.Machine.execFirmwareReady s
  | .firmwareWatchdogExpiry => Sys2Proof.Machine.execFirmwareWatchdogExpiry s
  | .getVersion => Sys2Proof.Machine.execGetVersion s
  | .getCapabilities => Sys2Proof.Machine.execGetCapabilities s
  | .negotiateAlgorithms => Sys2Proof.Machine.execNegotiateAlgorithms s
  | .getDigests => Sys2Proof.Machine.execGetDigests s
  | .getCertificate => Sys2Proof.Machine.execGetCertificate s
  | .challenge => Sys2Proof.Machine.execChallenge s
  | .getMeasurements => Sys2Proof.Machine.execGetMeasurements s
  | .keyExchange => Sys2Proof.Machine.execKeyExchange s
  | .finish => Sys2Proof.Machine.execFinish s
  | .endSession => Sys2Proof.Machine.execEndSession s
  | .hostLinkReset => Sys2Proof.Machine.execHostLinkReset s
  | .hostLinkDown => Sys2Proof.Machine.execHostLinkDown s
  | .podBringup => Sys2Proof.Machine.execPodBringup s
  | .podRouteLoss => Sys2Proof.Machine.execPodRouteLoss s
  | .podRouteRestore => Sys2Proof.Machine.execPodRouteRestore s
  | .powerManagerThrottle => Sys2Proof.Machine.execPowerManagerThrottle s
  | .hostLinkUp => Sys2Proof.Machine.execHostLinkUp s

end Sys2Proof.Machine
end

