-- ==== Sys2Proof/Machine/Issue.lean ====
section
/-!
DEFINITION. One cycle of a core (06 R124 to R136): what commits, whether the next bundle issues or holds, its slots, the end of its
group, and what lands.
-/
namespace Sys2Proof.Machine

open Sys2Proof

/-! ## The end of a cycle -/

/-- Whether a landing is a neighbour access: its bytes lie in the tile of another core of the own module (09 R203). -/
def State.isNeighbour (s : State) (n : Nat) (l : Landing) : Bool :=
  l.cells.any (fun c => rangeOf c.pa == .tile && paModule c.pa == s.modid && (paLocal c.pa - 0x100200000000) / 0x200000 != n)

/-- Members of a core's slice that still count cycles, itself among them. -/
def State.gangNow (s : State) (n : Nat) : List Nat :=
  match (s.core n).run with
  | none => [n]
  | some r => (s.members r.kernel r.slice).filter (fun m => m == n || (match (s.core m).run with | some q => !q.ended | none => false))

/-- Whether core n's next cycle is due: no other member of its gang is a cycle behind (14 R346). -/
def State.mayCycle (s : State) (n : Nat) : Bool := (s.gangNow n).all (fun m => decide ((s.core n).cycle ≤ (s.core m).cycle))

/-- A slice whose neighbour load met an uncorrectable error ends; one whose accumulator did, at the core's group boundary (18 R440). -/
def State.loseData (s : State) (n : Nat) : State :=
  let k := s.core n
  if k.lostData || (k.accLost && !k.grp.active) then s.killSlice n 1 tEccUe else s

/-- Neighbour accesses of cycle c, by ascending core position, once every member of the gang has passed it (09 R203). -/
def State.endRound (s : State) (n c : Nat) : State :=
  let ms := s.gangNow n
  if ms.any (fun m => decide ((s.core m).cycle ≤ c)) then s
  else ms.foldl State.loseData (ms.foldl (fun s m =>
    (s.landSet m (fun l => decide (l.due ≤ c))).readNow m (fun g => decide (g.readAt ≤ c))) s)

/-- The end of core n's cycle: its own bytes land, the cycle is counted, and neighbour accesses follow. What a trap of the open group would
take back is kept from the cycle of its first bundle on. -/
def State.endCycle (s : State) (n : Nat) : State :=
  let c := (s.core n).cycle
  let s2 := (s.landSet n (fun l => decide (l.due ≤ c) && !s.isNeighbour n l)).modCore n (fun k =>
    let k1 := { k with cycle := k.cycle + 1 }
    if k.grp.active && k.grp.idx != 0 then k1 else { k1 with just := [], prev := ⟨k.regs, k.loops, k.ports⟩ })
  s2.endRound n c

/-- The start of a core's cycle: its LS stores into its own tile SRAM come before its other accesses of the cycle (09 R203). -/
def State.landOwn (s : State) (n : Nat) : State :=
  s.landSet n (fun l => l.path.isLs && decide (l.due ≤ (s.core n).cycle) && !s.isNeighbour n l)

/-- The start of a core's cycle: writes, stream changes and element commits due take effect. -/
def Core.beginCycle (k : Core) : Core := (k.commitDue.applyQ).commitAccDue

/-- The MX instruction of core n's bundle has started: each line it has pinned stays until a cycle of the busy time, which one the spec leaves open
(09 R222; notes/assumptions/81.md). -/
def State.pinsStart (s : State) (n : Nat) : State :=
  let k := s.core n
  let busy := k.grp.mx.busy - k.cycle
  { s.setCore n { k with pins := k.pins.mapIdx (fun i p =>
      if p.upto.isNone then { p with upto := some (k.cycle + 1 + Config.freeNat (s.free + i) % max 1 busy) } else p) } with free := s.free + k.pins.length }

/-- The lines an MX instruction pinned are unpinned once the engine has consumed them and its bytes there have landed, or when it does not issue
(09 R222). -/
def State.unpin (s : State) (n : Nat) : State :=
  let k := s.core n
  let landing (line : Nat) : Bool := k.landings.any (fun l => l.path.isMx && l.cells.any (fun c => c.pa / 512 == line)) ||
    k.grp.ops.any (fun o => match o with
      | .land _ _ cs => cs.any (fun c => c.pa / 512 == line)
      | .drained _ _ _ cs ds => (cs ++ ds).any (fun c => c.pa / 512 == line)
      | _ => false)
  let go (p : Pin) : Bool := match p.upto with | some c => decide (c ≤ k.cycle) && !landing p.line | none => !k.pinned
  (k.pins.filter go).foldl (fun s p => s.unpinLine p.line) (s.setCore n { k with pins := k.pins.filter (fun p => !go p) })

/-! ## Opening a group (05 R95, 17 R420, R426) -/

/-- The trap of a group found before it issues; the saved PC is the group's. -/
def State.openTrap (s : State) (n : Nat) (t : TrapInfo) (bs : List Bundle) : State :=
  let k := s.core n
  s.trapTo n t (match bs with | b :: _ => b.addr | [] => k.pc) k.cycle

/-- The group at the PC opened, its working copies taken. -/
def Core.opened (k : Core) (bs : List Bundle) (next : Word) : Core :=
  { k with
    landing := false
    grp := { Group.none with
      active := true, since := k.cycle, start := (match bs with | b :: _ => b.addr | [] => k.pc), bundles := bs, nextPc := next
      ports := k.ports, q := k.q, qpend := k.qpend, loops := k.loops, mx := k.mx } }

/-- A core waits for a code line, and for the walk its translation needs. -/
def State.awaitLine (s : State) (n line : Nat) (m : Option Nat) : State :=
  let s1 := s.modCore n (fun k => { k with fetching := some line })
  match m with | some u => s1.missOn n u | none => s1

/-- FORK_DEPTH of SQFORK.T, before the first group that would issue (16 R400): that group has no effect, and is the saved PC. -/
def State.forkNow (s : State) (n : Nat) : State :=
  let k := s.core n
  let s1 := if k.reached.isSome then s.withdraw n else s
  let s2 := if k.wait.sent then s1.mapWaits (fun m => m.reply == .wait && (match m.who with | some w => k.runs w | none => false)) (fun _ => none) else s1
  (s2.modCore n (fun k => { k with
    forkTrap := .none, pc := if k.grp.active then k.grp.start else k.pc, grp := Group.none, wait := Wait.none, reached := none, atSync := false
    mmag := 0, gang := none, pinned := false })).trapTo n
    ⟨tForkDepth, 0, 0, 3, 0, .en⟩ (if k.grp.active then k.grp.start else k.pc) k.cycle

/-- An open group of which nothing has issued, and whose barrier, if it has one, is not complete (notes/assumptions/46.md). -/
def Core.unissued (k : Core) : Bool := k.grp.active && k.grp.idx == 0 && (match k.reached with | some m => decide (m < 8) | none => true)

/-- The boundary before the next group of core n: the state with the group open, or what happens instead, a fault the decoder finds in the
group first (17 R426; notes/assumptions/46.md). -/
def State.openGroup (s : State) (n : Nat) : State × Bool :=
  let k := s.core n
  let found := s.fetchFrom n (k.icache.length + 8) k.pc []
  let bs := match found with | .ready bs _ => bs | .bad _ bs => bs | .wait _ _ => []
  let fault : Option TrapInfo := match found with
    | .wait _ _ => none
    | .bad t bs => (match k.illegal 0 bs with | some p => some ⟨tIllegal, 0, 0, 3, p.1, p.2⟩ | none => some t)
    | .ready bs _ => k.groupTrap bs
  let s1 := s.setCore n { k with landing := k.landing || (match bs with | b :: _ => b.hdr.yieldBit | [] => false) }
  if s.frozenPower then (s, false)
  else match fault with
    | some t => (s1.openTrap n t bs, false)
    | none =>
      if k.forkTrap = .now then (s1.forkNow n, false)
      else match s1.land n with
        | some s2 => (s2, false)
        | none => match found with
          | .wait line m => (s1.awaitLine n line m, false)
          | .ready bs next => (s1.modCore n (fun k => k.opened bs next), true)
          | .bad _ _ => (s1, false)

/-! ## Holds (06 R129) -/

/-- Uses of the bundle that is next to issue. -/
def Core.usesNow (k : Core) : List (Slot × Uses) := k.bundle.instrs.map (fun p => (p.1, usesOf k.loops.length p.2))

/-- z registers whose global load is pending (R130): those a trap captured are pending again from the first bundle after ERET. -/
def Core.pendingZ (k : Core) : List RegName :=
  (k.gloads.filter (fun (g : GLoad) => !g.latched || (k.afterEret && k.grp.idx == 0))).flatMap (fun g => g.dests.map (fun d => RegName.z d.1))

/-- R130: an instruction of the bundle reads or writes a pending z register. -/
def Core.heldByLoad (k : Core) : Bool :=
  let zs := k.pendingZ
  !zs.isEmpty && k.usesNow.any (fun p =>
    (k.readsAt (k.grp.ports.map (fun (x : Nat × Port) => (x.1, x.2.reg))) p.1 p.2).any (zs.contains ·) || p.2.writes.any (zs.contains ·))

/-- R131: an operand of an LS or vector slot reads a stream through the fabric whose next groups have not arrived, or that a FENCE holds
back (09 R231). -/
def Core.heldByStream (k : Core) : Bool :=
  let used := (k.usesNow.filter (fun p => p.1 == .ls || p.1.isVec)).flatMap (fun p => p.2.streams)
  used.any (fun q => match k.streamFor q false true with
    | .ok r => Desc.fabric r.desc && (decide (r.ahead < (used.filter (· == q)).length) || decide (k.cycle < k.fenceAt))
    | .error _ => false)

/-- The MX instruction of the bundle, if it uses the engine (11 R271). -/
def Core.mxInstr (k : Core) : Option Instr :=
  (k.bundle.instrs.find? (fun p => p.1 == .mx && (match p.2 with | .mxNop | .mregLo _ _ | .mregHi _ _ => false | _ => true))).map (·.2)

/-- R132: the engine is busy. -/
def Core.heldByEngine (k : Core) : Bool := k.mxInstr.isSome && decide (k.cycle < k.grp.mx.busy)

/-- 17 R427: the group would give up its core, and no context record is free. -/
def State.heldByRecords (s : State) (n : Nat) : Bool :=
  let k := s.core n
  k.grp.idx == 0 && !k.trap.active && !s.ctxFree (dieOf n) && k.grp.bundles.any (fun b => b.instrs.any (fun p => match p.2 with
    | .yield => true | .launchw _ _ => k.gangWidth == 1 | _ => false))

/-- R136: a reuse code of the bundle reads a copy that is void. After ERET a latch that commits at once counts as a write (17 R419). -/
def Core.readsVoid (k : Core) : Bool :=
  let fresh := if k.afterEret then (k.trap.bank.filter (fun l => l.rest == 0)).map (fun l => l.reg.voids) else []
  k.usesNow.any (fun p => p.2.codes.any (fun o => match o with
    | .reuseA | .reuseB =>
      let x := k.port p.1 (o == .reuseB)
      match x.reg with | some r => x.void || fresh.contains r | none => false
    | _ => false))

/-- The line of an END the bundle leaves past, when it can be fetched and is not there yet (05 R88, 06 R129). -/
def State.endLine (s : State) (n : Nat) : Option (Nat × Option Nat) :=
  let k := s.core n
  match k.bundle.instrs.findSome? (fun p => k.leavesPast p.2) with
  | none => none
  | some e =>
    let line := e.toNat / 64 * 64
    if (fetchBad n e).isSome || (Sparse.find? k.icache line).isSome then none
    else match s.fetchTrap n e with
      | .error _ => none
      | .ok m => some (line, m)

/-- The holds that end by themselves or by an arrival. -/
def State.heldPlain (s : State) (n : Nat) : Bool :=
  let k := s.core n
  k.heldByLoad || k.heldByStream || k.heldByEngine || s.heldByRecords n

/-! ## The slots of a bundle -/

/-- The instructions of a bundle in slot order; a trap ends it (05 R95). -/
def runSlots : List (Slot × Instr) → State → Result
  | [], s => .next s
  | (_, i) :: r, s =>
    match exec i s with
    | .next s1 => if s1.cur.grp.active then runSlots r s1 else .next s1
    | x => x

/-- Whether the bundle's LS instruction needs a translation miss while 16 are outstanding (12 R302). -/
def State.heldByMisses (s : State) (n : Nat) : Bool :=
  let had := (s.missUnits n).length
  decide (16 ≤ had) && (s.core n).bundle.instrs.any (fun p => p.1 == .ls && (match exec p.2 s with
    | .next s1 => decide (had < (s1.missUnits n).length)
    | _ => false))

/-- The EN instruction of the bundle, when it blocks and has no answer yet (06 R129). -/
def Core.blockedOn (k : Core) : Option Instr :=
  if k.wait.answer.isSome then none
  else (k.bundle.instrs.find? (fun p => match p.2 with
    | .await poll _ => !poll
    | .wmon _ _ v _ _ _ => (k.word (.w (2 * v.toNat + 1))).toNat % 2 ^ 32 != 0
    | .phwait _ _ b | .phsw _ _ b => phTimeout (k.opnd .en b).word != some 0
    | _ => false)).map (·.2)

/-- Whether the bundle sends something while it waits: the rest of its group is checked before that (05 R95). -/
def Core.sends (k : Core) : Bool :=
  (k.blockedOn.isSome && !k.wait.sent) || (k.bundle.hdr.sync != 0 && k.reached.isNone && !k.atSync)

/-- R132: lines of the MX instruction's streams are not pinned yet; a fault of theirs shows once they are (11 R270). -/
def Core.heldByPins (k : Core) : Bool := !k.pinned && k.mxInstr.toList.any k.mxFabric

/-- Registers that the bundles from the next to issue on read. -/
def Core.readsAhead (k : Core) : List RegName :=
  ((k.grp.bundles.drop k.grp.idx).flatMap (·.instrs)).foldl (fun (w : PortNames × List RegName) (p : Slot × Instr) =>
    let u := usesOf k.loops.length p.2
    (k.portsAfter w.1 p.1 u, w.2 ++ k.readsAt w.1 p.1 u)) (k.grp.ports.map (fun (x : Nat × Port) => (x.1, x.2.reg)), []) |>.2

/-- A bundle that waits sends nothing before the rest of its group can be checked (05 R95): results that the group still reads have
committed, stream registers have their changes, and the lines of its MX instructions are pinned. -/
def Core.restOpen (k : Core) : Bool :=
  let rs := k.readsAhead
  k.inflight.any (fun p => rs.contains p.reg.voids) || k.pendingZ.any (rs.contains ·) || !k.grp.qpend.isEmpty ||
    (!k.pinned && k.mxAhead.any k.mxFabric)

/-- The bundles of the open group that are still to issue, run as they would in this cycle; the first argument bounds them. -/
def State.runRest (n : Nat) : Nat → State → Result
  | 0, s => .next s
  | f + 1, s => match runSlots (s.core n).bundle.instrs s with
    | .next s1 =>
      let k := s1.core n
      if k.grp.active && k.grp.idx + 1 < k.grp.bundles.length then
        State.runRest n f (s1.modCore n (fun k => { k with grp := { k.grp with idx := k.grp.idx + 1 } }))
      else .next s1
    | x => x

/-- Before anything of a group leaves the core for a bundle that has to wait, the rest of the group is checked (05 R95): a fault is taken
now. -/
def State.trial (s : State) (n : Nat) : Option Result :=
  let k := s.core n
  match State.runRest n 4 (s.setCore n { k with wait := { k.wait with answer := some (k.wait.answer.getD (0, 0)) } }) with
  | .next s1 => if (s1.core n).grp.active then none else some (.next s1)
  | r => some r

/-- Operations that wait for the group's end: an image, a continuation, and what a matrix instruction leaves besides bytes (11 R270). -/
def Op.stays : Op → Bool | .ckpt _ | .ckptL | .launch true _ _ _ | .accCommit _ | .wland _ _ _ => true | _ => false

/-- The operations of the bundles that have issued leave the core before a bundle that waits sends its own (15 R356, 14 R339;
notes/assumptions/54.md). Output bytes of the matrix engine take their place and are held to the group's end (11 R270). -/
def State.sendAhead (s : State) (n : Nat) : State :=
  let k := s.core n
  if k.grp.ops.all Op.stays then s
  else State.applyOps true (s.setCore n { k with grp := { k.grp with ops := k.grp.ops.filter Op.stays } }) n k.cycle (k.who n)
    (k.grp.ops.filter (fun o => !o.stays))

/-! ## Barriers and gang instructions -/

/-- Core n, whose bundle waits for its barrier alone, releases, and reaches it once what the release covers has landed (14 R339, 15
R379). -/
def State.comeToBarrier (s : State) (n m : Nat) : State :=
  let s1 := (s.sendAhead n).release n
  if (s1.core n).allLanded then s1.reachBarrier n m
  else s1.modCore n (fun k => { k with atSync := true })

/-- A bundle with a SYNC field reaches its barrier, and may issue once the episode is complete (15 R378, R379). A fault of the group is taken
before. -/
def State.syncGate (s : State) (n : Nat) : Except Result (State × Bool) :=
  let k := s.core n
  let m := k.bundle.hdr.sync.toNat
  if m = 0 then .ok (s, true)
  else
    let go (s1 : State) : Except Result (State × Bool) :=
      let k1 := s1.core n
      .ok (s1, k1.reached == some (m + 8) && decide (k1.holdUntil ≤ k1.cycle))
    if k.reached.isSome then go s
    else if k.restOpen then .ok (s, false)
    else match s.trial n with
      | some r => .error r
      | none => go (s.comeToBarrier n m)

/-- The MMAG of the bundle a core is at. -/
def Core.mmagNow (k : Core) : Option MArgs :=
  k.bundle.instrs.findSome? (fun p => match p.2 with | .mmag a => some a | _ => none)

/-- Shape a member's MMAG asks for: ROWS and K of its region. -/
def Core.mmagShape (k : Core) (p : MArgs) : Option (Nat × Nat) :=
  match k.regionFor p.ac p.k.isNone with | .ok r => some (r.region.rows, mmaLen p r) | .error _ => none

/-- Whether core n has come to its MMAG while another member has not ended the same cycle: it does not end its own before (11 R274). -/
def State.atGate (s : State) (n : Nat) : Bool :=
  let k := s.core n
  k.mmag == 1 && k.grp.active && (s.gangNow n).any (fun m => m != n && (s.core m).cycle == k.cycle && (s.core m).mmag == 0)

/-- The operand that rank 0, core z, reads for the members that go on with its gang instruction; `none` when it cannot. -/
def State.broadcastA (s : State) (z : Nat) (ms : List Nat) : Option State :=
  match (s.core z).mmagNow with
  | none => none
  | some p => match ({ s with me := z } : State).readA (s.core z) p with
    | .error _ => none
    | .ok (a, _, _, _) =>
      let bad := ms.any (fun m => match (s.core m).mmagNow with
        | some q => (s.core m).mmagShape q != some (a.rows, a.klen) | none => true)
      some (ms.foldl (fun s m => s.modCore m (fun k => { k with mmag := 2, gang := some { a with bad := bad } })) s)

/-- The start of a gang instruction (11 R274): a member that has come to its MMAG holds until all have, in one cycle, which a void reuse
code of any of them makes a cycle later (06 R136); then each goes on with the operand rank 0 broadcasts. While rank 0 cannot read it, rank 0 goes on
alone, to its trap. `mmag` is 1 for a member that holds and 2 for one that goes on. -/
def State.gangGate (s : State) (n : Nat) : State × Bool :=
  let k := s.core n
  match k.mmagNow, k.run with
  | some _, some r =>
    if k.mmag = 2 then (s, true)
    else
      let s1 := s.setCore n { k with mmag := 1 }
      let ms := s1.members r.kernel r.slice
      if !(ms.all (fun m => (s1.core m).mmag != 0)) then (s1, false)
      else if ms.any (fun m => (s1.core m).readsVoid && !(s1.core m).grp.paid) then
        (ms.foldl (fun s m => s.modCore m (fun c => { c with holdUntil := max c.holdUntil (k.cycle + 1), grp := { c.grp with paid := true } })) s1, false)
      else match ms.find? (fun m => (s1.core m).rank == 0) with
        | none => (s1, false)
        | some z => match s1.broadcastA z ms with
          | some s2 => (s2, true)
          | none => (s1, n == z)
  | _, _ => (s, true)

/-- After a barrier the operand is read anew, with the member that issues first. -/
def State.refreshA (s : State) (n : Nat) : State :=
  let k := s.core n
  match k.run with
  | some r =>
    let ms := s.members r.kernel r.slice
    if k.bundle.hdr.sync ≠ 0 ∧ k.mmag = 2 ∧ ms.all (fun m => (s.core m).mmag == 2) = true then
      ((ms.find? (fun m => (s.core m).rank == 0)).bind (fun z => s.broadcastA z ms)).getD s
    else s
  | none => s

/-! ## Issuing -/

/-- One more issue cycle of the slice, counted for every member of a gang (02 R28, 17 R425). -/
def State.countIssue (s : State) (n : Nat) : State :=
  match (s.core n).run with
  | none => s
  | some r => ((s.members r.kernel r.slice).foldl (fun s m => s.modCore m (fun k => { k with issued := k.issued + 1 })) s).markBudget n

/-- What a bundle's issue leaves of its holds. -/
def Core.passed (k : Core) : Core :=
  { k with
    wait := Wait.none, reached := none, atSync := false, resuming := false, pinned := false, mmag := 0, gang := none
    grp := { k.grp with paid := false } }

/-- Whether a bundle reads memory. -/
def readsMemory (is : List (Slot × Instr)) : Bool := is.any (fun p => p.1 == .ls || p.1.isVec || p.1 == .mx || p.1 == .en)

/-- The bundle of core n issues: its slots, then the next bundle or the end of the group. -/
def State.issueBundle (s : State) (n : Nat) : Result :=
  let k0 := s.core n
  let k1 := if k0.grp.idx = 0 then { k0.replay.commitDue with grp := { k0.replay.commitDue.grp with since := k0.cycle } } else k0
  let s0 := s.setCore n k1
  let s1 := if k0.bundle.hdr.sync = 0 then s0 else s0.acquire n .die
  let s2 := if readsMemory k1.bundle.instrs then s1.readAhead n else s1
  match runSlots k1.bundle.instrs s2 with
  | .next s2 =>
    if !(s2.core n).grp.active then .next (s2.modCore n (fun k => { k with mmag := 0, gang := none, pinned := false }))
    else
      let s2 := if (s2.core n).mxInstr.isSome then s2.pinsStart n else s2
      let s3 := (s2.modCore n Core.passed).countIssue n
      if k0.bundle.hdr.stop then .next (s3.completeGroup n)
      else .next (s3.modCore n (fun k => { k with grp := { k.grp with idx := k.grp.idx + 1 } }))
  | r => r

/-- The open group's next bundle: it holds, or issues. A void reuse code makes it issue a cycle later than all of that (R136). -/
def State.tryIssue (s : State) (n : Nat) : Result :=
  let k := s.core n
  if s.heldPlain n then .next s
  else if s.heldByMisses n then .next s
  else if (s.endLine n).isSome then
    .next (match s.endLine n with | some (line, m) => s.awaitLine n line m | none => s)
  else if k.heldByPins then .next s
  else match k.blockedOn with
    | some i =>
      if k.wait.sent || k.restOpen then .next s
      else match s.trial n with
        | some r => r
        | none => exec i (s.sendAhead n)
    | none =>
      let (s1, go) := s.gangGate n
      if !go then .next s1
      else match s1.syncGate n with
        | .error r => r
        | .ok (s2, free) =>
          if !free then .next s2
          else if (s2.core n).readsVoid && !(s2.core n).grp.paid then
            .next (s2.modCore n (fun k => { k with grp := { k.grp with paid := true } }))
          else (s2.refreshA n).issueBundle n

/-- A slice that leaves its core issues nothing more; when a page fault made it leave, its gang follows (17 R421, 12 R306). -/
def State.leaving (s : State) (n : Nat) : State :=
  let s1 := s.modCore n Core.replay
  match (s1.core n).run with
  | some r => (match r.leave with | some (.pageFault _) => s1.markGang n | _ => s1)
  | none => s1

/-- The end of a move: its cycle ends unless it stopped with a fault or a refusal, or has to meet its gang. -/
def endWith (n : Nat) (r : Result) : Result := match r with | .next s => .next (if s.atGate n then s else s.endCycle n) | x => x

/-- One cycle of core n. A core whose quad island does not run has no cycle (17 R429). -/
def State.coreCycle (s : State) (n : Nat) : Result :=
  let s0 : State := ({ s with me := n } : State).loseData n
  match (s0.core n).run with
  | none => .next ((s0.unpin n).endCycle n)
  | some r =>
    if !s0.awake (quadIsland n) || !s0.mayCycle n then .next s0
    else
      let s1 := ((s0.landOwn n).modCore n Core.beginCycle).unpin n
      let k := s1.core n
      if r.ended ∨ k.cycle < k.holdUntil then .next (s1.endCycle n)
      else if r.leave.isSome then .next ((s1.leaving n).endCycle n)
      else if k.forkTrap = .now ∧ k.unissued = true then .next ((s1.forkNow n).endCycle n)
      else if k.grp.active then endWith n (s1.tryIssue n)
      else
        let (s2, opened) := s1.openGroup n
        if opened then endWith n (s2.tryIssue n) else .next (s2.endCycle n)

end Sys2Proof.Machine
end

