-- ==== Sys2Proof/Machine/Moves.lean ====
section
/-!
DEFINITION. The moves of the agenda (notes/assumptions/7.md) and what every move leaves evaluated; the placing of a bare instruction where
the next step fetches.
-/
namespace Sys2Proof.Machine

open Sys2Proof

/-! ## Moves -/

/-- Whether an instruction belongs to a slot of a bundle; the others are the steps of agents. -/
def isSlotInstr (i : Instr) : Bool := (encode i).isSome

/-- The entries of a core's TLBs that cover a unit are dropped (12 R302). -/
def State.evictUnit (s : State) (n unit : Nat) : State :=
  (s.modCore n (fun k => { k with tlb := k.tlb.filter (fun t => !t.covers unit) })).modDie (dieOf n)
    (fun d => { d with l2tlb := d.l2tlb.filter (fun t => !t.covers unit) })

/-- What a move names exists: 2,048 cores, 64 dies, 512 quads (01 R8). -/
def About.exists_ (a : About) : Bool := decide (a.core < 2048 ∧ a.die < 64 ∧ a.quad < 512)

/-- Whether the module's steps take place: without power only its return does, in deep-off also the release of PERST# (17 R433, 19
R478). -/
def State.stepsNow (s : State) (i : Instr) : Bool :=
  match i with
  | .powerReturn => true
  | .perstRelease => !s.frozenPower
  | _ => !s.frozenPower && s.mss.boot != .deepOff

/-- One move. -/
def State.move (s : State) (m : Move) : Result :=
  match m with
  | .issue n => if n < 2048 then s.coreCycle n else .next s
  | .event i a => if isSlotInstr i || !a.exists_ || !s.stepsNow i then .next s else exec i { s with about := a }
  | .evictL1 n line => .next (if s.frozenPower || !decide (n < 2048) then s else s.evictLine n line)
  | .evictCode n line => .next (if s.frozenPower || !decide (n < 2048) then s
      else s.modCore n (fun k => { k with icache := Sparse.erase k.icache line }))
  | .evictL2 line => .next (if s.frozenPower then s else s.evictL2 line)
  | .evictL3 line => .next (if s.frozenPower then s else s.evictL3 line)
  | .writeObject a => .next (if s.frozenPower then s else s.writeObject a)
  | .alterStored pa b => .next (s.alter pa b)
  | .evictTlb n unit => .next (if s.frozenPower || !decide (n < 2048) then s else s.evictUnit n unit)
  | .coreFail n matrix => .next (if s.frozenPower || !decide (n < 2048) || (s.core n).run.isNone then s
      else if !matrix then s.killSlice n 1 tEccUe
      else s.modCore n (fun k => { k with accLost := k.accLost || decide (k.cycle < max k.mx.busy k.grp.mx.busy) }))
  | .hostStore a bs => .next (s.hostPut a bs)
  | .podSeal pa n on => .next { s with podSealed := (cutRange pa n s.podSealed) ++ (if on then [(pa, n)] else []) }
  | .time ns => .next { s with ns := s.ns + ns }

/-- The lowest core that runs a slice and whose next cycle is due. -/
def State.firstRunning (s : State) : Option Nat :=
  (List.find? (fun (p : Nat × Core) => (match p.2.run with | some r => !r.ended | none => false) && s.mayCycle p.1) s.cores).map (·.1)

/-- The move the agenda names; with an empty agenda the lowest running core, if there is one. -/
def State.nextMove (s : State) : Option Move × State :=
  match s.agenda with
  | m :: rest => (some m, { s with agenda := rest })
  | [] => (s.firstRunning.map Move.issue, s)

/-- What every move leaves evaluated: caches within their sizes, walks that walkers take, fault records that find room, what the sealing unit may
apply, monitors and signal dependences. -/
def State.afterMove (s : State) : State :=
  if s.frozenPower then s else (((s.fitCaches (s.l2.length + s.l3.length)).pumpWalks.pumpFaults).pumpUpdates s.mss.updates.length).settle

/-- A step of the module. -/
def State.oneStep (s : State) : Result :=
  match s.nextMove with
  | (none, s1) => .next s1
  | (some m, s1) => match s1.move m with
    | .next s2 => .next s2.afterMove
    | x => x

/-! ## Placing an instruction (notes/assumptions/34.md) -/

/-- The code address used, in the 64 KiB page at 0. -/
def placeAddr : Nat := 0x1000

/-- A bundle with STOP = 1 that holds one slot word. -/
def loneBundle (slot : Slot) (w : W32) (l : Option W32) : List Byte :=
  leBytes 2 (2 ^ 8 + 2 ^ slot.code.toNat) ++ (Encoded.mk slot w l).bytes

/-- A fetch line that begins with some bytes, the rest 0. -/
def lineWith (bs : List Byte) : List Byte := bs ++ List.replicate (64 - bs.length) 0

/-- The kernel record the placed slice belongs to: VER 1, PROGRAM, one iteration. -/
def placeRecord : BitVec 2048 :=
  BitVec.ofNat 2048 (1 + placeAddr * 2 ^ 64 + 2 ^ 512 + 2 ^ (512 + 192) + 2 ^ (512 + 224))

/-- A privileged slice on core 0 whose next bundle holds the word, in the slot the decoder reads it for, else in slot C. -/
def State.placeWord (s : State) (nbits w : Nat) : State :=
  let slot := match tableInstr nbits w with | some p => p.1 | none => .c
  let (w0, l) := tableWords w
  let line := lineWith (loneBundle slot w0 l)
  let kern : Kernel := ⟨placeRecord, .mailbox, true, [], some 0, none, [0], [], false, 0, none, none⟩
  let run : Run := ⟨0, 0, 0, 0, 0, 1, true, none, false, false, none, false, none, []⟩
  let core : Core := { Core.reset with
    run := some run, pc := BitVec.ofNat 64 placeAddr, j := [0, 0, 0, 0, 0, 0]
    tlb := [⟨0, false, 5⟩], icache := [(placeAddr, line)] }
  { s with
    mem := Mem.writes s.mem placeAddr line, kernels := Sparse.put s.kernels 0 kern, cores := Sparse.put s.cores 0 core
    accepted := max 1 s.accepted, frozenPower := false, islands := Sparse.put s.islands (quadIsland 0) Island.run
    agenda := .issue 0 :: s.agenda }

end Sys2Proof.Machine
end

