-- ==== Sys2Proof/Machine/Step.lean ====
section
/-!
DEFINITION. The step of the machine, and the state in which a step runs a given instruction.
-/
namespace Sys2Proof.Machine

open Sys2Proof

def step (s : State) : Host.Outcome State Fault Refusal := s.oneStep

def State.withFetchWord (s : State) (nbits w : Nat) : State := s.placeWord nbits w

end Sys2Proof.Machine
end

