-- ==== Sys2Proof/Safety.lean ====
section
/-!
DEFINITION. The terms in which claims about the machine are stated: what it means that an instruction gives a result and leaves
everything outside the open group alone, that memory and the tables of the module keep their form, and the values the spec
gives the integer instructions, written from its text and apart from the functions the meanings use.
-/
namespace Sys2Proof.Safety

open Sys2Proof Sys2Proof.Machine

/-! ## Shapes of a completed instruction -/

/-- The instruction answers a next state in which nothing differs but the current core, which is then `k`. -/
def Leaves (i : Instr) (s : State) (k : Core) : Prop := exec i s = .next (s.setCur k)

/-- The instruction answers a next state and changes nothing at all. -/
def Nothing (i : Instr) (s : State) : Prop := exec i s = .next s

/-- The slot's two ports after an instruction that read `a` and `b` (06 R135). -/
def readBoth (k : Core) (x : Slot) (a : Opnd) (b : OpB) : Core := (k.keepA x (k.opnd x a)).keepB x (k.opndB x b)

/-- The slot's a port after an instruction that read `a` alone. -/
def readA (k : Core) (x : Slot) (a : Opnd) : Core := k.keepA x (k.opnd x a)

/-- The slot's b port after an instruction whose literal is its b operand. -/
def readLit (k : Core) (x : Slot) (l : Lit) : Core := k.keepB x (k.opndB x (.lit l))

/-- The parts of a core that an instruction of a group leaves as they are until the group completes: every register, the pc, the
loop stack, streams, accumulators, caches, trap registers and counters (05 R95). Only the group's own record differs, and pending
marks of w registers may have been added, which R97 does not hold back (06 R133). -/
def OnlyGroup (k k' : Core) : Prop := ∃ g ps, k' = { k with grp := g, inflight := k.inflight ++ ps }

/-- A word operand and a word operand b of the current core in a slot. -/
def wordOf (s : State) (x : Slot) (o : Opnd) : Word := (s.cur.opnd x o).word
def wordOfB (s : State) (x : Slot) (b : OpB) : Word := (s.cur.opndB x b).word

/-! ## Values of integer instructions (07 R167 to R176), by their numbers -/

/-- A rule for n-bit values applied at a width (07 R167): the result is extended as `wext` says. -/
def AtWidth (w : Width) (R : (n : Nat) → BitVec n → BitVec n → BitVec n → Prop) (a b r : Word) : Prop :=
  match w with
  | .w64 => R 64 a b r
  | .s32 => ∃ q : BitVec 32, R 32 (a.setWidth 32) (b.setWidth 32) q ∧ r = q.signExtend 64
  | .z32 => ∃ q : BitVec 32, R 32 (a.setWidth 32) (b.setWidth 32) q ∧ r = q.setWidth 64

/-- A two-operand integer instruction answers a next state: both ports kept, one result by the rule `R`, due after `lat` cycles. -/
def AluGives (c : IArgs → Instr) (lat : Nat) (R : (n : Nat) → BitVec n → BitVec n → BitVec n → Prop) : Prop :=
  ∀ (p : IArgs) (s : State), ∃ r : Word,
    AtWidth p.w R (wordOf s p.u.slot p.a) (wordOfB s p.u.slot p.b) r ∧
    Leaves (c p) s ((readBoth s.cur p.u.slot p.a p.b).push (destOf p.u.slot p.d) (.word r) (s.cur.cycle + lat))

/-- The same with the single operand a. -/
def UnaryGives (c : IUn → Instr) (lat : Nat) (R : (n : Nat) → BitVec n → BitVec n → Prop) : Prop :=
  ∀ (p : IUn) (s : State), ∃ r : Word,
    AtWidth p.w (fun n a _ q => R n a q) (wordOf s p.u.slot p.a) (wordOf s p.u.slot p.a) r ∧
    Leaves (c p) s ((readA s.cur p.u.slot p.a).push (destOf p.u.slot p.d) (.word r) (s.cur.cycle + lat))

/-- A two-operand instruction of width 64 with result `f A B` from `d`'s old value, A and B. -/
def WideGives (c : IArgs64 → Instr) (lat : Nat) (R : (d a b r : Word) → Prop) : Prop :=
  ∀ (p : IArgs64) (s : State), ∃ r : Word,
    R (wordOf s p.u.slot p.d) (wordOf s p.u.slot p.a) (wordOfB s p.u.slot p.b) r ∧
    Leaves (c p) s ((readBoth s.cur p.u.slot p.a p.b).push (destOf p.u.slot p.d) (.word r) (s.cur.cycle + lat))

/-- The number of one bits. -/
def onesIn (n : Nat) (a : BitVec n) : Nat := ((List.range n).filter (fun k => a.getLsbD k)).length

/-- Bit k of the carry-less product (07 R172): the parity of the pairs of set bits whose places sum to k. -/
def clmulBit (n : Nat) (a b : BitVec n) (k : Nat) : Bool :=
  ((List.range n).filter (fun i => decide (i ≤ k) && a.getLsbD i && b.getLsbD (k - i))).length % 2 == 1

/-- One step of CRC-32C by a byte, as 07 R176 writes it. -/
def crcStep (c : BitVec 32) (byte : BitVec 8) : BitVec 32 :=
  (List.range 8).foldl (fun c _ => if c.getLsbD 0 then (c >>> 1) ^^^ 0x82F63B78#32 else c >>> 1) (c ^^^ byte.setWidth 32)

/-- The condition table of 07 R173. -/
def Holds (c : Cond) (n : Nat) (a b : BitVec n) : Prop :=
  match c with
  | .eq => a = b
  | .ne => a ≠ b
  | .lt => a.toInt < b.toInt
  | .ge => b.toInt ≤ a.toInt
  | .ltu => a.toNat < b.toNat
  | .geu => b.toNat ≤ a.toNat
  | .tst => a &&& b ≠ 0
  | .ntst => a &&& b = 0

/-! ## The core's next bundle -/

/-- No hold of 06 R129 keeps the next bundle of core n from issuing, and it has no gang instruction to start. -/
def Free (s : State) (n : Nat) : Prop :=
  s.heldPlain n = false ∧ s.heldByMisses n = false ∧ s.endLine n = none ∧ (s.core n).heldByPins = false ∧ (s.core n).blockedOn = none ∧
  (s.core n).mmagNow = none ∧ ((s.core n).readsVoid && !(s.core n).grp.paid) = false

/-- What the bundle's issue adds around its instructions: the lines a matrix instruction has pinned, the holds it leaves, one issue cycle, and the end
of its group. -/
def bundleDone (t : State) (n : Nat) : State :=
  if (t.core n).grp.active then
    (((if (t.core n).mxInstr.isSome then t.pinsStart n else t).modCore n Core.passed).countIssue n).completeGroup n
  else t.modCore n (fun k => { k with mmag := 0, gang := none, pinned := false })

/-- The core as its group's first bundle issues: latches of a handler's return replayed, writes due committed (17 R419). -/
def firstIssue (k : Core) : Core := { k.replay.commitDue with grp := { k.replay.commitDue.grp with since := k.cycle } }

/-- Two registers that hold their values apart: a loop level's INDEX is the i register of that level (07 R154). -/
def Apart (r w : RegName) : Prop := r.voids ≠ w.voids

/-- Names within the files of 06 R121. -/
def InFile (r : RegName) : Prop :=
  match r with
  | .f n | .c n | .w n | .ac n => n < 16
  | .x n | .y n | .z n | .va n | .vb n => n < 32
  | .pa n | .pb n => 0 < n ∧ n < 4
  | .i k | .j k | .loop k _ => k < 6

/-! ## Vector instructions (10) -/

/-- Element e of w bits of a register, and lane k (10 R236). -/
def elemAt (w : Nat) (v : Vec) (e : Nat) : Nat := v.toNat / 2 ^ (w * e) % 2 ^ w
def laneAt (v : Vec) (k : Nat) : Nat := elemAt 32 v k

/-- The element of type t read as an integer, signed or unsigned as its type is (10 R243). -/
def numAt (t : ElemTy) (v : Nat) : Int := if t.isSint && decide (2 ^ (t.bits - 1) ≤ v) then (v : Int) - (2 ^ t.bits : Nat) else (v : Int)

/-- A result code that is the exact value rounded once, to nearest even, into the type (10 R240). -/
def Rounded (t : ElemTy) (x : FNum) (r : Nat) : Prop := r = roundTo t .ne x % 2 ^ t.bits

/-- A vector instruction that reads a and b, by registers, literals or streams, answers a next state: its ports take the operands and a
result by the rule `R` goes to d under the mask, due `lat` cycles on and later by the streams' extra cycles; an operand or a
destination that faults traps. -/
def VecTwo (i : Instr) (s : State) (u : VSlot) (d a : Opnd) (b : OpB) (mask : Word) (lat : Nat) (R : Vec → Vec → Vec → Prop) : Prop :=
  (∀ pa xa k1 pb xb k2, s.operand s.cur u.slot a = .ok (pa, xa, k1) → s.operandB k1 u.slot b = .ok (pb, xb, k2) →
    ∃ v, R pa.val pb.val v ∧
      let put := s.putVec ((k2.keepA u.slot pa).keepB u.slot pb) u.slot d v mask (s.cur.cycle + lat + max xa xb)
      (∀ k, put = .ok k → Leaves i s k) ∧ (∀ e, put = .error e → exec i s = .next (s.faultAt u.slot e.code e.sub e.addr e.kind))) ∧
  (∀ e, s.operand s.cur u.slot a = .error e → exec i s = .next (s.faultAt u.slot e.code e.sub e.addr e.kind)) ∧
  (∀ pa xa k1 e, s.operand s.cur u.slot a = .ok (pa, xa, k1) → s.operandB k1 u.slot b = .error e →
    exec i s = .next (s.faultAt u.slot e.code e.sub e.addr e.kind))

/-- The same with the single operand a. -/
def VecOne (i : Instr) (s : State) (u : VSlot) (d a : Opnd) (mask : Word) (lat : Nat) (R : Vec → Vec → Prop) : Prop :=
  (∀ pa xa k1, s.operand s.cur u.slot a = .ok (pa, xa, k1) →
    ∃ v, R pa.val v ∧
      let put := s.putVec (k1.keepA u.slot pa) u.slot d v mask (s.cur.cycle + lat + xa)
      (∀ k, put = .ok k → Leaves i s k) ∧ (∀ e, put = .error e → exec i s = .next (s.faultAt u.slot e.code e.sub e.addr e.kind))) ∧
  (∀ e, s.operand s.cur u.slot a = .error e → exec i s = .next (s.faultAt u.slot e.code e.sub e.addr e.kind))

/-- Rules for every element of w bits, and for every lane. -/
def Elems1 (w : Nat) (R : Nat → Nat → Prop) (a v : Vec) : Prop := ∀ e, e < 2048 / w → R (elemAt w a e) (elemAt w v e)
def Elems2 (w : Nat) (R : Nat → Nat → Nat → Prop) (a b v : Vec) : Prop :=
  ∀ e, e < 2048 / w → R (elemAt w a e) (elemAt w b e) (elemAt w v e)
def Elems3 (w : Nat) (R : Nat → Nat → Nat → Nat → Prop) (d a b v : Vec) : Prop :=
  ∀ e, e < 2048 / w → R (elemAt w d e) (elemAt w a e) (elemAt w b e) (elemAt w v e)

/-- The predicate a field names: all ones for 0 (06 R121), and the register d names as it stands at issue. -/
def predAt (s : State) (u : VSlot) (p : BitVec 2) : Word :=
  if p = 0 then BitVec.allOnes 64 else match u with
    | .va => Sparse.get s.cur.regs.pa 0 p.toNat
    | .vb => Sparse.get s.cur.regs.pb 0 p.toNat
def oldAt (s : State) (u : VSlot) (d : Opnd) : Vec :=
  match d, u with
  | .own n, .va => Sparse.get s.cur.regs.va 0 n.toNat
  | .own n, .vb => Sparse.get s.cur.regs.vb 0 n.toNat
  | o, _ => match nameOf u.slot o with | some r => s.cur.wide r | none => 0

/-- A code in a lane, sign-extended for the signed integer types (10 R250). -/
def extended (t : ElemTy) (c : Nat) : Nat :=
  if (t.isSint || t == .i4) && decide (2 ^ (t.bits - 1) ≤ c) then c + 2 ^ 32 - 2 ^ t.bits else c

/-- The function of VRED and VSCAN on two lanes (10 R257). -/
def Combined (f : VFn) (t : ElemTy) (a b r : Nat) : Prop :=
  match f with
  | .add => if t = .f32 then Rounded t ((t.value a).add (t.value b)) r else r = (a + b) % 2 ^ 32
  | .min => if t = .f32 then r = pickElem t false a b % 2 ^ 32 else (r = a ∨ r = b) ∧ numAt t r ≤ numAt t a ∧ numAt t r ≤ numAt t b
  | .max => if t = .f32 then r = pickElem t true a b % 2 ^ 32 else (r = a ∨ r = b) ∧ numAt t a ≤ numAt t r ∧ numAt t b ≤ numAt t r
  | .and => r = a &&& b
  | .or => r = a ||| b
  | .xor => r = a ^^^ b

/-- What a lane without participation enters as (10 R257). -/
def identityOf (f : VFn) (t : ElemTy) : Nat :=
  match f with
  | .add | .or | .xor => 0
  | .and => 2 ^ 32 - 1
  | .min => if t = .f32 then 0x7F800000 else if t = .i32 then 2 ^ 31 - 1 else 2 ^ 32 - 1
  | .max => if t = .f32 then 0xFF800000 else if t = .i32 then 2 ^ 31 else 0

/-! ## Matrix instructions (11) -/

/-- A region register that 11 R263 accepts. -/
def Fits (v : Word) : Prop :=
  let f (lo n : Nat) : Nat := v.toNat / 2 ^ lo % 2 ^ n
  0 < f 16 8 ∧ 0 < f 24 8 ∧ f 0 7 + f 16 8 ≤ 128 ∧ f 8 7 + f 24 8 ≤ 128 ∧ f 7 1 = 0 ∧ f 15 1 = 0

/-- Re-alignment of an element to the exponent x (08 R200): M scaled and rounded to nearest, ties to even, INEXACT on a change. -/
def Realigned (x : Int) (e e' : Elem) : Prop :=
  if (e.tag = some .decimal ∨ e.tag = some .binary) ∧ e.x.toInt ≤ x then
    let d : Nat := (if e.tag = some .decimal then 10 else 2) ^ (x - e.x.toInt).toNat
    ∃ q r : Int, e.m.toInt = q * d + r ∧ 2 * r.natAbs ≤ d ∧ (2 * r.natAbs = d → q % 2 = 0) ∧
      e'.m.toInt = q ∧ e'.x.toInt = x ∧ e'.tag = e.tag ∧ e'.g = (if r = 0 then e.g else e.g ||| 16)
  else e' = e

/-- What a writer of the matrix engine leaves (11 R270 to R272): the engine busy, the new elements of the region over those of every
earlier writer, and their commit `busy + 12 + extra` cycles on, with everything else outside the open group as it was. -/
def WritesRegion (k k' : Core) (r : Region) (busy extra kt : Nat) (kind : AccKind) (R : Nat → Nat → Elem → Elem → Prop) : Prop :=
  OnlyGroup k k' ∧ k'.grp.writes = k.grp.writes ∧ k'.grp.mx.busy = k.cycle + busy ∧ k'.grp.mx.dead = false ∧
  ∃ (es : List (Nat × Elem)) (ts : List (Nat × Contrib)) (ms : List Nat),
    k'.grp.ops = k.grp.ops ++ ms.map (fun u => Op.miss u) ++ [.accCommit ⟨k.cycle + busy + 12 + extra, r, kind, es, ts, kt⟩] ∧
    k'.grp.mx.accNew = Sparse.merge k.grp.mx.accNew es ∧
    es.length = r.rows * r.cols ∧
    ∀ i j, i < r.rows → j < r.cols → ∃ e, es[i * r.cols + j]? = some ((r.row0 + i) * 128 + (r.col0 + j), e) ∧
      R i j (Sparse.get k.grp.mx.accNew Elem.zero ((r.row0 + i) * 128 + (r.col0 + j))) e

/-! ## Engine instructions (13, 15, 16) -/

/-- Registers left pending at issue + 1 until their result arrives (06 R133, R134). -/
def pendingFrom (k : Core) (rs : List (Option Nat)) : List Pend :=
  (rs.filterMap id).map (fun n => ⟨.w n, .mark, k.cycle + 1, false⟩)

/-- An instruction that hands one operation on the object or word at `va` to its home: ALIGN and the traps of the access, else the
operation, behind a release when `rel` says so, among the group's ordered operations and its w registers pending (13 R329, 15 R360, R373,
16 R393). `k` is the core with the ports the operands left. -/
def Sends (i : Instr) (s : State) (k : Core) (va : Word) (align : Nat) (acc : Access) (memory : Bool) (op : SyncOp)
    (reply : ReplyTo) (ws : List (Option Nat)) (σ : Scope) (acq rel : Bool) : Prop :=
  (va.toNat % align ≠ 0 → exec i s = .next (s.faultAt .en tAlign 0 va acc.kind)) ∧
  (∀ f, s.syncTarget va align acc memory = .error f → exec i s = .next (s.faultAt .en f.code f.sub f.addr f.kind)) ∧
  (∀ pa m, s.syncTarget va align acc memory = .ok (pa, m) → ∃ k', Leaves i s k' ∧ OnlyGroup s.cur k' ∧
    k'.grp.ports = k.grp.ports ∧ k'.grp.writes = s.cur.grp.writes ∧ k'.inflight = s.cur.inflight ++ pendingFrom s.cur ws ∧
    k'.grp.ops = s.cur.grp.ops ++ (if m then [Op.miss (unitOf va)] else []) ++ (if rel then [Op.release σ] else []) ++
      [.sync ⟨some s.whoIs, s.me / 32, homeEngine pa, pa, va, op, reply, σ, acq, 0, none, false⟩])

/-- An instruction that holds its bundle until its wait is over (06 R129, 13 R331, 15 R364, R377): with the answer its results are written
at issue + 1; before it the request is sent once, and nothing more changes. -/
def Waits (i : Instr) (s : State) (va : Word) (align : Nat) (acc : Access) (memory : Bool) (op : SyncOp) (us : Option Nat)
    (main status : Option Nat) (σ : Scope) : Prop :=
  (va.toNat % align ≠ 0 → exec i s = .next (s.faultAt .en tAlign 0 va acc.kind)) ∧
  (∀ f, s.syncTarget va align acc memory = .error f → exec i s = .next (s.faultAt .en f.code f.sub f.addr f.kind)) ∧
  (∀ pa m, s.syncTarget va align acc memory = .ok (pa, m) →
    (∀ x y, s.cur.wait.answer = some (x, y) → ∃ k', Leaves i s k' ∧ OnlyGroup s.cur k' ∧
      k'.grp.ops = s.cur.grp.ops ++ (if m then [Op.miss (unitOf va)] else []) ∧
      k'.grp.writes = s.cur.grp.writes ++ (main.map (fun n => (⟨.w n, .word x, s.cur.cycle + 1, false⟩ : Pend))).toList ++
        (status.map (fun n => (⟨.w n, .word y, s.cur.cycle + 1, false⟩ : Pend))).toList) ∧
    (s.cur.wait.answer = none → s.cur.wait.sent = true → Nothing i s) ∧
    (s.cur.wait.answer = none → s.cur.wait.sent = false → ∃ t msg, exec i s = .next t ∧ msg ∈ t.msgs ∧
      msg.who = some s.whoIs ∧ msg.addr = pa ∧ msg.op = op ∧ msg.reply = .wait ∧ msg.scope = σ ∧ msg.acquire = true ∧
      msg.expiry = (match s.cur.keptNow with | some e => e.expiry | none => us.map (fun n => s.ns + 1000 * n)) ∧
      t.cur.wait.sent = true ∧ t.cur.keptNow.map (·.expiry) = some msg.expiry ∧ t.cur.regs = s.cur.regs ∧ t.cur.pc = s.cur.pc ∧ t.cur.grp = s.cur.grp))

/-- An instruction that reads a command block of n bytes from own tile SRAM at issue and hands it to an engine behind a release (13 R308,
R313, 16 R407, 19 R464). -/
def TakesBlock (i : Instr) (s : State) (d a : Opnd) (n : Nat) (op : Nat → Op) : Prop :=
  let va := wordOf s .en a
  let o := va.toNat - 0xFFFFFFFF00000000
  (va.toNat % n ≠ 0 → exec i s = .next (s.faultAt .en tAlign 0 va 0)) ∧
  (va.toNat % n = 0 → va.toNat < 0xFFFFFFFF00000000 ∨ 0xFFFFFFFF00200000 ≤ va.toNat → exec i s = .next (s.faultAt .en tProt 0 va 0)) ∧
  (va.toNat % n = 0 → 0xFFFFFFFF00000000 ≤ va.toNat → va.toNat < 0xFFFFFFFF00200000 →
    ((∃ j, j < n ∧ s.poisoned (tileBase s.modid s.me + o + j) = true) → exec i s = .next (s.faultAt .en tEccUe 0 va 0)) ∧
    ((∀ j, j < n → s.poisoned (tileBase s.modid s.me + o + j) = false) → ∃ k' b, Leaves i s k' ∧ OnlyGroup s.cur k' ∧
      k'.grp.ports = (readA s.cur .en a).grp.ports ∧ k'.grp.writes = s.cur.grp.writes ∧
      k'.inflight = s.cur.inflight ++ pendingFrom s.cur [wNum d] ∧ k'.grp.ops = s.cur.grp.ops ++ [.release .mod, op b] ∧
      (∀ j, j < n → b / 2 ^ (8 * j) % 256 = (s.seenByte (tileBase s.modid s.me + o + j)).toNat)))

/-! ## Steps of the other agents -/

/-- The step answers a next state of which P holds. -/
def Answers (i : Instr) (s : State) (P : State → Prop) : Prop := ∃ t, exec i s = .next t ∧ P t

/-- A command of the mailbox that the firmware carries out now (19 R453, R477). -/
def Commanded (s : State) (code : Nat) : Prop :=
  s.mss.mbcmd = BitVec.ofNat 64 (2 ^ 63 + code) ∧ s.mss.exporting = none ∧ s.mss.boot = .running

/-- The end of a command with a status: GO cleared, the status beside DONE, vector 65 raised. -/
def Ended (t : State) (code status : Nat) : Prop :=
  t.mss.mbcmd = BitVec.ofNat 64 code ∧ t.mss.mbstat = BitVec.ofNat 64 (2 ^ 63 + status * 256 + code) ∧ t.irqs.head? = some 65

end Sys2Proof.Safety
end

