-- ==== Sys2Proof/Certificates/Slice0/Obligations.lean ====
section
/-!
DEFINITION. The statements about the model, each named for what it states.
-/

open Sys2Proof Sys2Proof.Machine Sys2Proof.Safety

/-! ## The integer slots (07) -/

/-- 07 R169: the result of every arithmetic, logic, shift, extreme and count instruction, at every width and for every operand form,
with the latency of 06 R127; the ports take the operands and nothing else changes, no flag among it. -/
def Obligations.IntegerArithmetic : Prop :=
  AluGives .add 1 (fun n a b r => r.toNat = (a.toNat + b.toNat) % 2 ^ n) ∧
  AluGives .sub 1 (fun n a b r => (r.toNat : Int) = ((a.toNat : Int) - b.toNat) % (2 ^ n : Nat)) ∧
  AluGives .mul 3 (fun n a b r => r.toNat = a.toNat * b.toNat % 2 ^ n) ∧
  AluGives .mulhs 3 (fun n a b r => (r.toNat : Int) = a.toInt * b.toInt / (2 ^ n : Nat) % (2 ^ n : Nat)) ∧
  AluGives .mulhu 3 (fun n a b r => r.toNat = a.toNat * b.toNat / 2 ^ n) ∧
  AluGives .and 1 (fun n a b r => ∀ k, k < n → r.getLsbD k = (a.getLsbD k && b.getLsbD k)) ∧
  AluGives .or 1 (fun n a b r => ∀ k, k < n → r.getLsbD k = (a.getLsbD k || b.getLsbD k)) ∧
  AluGives .xor 1 (fun n a b r => ∀ k, k < n → r.getLsbD k = (a.getLsbD k != b.getLsbD k)) ∧
  AluGives .andn 1 (fun n a b r => ∀ k, k < n → r.getLsbD k = (a.getLsbD k && !b.getLsbD k)) ∧
  AluGives .shl 1 (fun n a b r => r.toNat = a.toNat * 2 ^ (b.toNat % n) % 2 ^ n) ∧
  AluGives .shr 1 (fun n a b r => r.toNat = a.toNat / 2 ^ (b.toNat % n)) ∧
  AluGives .sar 1 (fun n a b r => r.toInt = a.toInt / (2 ^ (b.toNat % n) : Nat)) ∧
  AluGives .ror 1 (fun n a b r =>
    r.toNat = (a.toNat / 2 ^ (b.toNat % n) + a.toNat * 2 ^ (n - b.toNat % n)) % 2 ^ n) ∧
  AluGives .min 1 (fun _ a b r => r.toInt = min a.toInt b.toInt) ∧
  AluGives .max 1 (fun _ a b r => r.toInt = max a.toInt b.toInt) ∧
  AluGives .minu 1 (fun _ a b r => r.toNat = min a.toNat b.toNat) ∧
  AluGives .maxu 1 (fun _ a b r => r.toNat = max a.toNat b.toNat) ∧
  UnaryGives .abs 1 (fun n a r => r.toNat = a.toInt.natAbs % 2 ^ n) ∧
  UnaryGives .clz 1 (fun n a r => r.toNat ≤ n ∧ (∀ k, k < r.toNat → a.getLsbD (n - 1 - k) = false) ∧
    (r.toNat < n → a.getLsbD (n - 1 - r.toNat) = true)) ∧
  UnaryGives .ctz 1 (fun n a r => r.toNat ≤ n ∧ (∀ k, k < r.toNat → a.getLsbD k = false) ∧
    (r.toNat < n → a.getLsbD r.toNat = true)) ∧
  UnaryGives .popc 1 (fun n a r => r.toNat = onesIn n a) ∧
  AluGives .adds 1 (fun n a b r =>
    r.toInt = max (-(2 ^ (n - 1) : Nat) : Int) (min (a.toInt + b.toInt) ((2 ^ (n - 1) : Nat) - 1)))

/-- 07 R170: the quotients and remainders, the zero divisor and the overflowing pair among them; a division always completes. -/
def Obligations.DivisionResults : Prop :=
  AluGives .divs 18 (fun n a b r =>
    if b = 0 then r.toInt = (if 0 ≤ a.toInt then -1 else 1)
    else if a.toInt = -(2 ^ (n - 1) : Nat) ∧ b.toInt = -1 then r = a
    else r.toInt = a.toInt.tdiv b.toInt) ∧
  AluGives .divu 18 (fun n a b r => if b = 0 then r.toNat = 2 ^ n - 1 else r.toNat = a.toNat / b.toNat) ∧
  AluGives .rems 18 (fun n a b r =>
    if b = 0 then r = a
    else if a.toInt = -(2 ^ (n - 1) : Nat) ∧ b.toInt = -1 then r = 0
    else r.toInt = a.toInt - b.toInt * a.toInt.tdiv b.toInt) ∧
  AluGives .remu 18 (fun _ a b r =>
    if b = 0 then r = a else (r.toNat : Int) = a.toNat - b.toNat * (a.toNat / b.toNat : Nat))

/-- 07 R172: bit k of the carry-less product is the exclusive or over i of A[i] ∧ B[k−i]; the low and the high half. 07 R171: a field taken from A, and
a field of A put into d; the field's place and length come from B[5:0], B[12:6] and B[13]. 07 R173, R174: CMP writes the condition to a register,
extended, or to a flag, and SEL picks by a flag as it stands at issue. -/
def Obligations.BitsAndSelection : Prop :=
  (AluGives .clmul 2 (fun n a b r => ∀ k, k < n → r.getLsbD k = clmulBit n a b k) ∧
  AluGives .clmulh 2 (fun n a b r =>
    r.getLsbD (n - 1) = false ∧ ∀ k, k < n - 1 → r.getLsbD k = clmulBit n a b (k + n))) ∧
  (WideGives .bfx 1 (fun _ a b r =>
    let pos := b.toNat % 64
    let len := min (b.toNat / 64 % 128) (64 - pos)
    let f := a.toNat / 2 ^ pos % 2 ^ len
    (b.getLsbD 13 = true ∧ 0 < len → r.toInt = if f < 2 ^ (len - 1) then (f : Int) else (f : Int) - (2 ^ len : Nat)) ∧
    (¬(b.getLsbD 13 = true ∧ 0 < len) → r.toNat = f)) ∧
  WideGives .bfi 1 (fun d a b r =>
    let pos := b.toNat % 64
    let len := min (b.toNat / 64 % 128) (64 - pos)
    ∀ k, k < 64 → r.getLsbD k = if pos ≤ k ∧ k < pos + len then a.getLsbD (k - pos) else d.getLsbD k)) ∧
  (∀ (u : ISlot) (w : Width) (c : Cond) (d : CmpDst) (a : Opnd) (b : OpB) (s : State), ∃ v : Bool,
    (v = true ↔ match w with
      | .w64 => Holds c 64 (wordOf s u.slot a) (wordOfB s u.slot b)
      | _ => Holds c 32 ((wordOf s u.slot a).setWidth 32) ((wordOfB s u.slot b).setWidth 32)) ∧
    Leaves (.cmp u w c d a b) s ((readBoth s.cur u.slot a b).push
      (match d with | .reg r => destOf u.slot r | .flag n => some (.f n.toNat))
      (.word (match d, w with
        | .reg _, .s32 => if v then (1 : BitVec 32).signExtend 64 else 0
        | _, _ => if v then 1 else 0)) (s.cur.cycle + 1))) ∧
  (∀ (u : ISlot) (w : Width) (k : BitVec 4) (d a b : Opnd) (s : State), ∃ r : Word,
    AtWidth w (fun _ x y q => q = if s.cur.regs.f.getLsbD k.toNat then x else y)
      (wordOf s u.slot a) (wordOf s u.slot b) r ∧
    Leaves (.sel u w k d a b) s ((readBoth s.cur u.slot a (.op b)).push (destOf u.slot d) (.word r) (s.cur.cycle + 1)))

/-! ## The C slot (05 R112, R113, 07 R144 to R166) -/

/-- 07 R146, R147: the transfers' targets; a condition that does not hold leaves the group's end as it is; CALL puts the address of
the next byte into c15, due at issue + 1. -/
def Obligations.ControlTransfers : Prop :=
  ∀ (s : State) (off : Lit) (cond a : Opnd) (b : OpB),
    let B := s.cur.bundle.addr
    let N := B + BitVec.ofNat 64 s.cur.bundle.len
    let tested := readLit (readA s.cur .c cond) .c off
    Leaves (.br off) s ((readLit s.cur .c off).leaveBy (.goto (B + widenWord off))) ∧
    (wordOf s .c cond ≠ 0 → Leaves (.brt cond off) s (tested.leaveBy (.goto (B + widenWord off)))) ∧
    (wordOf s .c cond = 0 → Leaves (.brt cond off) s tested) ∧
    (wordOf s .c cond = 0 → Leaves (.brf cond off) s (tested.leaveBy (.goto (B + widenWord off)))) ∧
    (wordOf s .c cond ≠ 0 → Leaves (.brf cond off) s tested) ∧
    Leaves (.call off) s (((readLit s.cur .c off).push (some (.c 15)) (.word N) (s.cur.cycle + 1)).leaveBy
      (.goto (B + widenWord off))) ∧
    Leaves .ret s (s.cur.leaveBy (.goto (s.cur.word (.c 15)))) ∧
    Leaves (.jmpi a b) s ((readBoth s.cur .c a b).leaveBy (.goto (wordOf s .c a + wordOfB s .c b)))

/-- 07 R154: LRD gives the field as it stands at issue, 0 for a level not on the stack; LWR's value is due at issue + 1, and the group then traps with
LOOP_DEPTH when the level is not on the stack. 07 R150, R152: what LOOP pushes, how a zero trip count, LBRK and LCONT leave, and when each traps
with LOOP_DEPTH. The bundle at END is looked at for its length alone. That LCONT leaves an outer level whose END it shares unstepped is the model's
choice (log entry 95). -/
def Obligations.HardwareLoops : Prop :=
  (∀ (s : State) (d src : Opnd) (level : BitVec 3) (f : LoopField),
    let v : Word := match s.cur.loops[level.toNat]? with
      | none => 0
      | some l => match f with
        | .start => l.start | .last => l.last | .count => l.count.setWidth 64 | .index => l.index.setWidth 64
    let wrote := (readA s.cur .c src).push (some (.loop level.toNat f)) (.word (wordOf s .c src)) (s.cur.cycle + 1)
    Leaves (.lrd d level f) s (s.cur.push (destOf .c d) (.word v) (s.cur.cycle + 1)) ∧
    (level.toNat < s.cur.grp.loops.length → Leaves (.lwr src level f) s wrote) ∧
    (s.cur.grp.loops.length ≤ level.toNat → Leaves (.lwr src level f) s
      { wrote with grp := { wrote.grp with after := some ⟨tLoopDepth, 0, 0, 3, s.cur.grp.idx, .c⟩ } })) ∧
  ∀ (s : State) (off : Lit) (m : BitVec 6) (a : Opnd) (n : BitVec 3),
    let depth := s.cur.grp.loops.length
    let E := s.cur.bundle.addr + widenWord off
    let endsAt (e : Word) (len : Nat) : Prop := fetchBad s.me e = none ∧
      ∃ l, s.lineOf s.me e = some l ∧ bundleLength (l.drop (e.toNat % 64)) = .ok len
    let looped (k : Core) (ls : List LoopLevel) : Core := { k with grp := { k.grp with loops := ls } }
    let cnt : W32 := if (wordOf s .c a).toNat < 2 ^ 32 then (wordOf s .c a).setWidth 32 else BitVec.allOnes 32
    let level (c : W32) : LoopLevel := ⟨s.cur.grp.nextPc, E, c, 0⟩
    (m ≠ 0 → depth < 6 → Leaves (.loop (.imm m) off) s
      (looped (readLit s.cur .c off) (s.cur.grp.loops ++ [level (m.setWidth 32)]))) ∧
    (wordOf s .c a ≠ 0 → depth < 6 → Leaves (.loop (.reg a) off) s
      (looped (readLit (readA s.cur .c a) .c off) (s.cur.grp.loops ++ [level cnt]))) ∧
    (wordOf s .c a ≠ 0 → 6 ≤ depth → exec (.loop (.reg a) off) s = .next (s.faultAt .c tLoopDepth 0 0 3)) ∧
    (m ≠ 0 → 6 ≤ depth → exec (.loop (.imm m) off) s = .next (s.faultAt .c tLoopDepth 0 0 3)) ∧
    (∀ len, wordOf s .c a = 0 → endsAt E len → Leaves (.loop (.reg a) off) s
      ((readLit (readA s.cur .c a) .c off).leaveBy (.goto (E + BitVec.ofNat 64 len)))) ∧
    (depth < n.toNat → exec (.lbrk n) s = .next (s.faultAt .c tLoopDepth 0 0 3)) ∧
    (∀ l len, 0 < n.toNat → n.toNat ≤ depth → s.cur.grp.loops[depth - n.toNat]? = some l → endsAt l.last len →
      Leaves (.lbrk n) s ((looped s.cur (s.cur.grp.loops.take (depth - n.toNat))).leaveBy
        (.goto (l.last + BitVec.ofNat 64 len)))) ∧
    (depth = 0 → exec .lcont s = .next (s.faultAt .c tLoopDepth 0 0 3)) ∧
    (∀ l, 0 < depth → s.cur.grp.loops[depth - 1]? = some l → l.index.toNat + 1 < l.count.toNat →
      Leaves .lcont s ((looped s.cur (s.cur.grp.loops.take (depth - 1) ++ [{ l with index := l.index + 1 }])).leaveBy
        (.goto l.start))) ∧
    (∀ l len, 0 < depth → s.cur.grp.loops[depth - 1]? = some l → l.count.toNat ≤ l.index.toNat + 1 → endsAt l.last len →
      Leaves .lcont s ((looped s.cur (s.cur.grp.loops.take (depth - 1))).leaveBy (.goto (l.last + BitVec.ofNat 64 len))))

/-- 07 R155 to R159, 17 R417: YIELD, EXIT, EXIT.K and ERET decide how the group is left, TRAP leaves a trap to be taken once the group's effects stand;
YIELD in a handler does nothing, and ERET outside one traps with ILLEGAL_ENCODING. 07 R161 to R164, 17 R417: CKPT, CKPT.T and CKPT.L become
operations of the group; CKPT.T takes its ranges from the list in tile SRAM when every check of R163 passes, and traps with ALIGN or PROT when one
fails; CKPT in a handler writes no image. 18 R440: a list with uncorrectable data ends the slice. That the traps come in a handler too, the address
and kind they record, and PROT for a list that runs past the end of tile SRAM, are the model's choices (log entries 52, 19, 96). -/
def Obligations.LeavingASlice : Prop :=
  (∀ (s : State) (src : Opnd) (code : Byte),
    let trapped := readLit s.cur .c ⟨.w0, code.setWidth 32⟩
    (s.cur.trap.active = false → Leaves .yield s (s.cur.leaveBy .yield)) ∧
    (s.cur.trap.active = true → Nothing .yield s) ∧
    Leaves .exit s (s.cur.leaveBy .exit) ∧
    Leaves (.exitK src) s ((readA s.cur .c src).leaveBy (.exitK ((wordOf s .c src).setWidth 8))) ∧
    Leaves (.trap code) s { trapped with grp := { trapped.grp with after := some ⟨code, 0, 0, 3, s.cur.grp.idx, .c⟩ } } ∧
    (s.cur.trap.active = true → Leaves .eret s (s.cur.leaveBy .eret)) ∧
    (s.cur.trap.active = false → exec .eret s = .next (s.faultAt .c tIllegal 0 0 3))) ∧
  ∀ (s : State) (src : Opnd),
    let off := (wordOf s .c src).toNat % 2 ^ 21
    let at8 (o : Nat) : Nat := leNat ((List.range 8).map (fun i => s.seenByte (tileBase s.modid s.me + o + i)))
    let n := at8 off
    let entry (i : Nat) : Nat := at8 (off + 8 + 8 * i)
    let ranges := (List.range n).map (fun i => (entry i % 2 ^ 21, entry i / 2 ^ 32 % 2 ^ 21))
    let list := tileBase s.modid s.me + off
    let ends (code : Byte) : Prop := exec (.ckptT src) s = .next (s.faultAt .c code 0 (0xFFFFFFFF00000000 + BitVec.ofNat 64 off) 0)
    let fits : Prop := off + 8 + 8 * n ≤ 2 ^ 21 ∧ 1 ≤ n ∧ n ≤ 8
    let aligned : Prop := ∀ i, i < n → entry i % 64 = 0 ∧ entry i / 2 ^ 32 % 64 = 0
    let good : Prop := (∀ i, i < n → entry i / 2 ^ 21 % 2 ^ 11 = 0 ∧ entry i / 2 ^ 53 = 0 ∧
      entry i % 2 ^ 21 + entry i / 2 ^ 32 % 2 ^ 21 ≤ 2 ^ 21) ∧ (ranges.map (·.2)).sum ≤ 65536
    (s.cur.trap.active = false → Leaves .ckpt s (s.cur.emit (.ckpt none))) ∧
    (s.cur.trap.active = true → Nothing .ckpt s) ∧
    Leaves .ckptL s (s.cur.emit .ckptL) ∧
    (off % 8 ≠ 0 → ends tAlign) ∧
    (off % 8 = 0 → s.spoiled list 8 = true → ends tEccUe) ∧
    (off % 8 = 0 → s.spoiled list 8 = false →
      (¬fits → ends tProt) ∧
      (fits → s.spoiled list (8 + 8 * n) = true → ends tEccUe) ∧
      (fits → s.spoiled list (8 + 8 * n) = false →
        (¬aligned → ends tAlign) ∧ (aligned → ¬good → ends tProt) ∧
        (aligned → good → s.cur.trap.active = false → Leaves (.ckptT src) s ((readA s.cur .c src).emit (.ckpt (some ranges)))) ∧
        (aligned → good → s.cur.trap.active = true → Leaves (.ckptT src) s (readA s.cur .c src))))

/-- 07 R165, 06 R143, 05 R111: RDSYS reads a system register at issue, due at issue + 2; WRSYS in privileged mode becomes an operation of the group, and
traps with PRIVILEGE elsewhere. 06 R141 to R143, 17 R416: what the system registers read on a core that runs slice r, and 0 for a number not listed. -/
def Obligations.SystemRegisters : Prop :=
  (∀ (s : State) (d src : Opnd) (n : BitVec 6),
    Leaves (.rdsys d n) s (s.cur.push (destOf .c d) (.word (s.sysReg s.me n.toNat)) (s.cur.cycle + 2)) ∧
    (s.cur.priv = true → Leaves (.wrsys src n) s ((readA s.cur .c src).emit (.wrsys n.toNat (wordOf s .c src)))) ∧
    (s.cur.priv = false → exec (.wrsys src n) s = .next (s.faultAt .c tPrivilege 0 0 3))) ∧
  ∀ (s : State) (n : Nat) (r : Run), (s.core n).run = some r →
    let k := s.core n
    let t := k.trap
    s.sysReg n 0x00 = BitVec.ofNat 64 n ∧
    s.sysReg n 0x03 = (recKid (s.recOf n)).setWidth 64 ∧
    (s.sysReg n 0x07).toNat = (s.ns + (s.die (n / 32)).skew) % 2 ^ 64 ∧
    s.sysReg n 0x08 = BitVec.ofNat 64 (Sparse.get s.mhz 3600 (n / 4)) ∧
    (t.info.bundle < 4 → (s.sysReg n 0x13).toNat = t.info.kind.toNat * 256 + t.info.bundle * 8 + t.info.slot.code.toNat) ∧
    (t.bank.length < 256 → t.depth < 7 → (s.sysReg n 0x14).toNat = t.bank.length * 16 + t.depth) ∧
    s.sysReg n 0x02 = BitVec.ofNat 64 r.slice ∧
    s.sysReg n 0x04 = BitVec.ofNat 64 r.ordinal ∧
    s.sysReg n 0x05 = BitVec.ofNat 64 k.issued ∧
    s.sysReg n 0x09 = BitVec.ofNat 64 s.modid ∧
    (∀ d, r.deadline = some d → s.sysReg n 0x0A = BitVec.ofNat 64 d) ∧
    (r.deadline = none → s.sysReg n 0x0A = BitVec.allOnes 64) ∧
    (recBudget (s.recOf n) = 0 → s.sysReg n 0x06 = BitVec.allOnes 64) ∧
    (recBudget (s.recOf n) ≠ 0 → (s.sysReg n 0x06).toNat = t.allow.toNat - k.issued) ∧
    (r.rank < 4 → r.width = 1 ∨ r.width = 2 ∨ r.width = 4 →
      (s.sysReg n 0x01).toNat = (if r.priv then 256 else 0) + (if r.width = 1 then 0 else if r.width = 2 then 16 else 32) + r.rank) ∧
    s.sysReg n 0x11 = t.tpc ∧ s.sysReg n 0x12 = t.info.addr ∧ s.sysReg n 0x15 = t.allow ∧
    (s.sysReg n 0x10).toNat = (if t.active then 65536 else 0) + t.info.sub.toNat * 256 + t.info.code.toNat ∧
    (∀ num, (0x0A < num ∧ num < 0x10) ∨ 0x15 < num → s.sysReg n num = 0)

/-- 07 R175 and 05 R113: MOV, MOVL, MOVH, LEA, BSWAP, and XCP into any slot's file; the I-slot NOP changes nothing. 07 R176: the CRC-32C state over 8 or
4 bytes of B, lowest byte first, without inversion. 07 R166: the flag FOP writes, due at issue + 1, with the ports of the operands its function
uses. 05 R112, R113: MOVL, ADD and XCP of the C and EN slots, and the NOPs, which change nothing. -/
def Obligations.MovesAndFlags : Prop :=
  (UnaryGives .mov 1 (fun _ a r => r = a) ∧
  (∀ (u : ISlot) (d : Opnd) (l : Lit) (s : State),
    Leaves (.movl u d l) s ((readLit s.cur u.slot l).push (destOf u.slot d) (.word (widenWord l)) (s.cur.cycle + 1))) ∧
  (∀ (u : ISlot) (d : Opnd) (l : W32) (s : State),
    ∃ r : Word, r.toNat = l.toNat * 2 ^ 32 + (wordOf s u.slot d).toNat % 2 ^ 32 ∧
      Leaves (.movh u d l) s ((readLit s.cur u.slot ⟨.w0, l⟩).push (destOf u.slot d) (.word r) (s.cur.cycle + 1))) ∧
  WideGives .lea 1 (fun _ a b r => ∀ k, k < 64 → r.getLsbD k = (a + b).getLsbD (min k 56)) ∧
  UnaryGives .bswap 1 (fun n a r => ∀ k, k < n → r.getLsbD k = a.getLsbD (n - 8 - k / 8 * 8 + k % 8)) ∧
  (∀ (u : ISlot) (x : XArgs) (s : State),
    Leaves (.xcp u x) s ((readA s.cur u.slot x.src).push (some (xcpDest x.dst x.ix)) (xcpVal x.dst (wordOf s u.slot x.src))
      (s.cur.cycle + xcpLatency u.slot x.dst))) ∧
  (∀ (u : ISlot) (s : State), Nothing (.iNop u) s)) ∧
  (∀ (narrow : Bool), WideGives (.crc32c narrow) 2 (fun _ a b r =>
    r = ((List.range (if narrow then 4 else 8)).foldl (fun c k => crcStep c (b.extractLsb' (8 * k) 8)) (a.setWidth 32)).setWidth 64)) ∧
  (∀ (s : State) (d : BitVec 4) (a b : Opnd),
    let gives (e : FlagExp) (k : Core) (v : Bool) : Prop :=
      Leaves (.fop d e) s (k.push (some (.f d.toNat)) (.word (if v then 1 else 0)) (s.cur.cycle + 1))
    let A : Bool := wordOf s .c a != 0
    let B : Bool := wordOf s .c b != 0
    gives .set s.cur true ∧
    gives .clr s.cur false ∧
    gives (.and a b) (readBoth s.cur .c a (.op b)) (A && B) ∧
    gives (.or a b) (readBoth s.cur .c a (.op b)) (A || B) ∧
    gives (.not a) (readA s.cur .c a) (!A) ∧
    gives (.xor a b) (readBoth s.cur .c a (.op b)) (A != B)) ∧
  ∀ (s : State) (d : Opnd) (l : Lit) (p : SArgs) (x : XArgs) (v : VSlot),
    let movl (k : Slot) : Core := (readLit s.cur k l).push (destOf k d) (.word (widenWord l)) (s.cur.cycle + 1)
    let add (k : Slot) : Core := (readBoth s.cur k p.a p.b).push (destOf k p.d)
      (.word (wordOf s k p.a + wordOfB s k p.b)) (s.cur.cycle + 1)
    let xcp (k : Slot) : Core := (readA s.cur k x.src).push (some (xcpDest x.dst x.ix)) (xcpVal x.dst (wordOf s k x.src))
      (s.cur.cycle + xcpLatency k x.dst)
    Leaves (.cMovl d l) s (movl .c) ∧ Leaves (.cAdd p) s (add .c) ∧ Leaves (.cXcp x) s (xcp .c) ∧
    Leaves (.enMovl d l) s (movl .en) ∧ Leaves (.enAdd p) s (add .en) ∧ Leaves (.enXcp x) s (xcp .en) ∧
    Nothing .cNop s ∧ Nothing .lsNop s ∧ Nothing (.vnop v) s ∧ Nothing .mxNop s ∧ Nothing .enNop s

/-! ## Encodings, steps, groups and commits (05, 06) -/

/-- 05 R105 to R113 and every encoding table: decoding the words the encoder gives a well-formed instruction gives that instruction
back, with every operand at every value, so no bit of an encoding is dropped. -/
def Obligations.DecodeOfEncode : Prop :=
  ∀ (i : Instr) (e : Encoded), i.wf = true → encode i = some e → decodeWord e.slot e.word e.lit = .ok i

/-- Words written out from the spec's own encodings and examples decode to the instructions they stand for. -/
def Obligations.DecodedWords : Prop :=
  decodeWord .i0 0x1E0C510A#32 none = .ok (.cmp .i0 .w64 .lt (.flag 3) (.own 5) (.op (.own 4))) ∧
  decodeWord .c 0x87001000#32 (some 0x1A) = .ok (.loop (.reg (.own 1)) ⟨.w0, 0x1A⟩) ∧
  decodeWord .c 0x8703C004#32 (some 0x0A) = .ok (.loop (.imm 4) ⟨.w0, 0x0A⟩) ∧
  decodeWord .c 0x94040000#32 (some 3) = .ok (.cMovl (.own 1) ⟨.w0, 3⟩) ∧
  decodeWord .i0 0x01041C40#32 none = .ok (.add ⟨.i0, .w64, .own 1, .own 1, .op (.loopIx 1)⟩) ∧
  decodeWord .c 0x0D000000#32 none = .ok .exit ∧
  decodeWord .c 0x0D000002#32 none = .error .reservedField

/-- When core n's next move comes, its group is not open, no landing point or hold stops it, and the bytes at its pc are a bundle of one
instruction i that ends its group, the step is exec of i on the core as its bundle issues, once the loads that come before its reads are served, with the issue cycle counted, the group
completed, the cycle ended and what every move leaves evaluated. -/
def Obligations.StepRunsDecoded : Prop :=
  ∀ (s : State) (n : Nat) (rest : List Move) (r : Run) (line : List Byte) (b : Bundle) (slot : Slot) (i : Instr),
    s.agenda = .issue n :: rest → n < 2048 → (s.core n).run = some r → r.ended = false → r.leave = none →
    s.awake (quadIsland n) = true → s.frozenPower = false → s.mayCycle n = true → (s.core n).lostData = false → (s.core n).accLost = false →
    let s1 := ((({ s with agenda := rest, me := n } : State).landOwn n).modCore n Core.beginCycle).unpin n
    let k := s1.core n
    k.forkTrap ≠ .now → k.grp.active = false → k.holdUntil ≤ k.cycle →
    fetchBad n k.pc = none → Sparse.find? k.icache (k.pc.toNat / 64 * 64) = some line →
    decodeBundle k.pc (line.drop (k.pc.toNat % 64)) = .ok b →
    b.hdr = ⟨false, false, 0, true, b.hdr.pres⟩ → b.instrs = [(slot, i)] →
    (s1.setCore n { k with landing := k.landing }).land n = none → k.groupTrap [b] = none →
    let after := s1.skipPads n (2 ^ 51) (k.pc + BitVec.ofNat 64 b.len)
    let s2 := (s1.setCore n { k with landing := k.landing }).modCore n (fun k => k.opened [b] after)
    Free s2 n →
    let s3 := s2.setCore n (firstIssue (s2.core n))
    step s = match exec i (if readsMemory b.instrs then s3.readAhead n else s3) with
      | .next t => .next ((bundleDone t n).endCycle n).afterMove
      | x => x

/-- 05 R95, R97: a group that ends with no transfer, trap, operation or loop end leaves its writes in flight, each held to the cycle after its last
bundle at the earliest, takes over its ports, streams and matrix settings, goes on at the next group, and changes nothing else of the core, which no
TLB invalidation has met, nor of the module. 06 R126: of two writes to one x register that commit in one cycle the later-issued is kept; on a w
register an engine's write is kept over an instruction's. 06 R124, R125: in a cycle a core's register holds the last write due by then, and a write
still to come leaves it as it is. -/
def Obligations.CommitInItsCycle : Prop :=
  (∀ (s : State) (n : Nat),
    let k := s.core n
    let g := k.grp
    k.landings = [] → g.ops = [] → g.ctrl = .next → g.after = none → g.loops = k.loops → g.old = false →
    (∀ l b, innermost k.loops = some l → g.bundles[g.idx]? = some b → l.last ≠ b.addr) → g.bundles[g.idx]?.isSome →
    let t := s.completeGroup n
    t.core n = { k with
      inflight := k.inflight ++ g.writes.map (fun p => { p with due := max p.due (k.cycle + 1) })
      pc := g.nextPc, ports := g.ports, q := g.q, qpend := g.qpend, mx := { g.mx with dead := k.mx.dead }
      wait := Wait.none, kept := k.kept.filter (fun e => e.start != g.start), grp := Group.none } ∧
    (∀ m, m ≠ n → t.core m = s.core m) ∧ t = { s with cores := t.cores }) ∧
  (∀ (k : Core) (n : Nat) (v w : Word) (c : Nat),
    c ≤ k.cycle →
    (k.inflight = [⟨.x n, .word v, c, false⟩, ⟨.x n, .word w, c, false⟩] → (k.commitDue).word (.x n) = w) ∧
    (k.inflight = [⟨.w n, .word v, c, true⟩, ⟨.w n, .word w, c, false⟩] → (k.commitDue).word (.w n) = v)) ∧
  ∀ (k : Core) (p : Pend) (r : RegName),
    k.inflight = [p] →
    (k.cycle < p.due → (k.commitDue).word r = k.word r ∧ (k.commitDue).wide r = k.wide r ∧ (k.commitDue).inflight = [p]) ∧
    (p.due ≤ k.cycle → Apart r p.reg → (k.commitDue).word r = k.word r ∧ (k.commitDue).wide r = k.wide r) ∧
    (p.due ≤ k.cycle → (k.commitDue).inflight = []) ∧
    (∀ v, p.due ≤ k.cycle → p.val = .word v → InFile p.reg →
      (match p.reg with
        | .va _ | .vb _ | .i _ | .j _ => True
        | .f m => (k.commitDue).word (.f m) = if v = 0 then 0 else 1
        | .loop m f => m < k.loops.length → (k.commitDue).word (.loop m f) = match f with
          | .start | .last => v
          | .count | .index => (v.setWidth 32).setWidth 64
        | r => (k.commitDue).word r = v)) ∧
    (∀ v m, p.due ≤ k.cycle → p.val = .vec v m → (∀ n, p.reg = .va n ∨ p.reg = .vb n →
      ∀ b, b < 2048 → ((k.commitDue).wide p.reg).getLsbD b = if m.getLsbD (b / 32) then v.getLsbD b else (k.wide p.reg).getLsbD b))

/-- 05 R100, R101: the widening of a literal to 64 bits and into a 32-bit lane. 06 R136: a commit voids the copies that name its register and were taken
in an earlier cycle, and no others. 05 R105, R106, R108, 06 R135, R136: what each operand code reads in each slot, stream codes apart, and the copy
a port then holds; a reuse code reads the copy, or the register it names once a write has made the copy void. -/
def Obligations.OperandCodes : Prop :=
  (∀ (v : W32),
    (widenWord ⟨.w0, v⟩).toNat = v.toNat ∧
    (widenWord ⟨.w1, v⟩).toInt = v.toInt ∧
    (widenWord ⟨.w2, v⟩).toNat = v.toNat * 2 ^ 32 ∧
    widenLane ⟨.w0, v⟩ = v ∧
    (widenLane ⟨.w1, v⟩).toNat = (v.toNat % 2 ^ 16) * 0x10001 ∧
    (widenLane ⟨.w2, v⟩).toNat = (v.toNat % 2 ^ 8) * 0x1010101) ∧
  (∀ (k : Core) (p : Pend) (key : Nat) (c : Port),
    (key, c) ∈ k.ports →
    (c.reg = some p.reg.voids → c.taken < p.due → (key, { c with void := true }) ∈ (k.commit p).ports) ∧
    (c.reg ≠ some p.reg.voids ∨ p.due ≤ c.taken → (key, c) ∈ (k.commit p).ports)) ∧
  ∀ (k : Core) (x : Slot),
    let seen (w : Word) : Vec := if x.isVec then broadcast (w.setWidth 32) else w.setWidth 2048
    (∀ n, (k.opnd x (.flag n)).val = seen (if k.regs.f.getLsbD n.toNat then 1 else 0)) ∧
    (∀ l, (k.opnd x (.loopIx l)).val = seen ((loopIndex k.loops l.toNat).setWidth 64)) ∧
    (∀ l, (k.opnd x (.tileIx l)).val = seen ((nth 0 k.j l.toNat).setWidth 64)) ∧
    (k.opnd x .zero).val = 0 ∧
    (x.isVec = false → (k.opnd x .slotId).val = (x.code.setWidth 2048)) ∧
    (∀ j, j < 64 → ((k.opnd .va .slotId).val.extractLsb' (32 * j) 32).toNat = j ∧
      ((k.opnd .vb .slotId).val.extractLsb' (32 * j) 32).toNat = j) ∧
    (∀ n, x.isVec = false → ∀ r, nameOf x (.own n) = some r → (k.opnd x (.own n)).val = (k.word r).setWidth 2048) ∧
    (∀ n, (k.opnd .va (.own n)).val = Sparse.get k.regs.va 0 n.toNat ∧ (k.opnd .vb (.own n)).val = Sparse.get k.regs.vb 0 n.toNat) ∧
    (∀ o, o = .reuseA ∨ o = .reuseB →
      let p := k.port x (o == .reuseB)
      (p.void = false → (k.opnd x o).val = p.val ∧ (k.opnd x o).code = p.code) ∧
      (∀ r, p.void = true → p.reg = some r → (k.opnd x o).val = k.slotRead x r)) ∧
    (∀ o, (k.opnd x o).taken = k.cycle ∧ (k.opnd x o).void = false) ∧
    (∀ (p : Port), (k.keepA x p).port x false = p ∧ (k.keepA x p).port x true = k.port x true ∧
      (k.keepB x p).port x true = p ∧ (k.keepB x p).port x false = k.port x false)

/-! ## Taking an exception and returning from one (05 R95, R96, R111, 17 R414 to R419) -/

/-- 17 R415, R416, R418: what entering a handler saves, where it goes, and that it moves every result due in cycle E or later into the
latch bank while the registers, the loop stack, the streams and the accumulators stay as they are. A neighbour load that has still to read may
read in the release of the entry; its result keeps its register and its cycle. -/
def Obligations.HandlerEntry : Prop :=
  ∀ (s : State) (n : Nat) (info : TrapInfo) (pc : Word) (e : Nat),
    let k := s.core n
    let late (p : Pend) : Bool := decide (e ≤ p.due) && !p.engine
    k.just = [] →
    let k' := (s.enterHandler n info pc e).core n
    (∀ c ls ps i x y, k.turned = some (c, ls, ps) → e ≤ c → ls[i]? = some x → k.loops[i]? = some y → x.index ≠ y.index →
      (⟨.loop i .index, .word (y.index.setWidth 64), c - e⟩ : Latch) ∈ k'.trap.bank ∧
        ∃ z, k'.loops[i]? = some z ∧ z.index = x.index) ∧
    ((∀ x, k.turned = some x → x.1 < e) →
    k'.trap.active = true ∧ k'.trap.tpc = pc ∧
    k'.trap.info = { info with addr :=
      if info.code = 4 ∨ info.code = 5 ∨ info.code = 6 ∨ info.code = 7 ∨ info.code = 12 then info.addr else 0 } ∧
    k'.trap.depth = k.loops.length ∧ k'.trap.ports = k.ports ∧ k'.trap.allow = k.trap.allow ∧
    (k.nloads = [] →
      k'.trap.bank = (k.inflight.filter late).map (fun p => ⟨p.reg, p.val, p.due - e⟩) ++ (if k.afterEret then k.trap.bank else []) ∧
      k'.inflight = k.inflight.filter (fun p => !late p)) ∧
    k'.trap.bank.map (fun l => (l.reg, l.rest)) = (k.inflight.filter late).map (fun p => (p.reg, p.due - e)) ++
      (if k.afterEret then k.trap.bank.map (fun l => (l.reg, l.rest)) else []) ∧
    k'.inflight.map (fun p => (p.reg, p.due)) = (k.inflight.filter (fun p => !late p)).map (fun p => (p.reg, p.due)) ∧
    k'.pc = recHandler (s.recOf n) ∧ e + 3 ≤ k'.holdUntil ∧ k'.grp = Group.none ∧
    k'.regs = k.regs ∧ k'.loops = k.loops ∧ k'.q = k.q ∧ k'.acc = k.acc ∧ k'.run = k.run)

/-- 05 R95, 17 R414: a fault of the open group leaves nothing of the group: the handler is entered with the group's address saved, the
faulting bundle and slot recorded, and no write of the group in a register, in flight or in the bank. -/
def Obligations.FaultLeavesNothing : Prop :=
  ∀ (s : State) (slot : Slot) (code sub : Byte) (addr : Word) (kind : BitVec 2),
    let k := s.cur
    k.grp.active = true → k.grp.olds = [] → k.just = [] → k.afterEret = false →
    (∀ x, k.turned = some x → x.1 < if k.grp.idx = 0 then k.cycle else k.grp.since) → k.trap.active = false →
    recHandler (s.recOf s.me) ≠ 0 → code ≠ tEccUe → code ≠ tMxUe → (code = tPageFault → recHostpf (s.recOf s.me) = false) →
    let t := s.faultAt slot code sub addr kind
    let k' := t.cur
    k'.trap.active = true ∧ k'.trap.tpc = k.grp.start ∧ k'.trap.info.code = code ∧ k'.trap.info.sub = sub ∧
    k'.trap.info.kind = kind ∧ k'.trap.info.bundle = k.grp.idx ∧ k'.trap.info.slot = slot ∧
    k'.pc = recHandler (s.recOf s.me) ∧ k'.grp = Group.none ∧ k'.regs = k.regs ∧ k'.loops = k.loops ∧
    (∀ p, p ∈ k'.inflight → ∃ q, q ∈ k.inflight ∧ q.reg = p.reg ∧ q.due = p.due ∧ (q.val = p.val ∨ ∃ c, q.val = .wait c)) ∧
    (∀ l, l ∈ k'.trap.bank → ∃ q, q ∈ k.inflight ∧ q.reg = l.reg ∧ (q.val = l.val ∨ ∃ c, q.val = .wait c))

/-- 17 R414, R417: a trap that enters no handler, because the code has none, the kernel has none or one runs already, kills the slice:
its core has no slice any more, and the launch unit is sent its retirement word with class 1 and the trap's code. -/
def Obligations.TrapWithoutHandlerKills : Prop :=
  ∀ (s : State) (n : Nat) (r : Run) (info : TrapInfo) (pc : Word) (e : Nat),
    Sparse.find? s.cores n = some (s.core n) → (s.core n).run = some r →
    (info.code = tPageFault → recHostpf (s.recOf n) = false) →
    (s.core n).trap.active = true ∨ recHandler (s.recOf n) = 0 ∨ info.code = tEccUe ∨ info.code = tMxUe →
    let t := s.trapTo n info pc e
    (t.core n).run = none ∧ (t.core n).inflight = [] ∧ (t.core n).regs = Regs.zero ∧
    (⟨r.kernel, r.slice, some (errWord r.slice (some n) 1 info.code), none⟩ : RetWord) ∈ t.words

/-- 17 R419: ERET's return clears ACTIVE, drops the loop levels above DEPTH, restores the ports and goes to TPC three cycles on; each
latch then commits at its remaining offset from the cycle T0, that one or a later one, in which the target's first bundle issues, and loads whose data
is still to come make their registers pending from it on. -/
def Obligations.HandlerReturn : Prop :=
  ∀ (s : State) (n : Nat),
    let k := s.core n
    let k' := (s.leaveHandler n).core n
    k'.trap.active = false ∧ k'.loops = k.loops.take k.trap.depth ∧ k'.ports = k.trap.ports ∧ k'.pc = k.trap.tpc ∧
    k'.holdUntil = k.cycle + 3 ∧ k'.regs = k.regs ∧ k'.afterEret = true ∧ (k.nloads = [] → k'.inflight = k.inflight ∧ k'.trap.bank = k.trap.bank) ∧
    k'.inflight.map (fun p => (p.reg, p.due)) = k.inflight.map (fun p => (p.reg, p.due)) ∧
    k'.trap.bank.map (fun l => (l.reg, l.rest)) = k.trap.bank.map (fun l => (l.reg, l.rest)) ∧
    (∀ (c : Core), c.afterEret = true →
      c.replay.inflight = c.inflight ++ c.trap.bank.map (fun l => ⟨l.reg, l.val, c.cycle + l.rest, false⟩) ∧
      c.replay.trap.bank = [] ∧ c.replay.afterEret = false ∧ (∀ g, g ∈ c.replay.gloads → g.latched = false) ∧
      c.replay.gloads.map (·.dests) = c.gloads.map (·.dests) ∧ c.replay.regs = c.regs ∧ c.replay.replay = c.replay)

/-- 05 R95, R96, R111: a group is checked for illegal encodings, then dependences, then privilege; a privileged instruction in a group
that passes the first two traps with PRIVILEGE exactly when the core is not in privileged mode. Two instructions of any bundle that
write one register are a dependence, and so is an instruction of a later bundle that reads or writes what one of an earlier bundle writes; a bundle
alone whose instructions write apart has none. -/
def Obligations.GroupChecks : Prop :=
  ∀ (k : Core) (bs : List Bundle),
    (∀ p, k.illegal 0 bs = some p → k.groupTrap bs = some ⟨tIllegal, 0, 0, 3, p.1, p.2⟩) ∧
    (∀ p, k.illegal 0 bs = none → k.depends 0 bs [] [] = some p → k.groupTrap bs = some ⟨tGroupDep, 0, 0, 3, p.1, p.2⟩) ∧
    (k.illegal 0 bs = none → k.depends 0 bs [] [] = none → k.priv = true → k.groupTrap bs = none) ∧
    (∀ b p, k.illegal 0 bs = none → k.depends 0 bs [] [] = none → k.priv = false → b ∈ bs → p ∈ b.instrs → privileged p.2 = true →
      ∃ i x, k.groupTrap bs = some ⟨tPrivilege, 0, 0, 3, i, x⟩) ∧
    (∀ front b back l x i m y j rest r, bs = front ++ b :: back → b.instrs = l ++ (x, i) :: m ++ (y, j) :: rest →
      r ∈ (usesOf k.loops.length i).writes → r ∈ (usesOf k.loops.length j).writes → (k.depends 0 bs [] []).isSome = true) ∧
    (∀ front b mid c back x i y j r, bs = front ++ b :: mid ++ c :: back → (x, i) ∈ b.instrs → (y, j) ∈ c.instrs →
      r ∈ (usesOf k.loops.length i).writes →
      (r ∈ (usesOf k.loops.length j).writes ∨ r ∈ (usesOf k.loops.length j).reads ∨
        ∃ o, o ∈ (usesOf k.loops.length j).codes ∧ nameOf y o = some r) → (k.depends 0 bs [] []).isSome = true) ∧
    (∀ b, bs = [b] → (b.instrs.flatMap (fun p => (usesOf k.loops.length p.2).writes)).Nodup → k.depends 0 bs [] [] = none)

/-! ## Memory and reset -/

/-- Every step keeps every memory in canonical form: addresses strictly rising, no listed byte equal to what an unlisted address reads. -/
def Obligations.MemoryStaysCanonical : Prop :=
  ∀ (s t : State), s.memOk → step s = .next t → t.memOk

/-- The memory of the state after reset is canonical, and every byte of it reads 0, the model's choice (log entry 1). -/
def Obligations.ResetMemory : Prop :=
  State.reset.memOk ∧ ∀ a, Mem.read State.reset.mem a = 0

/-- A byte written at its home reads back, and every other byte reads as before, unless no memory backs the address, a committed
sequence slot holds it, or its range keeps no bytes that the spec states (log entry 9), and then nothing is written. -/
def Obligations.ByteWrites : Prop :=
  ∀ (s : State) (pa a : Nat) (b : Byte), s.memOk →
    ((s.unbacked pa = true ∨ unstated pa = true ∨ ∃ r, r ∈ s.frozen ∧ r.1 ≤ pa ∧ pa < r.1 + r.2) → (s.putByte pa b).cell a = s.cell a) ∧
    (s.unbacked pa = false → unstated pa = false → (∀ r, r ∈ s.frozen → ¬(r.1 ≤ pa ∧ pa < r.1 + r.2)) →
      (s.putByte pa b).cell a = if a = pa then b else s.cell a)

/-! ## Memory and the LS slot (09) -/

/-- 09 R201, R202, R226: where an aligned LS access goes by its address, as the windows and the translation say, and its traps: ALIGN first,
PROT in the MRAM window, elsewhere in the window block and at a non-canonical address. -/
def Obligations.AccessTargets : Prop :=
  ∀ (s : State) (va : Word) (acc : Access) (size align : Nat),
    let goes (r : Except Flt (Target × Bool)) : Prop := s.lsTarget va acc size align = r
    let o := va.toNat - 0xFFFFFFFF00000000
    let c := s.me / 4 * 4 + (o - 0x1000000) / 0x200000
    (va.toNat % align ≠ 0 → goes (.error ⟨tAlign, 0, va, acc.kind⟩)) ∧
    (va.toNat % align = 0 →
      (canonical va = false → goes (.error ⟨tProt, 0, va, acc.kind⟩)) ∧
      (0xFFFFFFFF00000000 ≤ va.toNat →
        (o < 0x200000 → goes (.ok (.own o, false))) ∧
        (0x1000000 ≤ o → o < 0x1800000 → goes (.ok (if c = s.me then .own ((o - 0x1000000) % 0x200000) else .nbr c ((o - 0x1000000) % 0x200000), false))) ∧
        ((0x200000 ≤ o ∧ o < 0x1000000) ∨ 0x1800000 ≤ o → goes (.error ⟨tProt, 0, va, acc.kind⟩))) ∧
      (canonical va = true → va.toNat < 0xFFFFFFFF00000000 →
        (s.xlate s.me va = .fault → goes (.error ⟨tPageFault, 0, va, acc.kind⟩)) ∧
        (s.xlate s.me va = .ue → goes (.error ⟨tEccUe, 0, va, acc.kind⟩)) ∧
        (∀ pa e m, s.xlate s.me va = .ok pa e m →
          (leafAllows e acc s.cur.priv = false ∨ s.podGlove pa = true ∨ s.inGlove pa = true ∨ s.rangeAllows pa s.cur.priv = false →
            goes (.error ⟨tProt, 0, va, acc.kind⟩)) ∧
          (leafAllows e acc s.cur.priv = true → s.podGlove pa = false → s.inGlove pa = false → s.rangeAllows pa s.cur.priv = true →
            (rangeOf pa = .dram ∨ rangeOf pa = .cxl → goes (.ok (.phys pa, m))) ∧
            (rangeOf pa = .device → size = 8 → goes (.ok (.device (paLocal pa - 0x100400000000), m))) ∧
            (rangeOf pa = .device → size ≠ 8 → goes (.error ⟨tAlign, 0, va, acc.kind⟩)) ∧
            (rangeOf pa = .mram ∨ rangeOf pa = .sync ∨ rangeOf pa = .reserved → goes (.ok (.raw pa, m))) ∧
            (∀ j x, s.modid < 64 → j < 2048 → x < 0x200000 → pa = tileBase s.modid j + x →
              goes (.ok (if j = s.me then .own x else if j / 4 = s.me / 4 then .nbr j x else .raw pa, m)))))))

/-- 09 R203, R226, 06 R127, R130, 18 R440: LD, LDX and LDP complete from own tile SRAM with the extended value due at issue + 3, from a
neighbour's as a load read at issue + 4 and delivered at issue + 7, from a device register or other memory as a pending load; a fault of
the access, and a poisoned sector of own tile SRAM, trap. -/
def Obligations.Loads : Prop :=
  ∀ (s : State) (k : LoadKind) (d a ix : Opnd) (b : OpB) (dp : ZPair),
    let zs (o : Opnd) : List (Nat × Nat) := match o with | .own n => [(n.toNat, 0)] | _ => []
    let loads (i : Instr) (c : Core) (va : Word) (size : Nat) (signed : Bool) (dests : List (Nat × Nat))
        (own : Nat → Core → Core → Prop) : Prop :=
      let missed (m : Bool) : Core := if m then c.emit (.miss (unitOf va)) else c
      let pend (pa : Nat) (device raw : Bool) : Op := .gload ⟨dests, pa, va, size, signed, device, [], 0, false, raw, 0, 0, false, false⟩
      (∀ off m, s.lsTarget va .read size size = .ok (.own off, m) →
        (s.poisoned (tileBase s.modid s.me + off) = false → ∃ c', own off (missed m) c' ∧ Leaves i s c') ∧
        (s.poisoned (tileBase s.modid s.me + off) = true → exec i s = .next (s.faultAt .ls tEccUe 0 va 0))) ∧
      (∀ n off m, s.lsTarget va .read size size = .ok (.nbr n off, m) →
        Leaves i s ((missed m).emit
          (.nload ⟨dests, tileBase s.modid n + off, size, signed, s.cur.cycle + 4, s.cur.cycle + 7, 0, 0, 0⟩))) ∧
      (∀ off m, s.lsTarget va .read size size = .ok (.device off, m) → Leaves i s ((missed m).emit (pend off true false))) ∧
      (∀ pa m, s.lsTarget va .read size size = .ok (.phys pa, m) → Leaves i s ((missed m).emit (pend pa false false))) ∧
      (∀ pa m, s.lsTarget va .read size size = .ok (.raw pa, m) → Leaves i s ((missed m).emit (pend pa false true))) ∧
      (∀ f, s.lsTarget va .read size size = .error f → exec i s = .next (s.faultAt .ls f.code f.sub f.addr f.kind))
    let byteAt (off j : Nat) : Nat := (s.lsByte (tileBase s.modid s.me + off + j)).toNat
    let raw (off n : Nat) : Nat := ((List.range n).map (fun j => byteAt off j * 2 ^ (8 * j))).sum
    let one (off : Nat) (c c' : Core) : Prop := ∃ v : Word,
      (k.signed = false → v.toNat = raw off k.bytes) ∧
      (k.signed = true → v.toInt = if raw off k.bytes < 2 ^ (8 * k.bytes - 1) then (raw off k.bytes : Int)
        else (raw off k.bytes : Int) - (2 ^ (8 * k.bytes) : Nat)) ∧
      c' = c.push (match d with | .own n => some (.z n.toNat) | _ => none) (.word v) (s.cur.cycle + 3)
    let two (off : Nat) (c c' : Core) : Prop := ∃ v w : Word, v.toNat = raw off 8 ∧ w.toNat = raw (off + 8) 8 ∧
      c' = (c.push (some (.z (2 * dp.toNat))) (.word v) (s.cur.cycle + 3)).push (some (.z (2 * dp.toNat + 1))) (.word w) (s.cur.cycle + 3)
    let c1 := readBoth s.cur .ls a b
    let c2 := readBoth s.cur .ls a (.op ix)
    loads (.ld k d a b) c1 (wordOf s .ls a + wordOfB s .ls b) k.bytes k.signed (zs d) one ∧
    loads (.ldx k d a ix) c2 (wordOf s .ls a + wordOf s .ls ix * BitVec.ofNat 64 k.bytes) k.bytes k.signed (zs d) one ∧
    loads (.ldp dp a b) c1 (wordOf s .ls a + wordOfB s .ls b) 16 false [(2 * dp.toNat, 0), (2 * dp.toNat + 1, 8)] two

/-- 09 R203, R220, R225, R226, R235, 12 R290: ST and STX store the low bytes of the data operand, a register's or the next group of a
stream, and ZFILL 64 zero bytes, at the address they compute: own tile SRAM, a neighbour's tile at issue + 5, a device register, the
core's L1, or a range L1 does not cache; a stream's extra cycles make the tile stores land later. -/
def Obligations.Stores : Prop :=
  ∀ (s : State) (sz : AccSize) (data a ix : Opnd) (b : OpB),
    let stores (i : Instr) (c : Core) (va : Word) (align late : Nat) (bs : List Byte) : Prop :=
      let missed (m : Bool) : Core := if m then c.emit (.miss (unitOf va)) else c
      (∀ off m, s.lsTarget va .write bs.length align = .ok (.own off, m) → Leaves i s ((missed m).emit
        (.tileStore (c.cycle + late) (tileBase s.modid s.me + off) bs))) ∧
      (∀ n off m, s.lsTarget va .write bs.length align = .ok (.nbr n off, m) →
        Leaves i s ((missed m).emit (.land (.ls c.cycle) (c.cycle + 5 + late) (fullCells (tileBase s.modid n + off) bs)))) ∧
      (∀ off m, s.lsTarget va .write bs.length align = .ok (.device off, m) →
        Leaves i s ((missed m).emit (.devStore off (BitVec.ofNat 64 (leNat bs))))) ∧
      (∀ pa m, s.lsTarget va .write bs.length align = .ok (.phys pa, m) → Leaves i s ((missed m).emit (.globalStore pa bs))) ∧
      (∀ pa m, s.lsTarget va .write bs.length align = .ok (.raw pa, m) → Leaves i s ((missed m).emit (.rawStore pa bs))) ∧
      (∀ f, s.lsTarget va .write bs.length align = .error f → exec i s = .next (s.faultAt .ls f.code f.sub f.addr f.kind))
    let low (w : Word) : List Byte := (List.range sz.bytes).map (fun j => w.extractLsb' (8 * j) 8)
    let merged (c : Core) (x : Core) : Core := { x with grp := { x.grp with ports := c.grp.ports } }
    let c1 := readBoth s.cur .ls a b
    let c2 := readBoth s.cur .ls a (.op ix)
    (∀ p x c, s.operand s.cur .ls data = .ok (p, x, c) →
      stores (.st sz data a b) (merged c1 c) (wordOf s .ls a + wordOfB s .ls b) sz.bytes x (low p.word) ∧
      stores (.stx sz data a ix) (merged c2 c) (wordOf s .ls a + wordOf s .ls ix * BitVec.ofNat 64 sz.bytes) sz.bytes x (low p.word)) ∧
    (∀ f, s.operand s.cur .ls data = .error f →
      exec (.st sz data a b) s = .next (s.faultAt .ls f.code f.sub f.addr f.kind) ∧
      exec (.stx sz data a ix) s = .next (s.faultAt .ls f.code f.sub f.addr f.kind)) ∧
    stores (.zfill a b) c1 (wordOf s .ls a + wordOfB s .ls b) 64 0 (List.replicate 64 0)

/-- 09 R216 to R218, R220, 05 R106: an operand or destination of the LS and vector slots that is no stream goes to the register; a stream read delivers
the group the walk gives and moves the walk on by it, and an unconfigured, wrongly directed, unfit or exhausted stream traps. 09 R216 to R218, R220,
10 R239: a result that goes to a stream. The descriptor's traps are those of a read with the direction turned, and a fault of one of the group's
bytes is the use's; else the group's elements, `keep` of them, are on their way to the addresses the walk gives, landing in the result's commit
cycle or later by the stream's extra cycles, and the walk has moved on. -/
def Obligations.StreamOperands : Prop :=
  (∀ (s : State) (k : Core) (x : Slot) (o : Opnd) (q : BitVec 4) (w : Nat) (r : StreamReg),
    (destStream o = none → s.operand k x o = .ok (k.opnd x o, 0, k)) ∧
    (∀ v due, destStream o = none → s.putLs k o v due = .ok (k.push (destOf .ls o) (.word v) due)) ∧
    (∀ v m due, destStream o = none → s.putVec k x o v m due = .ok (k.push (destOf x o) (.vec v m) due)) ∧
    (Sparse.find? k.grp.q q.toNat = none → s.streamRead k q.toNat w = .error ⟨tStream, 1, 0, 3⟩) ∧
    (Sparse.find? k.grp.q q.toNat = some r →
      (r.checked = false → Desc.good r.desc = false → s.streamRead k q.toNat w = .error ⟨tStream, 7, 0, 3⟩) ∧
      (r.checked = true ∨ Desc.good r.desc = true →
        (Desc.writes r.desc = true → s.streamRead k q.toNat w = .error ⟨tStream, 3, 0, 3⟩) ∧
        (Desc.writes r.desc = false → (Desc.ty r.desc).is6 = true ∨ Desc.scaled r.desc = true →
          s.streamRead k q.toNat w = .error ⟨tStream, 4, 0, 3⟩) ∧
        (Desc.writes r.desc = false → (Desc.ty r.desc).is6 = false → Desc.scaled r.desc = false →
          (Desc.exh r.desc = true → s.streamRead k q.toNat w = .error ⟨tStream, 2, 0, 3⟩) ∧
          (Desc.exh r.desc = false → Desc.space r.desc = 4 → ∃ f, s.streamRead k q.toNat w = .error f ∧
            (f.code = tProt ∨ f.code = tPageFault ∨ f.code = tEccUe)) ∧
          (∀ f, Desc.exh r.desc = false → Desc.space r.desc ≠ 4 →
            (s.setCur k).readElems r.desc (w / (Desc.ty r.desc).bits) (Desc.ord r.desc) = .error f → s.streamRead k q.toNat w = .error f) ∧
          (∀ v ms, Desc.exh r.desc = false → Desc.space r.desc ≠ 4 →
            (s.setCur k).readElems r.desc (w / (Desc.ty r.desc).bits) (Desc.ord r.desc) = .ok (v, ms) →
            ∃ k', s.streamRead k q.toNat w = .ok (v, streamExtra s.me r.desc, k') ∧
              Sparse.find? k'.grp.q q.toNat = some ⟨Desc.setOrd r.desc (Desc.ord r.desc + w / (Desc.ty r.desc).bits), true, r.ahead - 1⟩ ∧
              k'.regs = k.regs ∧ k'.grp.writes = k.grp.writes ∧ k'.grp.ports = k.grp.ports)))) ∧
    (let ofMram (p : Nat) (dir : Bool) : Prop := ∃ r', Sparse.find? k.grp.q p = some r' ∧ Desc.space r'.desc = 1 ∧ (dir = true → Desc.writes r'.desc = false)
      let taken : Prop := ∃ e, e ∈ k.bundle.instrs ∧ (e.1 = .ls ∨ e.1.isVec = true) ∧ e.1.code.toNat < x.code.toNat ∧
        ∃ p, p ∈ (usesOf 0 e.2).streams ∧ ofMram p true
      (taken → ofMram q.toNat false → s.operand k x (.stream q) = .error ⟨tStream, 8, 0, 3⟩) ∧
      (¬(taken ∧ ofMram q.toNat false) → s.operand k x (.stream q) = match s.streamRead k q.toNat (if x.isVec then 2048 else 64) with
        | .error f => .error f
        | .ok (v, late, k') => .ok (⟨BitVec.ofNat 2048 v, .op (.stream q), none, k.cycle, false⟩, late, k')))) ∧
  ∀ (s : State) (k : Core) (q : BitVec 4) (w v due : Nat) (keep : Nat → Bool) (x : Slot) (r : StreamReg) (m : Word),
    let put := s.streamWrite k q.toNat w v keep due
    let g := w / (Desc.ty r.desc).bits
    let elems := (s.setCur k).writeElems r.desc v keep g (Desc.ord r.desc) 0
    (∀ a, s.putLs k (.stream q) a due = s.streamWrite k q.toNat 64 a.toNat (fun _ => true) due) ∧
    (∀ a, Sparse.find? k.grp.q q.toNat = some r → s.putVec k x (.stream q) a m due =
      s.streamWrite k q.toNat 2048 a.toNat (fun i => m.getLsbD (i * (Desc.ty r.desc).bits / 32)) due) ∧
    (Sparse.find? k.grp.q q.toNat = none → put = .error ⟨tStream, 1, 0, 3⟩) ∧
    (Sparse.find? k.grp.q q.toNat = some r →
      (r.checked = false → Desc.good r.desc = false → put = .error ⟨tStream, 7, 0, 3⟩) ∧
      (r.checked = true ∨ Desc.good r.desc = true →
        (Desc.writes r.desc = false → put = .error ⟨tStream, 3, 0, 3⟩) ∧
        (Desc.writes r.desc = true → (Desc.ty r.desc).is6 = true ∨ Desc.scaled r.desc = true → put = .error ⟨tStream, 4, 0, 3⟩) ∧
        (Desc.writes r.desc = true → (Desc.ty r.desc).is6 = false → Desc.scaled r.desc = false →
          (Desc.exh r.desc = true → put = .error ⟨tStream, 2, 0, 3⟩) ∧
          (Desc.exh r.desc = false → (∀ f, elems = .error f → put = .error f) ∧
            ∀ cs ms, elems = .ok (cs, ms) →
              (∃ k', put = .ok k' ∧
                Sparse.find? k'.grp.q q.toNat = some ⟨Desc.setOrd r.desc (Desc.ord r.desc + g), true, r.ahead⟩ ∧
                k'.regs = k.regs ∧ k'.grp.writes = k.grp.writes ∧ k'.grp.ports = k.grp.ports ∧
                k'.grp.ops = k.grp.ops ++ ms.map (fun u => Op.miss u) ++
                  [.land (.stream (Desc.space r.desc == 3)) (due + streamExtra s.me r.desc) cs]) ∧
              (8 ≤ (Desc.ty r.desc).bits → ∀ i j pa miss, i < g → Desc.ord r.desc + i < Desc.total r.desc → j < (Desc.ty r.desc).bits / 8 →
                (s.setCur k).streamByte s.me r.desc .write (Desc.origin r.desc (Desc.base r.desc) +
                  ((Desc.ord r.desc + i) % Desc.count r.desc 0 * ((Desc.ty r.desc).bits / 8) + j : Nat) +
                  Desc.row r.desc (Desc.ord r.desc + i)) = .ok (pa, miss) →
                keep i = true → rangeOf pa ≠ .mram → unstated pa = false →
                (⟨pa, BitVec.ofNat 8 (v / 2 ^ ((Desc.ty r.desc).bits * i + 8 * j)), 0xFF⟩ : MByte) ∈ cs)))))

/-- 05 R112, R113, 09 R227: ADD, SUB, SHL and AND of the LS slot, MOVL and XCP, with register or stream operands and destinations; an
operand or destination that faults traps. -/
def Obligations.LsArithmetic : Prop :=
  ∀ (s : State) (p : SArgs) (d : Opnd) (l : Lit) (x : XArgs),
    let gives (i : Instr) (f : Word → Word → Word) : Prop :=
      (∀ pa xa k1 pb xb k2 k3, s.operand s.cur .ls p.a = .ok (pa, xa, k1) → s.operandB k1 .ls p.b = .ok (pb, xb, k2) →
        s.putLs ((k2.keepA .ls pa).keepB .ls pb) p.d (f pa.word pb.word) (s.cur.cycle + 1 + max xa xb) = .ok k3 → Leaves i s k3) ∧
      (∀ e, s.operand s.cur .ls p.a = .error e → exec i s = .next (s.faultAt .ls e.code e.sub e.addr e.kind)) ∧
      (∀ pa xa k1 e, s.operand s.cur .ls p.a = .ok (pa, xa, k1) → s.operandB k1 .ls p.b = .error e →
        exec i s = .next (s.faultAt .ls e.code e.sub e.addr e.kind)) ∧
      (∀ pa xa k1 pb xb k2 e, s.operand s.cur .ls p.a = .ok (pa, xa, k1) → s.operandB k1 .ls p.b = .ok (pb, xb, k2) →
        s.putLs ((k2.keepA .ls pa).keepB .ls pb) p.d (f pa.word pb.word) (s.cur.cycle + 1 + max xa xb) = .error e →
        exec i s = .next (s.faultAt .ls e.code e.sub e.addr e.kind))
    gives (.lsAdd p) (fun a b => a + b) ∧
    gives (.lsSub p) (fun a b => a - b) ∧
    gives (.lsShl p) (fun a b => BitVec.ofNat 64 (a.toNat * 2 ^ (b.toNat % 64))) ∧
    gives (.lsAnd p) (fun a b => a &&& b) ∧
    (∀ k, s.putLs (readLit s.cur .ls l) d (widenWord l) (s.cur.cycle + 1) = .ok k → Leaves (.lsMovl d l) s k) ∧
    (∀ e, s.putLs (readLit s.cur .ls l) d (widenWord l) (s.cur.cycle + 1) = .error e →
      exec (.lsMovl d l) s = .next (s.faultAt .ls e.code e.sub e.addr e.kind)) ∧
    (∀ pa xa k, s.operand s.cur .ls x.src = .ok (pa, xa, k) →
      Leaves (.lsXcp x) s ((k.keepA .ls pa).push (some (xcpDest x.dst x.ix)) (xcpVal x.dst pa.word)
        (k.cycle + xcpLatency .ls x.dst + xa))) ∧
    (∀ e, s.operand s.cur .ls x.src = .error e → exec (.lsXcp x) s = .next (s.faultAt .ls e.code e.sub e.addr e.kind))

/-- 09 R229: the stream control instructions: what each makes of the descriptor and from which cycle on, SSTD's 64 bytes, SPOS's ordinal,
and their traps: an unconfigured register, a bad descriptor, an address that is not 64-byte aligned or lies in no tile window, a poisoned sector. -/
def Obligations.StreamControl : Prop :=
  ∀ (s : State) (q : BitVec 4) (m : BitVec 3) (a d : Opnd) (b : OpB) (r : StreamReg),
    let k := s.cur
    let ea := wordOf s .ls a + wordOfB s .ls b
    let both := readBoth k .ls a b
    let onlyB := k.keepB .ls (k.opndB .ls b)
    let held : Option StreamReg := Sparse.find? k.grp.q q.toNat
    let unset : Result := .next (s.faultAt .ls tStream 1 0 3)
    let good : Prop := r.checked = true ∨ Desc.good r.desc = true
    Leaves (.scfg q m b) s (onlyB.changeQ q.toNat (k.cycle + 1) (.word m.toNat (wordOfB s .ls b))) ∧
    (∀ n off, ea.toNat % 64 = 0 → placeOf s.me ea = .tile n off →
      (s.poisoned (tileBase s.modid n + off) = false → ∃ desc : BitVec 512,
        (∀ j, j < 64 → desc.extractLsb' (8 * j) 8 = s.lsByte (tileBase s.modid n + off + j)) ∧
        Leaves (.sldd q a b) s (both.changeQ q.toNat (k.cycle + 3) (.load desc))) ∧
      (held = some r → ∃ bs : List Byte, bs.length = 64 ∧ (∀ j, j < 64 → bs[j]? = some (r.desc.extractLsb' (8 * j) 8)) ∧
        Leaves (.sstd q a b) s (both.emit (if n = s.me then .tileStore k.cycle (tileBase s.modid n + off) bs
          else .land (.ls k.cycle) (k.cycle + 5) (fullCells (tileBase s.modid n + off) bs)))) ∧
      (s.poisoned (tileBase s.modid n + off) = true → exec (.sldd q a b) s = .next (s.faultAt .ls tEccUe 0 ea 0))) ∧
    (ea.toNat % 64 ≠ 0 → exec (.sldd q a b) s = .next (s.faultAt .ls tAlign 0 ea 0) ∧
      (held = some r → exec (.sstd q a b) s = .next (s.faultAt .ls tAlign 0 ea 1))) ∧
    (ea.toNat % 64 = 0 → (∀ n off, placeOf s.me ea ≠ .tile n off) → exec (.sldd q a b) s = .next (s.faultAt .ls tProt 0 ea 0) ∧
      (held = some r → exec (.sstd q a b) s = .next (s.faultAt .ls tProt 0 ea 1))) ∧
    (held = some r → ¬good → exec (.sadv q b) s = .next (s.faultAt .ls tStream 7 0 3) ∧
      exec (.spos d q) s = .next (s.faultAt .ls tStream 7 0 3)) ∧
    (held = some r → Leaves (.srst q) s (k.changeQ q.toNat (k.cycle + 1) .rewind)) ∧
    (held = some r → good → Leaves (.sadv q b) s
      ((onlyB.putStream q.toNat { r with checked := true }).changeQ q.toNat (k.cycle + 1) (.advance (wordOfB s .ls b)))) ∧
    (held = some r → good → Leaves (.spos d q) s
      ((k.putStream q.toNat { r with checked := true }).push (destOf .ls d) (.word (BitVec.ofNat 64 (Desc.ord r.desc))) (k.cycle + 1))) ∧
    (held = none → exec (.sstd q a b) s = unset ∧ exec (.srst q) s = unset ∧ exec (.sadv q b) s = unset ∧ exec (.spos d q) s = unset)

/-- 09 R214, R216: moving a walk to ordinal o makes o its ordinal, up to the total, where the walk is exhausted with every index 0. 09 R229: the changes
of a stream register when they take effect: a word set over zeros on an unconfigured register, a load, a rewind and an advance, each leaving every
other register as it is. -/
def Obligations.StreamChanges : Prop :=
  (∀ (d : Desc) (o : Nat), Desc.good d = true →
    Desc.ord (Desc.setOrd d o) = min o (Desc.total d) ∧
    Desc.total (Desc.setOrd d o) = Desc.total d ∧
    (Desc.exh (Desc.setOrd d o) = true ↔ Desc.total d ≤ o) ∧
    Desc.base (Desc.setOrd d o) = Desc.base d ∧ Desc.ty (Desc.setOrd d o) = Desc.ty d) ∧
  ∀ (m : Sparse StreamReg) (q j n : Nat) (v : Word) (d : BitVec 512),
    let old := Sparse.get m ⟨0, false, 0⟩ q
    (j ≠ q → ∀ c, Sparse.find? (applyChange m q c) j = Sparse.find? m j) ∧
    (n < 8 → ∃ e, Sparse.find? (applyChange m q (.word n v)) q = some ⟨e, false, 0⟩ ∧
      ∀ b, b < 512 → e.getLsbD b = if b / 64 = n then v.getLsbD (b % 64) else old.desc.getLsbD b) ∧
    Sparse.find? (applyChange m q (.load d)) q = some ⟨d, false, 0⟩ ∧
    (∃ e, Sparse.find? (applyChange m q .rewind) q = some { old with desc := e, ahead := 0 } ∧
      ∀ b, b < 512 → e.getLsbD b = (if 447 ≤ b then false else old.desc.getLsbD b)) ∧
    Sparse.find? (applyChange m q (.advance v)) q = some { old with desc := Desc.setOrd old.desc (Desc.ord old.desc + v.toNat), ahead := 0 }

/-- 09 R230 to R234: FENCE, PHASE, CFLUSH and CINV become operations of the group in issue order; PREF leaves registers and memory as they
are, and drops a window address. What the operations do when the group completes is stated in `MemoryOperations`. -/
def Obligations.OrderingInstructions : Prop :=
  ∀ (s : State) (σ : Scope) (l : PrefLevel) (a : Opnd) (b : OpB),
    let both := readBoth s.cur .ls a b
    let ea := wordOf s .ls a + wordOfB s .ls b
    Leaves .fence s (s.cur.emit .fence) ∧
    Leaves (.phase σ) s (s.cur.emit (.phase σ)) ∧
    Leaves (.cflush σ a b) s (both.emit (.cflush σ (wordOf s .ls a) ((wordOfB s .ls b).toNat % 2 ^ 32))) ∧
    Leaves (.cinv σ a b) s (both.emit (.cinv σ (wordOf s .ls a) ((wordOfB s .ls b).toNat % 2 ^ 32))) ∧
    (∃ ops, Leaves (.pref l a b) s { both with grp := { both.grp with ops := both.grp.ops ++ ops } } ∧
      ∀ o, o ∈ ops → (∃ u, o = .miss u) ∨ ∃ pa,
        (l = .l1 ∧ ∃ raw, o = .gload ⟨[], pa / 64 * 64, ea, 64, false, false, [], 0, false, raw, 0, 0, false, false⟩) ∨
        (l = .l2 ∧ o = .prefetch 2 pa) ∨ (l = .l3 ∧ o = .prefetch 3 pa)) ∧
    (0xFFFFFFFF00000000 ≤ ea.toNat → Leaves (.pref l a b) s both)

/-- 09 R203, R206, R231 to R235, 12 R290 to R292, 14 R335, R336, R339: what the memory operations of a completed group do, with every other byte
as it was, where nothing of the core is on its way: an LS store to a tile and a stream or matrix write are on their way and land byte by
byte; a global store's bytes are dirty in L1; a store past L1, a FENCE, a phase boundary, a release, CFLUSH and CINV send bytes home; an acquire
voids the clean bytes. -/
def Obligations.MemoryOperations : Prop :=
  ∀ (s : State) (n t pa due off len : Nat) (who : Who) (bs : List Byte) (p : Path) (cs : List MByte) (σ : Scope) (va w : Word),
    let k := s.core n
    let free (a : Nat) : Prop := s.unbacked a = false ∧ unstated a = false ∧ ∀ r, r ∈ s.frozen → ¬(r.1 ≤ a ∧ a < r.1 + r.2)
    let act (o : Op) : State := s.applyOp false n t who o
    let same (u : State) : Prop := (∀ a, u.cell a = s.cell a) ∧ ∀ m, m ≠ n → u.core m = s.core m
    let sends (u : State) (cells : List MByte) (path : Path) (c : Nat) : Prop := same u ∧
      ∃ ls, u.core n = { k with landings := k.landings ++ ls } ∧ (ls.flatMap (·.cells)).Perm cells ∧
        ∀ l, l ∈ ls → l.due = c ∧ l.fence = k.fences ∧ l.rels = k.rels ∧ l.path = path ∧ l.held = none
    let cached := act (.globalStore pa bs)
    let room : Prop := ((l1Lines (l1Store k.fences k.l1 pa bs)).filter (· != pa / 64)).length < 2048
    let home (u : State) (sel : Nat → Prop) : Prop := ∀ a, (∀ x, Sparse.find? k.l1 a = some x → x.dirty = true → sel a → free a → u.cell a = x.val) ∧
      (¬(∃ x, Sparse.find? k.l1 a = some x ∧ x.dirty = true ∧ sel a) → u.cell a = s.cell a)
    let spans := s.flushSpans n va len
    let hit (a : Nat) : Prop := ∃ r, r ∈ spans ∧ r.1 ≤ a ∧ a < r.1 + r.2
    let near (a : Nat) : Prop := ∃ i, i < 8 ∧ hit (a / 8 * 8 + i)
    s.memOk → Sparse.rising k.l1 = true →
    sends (act (.tileStore off pa bs)) (fullCells pa bs) (.ls off) (max off t + 1) ∧
    sends (act (.land p due cs)) cs p (max due (t + 1)) ∧
    (∀ go : Landing → Bool, (∀ l, l ∈ k.landings → l.held = none ∧ go l = true) →
      let cells := k.landings.flatMap (·.cells)
      let u := s.landSet n go
      (u.core n).landings = [] ∧ (∀ a, free a → u.cell a = overCells cells a (s.cell a)) ∧
      (∀ a, (∀ c, c ∈ cells → c.pa ≠ a) → u.cell a = s.cell a)) ∧
    (room → same cached ∧ (∀ j b, bs[j]? = some b → Sparse.find? (cached.core n).l1 (pa + j) = some ⟨b, true, k.fences⟩) ∧
      (∀ a, a < pa ∨ pa + bs.length ≤ a → Sparse.find? (cached.core n).l1 a = Sparse.find? k.l1 a)) ∧
    act (.devStore off w) = s.writeReg off w ∧
    (∀ v, (act (.wrsys 0x11 v)).core n = { k with trap := { k.trap with tpc := v } }) ∧
    (∀ v m, m ≠ 0x11 → act (.wrsys m v) = s) ∧
    (∀ e, e ∈ ((act (.release σ)).core n).l1 → e.2.dirty = false) ∧
    (∀ σ, σ ≠ Scope.core → ∀ e, e ∈ ((act (.acquire σ)).core n).l1 → e.2.dirty = true) ∧
    (0 < len → va.toNat % 65536 + len ≤ 65536 →
      (placeOf n va ≠ .virt → spans = []) ∧
      (placeOf n va = .virt → (∀ x e m, s.xlate n va = .ok x e m → spans = if s.inGlove x then [] else [(x, len)]) ∧
        ((∀ x e m, s.xlate n va ≠ .ok x e m) → spans = []))) ∧
    (k.landings = [] →
      (rangeOf pa = .mram ∨ unstated pa = true → act (.rawStore pa bs) = s) ∧
      (rangeOf pa ≠ .mram → unstated pa = false → (∀ j b, bs[j]? = some b → free (pa + j) → (act (.rawStore pa bs)).cell (pa + j) = b) ∧
        ∀ a, a < pa ∨ pa + bs.length ≤ a → (act (.rawStore pa bs)).cell a = s.cell a) ∧
      home (act (.release σ)) (fun _ => True) ∧ home (act .fence) (fun _ => True) ∧ home (act (.phase σ)) (fun _ => True) ∧
      (∀ a, (Sparse.find? ((act (.release σ)).core n).l1 a).map (fun x => (x.val, x.dirty)) =
        (Sparse.find? k.l1 a).map (fun x => (x.val, false))) ∧
      (∀ a, (Sparse.find? ((act .fence).core n).l1 a).map (fun x => (x.val, x.dirty)) = (Sparse.find? k.l1 a).map (fun x => (x.val, false))) ∧
      (σ ≠ .core → ((act (.phase σ)).core n).l1 = []) ∧
      same (act (.acquire σ)) ∧
      (∀ a, Sparse.find? ((act (.acquire σ)).core n).l1 a =
        if σ = .core then Sparse.find? k.l1 a else (Sparse.find? k.l1 a).filter (fun x => x.dirty)) ∧
      (σ = .core ∨ len = 0 → act (.cflush σ va len) = s ∧ act (.cinv σ va len) = s) ∧
      (σ ≠ .core → len ≠ 0 →
        home (act (.cflush σ va len)) near ∧ home (act (.cinv σ va len)) near ∧
        (∀ a, ¬near a → Sparse.find? ((act (.cflush σ va len)).core n).l1 a = Sparse.find? k.l1 a ∧
          Sparse.find? ((act (.cinv σ va len)).core n).l1 a = Sparse.find? k.l1 a) ∧
        (∀ a, near a → (Sparse.find? ((act (.cflush σ va len)).core n).l1 a).map (fun x => (x.val, x.dirty)) =
          (Sparse.find? k.l1 a).map (fun x => (x.val, false))) ∧
        (∀ a, hit a → Sparse.find? ((act (.cinv σ va len)).core n).l1 a = none)))

/-! ## The vector slots (10) -/

/-- 10 R240, R243: the arithmetic of every element under the mask: integers wrap, floating results are the exact value rounded once. -/
def Obligations.VectorArithmetic : Prop :=
  ∀ (s : State) (p : VBin) (q : VUn), p.t.isNum = true → q.t.isNum = true →
    let w := p.t.bits
    let val := p.t.value
    let two (i : Instr) (lat : Nat) (int : Nat → Nat → Nat → Prop) (flt : FNum → FNum → FNum) : Prop :=
      VecTwo i s p.u p.d p.a p.b (predAt s p.u p.p) lat (Elems2 w (fun a b r =>
        if p.t.isFlt then Rounded p.t (flt (val a) (val b)) r else int a b r))
    let acc (i : Instr) (neg : Bool) : Prop :=
      VecTwo i s p.u p.d p.a p.b (predAt s p.u p.p) 4 (Elems3 w (fun d a b r =>
        if p.t.isFlt then Rounded p.t ((val d).add (if neg then ((val a).mul (val b)).neg else (val a).mul (val b))) r
        else (r : Int) = ((d : Int) + (if neg then -1 else 1) * (a : Int) * b) % (2 ^ w : Nat)) (oldAt s p.u p.d))
    let pick (i : Instr) (big : Bool) : Prop :=
      VecTwo i s p.u p.d p.a p.b (predAt s p.u p.p) 2 (Elems2 w (fun a b r =>
        if p.t.isFlt then
          if (val a).isNan && (val b).isNan then Rounded p.t .nan r
          else if (val a).isNan then r = b else if (val b).isNan then r = a
          else (r = a ∨ r = b) ∧ ∀ x, x = a ∨ x = b →
            (if big then (val r).lt true (val x) else (val x).lt true (val r)) = false
        else (r = a ∨ r = b) ∧ ∀ x, x = a ∨ x = b → if big then numAt p.t x ≤ numAt p.t r else numAt p.t r ≤ numAt p.t x))
    let one (i : Instr) (int : Nat → Nat → Prop) (flt : Nat → Nat → Prop) : Prop :=
      VecOne i s q.u q.d q.a (predAt s q.u q.p) 2 (Elems1 q.t.bits (fun a r =>
        if q.t.isFlt then (if (q.t.value a).isNan then Rounded q.t .nan r else flt a r) else int a r))
    two (.vadd p) 2 (fun a b r => r = (a + b) % 2 ^ w) (fun x y => x.add y) ∧
    two (.vsub p) 2 (fun a b r => (r : Int) = ((a : Int) - b) % (2 ^ w : Nat)) (fun x y => x.add y.neg) ∧
    two (.vmul p) 3 (fun a b r => r = a * b % 2 ^ w) (fun x y => x.mul y) ∧
    acc (.vfma p) false ∧ acc (.vfms p) true ∧ pick (.vmin p) false ∧ pick (.vmax p) true ∧
    one (.vabs q) (fun a r => r = (numAt q.t a).natAbs % 2 ^ q.t.bits) (fun a r => r = a % 2 ^ (q.t.bits - 1)) ∧
    one (.vneg q) (fun a r => (r : Int) = -(a : Int) % (2 ^ q.t.bits : Nat)) (fun a r => r = (a + 2 ^ (q.t.bits - 1)) % 2 ^ q.t.bits)

/-- 10 R244, R258: the bitwise instructions on all bits, the shifts with the count of the same element modulo its width, carry-less products
of lanes, and the counts of ones and of leading zeros. -/
def Obligations.VectorBits : Prop :=
  ∀ (s : State) (v : VBit) (n : VBit1) (p : VBin) (q : VUn), p.t.isInt = true → q.t.isInt = true →
    let bits (i : Instr) (f : Bool → Bool → Bool) : Prop :=
      VecTwo i s v.u v.d v.a v.b (predAt s v.u v.p) 2 (fun a b r => ∀ k, k < 2048 → r.getLsbD k = f (a.getLsbD k) (b.getLsbD k))
    let shift (i : Instr) (R : Nat → Nat → Nat → Prop) : Prop :=
      VecTwo i s p.u p.d p.a p.b (predAt s p.u p.p) 2 (Elems2 p.t.bits R)
    let count (i : Instr) (R : Nat → Nat → Prop) : Prop := VecOne i s q.u q.d q.a (predAt s q.u q.p) 2 (Elems1 q.t.bits R)
    let w := p.t.bits
    bits (.vand v) (fun a b => a && b) ∧ bits (.vor v) (fun a b => a || b) ∧ bits (.vxor v) (fun a b => a != b) ∧
    VecOne (.vnot n) s n.u n.d n.a (predAt s n.u n.p) 2 (fun a r => ∀ k, k < 2048 → r.getLsbD k = !a.getLsbD k) ∧
    shift (.vshl p) (fun a b r => r = a * 2 ^ (b % w) % 2 ^ w) ∧
    shift (.vshr p) (fun a b r => r = a / 2 ^ (b % w)) ∧
    (p.t.isSint = true → shift (.vsar p) (fun a b r => (r : Int) = numAt p.t a / (2 ^ (b % w) : Nat) % (2 ^ w : Nat))) ∧
    VecTwo (.vclmul v) s v.u v.d v.a v.b (predAt s v.u v.p) 3 (Elems2 32 (fun a b r =>
      ∀ k, k < 32 → r.testBit k = clmulBit 32 (BitVec.ofNat 32 a) (BitVec.ofNat 32 b) k)) ∧
    count (.vpopc q) (fun a r => r = ((List.range q.t.bits).filter (fun k => a.testBit k)).length) ∧
    count (.vclz q) (fun a r => r ≤ q.t.bits ∧ (∀ k, k < r → a.testBit (q.t.bits - 1 - k) = false) ∧
      (r < q.t.bits → a.testBit (q.t.bits - 1 - r) = true))

/-- 10 R245, R260: the f32 functions complete in every lane under the mask, with the special inputs of the tables, the reciprocal rounded
from its exact value, 2^n and log2 2^n exact, and e^0 = 1. -/
def Obligations.VectorFunctions : Prop :=
  ∀ (s : State) (p : VBit1) (v : VBit),
    let x (a : Nat) : FNum := ElemTy.value .f32 a
    let nan : Nat := 0x7FC00000
    let inf (neg : Bool) : Nat := if neg then 0xFF800000 else 0x7F800000
    let lanes (i : Instr) (R : Nat → Nat → Prop) : Prop := VecOne i s p.u p.d p.a (predAt s p.u p.p) 6 (Elems1 32 R)
    lanes (.vrcp p) (fun a r => match x a with
      | .nan => r = nan
      | .inf neg => r = if neg then 0x80000000 else 0
      | .fin neg n d => if n = 0 then r = inf neg else Rounded .f32 (.fin neg d n) r) ∧
    lanes (.vrsq p) (fun a r => match x a with
      | .nan => r = nan
      | .inf neg => r = if neg then nan else 0
      | .fin neg n _ => if n = 0 then r = inf neg else neg = true → r = nan) ∧
    lanes (.vexp2 p) (fun a r => match x a with
      | .nan => r = nan
      | .inf neg => r = if neg then 0 else inf false
      | .fin neg n d => ∀ k : Nat, n = k * d → 0 < d → k < 128 →
        Rounded .f32 (if neg then .fin false 1 (2 ^ k) else .fin false (2 ^ k) 1) r) ∧
    lanes (.vlog2 p) (fun a r => match x a with
      | .nan => r = nan
      | .inf neg => r = if neg then nan else inf false
      | .fin neg n d => if n = 0 then r = inf true else if neg then r = nan
        else ∀ k : Nat, 0 < d → (n = d * 2 ^ k → Rounded .f32 (.fin false k 1) r) ∧
          (0 < k → d = n * 2 ^ k → Rounded .f32 (.fin true k 1) r)) ∧
    VecTwo (.vexpm v) s v.u v.d v.a v.b (predAt s v.u v.p) 6 (Elems2 32 (fun a b r => match x a, x b with
      | .nan, _ | _, .nan => r = nan
      | _, .inf true => r = 0
      | y, .inf false => r = if y = .inf false then 0x3F800000 else 0
      | .inf true, _ => r = 0
      | .inf false, _ => r = inf false
      | y, z => y = z → r = 0x3F800000))

/-- 10 R246 to R249: VCMP's condition codes, VSEL's choice of lanes, the predicate VPOP makes, due at issue + 3, and the flags of VANY and
VALL. -/
def Obligations.VectorCompare : Prop :=
  ∀ (s : State) (p : VBin) (v : VBit) (f : VQuant) (u : VSlot) (t : ElemTy) (g d : BitVec 2) (a : Opnd) (n : BitVec 4),
    p.t.isNum = true → t.isInt = true →
    let code (a b : Nat) : Nat :=
      if p.t.isFlt then
        let x := p.t.value a
        let y := p.t.value b
        if x.isNan || y.isNan then 8 else if x.lt false y then 1 else if y.lt false x then 4 else 2
      else if numAt p.t a < numAt p.t b then 1 else if numAt p.t b < numAt p.t a then 4 else 2
    let P := predAt s u g
    let hit (A : Vec) (k : Nat) : Prop := match f with
      | .any c => ∃ e, e < 32 / t.bits ∧ elemAt t.bits A (32 / t.bits * k + e) &&& c.toNat ≠ 0
      | .all c => ∀ e, e < 32 / t.bits → elemAt t.bits A (32 / t.bits * k + e) &&& c.toNat ≠ 0
      | .nz => laneAt A k ≠ 0
    VecTwo (.vcmp p) s p.u p.d p.a p.b (predAt s p.u p.p) 2 (Elems2 p.t.bits (fun a b r => r = code a b)) ∧
    VecTwo (.vsel v) s v.u v.d v.a v.b (BitVec.allOnes 64) 2 (fun A B r => ∀ k, k < 64 →
      laneAt r k = if (predAt s v.u v.p).getLsbD k then laneAt A k else laneAt B k) ∧
    (∀ pa xa k1, s.operand s.cur u.slot a = .ok (pa, xa, k1) → ∃ w : Word,
      (∀ k, k < 64 → (w.getLsbD k = true ↔ hit pa.val k ∧ P.getLsbD k = true)) ∧
      Leaves (.vpop f u t g d a) s ((k1.keepA u.slot pa).push (some (match u with | .va => .pa d.toNat | .vb => .pb d.toNat)) (.word w)
        (s.cur.cycle + 3 + xa))) ∧
    (∀ e, s.operand s.cur u.slot a = .error e → exec (.vpop f u t g d a) s = .next (s.faultAt u.slot e.code e.sub e.addr e.kind)) ∧
    Leaves (.vany u g n) s (s.cur.push (some (.f n.toNat)) (.word (if P = 0 then 0 else 1)) (s.cur.cycle + 3)) ∧
    Leaves (.vall u g n) s (s.cur.push (some (.f n.toNat)) (.word (if P = BitVec.allOnes 64 then 1 else 0)) (s.cur.cycle + 3))

/-- 10 R250 to R254: conversion, rounding to an integral value, saturation, packing and unpacking, and the planes of 6-bit codes. -/
def Obligations.VectorConvert : Prop :=
  ∀ (s : State) (rm : RMode) (src : ElemTy) (p : VUn) (q2 : BitVec 2) (q6 : BitVec 6) (u : VSlot) (t : ElemTy) (d a b' : Opnd) (b : OpB)
    (q hi : BitVec 1),
    let mask := predAt s p.u p.p
    let lanes (i : Instr) (lat : Nat) (R : Nat → Nat → Prop) : Prop := VecOne i s p.u p.d p.a mask lat (Elems1 32 R)
    let s32 (v : Nat) : Int := if v < 2 ^ 31 then (v : Int) else (v : Int) - (2 ^ 32 : Nat)
    lanes (.vcvt rm src p) 3 (fun v r => r = extended p.t (roundTo p.t rm (src.value v) % 2 ^ p.t.bits)) ∧
    (p.t.isFlt = true → VecOne (.vround rm p) s p.u p.d p.a mask 3 (Elems1 p.t.bits (fun v r => match p.t.value v with
      | .fin neg n m => Rounded p.t (.fin neg (rndMag rm neg n m) 1) r
      | x => Rounded p.t x r))) ∧
    (p.t.isSat = true → lanes (.vsat p) 2 (fun v r =>
      let lo : Int := match p.t with | .i8 => -128 | .i16 => -32768 | .i4 => -8 | _ => 0
      let top : Int := match p.t with | .i8 => 127 | .u8 => 255 | .i16 => 32767 | .i4 => 7 | _ => 2 ^ 31 - 1
      (r : Int) = max lo (min (s32 v) top) % (2 ^ 32 : Nat))) ∧
    (t.isPackable = true → 128 * (q2.toNat + 1) ≤ 2048 / t.bits →
      VecTwo (.vpack q2 u t d a b) s u d a b (BitVec.allOnes 64) 3 (fun A B r => ∀ e, e < 2048 / t.bits → elemAt t.bits r e =
        if e < 128 * q2.toNat ∨ 128 * q2.toNat + 128 ≤ e then elemAt t.bits (oldAt s u d) e
        else if e < 128 * q2.toNat + 64 then laneAt A (e - 128 * q2.toNat) % 2 ^ t.bits
        else laneAt B (e - 128 * q2.toNat - 64) % 2 ^ t.bits)) ∧
    (p.t.isPackable = true → q6.toNat < 32 / p.t.bits →
      VecOne (.vunpk q6 p) s p.u p.d p.a mask 3 (fun A r => ∀ k, k < 64 →
        laneAt r k = extended p.t (elemAt p.t.bits A (64 * q6.toNat + k)))) ∧
    VecTwo (.vplj q u t d a b') s u d a (.op b') (BitVec.allOnes 64) 3 (fun A B r => ∀ e, e < 256 →
      elemAt 8 r e = elemAt 2 B (256 * q.toNat + e) * 16 + elemAt 4 A (256 * q.toNat + e)) ∧
    VecOne (.vpls q hi u t d a) s u d a (BitVec.allOnes 64) 3 (fun A r =>
      let w := if hi = 1 then 2 else 4
      ∀ e, e < 2048 / w → elemAt w r e =
        if 256 * q.toNat ≤ e ∧ e < 256 * q.toNat + 256 then elemAt 8 A (e - 256 * q.toNat) / (if hi = 1 then 16 else 1) % 2 ^ w
        else elemAt w (oldAt s u d) e)

/-- 10 R255, R256, 05 R101: the lane movements, VMOVL, VCOMP, and VXCP into another slot's file. -/
def Obligations.VectorMoves : Prop :=
  ∀ (s : State) (v : VBit) (n : VBit1) (j n6 : BitVec 6) (u : VSlot) (d a : Opnd) (b : OpB) (p : VBin) (g : BitVec 2) (l : Lit)
    (dst : Slot) (ix : BitVec 5),
    let act (P : Word) : List Nat := (List.range 64).filter (fun k => P.getLsbD k)
    let put := s.putVec (readLit s.cur u.slot l) u.slot d (broadcast (widenLane l)) (predAt s u g) (s.cur.cycle + 2)
    VecTwo (.vshuf v) s v.u v.d v.a v.b (predAt s v.u v.p) 2 (fun A B r => ∀ k, k < 64 →
      laneAt r k = if (laneAt B k).testBit 6 then 0 else laneAt A (laneAt B k % 64)) ∧
    VecOne (.vbcst j n) s n.u n.d n.a (predAt s n.u n.p) 2 (fun A r => ∀ k, k < 64 → laneAt r k = laneAt A j.toNat) ∧
    VecTwo (.vslide u n6 d a b) s u d a b (BitVec.allOnes 64) 2 (fun A B r => ∀ k, k < 64 →
      laneAt r k = if k + n6.toNat < 64 then laneAt A (k + n6.toNat) else laneAt B (k + n6.toNat - 64)) ∧
    VecTwo (.vidx p) s p.u p.d p.a p.b (predAt s p.u p.p) 2 (fun A B r => ∀ k, k < 64 →
      laneAt r k = (laneAt A k + k * laneAt B k) % 2 ^ 32) ∧
    VecOne (.vcomp n) s n.u n.d n.a (BitVec.allOnes 64) 4 (fun A r => ∀ k, k < 64 →
      laneAt r k = match (act (predAt s n.u n.p))[k]? with | some m => laneAt A m | none => 0) ∧
    (∀ k, put = .ok k → Leaves (.vmovl u g d l) s k) ∧
    (∀ e, put = .error e → exec (.vmovl u g d l) s = .next (s.faultAt u.slot e.code e.sub e.addr e.kind)) ∧
    (∀ k, k < 64 → laneAt (broadcast (widenLane l)) k = (widenLane l).toNat) ∧
    (∀ pa xa k1, s.operand s.cur u.slot a = .ok (pa, xa, k1) → ∃ w : Word, w.toNat = laneAt pa.val n6.toNat ∧
      Leaves (.vxcp u dst ix n6 a) s ((k1.keepA u.slot pa).push (some (xcpDest dst ix))
        (if dst = .va ∨ dst = .vb then .vec pa.val (BitVec.allOnes 64) else .word w) (s.cur.cycle + xcpLatency u.slot dst + xa))) ∧
    (∀ e, s.operand s.cur u.slot a = .error e → exec (.vxcp u dst ix n6 a) s = .next (s.faultAt u.slot e.code e.sub e.addr e.kind))

/-- 10 R257, R259: VRED's pairing tree and VSCAN's ascending order over the participating lanes, and VDOT's sums of products. -/
def Obligations.VectorReduce : Prop :=
  ∀ (s : State) (f : VFn) (p : VUn) (q : VBin), p.t = .i32 ∨ p.t = .u32 ∨ (p.t = .f32 ∧ f ≠ .and ∧ f ≠ .or ∧ f ≠ .xor) →
    q.t.isDot = true →
    let P := predAt s p.u p.p
    let lane (A : Vec) (k : Nat) : Nat := if P.getLsbD k then laneAt A k else identityOf f p.t
    let m := 32 / q.t.bits
    let product (A B : Vec) (e : Nat) : FNum := (q.t.value (elemAt q.t.bits A e)).mul (q.t.value (elemAt q.t.bits B e))
    VecOne (.vred f p) s p.u p.d p.a (BitVec.allOnes 64) 6 (fun A r =>
      ∃ v : Nat → Nat → Nat, (∀ k, k < 64 → v 0 k = lane A k) ∧
        (∀ n k, n < 6 → k < 2 ^ (5 - n) → Combined f p.t (v n (2 * k)) (v n (2 * k + 1)) (v (n + 1) k)) ∧
        laneAt r 0 = v 6 0 ∧ ∀ k, 0 < k → k < 64 → laneAt r k = 0) ∧
    VecOne (.vscan f p) s p.u p.d p.a (BitVec.allOnes 64) 8 (fun A r =>
      Combined f p.t (identityOf f p.t) (lane A 0) (laneAt r 0) ∧
      ∀ k, k < 63 → Combined f p.t (laneAt r k) (lane A (k + 1)) (laneAt r (k + 1))) ∧
    VecTwo (.vdot q) s q.u q.d q.a q.b (predAt s q.u q.p) 4 (fun A B r => ∀ k, k < 64 →
      if q.t.isFlt then Rounded .f32 (((ElemTy.value .f32 (laneAt (oldAt s q.u q.d) k)).add (product A B (2 * k))).add
        (product A B (2 * k + 1))) (laneAt r k)
      else (laneAt r k : Int) = ((laneAt (oldAt s q.u q.d) k : Int) +
        ((List.range m).map (fun e => numAt q.t (elemAt q.t.bits A (m * k + e)) * numAt q.t (elemAt q.t.bits B (m * k + e)))).sum) %
          (2 ^ 32 : Nat))

/-! ## The matrix engine (11) -/

/-- 11 R263, R271, R272, R275, R277, R281, R286 to R288: the MX instructions on a region alone: the trap on a bad region, the writers
MZERO, MNRM align and MLD, the readers MST and MSTAT, the check armed and disarmed, and the two halves MREG writes. The address and the kind that the
MLD and MST faults record (log entry 19), and that MCHK.ON sums M·2^X over the elements (log entry 70), are the model's choice. -/
def Obligations.MatrixRegions : Prop :=
  ∀ (s : State) (ac w : BitVec 4) (m : AccMode) (x : BitVec 16) (off : BitVec 21) (l : W32),
    let k := s.cur
    let v := k.word (.ac ac.toNat)
    let r := (regionOf v).region
    let tiles := (r.rows + 15) / 16 * ((r.cols + 31) / 32)
    let quads := (r.rows * r.cols + 3) / 4
    let key (i j : Nat) : Nat := (r.row0 + i) * 128 + (r.col0 + j)
    let base := tileBase s.modid s.me + off.toNat
    let va : Word := 0xFFFFFFFF00000000 + BitVec.ofNat 64 off.toNat
    let seen (i j : Nat) : Elem := let e := Sparse.get k.acc Elem.zero (key i j); if e.tag = none then Elem.zero else e
    let whole (n : Nat) : Prop := ∀ p, p ∈ s.poison → base / 64 ≤ p / 64 → (base + n - 1) / 64 < p / 64
    let bad (i : Instr) : Prop := exec i s = .next (s.faultAt .mx tStream 0x0A 0 3)
    (¬Fits v → bad (.mzero ac m) ∧ bad (.mnrmAlign ac x) ∧ bad (.mld ac off) ∧ bad (.mst ac off) ∧ bad (.mchkOn ac) ∧ bad (.mchkOff ac) ∧
      bad (.mstat ac w)) ∧
    (Fits v →
      (∃ k', Leaves (.mzero ac m) s k' ∧
        WritesRegion k k' r tiles 0 0 .clear (fun _ _ _ e => e = ⟨0, if m = .integer then 0 else v.extractLsb' 48 16, 0, some m⟩)) ∧
      (∃ k', Leaves (.mnrmAlign ac x) s k' ∧ WritesRegion k k' r tiles 0 0 (.align x.toInt) (fun _ _ e e' => Realigned x.toInt e e')) ∧
      (off.toNat % 16 = 0 → off.toNat + 16 * r.rows * r.cols ≤ 2 ^ 21 →
        (whole (16 * r.rows * r.cols) → ∃ k', Leaves (.mld ac off) s k' ∧ WritesRegion k k' r quads 0 0 .load (fun i j _ e =>
          let b (n : Nat) : Byte := s.seenByte (base + 16 * (i * r.cols + j) + n)
          tagCode e.tag = (b 9).toNat % 4 ∧ (e.tag = none → e = Elem.zero) ∧
          (e.tag ≠ none → e.m = b 5 ++ b 4 ++ b 3 ++ b 2 ++ b 1 ++ b 0 ∧ e.x = b 7 ++ b 6 ∧ e.g = (b 8).setWidth 6))) ∧
        (¬whole (16 * r.rows * r.cols) → exec (.mld ac off) s = .next (s.modCur (fun k =>
          { k with grp := { k.grp with after := some ⟨tEccUe, 0, 0, 3, k.grp.idx, .mx⟩ } }))) ∧
        (∃ bs : List Byte, bs.length = 16 * (r.rows * r.cols) ∧
          (∀ i j n, i < r.rows → j < r.cols → n < 16 →
            bs[16 * (i * r.cols + j) + n]? = (seen i j).record[n]?) ∧
          Leaves (.mst ac off) s ((k.startMx quads).emit (.land (.mx false) (k.cycle + quads + 1) (fullCells base bs))))) ∧
      (off.toNat % 16 ≠ 0 → exec (.mld ac off) s = .next (s.faultAt .mx tAlign 0 va 0) ∧
        exec (.mst ac off) s = .next (s.faultAt .mx tAlign 0 va 1)) ∧
      (off.toNat % 16 = 0 → 2 ^ 21 < off.toNat + 16 * r.rows * r.cols →
        exec (.mld ac off) s = .next (s.faultAt .mx tStream 6 va 0) ∧ exec (.mst ac off) s = .next (s.faultAt .mx tStream 6 va 1)) ∧
      (∃ k' c, Leaves (.mchkOn ac) s k' ∧ OnlyGroup k k' ∧ k'.grp.mx.busy = k.cycle + tiles + 4 ∧ k'.grp.mx.chk = some c ∧
        c.region = r ∧ c.status = .clean ∧ c.kt = 0 ∧ k'.grp.mx.accNew = k.grp.mx.accNew ∧
        (∀ j, j < r.cols → c.cols[j]? = some ((List.range r.rows).map (fun i => (seen i j).contrib.num)).sum) ∧
        (∀ i, i < r.rows → c.rows[i]? = some ((List.range r.cols).map (fun j => (seen i j).contrib.num)).sum)) ∧
      (∃ k', Leaves (.mchkOff ac) s k' ∧ OnlyGroup k k' ∧ k'.grp.mx.busy = k.cycle + 1 ∧
        k'.grp.mx.chk = k.grp.mx.chk.filter (fun c => decide (c.region ≠ r)) ∧ k'.grp.mx.accNew = k.grp.mx.accNew) ∧
      (∃ u : Word, Leaves (.mstat ac w) s (((k.startMx tiles).pendW w.toNat).emit (.wland w.toNat u (k.cycle + tiles + 2))) ∧
        u.extractLsb' 48 16 = k.grp.mx.ncorr ∧
        (u.extractLsb' 32 16).toNat = (match k.grp.mx.chk with
          | none => 0 | some c => match c.status with | .clean => 1 | .ue => 2 | .det => 3) ∧
        (∀ t, (∀ i j, i < r.rows → j < r.cols → (seen i j).tag = t) → (u.extractLsb' 16 16).toNat = tagCode t) ∧
        ((∀ t, ∃ i j, i < r.rows ∧ j < r.cols ∧ (seen i j).tag ≠ t) → u.extractLsb' 16 16 = 0) ∧
        (∀ b, b < 16 → (u.getLsbD b = true ↔ ∃ i j, i < r.rows ∧ j < r.cols ∧ (seen i j).g.getLsbD b = true)))) ∧
    Leaves (.mregLo ac l) s (k.push (some (.ac ac.toNat)) (.word (v.extractLsb' 32 32 ++ l)) (k.cycle + 1)) ∧
    Leaves (.mregHi ac l) s (k.push (some (.ac ac.toNat)) (.word (l ++ v.extractLsb' 0 32)) (k.cycle + 1))

/-- 11 R266 to R268, R271 to R274: MMA, MMAZ and MMAG multiply the lines read from streams a and b into the region, element by element, and
take the traps of a bad region, an operand, a mode and a gang whose shapes differ. A member of rank 1 to 3 takes the operand rank 0 read. -/
def Obligations.MatrixProducts : Prop :=
  ∀ (s : State) (p : MArgs),
    let k := s.cur
    let v := k.word (.ac p.ac.toNat)
    let r := (regionOf v).region
    let n := match p.k with | some l => l.toNat | none => v.toNat / 2 ^ 32 % 2 ^ 16
    let ok : Prop := Fits v ∧ (p.k = none → n ≠ 0)
    let trap (i : Instr) (f : Flt) : Prop := exec i s = .next (s.faultAt .mx f.code f.sub f.addr f.kind)
    let bad : Flt := ⟨tStream, 0x0A, 0, 3⟩
    -- the lines of B, the trap of an element in another mode, and the products
    let second (i : Instr) (zero : Bool) (t : State) (k1 : Core) (a : GangA) (xa : Nat) (pins : List Nat) : Prop :=
      let mode := mmaMode p.t a.scaled
      let other : Prop := ∃ c, c ∈ r.cells ∧ (Sparse.get k.grp.mx.accNew Elem.zero (elemKey r c.1 c.2)).tag ≠ some mode
      (a.bad = true → ∀ d, t.mxStream k1 p.qb p.t false false true = .ok d → trap i bad) ∧
      (∀ f, t.mxStream k1 p.qb p.t false false true = .error f → f.code ≠ tEccUe → trap i f) ∧
      (∀ d sb, a.bad = false → a.ty = p.t → (p.t = .mxi8 → a.scaled = Desc.scaled d) →
        t.mxStream k1 p.qb p.t false false true = .ok d → shapeOk d n = .ok sb →
        (zero = false → other → trap i ⟨tStream, 0x0C, 0, 3⟩) ∧
        (∀ bs ms, (zero = true ∨ ¬other) → (pins ++ t.pinLines d (lineElems d n r.cols)).eraseDups.length ≤ 256 →
          t.mxLines d n r.cols 0 = .ok (bs, ms) →
          ∃ k', Leaves i s k' ∧
            Sparse.find? k'.grp.q p.qb.toNat = some ⟨Desc.setOrd d (Desc.ord d + r.cols * Desc.count d 0), true, 0⟩ ∧
            WritesRegion k k' r ((r.rows + 15) / 16 * ((r.cols + 31) / 32) * ((n + kstep p.t - 1) / kstep p.t) * 16)
              (max xa (mxExtra s.me d)) n (if zero then .clear else .add) (fun i j old e =>
                let from_ : Elem := if zero then ⟨0, if mode = .integer then 0 else v.extractLsb' 48 16, 0, some mode⟩ else old
                let sum := (accumulate mode from_ (nth [] (a.lines.map (factors p.t a.scaled)) i)
                  (nth [] (bs.map (factors p.t (Desc.scaled d))) j)).1
                e = if a.surplus || sb then { sum with g := sum.g ||| 32 } else sum)))
    -- the lines of A
    let first (i : Instr) (zero : Bool) : Prop :=
      (¬ok → trap i bad) ∧
      (∀ f, ok → s.mxStream k p.qa p.t false true true = .error f → f.code ≠ tEccUe → trap i f) ∧
      (∀ d sa ls ms, ok → s.mxStream k p.qa p.t false true true = .ok d → shapeOk d n = .ok sa → s.mxLines d n r.rows 0 = .ok (ls, ms) →
        let k1 := k.advance p.qa d (r.rows * Desc.count d 0) ms
        second i zero (s.setCur k1) k1 ⟨false, r.rows, n, p.t, Desc.scaled d, sa, ls⟩ (mxExtra s.me d)
          (s.pinLines d (lineElems d n r.rows)))
    first (.mma p) false ∧ first (.mmaz p) true ∧
    (k.rank = 0 → (∀ g, k.gang = some g → g.bad = false) → first (.mmag p) false) ∧
    (∀ a, k.rank ≠ 0 → k.gang = some a → (¬ok → trap (.mmag p) bad) ∧ (ok → second (.mmag p) false s k a 0 []))

/-- 11 R269 to R272, R276, R278 to R280, R285, 09 R222: MNRM promote and MDRN write the region's elements to their output stream chunk by
chunk, each chunk's elements as committed in its cycle, whether the group has passed by then or not; MEPI loads an epilogue program; and
their traps. MDRN needs a loaded slot. The addresses that MEPI's faults record are the model's choice (log entry 19). -/
def Obligations.MatrixDrains : Prop :=
  ∀ (s : State) (ac q slot : BitVec 4) (t : ElemTy) (ov : Bool) (rm : RMode) (scale : Option Byte) (side : Option (BitVec 4))
    (off : BitVec 21),
    let k := s.cur
    let v := k.word (.ac ac.toNat)
    let r := (regionOf v).region
    let per := (r.cols + 31) / 32
    let trap (i : Instr) (f : Flt) : Prop := exec i s = .next (s.faultAt .mx f.code f.sub f.addr f.kind)
    let exceeded : Prop := recAcctrap (s.recOf s.me) = true ∧ ∃ c, c ∈ r.cells ∧
      (k.elemAt (elemKey r c.1 c.2)).tag ≠ none ∧ (k.elemAt (elemKey r c.1 c.2)).g.getLsbD 0 = true
    let checked (st : ChkStatus) : Prop := ∃ c, k.grp.mx.chk = some c ∧ c.region = r ∧ c.status = st
    let drains (i : Instr) (k1 : Core) (pins : List Nat) (lag : Nat) (code : Nat → Nat → Elem → Nat) : Prop :=
      (∀ f, s.mxStream k1 q t true false true = .error f → f.code ≠ tEccUe → trap i f) ∧
      (∀ d, s.mxStream k1 q t true false true = .ok d →
        let n0 := Desc.count d 0
        let bits := (Desc.ty d).bits
        let width (c : Nat) : Nat := min 32 (r.cols - 32 * (c % per))
        -- the array `c` cycles on, with the writers that a core has started
        let later (p : Core) (c : Nat) : Core := (List.range c).foldl (fun (p : Core) _ => p.tickAcc) p
        let value (p : Core) (c : Nat) : Nat := ((List.range (width c)).map (fun x =>
          let e := Sparse.get (later p c).acc Elem.zero (elemKey r (c / per) (32 * (c % per) + x))
          code (c / per) (32 * (c % per) + x) (if e.tag = none then Elem.zero else e) % 2 ^ bits)).foldr (fun a b => a + b * 2 ^ bits) 0
        let bytes (p : Core) (c : Nat) : Except Flt (List MByte × List Nat) :=
          s.writeElems d (value p c) (fun _ => true) (width c) (Desc.ord d + c / per * n0 + 32 * (c % per)) 0
        (n0 < r.cols → trap i ⟨tStream, 0x0A, 0, 3⟩) ∧
        (r.cols ≤ n0 → exceeded → trap i ⟨tAccOvf, 0, 0, 3⟩) ∧
        (r.cols ≤ n0 → ¬exceeded → (checked .ue → trap i ⟨tMxUe, 0, 0, 3⟩) ∧ (checked .det → trap i ⟨tMxDet, 0, 0, 3⟩) ∧
          (¬checked .ue → ¬checked .det →
            (256 < (pins ++ s.pinLines d (lineElems d r.cols r.rows)).eraseDups.length → trap i ⟨tStream, 9, 0, 3⟩) ∧
            ((pins ++ s.pinLines d (lineElems d r.cols r.rows)).eraseDups.length ≤ 256 →
              (∀ c, c < r.rows * per → ∃ x y, bytes k1 c = .ok x ∧ bytes k1.groupPassed c = .ok y) →
              ∃ k', Leaves i s k' ∧ OnlyGroup k k' ∧ k'.grp.mx.busy = k1.cycle + r.rows * per ∧ k'.grp.mx.accNew = k.grp.mx.accNew ∧
                Sparse.find? k'.grp.q q.toNat = some ⟨Desc.setOrd d (Desc.ord d + r.rows * n0), true, 0⟩ ∧
                ∀ c x y, c < r.rows * per → bytes k1 c = .ok x → bytes k1.groupPassed c = .ok y →
                  let due := k1.cycle + c + lag + mxExtra s.me d
                  let past := decide (Desc.space d = 3)
                  (if y.1 = x.1 then Op.land (.mx past) due x.1 else Op.drained past (k1.cycle + c) due x.1 y.1) ∈ k'.grp.ops))))
    let base := tileBase s.modid s.me + off.toNat
    let room := (2 ^ 21 - off.toNat) / 4
    let word (i : Nat) : W32 := s.seenByte (base + 4 * i + 3) ++ s.seenByte (base + 4 * i + 2) ++ s.seenByte (base + 4 * i + 1) ++
      s.seenByte (base + 4 * i)
    let ends (n : Nat) : Prop := n < min 32 room ∧ (word n).extractLsb' 28 4 = 13 ∧ ∀ m, m < n → (word m).extractLsb' 28 4 ≠ 13
    let program (n : Nat) : List W32 := (List.range (n + 1)).map word
    let whole (n : Nat) : Prop := ∀ p, p ∈ s.poison → base / 64 ≤ p / 64 → (base + n - 1) / 64 < p / 64
    let broken (n : Nat) : Prop := ¬whole n → exec (.mepi slot off) s = .next (s.modCur (fun k =>
      { k with grp := { k.grp with after := some ⟨tEccUe, 0, 0, 3, k.grp.idx, .mx⟩ } }))
    let gives (p : EpiSlot) (vals : List Nat) : Nat → Nat → Elem → Nat :=
      fun i j el => epiRun (nth 0 vals (if usesCol p.words then j else i)) p.words (epiInit el i j)
    (¬Fits v → trap (.mnrm ac q t ov rm scale) ⟨tStream, 0x0A, 0, 3⟩) ∧
    (Fits v → drains (.mnrm ac q t ov rm scale) k [] 8
      (fun _ _ e => promote t rm ov (match scale with | none => 0 | some b => b.toInt) e)) ∧
    (off.toNat % 4 ≠ 0 → trap (.mepi slot off) ⟨tAlign, 0, 0xFFFFFFFF00000000 + off.setWidth 64, 0⟩) ∧
    (off.toNat % 4 = 0 → (∀ n, ¬ends n) → broken (4 * min 32 room)) ∧
    (off.toNat % 4 = 0 → (∀ n, ¬ends n) → whole (4 * min 32 room) → 32 ≤ room → trap (.mepi slot off) ⟨tIllegal, 0, 0, 3⟩) ∧
    (off.toNat % 4 = 0 → (∀ n, ¬ends n) → whole (4 * min 32 room) → room < 32 → trap (.mepi slot off) ⟨tStream, 6, 0xFFFFFFFF00200000, 0⟩) ∧
    (∀ n, off.toNat % 4 = 0 → ends n → broken (4 * (n + 1))) ∧
    (∀ n, off.toNat % 4 = 0 → ends n → whole (4 * (n + 1)) → (epiOk (program n) = false → trap (.mepi slot off) ⟨tIllegal, 0, 0, 3⟩) ∧
      (epiOk (program n) = true → ∃ k', Leaves (.mepi slot off) s k' ∧ OnlyGroup k k' ∧ k'.grp.mx.busy = k.cycle + n + 5 ∧
        Sparse.find? k'.grp.mx.epi slot.toNat = some ⟨program n, k.cycle + n + 5⟩ ∧
        ∀ m, m ≠ slot.toNat → Sparse.find? k'.grp.mx.epi m = Sparse.find? k.grp.mx.epi m)) ∧
    (Sparse.find? k.grp.mx.epi slot.toNat = none → trap (.mdrn ac side q t slot) ⟨tIllegal, 0, 0, 3⟩) ∧
    (∀ p, Sparse.find? k.grp.mx.epi slot.toNat = some p →
      let needs := usesCol p.words || usesRow p.words
      (¬Fits v → trap (.mdrn ac side q t slot) ⟨tStream, 0x0A, 0, 3⟩) ∧
      (Fits v →
        (side.isSome ≠ needs → trap (.mdrn ac side q t slot) ⟨tStream, 0x0A, 0, 3⟩) ∧
        (side = none → needs = false → drains (.mdrn ac side q t slot) k [] (p.words.length + 8) (gives p [])) ∧
        (∀ a d x ms, side = some a → needs = true → s.mxStream k a .f32 false true false = .ok d →
          s.readElems d (if usesCol p.words then r.cols else r.rows) (Desc.ord d) = .ok (x, ms) →
          drains (.mdrn ac side q t slot) (k.advance a d (if usesCol p.words then r.cols else r.rows) ms)
            (s.pinLines d (sideElems d (if usesCol p.words then r.cols else r.rows))) (p.words.length + 8) (gives p ((List.range (if usesCol p.words then r.cols else r.rows)).map (fun i => x / 2 ^ (32 * i) % 2 ^ 32))))))

/-- 08 R190, R191, R199, 11 R264: one product added to an element in integer and in decimal mode, and the cases of promotion. -/
def Obligations.ElementRules : Prop :=
  (∀ (e : Elem) (x y a b : Int), let r := (addInteger e (.dyad x a) (.dyad y b)).1
    let sum := e.m.toInt + x * y
    r.m.toInt = max (-(2 ^ 47)) (min (2 ^ 47 - 1) sum) ∧ r.x = e.x ∧ r.tag = e.tag ∧
    r.g = (if -(2 ^ 47) ≤ sum ∧ sum < 2 ^ 47 then e.g else e.g ||| 1)) ∧
  (∀ (e : Elem) (ca cb : Nat) (sa sb : Int), ca % 128 ≠ 0 → cb % 128 ≠ 0 → ca < 256 → cb < 256 →
    let r := (addDecimal e (.dec ca sa) (.dec cb sb)).1
    let z (c : Nat) : Nat := let p := c % 128; if 32 ≤ p then (if 64 ≤ p then 0 else 1) else if 16 ≤ p then 2 else if 8 ≤ p then 3 else
      if 4 ≤ p then 4 else if 2 ≤ p then 5 else 6
    let f (c : Nat) : Nat := 2 ^ (6 - z c) + 9 * (c % 128 % 2 ^ (6 - z c))
    let mp := f ca * f cb * 2 ^ (z ca + z cb)
    let sgn : Int := if ca < 128 ↔ cb < 128 then 1 else -1
    let δ := sa + sb - z ca - z cb - e.x.toInt
    r.x = e.x ∧ r.tag = e.tag ∧
    (12 < δ → r.g = e.g ||| 1 ∧ r.m.toInt = if sgn = 1 then 2 ^ 47 - 1 else -(2 ^ 47)) ∧
    (0 ≤ δ → δ ≤ 12 → let sum := e.m.toInt + sgn * (mp * 10 ^ δ.toNat : Nat)
      r.m.toInt = max (-(2 ^ 47)) (min (2 ^ 47 - 1) sum) ∧
      r.g = (if -(2 ^ 47) ≤ sum ∧ sum < 2 ^ 47 then e.g else e.g ||| 1)) ∧
    (δ < 0 → ∃ q : Nat, let d := 10 ^ (-δ).toNat
      let sum := e.m.toInt + sgn * q
      2 * ((mp : Int) - q * d).natAbs ≤ d ∧ (2 * ((mp : Int) - q * d).natAbs = d → q % 2 = 0) ∧
      r.m.toInt = max (-(2 ^ 47)) (min (2 ^ 47 - 1) sum) ∧
      r.g = e.g ||| (if mp = q * d then 0 else 16) ||| (if -(2 ^ 47) ≤ sum ∧ sum < 2 ^ 47 then 0 else 1))) ∧
  (∀ (t : ElemTy) (rm : RMode) (ov : Bool) (sc : Int) (e : Elem), let b (i : Nat) : Bool := e.g.getLsbD i
    let out := promote t rm ov sc e
    (e.tag = none → out = 0) ∧
    (e.tag ≠ none →
      (b 1 = true ∨ (b 2 = true ∧ b 3 = true) → out = roundTo t .ne .nan) ∧
      (b 1 = false → b 2 = true → b 3 = false → out = roundTo t .ne (.inf false)) ∧
      (b 1 = false → b 2 = false → b 3 = true → out = roundTo t .ne (.inf true)) ∧
      (b 1 = false → b 2 = false → b 3 = false → b 0 = true → out = ovfCode t ov (e.m.slt 0)) ∧
      (b 0 = false → b 1 = false → b 2 = false → b 3 = false → e.m = 0 → out = 0) ∧
      (b 0 = false → b 1 = false → b 2 = false → b 3 = false → e.m ≠ 0 → out = roundTo t rm (FNum.overTen e.value sc))))

/-- 08 R193 to R196: binary mode. A line is added block by block of 32 positions, the last one perhaps short. A block's finite products, cut to the 96-bit
window below the leading bit of the largest, sum to S; M·2^X + S is rounded once into the element, a lost product bit making a tie round up; NaN, NaN
blocks, infinities and Inf × 0 set their guard bits and add nothing. Every number is counted in units of 2^L, L below every exponent that occurs. That
an M of −2^47 is taken into the next exponent when S is 0 with lost bits is the model's reading (log entry 90). -/
def Obligations.BinaryAccumulation : Prop :=
  let add (e : Elem) (as bs : List Factor) : Elem := (accumulate .binary e as bs).1
  (∀ e, add e [] [] = e) ∧
  (∀ e xs ys as bs, xs.length = 32 → ys.length = 32 → as ≠ [] → as.length = bs.length → add e (xs ++ as) (ys ++ bs) = add (add e xs ys) as bs) ∧
  (∀ (e : Elem) (as bs : List Factor) (L : Int), 0 < as.length → as.length ≤ 32 → as.length = bs.length →
    let r := add e as bs
    let pairs := as.zip bs
    let two (n : Int) : Nat := 2 ^ n.toNat
    let real (f : Factor) : Prop := (∃ m x, f = .dyad m x) ∨ ∃ s, f = .inf s
    let here (p : Factor × Factor) : Prop := p.1 ≠ .absent ∧ p.2 ≠ .absent
    let infBy (p : Factor × Factor) (s : Bool) : Prop := (∃ a b, p = (.inf a, .inf b) ∧ s = (a ^^ b)) ∨
      ∃ a m x, m ≠ 0 ∧ (p = (.inf a, .dyad m x) ∨ p = (.dyad m x, .inf a)) ∧ s = (a ^^ decide (m < 0))
    let isNan (p : Factor × Factor) : Prop := here p ∧ (¬real p.1 ∨ ¬real p.2 ∨ ∃ a x, p = (.inf a, .dyad 0 x) ∨ p = (.dyad 0 x, .inf a))
    let prod (p : Factor × Factor) : Int := match p with | (.dyad m x, .dyad n y) => m * n * two (x + y - L) | _ => 0
    let g (b : Nat) : Bool := r.g.getLsbD b
    (∀ m x n y, (.dyad m x, .dyad n y) ∈ pairs → L ≤ x + y) → L ≤ e.x.toInt →
    r.tag = e.tag ∧ g 5 = e.g.getLsbD 5 ∧
    (g 1 = true ↔ e.g.getLsbD 1 = true ∨ ∃ p, p ∈ pairs ∧ isNan p) ∧
    (g 2 = true ↔ e.g.getLsbD 2 = true ∨ ∃ p, p ∈ pairs ∧ infBy p false) ∧
    (g 3 = true ↔ e.g.getLsbD 3 = true ∨ ∃ p, p ∈ pairs ∧ infBy p true) ∧
    ((∀ p, p ∈ pairs → prod p = 0) → r.m = e.m ∧ r.x = e.x ∧ g 0 = e.g.getLsbD 0 ∧ g 4 = e.g.getLsbD 4) ∧
    (∀ top : Int, (∀ p, p ∈ pairs → (prod p).natAbs < two (top + 1 - L)) → (∃ p, p ∈ pairs ∧ two (top - L) ≤ (prod p).natAbs) →
      let low := top + 6 - 95
      let w := two (low - L)
      let S : Int := (pairs.map (fun p => prod p / w)).sum
      let lost : Prop := ∃ p, p ∈ pairs ∧ prod p % w ≠ 0
      let v : Int := e.m.toInt * two (e.x.toInt - L) + S * w
      L ≤ low →
      (S = 0 → ¬lost → r.m = e.m ∧ r.x = e.x ∧ g 0 = e.g.getLsbD 0 ∧ g 4 = e.g.getLsbD 4) ∧
      (∀ (eb : Int) (near : Int → Int), S ≠ 0 ∨ lost →
        (S = 0 → eb = e.x.toInt) →
        (S ≠ 0 → S.natAbs * w < two (46 + eb - L) ∧ two (45 + eb - L) ≤ S.natAbs * w) →
        let x0 := max e.x.toInt eb
        -- `near X` is v in units of 2^X, rounded once
        (∀ x, x0 ≤ x → 2 * (v - near x * two (x - L)).natAbs ≤ two (x - L) ∧
          (2 * (v - near x * two (x - L)).natAbs = two (x - L) → (lost → v < near x * two (x - L)) ∧ (¬lost → near x % 2 = 0))) →
        let x1 := if 2 ^ 47 ≤ (near x0).natAbs then x0 + 1 else x0
        (g 4 = true ↔ e.g.getLsbD 4 = true ∨ near x1 * two (x1 - L) ≠ v ∨ lost) ∧
        (x1 ≤ 32767 → r.m.toInt = near x1 ∧ r.x.toInt = x1 ∧ g 0 = e.g.getLsbD 0) ∧
        (32767 < x1 → r.x = e.x ∧ g 0 = true ∧ r.m.toInt = if v < 0 then -(2 ^ 47) else if v = 0 then 0 else 2 ^ 47 - 1))))

/-- 08 R178, R179, R183, R185, R186: rounding an exact value into a type. Inside the type's finite range the result is a finite value: under `ne` the
nearest, an even code on a tie; under `up`, `dn` and `tz` the least above, the greatest below, the nearer to zero of the two; a zero result keeps the
sign of the value in an IEEE type only. Beyond the range, and for infinities and NaN, as the table says. That an IEEE type under `ne` gives the largest finite
value to a value less than half a step beyond it is the model's choice (log entry 89). -/
def Obligations.RoundingIntoTypes : Prop :=
  let signed (s : Bool) (n : Nat) : Int := if s then -(n : Int) else n
  let le (a b : Int × Nat) : Prop := a.1 * b.2 ≤ b.1 * a.2
  -- |a − b| in units of 1 / (a.2 · b.2)
  let gap (a b : Int × Nat) : Nat := (a.1 * b.2 - b.1 * a.2).natAbs
  let code (t : ElemTy) (c : Nat) (v : Int × Nat) : Prop := c < 2 ^ t.bits ∧ ∃ s m e, t.value c = .fin s m e ∧ v = (signed s m, e)
  let last (t : ElemTy) (neg : Bool) (v : Int × Nat) : Prop := ∀ c w, code t c w → if neg then le v w else le w v
  let ieee (t : ElemTy) : Bool := t == .f32 || t == .bf16 || t == .f16 || t == .e5m2
  (∀ (t : ElemTy) (rm : RMode) (neg : Bool) (n d : Nat), 0 < d →
    let x : Int × Nat := (signed neg n, d)
    let r := roundTo t rm (.fin neg n d)
    let inside : Prop := (∃ c v, code t c v ∧ le v x) ∧ ∃ c v, code t c v ∧ le x v
    let below (v : Int × Nat) : Prop := le v x ∧ ∀ c w, code t c w → le w x → le w v
    let above (v : Int × Nat) : Prop := le x v ∧ ∀ c w, code t c w → le x w → le v w
    let atMax : Prop := ∃ v, code t r v ∧ last t neg v
    (inside → ∃ v, code t r v ∧
      (v.1 = 0 → r = if neg && ieee t then 2 ^ (t.bits - 1) else 0) ∧
      (rm = .ne → ∀ c w, code t c w → gap x v * w.2 ≤ gap x w * v.2 ∧ (gap x v * w.2 = gap x w * v.2 → gap v w = 0 ∨ r % 2 = 0)) ∧
      (rm = .up → above v) ∧ (rm = .dn → below v) ∧
      (rm = .tz → (0 ≤ x.1 → below v) ∧ (x.1 ≤ 0 → above v))) ∧
    (¬inside → ieee t = false → atMax) ∧
    (¬inside → ieee t = true →
      (rm = .tz → atMax) ∧
      (rm = .up → if neg then atMax else t.value r = .inf false) ∧
      (rm = .dn → if neg then t.value r = .inf true else atMax) ∧
      (rm = .ne → ∀ c v w, code t (c + 1) v → code t c w → last t neg v → v.1 ≠ 0 →
        if 2 * gap x v * w.2 < gap v w * x.2 then atMax else t.value r = .inf neg))) ∧
  (∀ (t : ElemTy) (rm : RMode) (neg : Bool), let r := roundTo t rm (.inf neg)
    (ieee t = true → t.value r = .inf neg) ∧ (t = .e4m3 → r = 0x7F) ∧ (t = .d8 → r = 0x80) ∧
    (ieee t = false → t ≠ .e4m3 → t ≠ .d8 → ∃ v, code t r v ∧ last t neg v)) ∧
  (∀ (t : ElemTy) (rm : RMode), roundTo t rm .nan = match t with
    | .f32 => 0x7FC00000 | .bf16 => 0x7FC0 | .f16 => 0x7E00 | .e4m3 => 0x7F | .e5m2 => 0x7E | .d8 => 0x80 | _ => 0)

/-! ## The EN slot (13, 15, 16, 03, 19) -/

/-- 13 R329, 15 R360, R373, 16 R393: where an EN instruction's aligned object or word lies, and its traps: PROT outside the virtual addresses, at an
address the translation or the range forbids, and outside memory for an atomic. 13 R329, R330, 15 R358 to R365, R373 to R377, R386, 16 R392 to R403:
the EN instructions that send one operation to the home of a ring, word, phaser or sequence: its operands, its answer's w registers, its scope, and
whether it releases before or acquires after. -/
def Obligations.EngineMessages : Prop :=
  (∀ (s : State) (va : Word) (align : Nat) (acc : Access) (memory : Bool), va.toNat % align = 0 →
    let goes (r : Except Flt (Nat × Bool)) : Prop := s.syncTarget va align acc memory = r
    let trap (c : Byte) : Prop := goes (.error ⟨c, 0, va, acc.kind⟩)
    (canonical va = false → trap tProt) ∧
    (0xFFFFFFFF00000000 ≤ va.toNat → trap tProt) ∧
    (canonical va = true → va.toNat < 0xFFFFFFFF00000000 →
      (s.xlate s.me va = .fault → trap tPageFault) ∧
      (s.xlate s.me va = .ue → trap tEccUe) ∧
      (∀ pa e m, s.xlate s.me va = .ok pa e m →
        (leafAllows e acc s.cur.priv = false ∨ s.podGlove pa = true ∨ s.inGlove pa = true ∨ s.rangeAllows pa s.cur.priv = false → trap tProt) ∧
        (leafAllows e acc s.cur.priv = true → s.podGlove pa = false → s.inGlove pa = false → s.rangeAllows pa s.cur.priv = true →
          (memory = false ∨ rangeOf pa = .dram ∨ rangeOf pa = .cxl → goes (.ok (pa, m))) ∧
          (memory = true → rangeOf pa ≠ .dram → rangeOf pa ≠ .cxl → trap tProt))))) ∧
  ∀ (s : State) (d a o : Opnd) (b : OpB) (w : Option WPair) (v : WPair) (dp : WPair) (t : AType) (ord : AOrder) (ro : ROrder) (fn : RedFn)
    (σ : AScope) (l n : Bool) (c : Cond) (k : BitVec 2),
    let va := wordOf s .en a
    let B := wordOfB s .en b
    let O := wordOf s .en o
    let ab := readBoth s.cur .en a b
    let ao := readBoth s.cur .en a (.op o)
    let ja := readA s.cur .en a
    let av := readBoth s.cur .en a (.op (.own (v.setWidth 5 * 2)))
    let one : Option Nat := match d with | .own m => some m.toNat | _ => none
    let lo : Option Nat := w.map (fun p => 2 * p.toNat)
    let hi : Option Nat := w.map (fun p => 2 * p.toNat + 1)
    -- an object of `size` bytes with a result in one register or in a pair
    let obj1 (i : Instr) (x : Core) (size : Nat) (op : SyncOp) (acq rel : Bool) : Prop :=
      Sends i s x va size .read false op (.w one none) [one, none] .mod acq rel
    let obj2 (i : Instr) (x : Core) (size : Nat) (op : SyncOp) (acq rel : Bool) : Prop :=
      Sends i s x va size .read false op (.w lo hi) [lo, hi] .mod acq rel
    let scope : Scope := match ord with | .relaxed => .die | .acq x | .rel x | .ar x => x.scope
    let acquires : Bool := match ord with | .acq _ | .ar _ => true | _ => false
    let releases : Bool := match ord with | .rel _ | .ar _ => true | _ => false
    let atom (i : Instr) (op : SyncOp) : Prop := Sends i s ab va t.bytes .write true op (.w lo hi) [lo, hi] scope acquires releases
    let p : EArgs := ⟨d, a, b⟩
    let u : EUn := ⟨d, a⟩
    let q : PArgs := ⟨w, a, b⟩
    let x : AArgs := ⟨w, a, b, t, ord⟩
    let wreg (r : Nat) : Word := s.cur.word (.w r)
    let ms := (wreg (2 * v.toNat + 1)).toNat % 2 ^ 32
    let tier (op : Nat) : SyncOp := .sqtier op (wreg (2 * v.toNat)) (wreg (2 * v.toNat + 1))
    (obj1 (.rinit l p) ab 1024 (.rinit l B) false false ∧ obj1 (.racq u) ja 1024 .racq true false ∧
      obj1 (.rpub p) ab 1024 (.rpub B) false true ∧ obj1 (.rels p) ab 1024 (.rels B) false true ∧
      obj1 (.rpois p) ab 1024 (.rpois B) false false ∧ obj1 (.await true u) ja 1024 (.await true) true false) ∧
    (atom (.aadd x) (.atomic .add t B) ∧ atom (.amin x) (.atomic .min t B) ∧ atom (.amax x) (.atomic .max t B) ∧
      atom (.aand x) (.atomic .and t B) ∧ atom (.aor x) (.atomic .or t B) ∧ atom (.axor x) (.atomic .xor t B) ∧
      atom (.aswp x) (.aswp t B) ∧ atom (.acas x) (.acas t (match lo with | some r => wreg r | none => 0) B) ∧
      (t = .u32 → atom (.afadd w a b ord) (.atomic .fadd .u32 B))) ∧
    Sends (.red fn t ro a b) s ab va t.bytes .write true (.red fn t B) .none []
      (match ro with | .relaxed => .die | .rel y => y.scope) false (match ro with | .relaxed => false | .rel _ => true) ∧
    (ms = 0 → Sends (.wmon dp a v n c σ) s av va (if n then 4 else 8) .write true (.wmon n c (wreg (2 * v.toNat)) true)
      (.w (some (2 * dp.toNat)) (some (2 * dp.toNat + 1))) [some (2 * dp.toNat), some (2 * dp.toNat + 1)] σ.scope true false) ∧
    Sends (.sigdec w a (.plain b) σ) s ab va 16 .write true (.sigdec B 0) (.w lo hi) [lo, hi] σ.scope false true ∧
    Sends (.sigdec w a (.err v) σ) s av va 16 .write true (.sigdec (wreg (2 * v.toNat)) (wreg (2 * v.toNat + 1))) (.w lo hi) [lo, hi]
      σ.scope false true ∧
    (obj1 (.phnew p) ab 4096 (.phnew B) false false ∧ obj1 (.phreg p) ab 4096 (.phreg B) false false ∧
      obj1 (.phdrop p) ab 4096 (.phdrop B) false true ∧ obj1 (.phsig p) ab 4096 (.phsig B) false true ∧
      obj1 (.phbyt p) ab 4096 (.phbyt B) false false ∧ obj1 (.phpois p) ab 4096 (.phpois B) false false ∧
      obj2 (.phrd w a k) ja 4096 (.phrd k.toNat) false false ∧
      (O.toNat / 2 ^ 40 = 0 → obj1 (.phwait d a o) ao 4096 (.phwait O) true false ∧
        obj1 (.phsw d a o) ao 4096 (.phsw O (s.cur.keptNow.bind (·.phase))) true true) ∧
      obj2 (.strg q) ab 4096 (.strg B) false false) ∧
    (obj2 (.sqres q) ab 64 (.sqres B) false false ∧ obj2 (.sqcmt q) ab 64 (.sqcmt B) false true ∧
      obj2 (.sqlen w a) ja 64 .sqlen true false ∧ obj2 (.sqlenH q) ab 64 (.sqlenH B) false false ∧
      obj2 (.sqrel w a) ja 64 .sqrel false false ∧ obj2 (.sqmap q) ab 64 (.sqmap B) false false ∧
      obj2 (.sqtierMove w a v) av 64 (tier 0) false true ∧ obj2 (.sqtierL3 w a v) av 64 (tier 1) false true ∧
      obj2 (.sqtierTile w a v) av 64 (tier 2) false true ∧ obj2 (.sqtierUnstage w a v) av 64 (tier 3) false true)

/-- 06 R129, 13 R331, 15 R362 to R364, R374 to R377: AWAIT, WMON, PHWAIT and PHSW hold until their wait is over, with the timeout their operand
gives in microseconds. -/
def Obligations.BlockingWaits : Prop :=
  ∀ (s : State) (d a o : Opnd) (v dp : WPair) (n : Bool) (c : Cond) (σ : AScope),
    let va := wordOf s .en a
    let one : Option Nat := match d with | .own m => some m.toNat | _ => none
    let value := s.cur.word (.w (2 * v.toNat))
    let limit := (s.cur.word (.w (2 * v.toNat + 1))).toNat % 2 ^ 32
    let O := wordOf s .en o
    let t := O.toNat / 2 ^ 40
    let us : Option Nat := if t = 2 ^ 24 - 1 then none else some t
    Waits (.await false ⟨d, a⟩) s va 1024 .read false (.await false) none one none .mod ∧
    (limit ≠ 0 → Waits (.wmon dp a v n c σ) s va (if n then 4 else 8) .write true (.wmon n c value false)
      (if limit = 2 ^ 32 - 1 then none else some limit) (some (2 * dp.toNat)) (some (2 * dp.toNat + 1)) σ.scope) ∧
    (t ≠ 0 → Waits (.phwait d a o) s va 4096 .read false (.phwait O) us one none .mod ∧
      Waits (.phsw d a o) s va 4096 .read false (.phsw O (s.cur.keptNow.bind (·.phase))) us one none .mod)

/-- 13 R313, R314, 16 R393, R407, 03 R57 to R61, 19 R463 to R465, 15 R386: copy commands, attention requests and memory updates take their block
from own tile SRAM behind a release, SQNEW and SQFORK a block of 32 bytes with their handle, LAUNCH and LAUNCHW the record's four lines;
MUPD is privileged; STRG.BAR asks the die itself. -/
def Obligations.EngineBlocks : Prop :=
  ∀ (s : State) (d a b : Opnd) (w : Option WPair) (r : BitVec 4) (e : OpB) (fl : Bool),
    let u : EUn := ⟨d, a⟩
    let one : Option Nat := match d with | .own m => some m.toNat | _ => none
    let lo : Option Nat := w.map (fun p => 2 * p.toNat)
    let hi : Option Nat := w.map (fun p => 2 * p.toNat + 1)
    let va := wordOf s .en a
    let blk := wordOf s .en b
    let ab := readBoth s.cur .en a (.op b)
    let o := blk.toNat - 0xFFFFFFFF00000000
    let tileVa : Prop := 0xFFFFFFFF00000000 ≤ blk.toNat ∧ blk.toNat < 0xFFFFFFFF00200000
    let create (i : Instr) (op : BitVec 256 → SyncOp) : Prop :=
      (∀ pa m, s.syncTarget va 64 .read false = .ok (pa, m) →
        (blk.toNat % 32 ≠ 0 → exec i s = .next (s.faultAt .en tAlign 0 blk 0)) ∧
        (blk.toNat % 32 = 0 → ¬tileVa → exec i s = .next (s.faultAt .en tProt 0 blk 0)) ∧
        (blk.toNat % 32 = 0 → tileVa → s.poisoned (tileBase s.modid s.me + o) = true → exec i s = .next (s.faultAt .en tEccUe 0 blk 0)) ∧
        (blk.toNat % 32 = 0 → tileVa → s.poisoned (tileBase s.modid s.me + o) = false → ∃ v : BitVec 256,
          (∀ j, j < 32 → v.extractLsb' (8 * j) 8 = s.seenByte (tileBase s.modid s.me + o + j)) ∧
          Sends i s ab va 64 .read false (op v) (.w lo hi) [lo, hi] .mod false false)) ∧
      (∀ f, s.syncTarget va 64 .read false = .error f → exec i s = .next (s.faultAt .en f.code f.sub f.addr f.kind))
    let launches (i : Instr) (cont : Bool) : Prop :=
      (va.toNat % 64 ≠ 0 → exec i s = .next (s.faultAt .en tAlign 0 va 0)) ∧
      (∀ f, s.recordLines va = .error f → exec i s = .next (s.faultAt .en f.code f.sub f.addr f.kind)) ∧
      (∀ ls ms, s.recordLines va = .ok (ls, ms) → ∃ k', Leaves i s k' ∧ OnlyGroup s.cur k' ∧ k'.grp.writes = s.cur.grp.writes ∧
        k'.inflight = s.cur.inflight ++ pendingFrom s.cur [some r.toNat] ∧
        k'.grp.ops = s.cur.grp.ops ++ ms.map (fun u => Op.miss u) ++ [.release .mod, .launch cont va ls r.toNat] ∧
        k'.grp.ctrl = s.cur.grp.ctrl)
    let alone : Bool := match s.cur.run with | some x => x.width == 1 | none => true
    TakesBlock (.btc u) s d a 128 (fun x => .bte .one one (BitVec.ofNat 1024 x) s.cur.cycle) ∧
    TakesBlock (.btcm u) s d a 128 (fun x => .bte .multi one (BitVec.ofNat 1024 x) s.cur.cycle) ∧
    TakesBlock (.btcg u) s d a 128 (fun x => .bte .gather one (BitVec.ofNat 1024 x) s.cur.cycle) ∧
    TakesBlock (.attn u) s d a 128 (fun x => .attn one (BitVec.ofNat 1024 x) s.cur.cycle) ∧
    (s.cur.priv = true →
      TakesBlock (.mupdWrite u) s d a 64 (fun x => .mupd 0 one (BitVec.ofNat 512 x)) ∧
      TakesBlock (.mupdCommit u) s d a 64 (fun x => .mupd 1 one (BitVec.ofNat 512 x)) ∧
      TakesBlock (.mupdAbort u) s d a 64 (fun x => .mupd 2 one (BitVec.ofNat 512 x))) ∧
    (s.cur.priv = false → ∀ i, i = .mupdWrite u ∨ i = .mupdCommit u ∨ i = .mupdAbort u →
      exec i s = .next (s.faultAt .en tPrivilege 0 0 3)) ∧
    create (.sqnew w a b) .sqnew ∧ create (.sqfork fl w a b) (.sqfork false fl) ∧ create (.sqforkF fl w a b) (.sqfork true fl) ∧
    launches (.launch r a) false ∧ launches (.launchw r a) (alone && !s.cur.trap.active) ∧
    (∃ k', Leaves (.strgBar ⟨w, a, e⟩) s k' ∧ OnlyGroup s.cur k' ∧ k'.grp.writes = s.cur.grp.writes ∧
      k'.inflight = s.cur.inflight ++ pendingFrom s.cur [lo, hi] ∧
      k'.grp.ops = s.cur.grp.ops ++ [.strgBar va (wordOfB s .en e) lo hi])

/-- 15 R355, R358, R359, R361 to R363, R365, 02 R40: what an atomic, a reduction and a signal decrement do at their home, with every byte outside
the word as it was; that a monitor is armed, and answered when the evaluation finds its condition; an operation on bytes that cannot be
read changes nothing and says so. -/
def Obligations.WordOperations : Prop :=
  ∀ (s : State) (m : SyncMsg) (fn : RedFn) (t : AType) (v old : Word) (e : Word), s.memOk →
    let n := t.bytes
    let word (u : State) (a k : Nat) : Nat := ((List.range k).map (fun j => (u.cell (a + j)).toNat * 2 ^ (8 * j))).sum
    let clear (k : Nat) : Prop := ∀ j, j < k → s.readFails (m.addr + j) = false ∧ ∀ b, s.forced (m.addr + j) b = b
    let plain (k : Nat) : Prop := clear k ∧ ∀ j, j < k → unstated (m.addr + j) = false ∧ ∀ r, r ∈ s.frozen → ¬(r.1 ≤ m.addr + j ∧ m.addr + j < r.1 + r.2)
    let fails (k : Nat) : Prop := ∃ j, j < k ∧ s.readFails (m.addr + j) = true
    let x := word s m.addr n
    let V := v.toNat % 2 ^ (8 * n)
    let signed : Bool := match t with | .i64 | .i32 => true | _ => false
    let num (y : Nat) : Int := if signed ∧ 2 ^ (8 * n - 1) ≤ y then (y : Int) - (2 ^ (8 * n) : Nat) else y
    let result : Nat := match fn with
      | .add => (x + V) % 2 ^ (8 * n) | .min => if num x ≤ num V then x else V | .max => if num x ≤ num V then V else x
      | .and => x &&& V | .or => x ||| V | .xor => x ^^^ V | .fadd => addElem .f32 x V
    let op (o : SyncOp) : SyncMsg := { m with op := o }
    let does (o : SyncOp) (y k : Nat) : Prop := let u := s.wordOp (op o)
      word u m.addr k = y % 2 ^ (8 * k) ∧ ∀ a, a < m.addr ∨ m.addr + k ≤ a → u.cell a = s.cell a
    let answers (o : SyncOp) (main status : Word) : Prop :=
      ∃ u : State, s.wordOp (op o) = u.answer (op o) main status true ∧ u.replies = s.replies ∧ u.cores = s.cores
    let back : Word := BitVec.ofInt 64 (num x)
    (plain n → does (.atomic fn t v) result n ∧ does (.red fn t v) result n ∧ does (.aswp t v) V n ∧
      does (.acas t old v) (if x = old.toNat % 2 ^ (8 * n) then V else x) n ∧
      answers (.atomic fn t v) back 0 ∧ answers (.aswp t v) back 0 ∧ answers (.acas t old v) back 0) ∧
    (fails n → s.wordOp (op (.atomic fn t v)) = s.answer (op (.atomic fn t v)) 6 4 true ∧
      s.wordOp (op (.aswp t v)) = s.answer (op (.aswp t v)) 6 4 true ∧
      s.wordOp (op (.acas t old v)) = s.answer (op (.acas t old v)) 6 4 true ∧
      s.wordOp (op (.red fn t v)) = s.unowned (if paModule m.addr ≠ s.modid then m.die else m.engine % 64) 1 m.addr) ∧
    (fails 16 → s.wordOp (op (.sigdec v e)) = match m.who with
      | some _ => s.answer (op (.sigdec v e)) 6 4 true
      | none => s.unowned (if paModule m.addr ≠ s.modid then m.die else m.engine % 64) 1 m.addr) ∧
    (plain 16 → let u := s.wordOp (op (.sigdec v e))
      word u m.addr 8 = (word s m.addr 8 + (2 ^ 64 - v.toNat)) % 2 ^ 64 ∧
      word u (m.addr + 8) 8 = (if word s (m.addr + 8) 8 = 0 then e.toNat else word s (m.addr + 8) 8) ∧
      (∀ a, a < m.addr ∨ m.addr + 16 ≤ a → u.cell a = s.cell a)) ∧
    (∀ narrow c poll, let k := if narrow then 4 else 8
      let y : Word := BitVec.ofNat 64 (word s m.addr k)
      let o : SyncOp := .wmon narrow c v poll
      let none_ : State := { s with monitors := [] }
      let seen : State := ({ s with monitors := [op o] } : State).evalMonitors
      s.wordOp (op o) = { s with monitors := s.monitors ++ [op o] } ∧
      (s.lostRoute m.engine = true → (poll = false → seen = { s with monitors := [op o] }) ∧
        (poll = true → ∃ z : Word, seen = none_.tick.answer (op o) z 5 false)) ∧
      (s.lostRoute m.engine = false → fails k → seen = none_.answer (op o) 6 4 false) ∧
      (s.lostRoute m.engine = false → clear k →
        let met : Prop := if narrow then Holds c 32 (y.setWidth 32) (v.setWidth 32) else Holds c 64 y v
        (met → seen = none_.answer (op o) y 0 true) ∧
        (¬met → poll = true → seen = none_.answer (op o) y 5 false) ∧
        (¬met → poll = false → seen = { s with monitors := [op o] })))

/-! ## The launch unit (03) -/

/-- 02 R22, R38, R40, 03 R43 to R47, R50 to R53, R55 to R62, R66, 18 R437, 19 R449, 21 R482: each step of the launch unit and its queues, where
it acts: the registers it writes, the record it accepts or rejects, the handing over, the word that arrives, the completion with its report.
The model's choice: a record that finds 256 in its die takes the lowest free slot of the overflow area and is read back from there
(notes/assumptions/75.md), and LAUNCHW's address is kept to be translated anew (notes/assumptions/80.md). -/
def Obligations.LaunchSteps : Prop :=
  ∀ (s : State), let a := s.about
    let h := s.queue a.n
    let head : W32 := h.qhead.setWidth 32
    let size (u : HostQueue) : Nat := 2 ^ (u.qcfg.toNat / 256 % 16 + 4)
    let failed (u : HostQueue) (q bit : Nat) (t : State) : Prop :=
      t.queue q = { u with qstat := u.qstat ||| BitVec.ofNat 64 (2 ^ bit), qcfg := u.qcfg &&& ~~~(1 : Word) } ∧
      t.irqs = (if u.qcfg.getLsbD 2 then q :: s.irqs else s.irqs)
    let sees (u : HostQueue) (tail : W32) (t : State) : Prop :=
      ((tail - head).toNat ≤ size u → t.queue a.n = { u with tail := tail }) ∧ (size u < (tail - head).toNat → failed u a.n 0 t)
    let en := h.qcfg.getLsbD 0
    let cxl := h.qcfg.getLsbD 1
    let written : W32 := a.value.setWidth 32
    (s.answers = true → s.hostUp = true → cxl = false → Answers .qtailWrite s (fun t =>
      (en = true → sees { h with qtail := written.setWidth 64 } written t) ∧ (en = false → t.queue a.n = { h with qtail := written.setWidth 64 }) ∧
      ∀ q, q ≠ a.n → t.queue q = s.queue q)) ∧
    (en = true → cxl = true → s.hostUp = true → s.hostCxl = true → a.flag = false → ∃ tail : W32,
      (∀ j, j < 4 → tail.extractLsb' (8 * j) 8 = Mem.read s.hostMem (h.qtline.toNat + j)) ∧
      Answers .tailLineInvalidate s (sees h tail)) ∧
    (en = true → cxl = true → s.hostUp = false ∨ (a.flag = true ∧ s.hostCxl = true) → Answers .tailLineInvalidate s (failed h a.n 1)) ∧
    (s.answers = true → s.hostUp = true → Answers .qcfgWrite s (fun t =>
      (t.queue a.n).qcfg.toNat = min (a.value.toNat / 256 % 16) 11 * 256 + a.value.toNat / 4 % 2 * 4 +
        (if a.value.getLsbD 1 = true ∧ s.hostCxl = true then 2 else 0) +
        (if a.value.getLsbD 0 = true ∧ s.mss.boot = .running then 1 else 0) ∧
      (t.queue a.n).qhead = (if a.value.getLsbD 0 = true ∧ s.mss.boot = .running then h.qtail else h.qhead) ∧
      ∀ q, q ≠ a.n → t.queue q = s.queue q)) ∧
    (s.answers = true → s.hostUp = true → Answers .qstatClear s (fun t => t.queue a.n = { h with qstat := h.qstat &&& ~~~a.value })) ∧
    (s.answers = true → s.hostUp = true → Answers .dqerrcntWrite s (fun t =>
      (t.die a.die).cfg = { (s.die a.die).cfg with dqerrcnt := 0 } ∧ ∀ d, d ≠ a.die → t.die d = s.die d)) ∧
    (∀ q j, s.frozenPower = false → s.kidRoom ≠ none → s.mss.boot = .running → j < 128 → q = (s.turn + j) % 128 → s.mayAccept q = true →
      (∀ i, i < j → s.mayAccept ((s.turn + i) % 128) = false) →
      let accepts (r : BitVec 2048) (src : KSource) (t : State) : Prop := t.turn = (q + 1) % 128 ∧ t.accepted = s.accepted + 1 ∧
        ∃ k, t.kernel? s.accepted = some k ∧ k.record = r ∧ k.source = src ∧ k.priv = false ∧ k.rejected = none ∧ k.done = none
      (q < 64 → s.hostUp = false ∨ a.flag = true → Answers .recordAccept s (failed (s.queue q) q 1)) ∧
      (q < 64 → s.hostUp = true → a.flag = false → (s.queue q).undef = false →
        let i := (s.queue q).qhead.toNat % 2 ^ 32
        ∃ r : BitVec 2048,
          (∀ b, b < 256 → r.extractLsb' (8 * b) 8 =
            Mem.read s.hostMem ((s.queue q).qbase.toNat + i % size (s.queue q) * 256 + b)) ∧
          (recCheck r = none → Answers .recordAccept s (fun t => accepts r (.host q i (size (s.queue q))) t ∧
            (t.queue q).qhead.toNat = (i + 1) % 2 ^ 32)) ∧
          (∀ c, s.memOk → recCheck r = some c → recSignal r = 0 → Answers .recordAccept s (fun t =>
            let err := errWord (2 ^ 41 - 1) none 2 c
            t.turn = (q + 1) % 128 ∧ t.accepted = s.accepted + 1 ∧ (t.queue q).qhead.toNat = (i + 1) % 2 ^ 32 ∧
            (∃ k, t.kernel? s.accepted = some k ∧ k.record = r ∧ k.rejected = some c ∧ k.runnable = none ∧ k.done = some (s.accepted + 1) ∧
              k.error = err) ∧
            ∀ j, j < 16 → Mem.read t.hostMem ((s.queue q).qcbase.toNat + i % size (s.queue q) * 16 + j) =
              BitVec.ofNat 8 ((i + (recKid r).toNat * 2 ^ 32 + err.toNat * 2 ^ 64) / 2 ^ (8 * j))))) ∧
      (∀ e rest r, 64 ≤ q → (s.die (q - 64)).dq = e :: rest →
        r = (match e.overflow with | none => e.record | some pa => BitVec.ofNat 2048 (leNat (s.bytes pa 256))) → recCheck r = none →
        Answers .recordAccept s (fun t => accepts r (.device (q - 64)) t ∧ (t.die (q - 64)).dq = rest))) ∧
    (∀ (n : Nat) (k : Kernel) (i : Nat) (d : Dep) (va : Word), s.kernel? n = some k → k.runnable = none → k.rejected = none → k.deps[i]? = some d → d.signal = some va →
      s.signalReached va true = true → Answers .hostSignalPoll s (fun t =>
        ∃ (k' : Kernel) (d' : Dep), t.kernel? n = some k' ∧ k'.record = k.record ∧ k'.deps[i]? = some d' ∧ d'.sat = true)) ∧
    (∀ l, s.launches[a.n]? = some l → s.releasedFor l.who l.after = true →
      let d := l.who.core / 32
      let record : BitVec 2048 := BitVec.ofNat 2048 (leNat (l.lines.flatMap (fun pa => s.anyBytes pa 64)))
      let slot (i : Nat) : Nat := (s.die d).cfg.dqobase.toNat + 256 * i
      let taken (pa : Nat) : Prop := ∃ e, e ∈ (s.die d).dq ∧ e.overflow = some pa
      let inside : Nat := ((s.die d).dq.filter (fun e => e.overflow.isNone)).length
      let reports (st : Word) (t : State) : Prop := t.replies = s.replies ++ [⟨l.who, [(l.wd, st)], none, false⟩]
      let enters (r : BitVec 2048) (place : Option Nat) (t : State) : Prop := t.launches = s.launches.eraseIdx a.n ∧
        (t.die d).dq = (s.die d).dq ++ [⟨r, l.who, l.wd, l.waits, place⟩] ∧ (l.waits = false → reports 0 t)
      (inside < 256 → Answers .deviceQueueEnqueueDone s (enters record none)) ∧
      (∀ i, 256 ≤ inside → i < (s.die d).cfg.dqosize.toNat → ¬taken (slot i) → (∀ m, m < i → taken (slot m)) → s.memOk →
        (∀ b, b < 256 → s.unbacked (slot i + b) = false ∧ unstated (slot i + b) = false ∧ s.frozen.any (fun r => decide (r.1 ≤ slot i + b ∧ slot i + b < r.1 + r.2)) = false) →
        Answers .deviceQueueEnqueueDone s (fun t => enters 0 (some (slot i)) t ∧
          ∀ b, b < 256 → t.cell (slot i + b) = record.extractLsb' (8 * b) 8)) ∧
      (256 ≤ inside → (∀ i, i < (s.die d).cfg.dqosize.toNat → taken (slot i)) → l.waits = false → Answers .deviceQueueEnqueueDone s (fun t =>
        t.launches = s.launches.eraseIdx a.n ∧ t.dies = s.dies ∧ reports 1 t)) ∧
      (256 ≤ inside → (∀ i, i < (s.die d).cfg.dqosize.toNat → taken (slot i)) → l.waits = true → Answers .deviceQueueEnqueueDone s (fun t =>
        t.launches = s.launches.eraseIdx a.n ∧ t.dies = s.dies ∧ t.replies = s.replies ∧
        ∀ u, (s.core l.who.core).run = some u → u.kernel = l.who.kernel → u.slice = l.who.slice →
          (t.core l.who.core).run = some { u with again := u.again ++ [(l.wd, l.va)] }))) ∧
    (∀ k since, s.kernel? a.kernel = some k → k.runnable = some since → k.done = none → k.failed = false → s.frozenPower = false →
      a.die ∈ replicaDies k.record → a.die ∉ k.handed → (s.die a.die).next.length < 512 →
      (s.awake (512 + a.die) = false → Answers .kernelHandover s (fun t => t = s.wake (512 + a.die))) ∧
      (s.awake (512 + a.die) = true → Sparse.find? (s.die a.die).next a.kernel = none →
        Answers .kernelHandover s (fun t => t.kernel? a.kernel = some { k with handed := k.handed ++ [a.die] } ∧
          Sparse.find? (t.die a.die).next a.kernel = some (
            (match Sparse.find? (s.die a.die).back a.kernel with | some p => p.1 | none => (replicaDies k.record).idxOf a.die),
            if recDeadline k.record = 0 then none
            else some (s.ns + (s.die a.die).skew + (recDeadline k.record - (s.ns - since))))))) ∧
    (∀ w, s.words[a.n]? = some w →
      (∀ d, w.dest = some d → s.awake (512 + d) = true → Answers .retirementWordArrival s (fun t => t.words = s.words.eraseIdx a.n ∧
        ∀ r, r ∈ (t.die d).recs → (w.kernel, w.slice) ∉ r.edges)) ∧
      (∀ k, w.dest = none → s.kernel? w.kernel = some k → Answers .retirementWordArrival s (fun t =>
        ∃ k', t.kernel? w.kernel = some k' ∧ w.slice ∈ k'.retired ∧ k'.record = k.record ∧
          (w.err = none → t.words = s.words.eraseIdx a.n ∧ k'.failed = k.failed) ∧
          (∀ e, w.err = some e → k.failed = false → k.done = none → k'.failed = true ∧ k'.error = e)))) ∧
    (∀ k, s.memOk → s.kernel? a.kernel = some k → s.finished a.kernel k = true →
      let va := recSignal k.record
      let completes (more : State → Prop) : Prop := Answers .kernelComplete s (fun t =>
        (∃ k', t.kernel? a.kernel = some k' ∧ k'.done = some s.accepted ∧ k'.error = k.error ∧ k'.record = k.record) ∧ more t)
      -- the completion array, or the registers of a die, when SIGNAL is 0
      (va = 0 → completes (fun t =>
        (∀ q i z, k.source = .host q i z → s.hostUp = true → ∀ j, j < 16 →
          Mem.read t.hostMem ((s.queue q).qcbase.toNat + i % z * 16 + j) =
            BitVec.ofNat 8 ((i % 2 ^ 32 + (recKid k.record).toNat * 2 ^ 32 + k.error.toNat * 2 ^ 64) / 2 ^ (8 * j))) ∧
        (∀ x, k.source = .device x →
          let count := (s.die x).cfg.dqerrcnt.toNat % 65536
          (k.error = 0 → (t.die x).cfg = (s.die x).cfg) ∧
          (k.error ≠ 0 → (t.die x).cfg.dqerrcnt.toNat = min (count + 1) 0xFFFF ∧ (t.die x).cfg.dqerrw = k.error ∧
            t.irqs = if count = 0 then 66 :: s.irqs else s.irqs)))) ∧
      -- the signal: COUNT decremented, the first-error word stored by the first to have one
      (∀ pa, va ≠ 0 → (s.keepWalk va).signalPa va = some pa →
        let at_ := pa % 2 ^ 45
        (s.isHost pa = true → s.hostUp = true → completes (fun t => ∀ j, j < 8 →
          Mem.read t.hostMem (at_ + j) = (BitVec.ofNat 64 (leNat (s.hostBytes at_ 8)) - 1 : Word).extractLsb' (8 * j) 8 ∧
          Mem.read t.hostMem (at_ + 8 + j) = (if k.error ≠ 0 ∧ leNat (s.hostBytes (at_ + 8) 8) = 0 then k.error.extractLsb' (8 * j) 8
            else Mem.read s.hostMem (at_ + 8 + j)))) ∧
        (s.refused pa = false → s.isHost pa = false → a.flag = true → completes (fun t =>
          t.msgs = s.msgs ++ [⟨none, 0, homeEngine pa, pa, va, .sigdec 1 k.error, .none, .mod, false, 0, none, false⟩]))))

/-! ## The schedulers (04) -/

/-- 04 R63, R65, R71 to R75, R78, R80, R84 to R87, 06 R122, 17 R423: each step of a die's scheduler, where it acts: publication, binding, starting,
resuming, ageing, the pre-emption mark and the seven of a steal. The model's choices: a stolen record is ready from the receipt of commit and
has no place among aged records (notes/assumptions/60.md); for a gang, no core is free means no allowed place (62.md, in `s.fit`); with the
flag, a slice that left its core binds on a die that has no record of its own to bind, its deadline converted (72.md); slices that a restore
returned are published first (84.md). -/
def Obligations.SchedulerSteps : Prop :=
  ∀ (s : State), let a := s.about
    let d := a.die
    let recs (t : State) (x : Nat) : List SliceRec := (t.die x).recs
    let named (y : SliceRec) : Prop := y.kernel = a.kernel ∧ y.slice = a.slice
    (∀ k nx dl, s.kernel? a.kernel = some k → Sparse.find? (s.die d).next a.kernel = some (nx, dl) →
      let back := match Sparse.find? (s.die d).back a.kernel with | some p => p.2 | none => []
      let sl := match back with | x :: _ => x | [] => nx
      sl < sliceCount k.record → k.failed = false → k.done = none → s.frozenPower = false → s.awake (512 + d) = true →
      ((s.die d).recs.filter (·.fresh)).length < 1024 →
      Answers .slicePublish s (fun t => ∃ r, recs t d = recs s d ++ [r] ∧ r.kernel = a.kernel ∧ r.slice = sl ∧ r.st = .queued ∧ r.deadline = dl ∧
        r.edges = s.edgesOf a.kernel k sl d ∧ (r.edges = [] → r.readySince = some s.ns) ∧ (r.edges ≠ [] → r.readySince = none))) ∧
    (∀ x r rest cores, s.frozenPower = false → s.awake (512 + d) = true → a.flag = false → Sparse.find? s.dies d = some x → x.reserve = none →
      s.ranked d = r :: rest → s.fit d r = some cores → Answers .sliceBind s (fun t =>
        (∃ y, y ∈ recs t d ∧ y.kernel = r.kernel ∧ y.slice = r.slice ∧ y.st = .started ∧ y.bound = cores ∧ y.aged = none) ∧
        ∀ y, y ∈ recs t d → y.kernel = r.kernel → y.slice = r.slice → y.st ≠ .queued)) ∧
    (∀ r k cores, s.frozenPower = false → s.awake (512 + d) = true → a.flag = true → d ≠ a.n → d < 64 → s.recFor a.n a.kernel a.slice = some r → s.kernel? a.kernel = some k →
      r.ready = true → r.ctx ≠ [] → d ∈ replicaDies k.record → (∀ y, y ∈ s.ranked d → s.fit d y = none) → s.fit d r = some cores →
      Answers .sliceBind s (fun t => (∀ y, y ∈ recs t a.n → named y → isCopy y.st = true) ∧
        ∃ y, y ∈ recs t d ∧ named y ∧ y.st = .started ∧ y.bound = cores ∧ y.ctx = r.ctx ∧ y.home = r.home ∧ y.deadline = s.convert a.n d r.deadline)) ∧
    (∀ r k, s.recFor d a.kernel a.slice = some r → s.kernel? r.kernel = some k → r.ctx = [] → s.frozenPower = false → r.stageErr = none →
      s.mayStart r = true → r.restored = false → r.bound.Nodup → Answers .sliceStart s (fun t => ∀ i n, r.bound[i]? = some n →
        ∃ q, (t.core n).run = some q ∧ q.kernel = r.kernel ∧ q.slice = r.slice ∧ q.rank = i ∧ q.width = r.bound.length ∧
          q.ordinal = sliceFirst k.record r.slice ∧ q.last = sliceLast k.record r.slice ∧ q.priv = k.priv ∧
          (t.core n).pc = recProgram k.record ∧ (t.core n).regs = Regs.zero ∧ (t.core n).loops = [] ∧ (t.core n).acc = [] ∧
          (t.core n).j = nestTuple k.record q.ordinal ∧ (t.core n).trap.active = false ∧ ∀ p, p ∈ (t.core n).l1 → p.2.dirty = true)) ∧
    (∀ r k n x, s.recFor d a.kernel a.slice = some r → s.kernel? r.kernel = some k → r.bound = [n] → r.ctx = [(0, x)] → s.mayStart r = true →
      s.frozenPower = false → s.recordFails (s.ctxBase r.home x) = false → r.again = [] → Answers .sliceResume s (fun t =>
        let w := s.recordCells (s.ctxBase r.home x)
        (∃ q, (t.core n).run = some q ∧ q.kernel = r.kernel ∧ q.slice = r.slice ∧ q.rank = 0 ∧ q.width = 1 ∧ q.priv = k.priv) ∧
        (t.core n).pc.toNat = fieldAt w 8 8 % 2 ^ 64 ∧ (t.core n).regs.f.toNat = fieldAt w 0x180 8 % 2 ^ 16 ∧
        (t.core n).issued = fieldAt w 0x18 8 ∧ (t.core n).resuming = true ∧ x ∉ (t.die r.home).ctxUsed ∧
        t.replies = s.replies ++ r.late)) ∧
    (∀ r since k, s.recFor d a.kernel a.slice = some r → r.readySince = some since → s.kernel? r.kernel = some k → r.ready = true →
      r.aged = none → since + (if recDeadline k.record = 0 then bitsOf (s.die d).cfg.schedcfg 32 16 * 1000000 else 4 * recDeadline k.record) < s.ns →
      Answers .recordAged s (fun t => ∀ y, y ∈ recs t d → named y → isCopy y.st = false → y.aged = some (s.die d).agedCount)) ∧
    (∀ r c v, s.recFor d a.kernel a.slice = some r → r.ready = true → s.fit d r = none → s.ctxFree d = true →
      (s.runningOn d).filter (fun p => (s.quadsOf d r).contains (p.1 / 4 % 8)) = [(c, v)] →
      r.aged.isSome = true ∨ (bitsOf (s.die d).cfg.schedcfg 0 12 ≠ 0xFFF ∧ ∃ x, r.deadline = some x ∧
        (v.deadline = none ∨ ∃ y, v.deadline = some y ∧ x + 1000 * bitsOf (s.die d).cfg.schedcfg 0 12 < y)) →
      Answers .preemptMark s (fun t => ∀ m q, m ∈ s.members v.kernel v.slice → (s.core m).run = some q →
        (t.core m).run = some (if q.leave.isSome then q else { q with preempt := true }))) ∧
    -- the steal
    (∀ k r, s.kernel? a.kernel = some k → d ≠ a.n → d < 64 → a.n < 64 → s.victimFor a.n (recKid k.record) = true →
      nearStacks (d / 4) (a.n / 4) = true → d ∈ replicaDies k.record → s.stealOn d = true → s.stealOn a.n = true → s.idleDie d = true →
      let can (y : SliceRec) : Prop := y ∈ recs s a.n ∧ y.kernel = a.kernel ∧ y.ready = true ∧ y.fresh = true ∧ y.bound = []
      can r → (∀ y, can y → y.slice ≤ r.slice) → Answers .stealRequest s (fun t =>
        t.mail = s.mail ++ [⟨a.n, d, a.kernel, r.slice, .offer s.nextId⟩] ∧
        ∀ y, y ∈ recs t a.n → y.kernel = a.kernel → y.slice = r.slice → isCopy y.st = false → y.st = .offered d s.ns s.nextId)) ∧
    (∀ m, s.mail[a.n]? = some m → (∀ x, x ∈ s.mail.take a.n → ¬(x.src = m.src ∧ x.dst = m.dst)) → s.awake (512 + m.dst) = true →
      let mine (y : SliceRec) : Prop := y.kernel = m.kernel ∧ y.slice = m.slice
      let left := s.mail.eraseIdx a.n
      let sends (k : StealKind) (t : State) : Prop := t.mail = left ++ [⟨m.dst, m.src, m.kernel, m.slice, k⟩]
      (∀ r tag, m.kind = .offer tag → s.recFor m.src m.kernel m.slice = some r → ((recs s m.dst).filter (·.fresh)).length < 1024 →
        Answers .stealAccept s (fun t => sends (.accept tag) t ∧ recs t m.dst = recs s m.dst ++ [{ r with st := .copy m.src }])) ∧
      (∀ r since tag, m.kind = .accept tag → s.recFor m.dst m.kernel m.slice = some r → r.st = .offered m.src since tag →
        Answers .stealAccept s (fun t => sends (.commit (r.deadline.map (fun x => x - (s.ns + (s.die m.dst).skew)))) t ∧
          ∀ y, y ∈ recs t m.dst → mine y → isCopy y.st = false → y.st = .transfer m.src)) ∧
      (∀ tag, m.kind = .offer tag → Answers .stealDecline s (fun t => sends (.decline tag) t ∧ t.dies = s.dies)) ∧
      (∀ r since tag, m.kind = .decline tag → s.recFor m.dst m.kernel m.slice = some r → r.st = .offered m.src since tag →
        Answers .stealDecline s (fun t => sends .void t ∧ ∀ y, y ∈ recs t m.dst → mine y → isCopy y.st = false → y.st = .queued)) ∧
      (m.kind = .void → Answers .stealVoidReceive s (fun t => t.mail = left ∧
        ∀ y, y ∈ recs t m.dst ↔ y ∈ recs s m.dst ∧ ¬(mine y ∧ y.st = .copy m.src))) ∧
      (∀ l, m.kind = .commit l → Answers .stealCommitReceive s (fun t => sends .ack t ∧
        ∀ y, y ∈ recs s m.dst → mine y → y.st = .copy m.src →
          { y with st := .queued, deadline := l.map (fun x => x + s.ns + (s.die m.dst).skew), aged := none, readySince := some s.ns } ∈
            recs t m.dst)) ∧
      (m.kind = .ack → Answers .stealAck s (fun t => t.mail = left ∧
        ∀ y, y ∈ recs t m.dst ↔ y ∈ recs s m.dst ∧ ¬(mine y ∧ y.st = .transfer m.src)))) ∧
    (∀ r thief since tag, s.recFor d a.kernel a.slice = some r → r.st = .offered thief since tag → since + 20000 ≤ s.ns →
      Answers .stealOfferTimeout s (fun t => t.mail = s.mail ++ [⟨d, thief, r.kernel, r.slice, .void⟩] ∧
        ∀ y, y ∈ recs t d → named y → isCopy y.st = false → y.st = .queued))

/-! ## Arrivals, budgets, images, leaving a core (06, 07, 09, 12, 15, 17) -/

/-- 05 R93, 06 R130, R131, R134, 07 R162, R163, 09 R221, R222, 12 R302, 15 R378, R379, 17 R420 to R427, 04 R82: each step by which something reaches
a core or a slice gives its core up, where it acts. -/
def Obligations.CoreSteps : Prop :=
  ∀ (s : State), let a := s.about
    let n := a.core
    let k := s.core n
    (∀ line bs, k.fetching = some line → s.codeLine n (BitVec.ofNat 64 line) = some bs → Answers .instructionFetchFill s (fun t =>
      Sparse.find? (t.core n).icache line = some bs ∧ (t.core n).fetching = none ∧ (t.core n).regs = k.regs)) ∧
    (∀ g r bs, k.gloads[a.n]? = some g → k.nloads = [] → g.after ≤ k.cycle → g.dests = [(r, 0)] → g.latched = false → g.device = false → g.ue = false →
      s.reaches g.pa = true ∨ (∀ b, b ∈ g.own → b.isSome = true) → g.own.length = g.size → (∀ i, i < g.size → g.own[i]? = some none → s.readFails (g.pa + i) = false) →
      bs = (List.range g.size).map (fun i => ((g.own[i]?).getD none).getD (s.homeByte k g.fence (g.pa + i))) →
      Answers .loadDataArrival s (fun t => (t.core n).word (.z r) = extend g.signed g.size (leNat bs) ∧
        (t.core n).gloads.length + 1 = k.gloads.length)) ∧
    (∀ g rest, a.n = 0 → k.gloads = g :: rest → k.nloads = [] → g.after ≤ k.cycle → g.device = false → 0 < g.size → g.size ≠ 64 → g.own = [] →
      s.reaches g.pa = true → s.poisoned g.pa = true →
      Answers .loadDataArrival s (fun t => t = (s.setCore n { k with gloads := rest }).killSlice n 1 tEccUe)) ∧
    (∀ r, a.n < 16 → Sparse.find? k.q a.n = some r → Desc.fabric r.desc = true → Desc.writes r.desc = false → r.ahead < 8 →
      Answers .streamGroupArrival s (fun t => Sparse.find? (t.core n).q a.n = some { r with ahead := r.ahead + 1 })) ∧
    (let had := (k.pins.filter (fun p => p.upto.isNone)).map (·.line)
      let sectors := (k.mxAhead.flatMap (({ s with me := n } : State).mxSectors k)).eraseDups
      let lines := (((sectors.map (fun x => (x.1, x.2 / 8))).eraseDups).filter (fun l => !had.contains l.2)).take 256;
      k.grp.active = true → k.pinned = false → Answers .mxPinComplete s (fun t =>
        t.core n = { k with pinned := true, pins := k.pins ++ lines.map (fun l => ⟨l.2, none, false⟩) } ∧ t.mem = s.mem)) ∧
    (∀ c, (a.die, a.n) ∈ (Sparse.get s.walkers (0, []) (a.die / 4)).2 → c / 32 = a.die →
      (∀ e big, s.walk (signVa (a.n * 0x10000)) = .leaf e big →
        let covers (u : Nat) : Prop := if big then u / 32 = a.n / 32 else u = a.n
        (∃ u, u ∈ (s.core c).misses ∧ covers u) → Answers .pageWalkComplete s (fun t =>
          (⟨if big then a.n / 32 * 32 else a.n, big, e⟩ : TlbEntry) ∈ (t.core c).tlb ∧
          ∀ u, u ∈ (t.core c).misses ↔ u ∈ (s.core c).misses ∧ ¬covers u)) ∧
      (a.n ∈ (s.core c).misses → (∀ e big, s.walk (signVa (a.n * 0x10000)) ≠ .leaf e big) → Answers .pageWalkComplete s (fun t =>
        a.n ∉ (t.core c).misses ∧ (t.core c).tlb = (s.core c).tlb))) ∧
    (let m := k.bundle.hdr.sync.toNat
      let w := s.maskFor n m
      let here (i : Nat) : Prop := i = n % 32 ∨ (Sparse.find? (s.maskRec (maskKey n m)).arr i).isSome = true;
      k.grp.active = true → m ≠ 0 → k.atSync = true → k.reached = none → k.allLanded = true →
      (s.takesPart n m = false → Answers .wiredBarrierReach s (fun t => (t.core n).reached = some (m + 8))) ∧
      (∀ r, m = 1 → k.run = some r → n ∈ s.members r.kernel r.slice → Answers .wiredBarrierReach s (fun t =>
        ((∀ c, c ∈ s.members r.kernel r.slice → c ≠ n → (s.core c).reached = some 1) →
          ∀ c, c ∈ s.members r.kernel r.slice → (t.core c).reached = some 9 ∧ k.cycle + 2 ≤ (t.core c).holdUntil) ∧
        ((∃ c, c ∈ s.members r.kernel r.slice ∧ c ≠ n ∧ (s.core c).reached ≠ some 1) → (t.core n).reached = some 1))) ∧
      (m ≠ 1 → s.takesPart n m = true → Answers .wiredBarrierReach s (fun t =>
        ((∀ i, i < 32 → w.getLsbD i = true → here i) → ∀ i, i < 32 → w.getLsbD i = true → (t.core (n / 32 * 32 + i)).reached = some (m + 8)) ∧
        ((∃ i, i < 32 ∧ w.getLsbD i = true ∧ ¬here i) → (t.core n).reached = some m)))) ∧
    (∀ r c w v, s.replies[a.n]? = some r → s.coreOf r.who = some c → (s.core c).resuming = false → r.regs = [(w, v)] → Answers .asyncEngineWrite s (fun t =>
      (t.core c).word (.w w) = v ∧ t.replies = s.replies.eraseIdx a.n)) ∧
    (∀ r, k.run = some r → recBudget (s.recOf n) ≠ 0 → k.trap.allow.toNat ≤ k.issued → r.marked ≠ some k.trap.allow →
      Answers .budgetExhausted s (fun t => ∀ m q, m ∈ s.members r.kernel r.slice → (s.core m).run = some q →
        (t.core m).run = some { q with budgetMark := true, marked := some k.trap.allow })) ∧
    (∀ r, k.landsNow = true → k.run = some r →
      (r.budgetMark = true → Answers .budgetTrap s (fun t =>
        t = (s.modRun n (fun x => { x with budgetMark := false })).trapTo n ⟨tBudget, 0, 0, 3, 0, .c⟩ k.pc (max k.cycle k.holdUntil))) ∧
      (r.budgetMark = false → r.preempt = true → Answers .preemptStop s (fun t =>
        t.core n = { k with wait := Wait.none, run := some { r with
          leave := some (if s.childOpen r.kernel r.slice = true ∨ r.again ≠ [] then .launchw else .preempt), preempt := false } }))) ∧
    (∀ m ms, k.images = m :: ms →
      (m.loads = [] → m.ready ≤ k.cycle → m.journal = none ∨ m.verified = true → Answers .ckptImageComplete s (fun t =>
        t.core n = { k with images := { m with complete := true } :: ms })) ∧
      (∀ j, m.journal = some j → m.verified = false →
        let area := journalArea ms
        let blocks := (List.range (((j.map (fun p => p.2.length)).foldl (· + ·) 0 + 4095) / 4096)).map (fun i => journalBlock n (16 * area + i))
        (Sparse.get s.spares 0 n + blocks.length ≤ 32 ∨ (s.mramWriteAll n blocks).2 = true → Answers .ckptJournalVerified s (fun t =>
          t.core n = { k with images := { m with verified := true, area := area } :: ms } ∧ t.mem = s.mem)) ∧
        ((s.mramWriteAll n blocks).2 = false → Answers .ckptJournalVerified s (fun t => t.core n = { k with images := ms } ∧ t.mem = s.mem)))) ∧
    (∀ r y, k.run = some r → (s.die (n / 32)).recs.find? (fun x => x.kernel == r.kernel && x.slice == r.slice && x.st == .started) = some y →
      s.mayWriteRecord n r y = true → Answers .contextRecordWrite s (fun t =>
        (y.ctx.length + 1 < r.width → ∃ i z, i ∉ (s.die (n / 32)).ctxUsed ∧ i ∈ (t.die (n / 32)).ctxUsed ∧ z ∈ (t.die (n / 32)).recs ∧
          z.kernel = r.kernel ∧ z.slice = r.slice ∧ z.ctx = y.ctx ++ [(r.rank, i)]) ∧
        (r.width ≤ y.ctx.length + 1 → n ∈ s.members r.kernel r.slice → (t.core n).run = none))) ∧
    (∀ r since, k.run = some r → k.wait.since = some since → r.leave = none →
      since + 1000 * bitsOf (s.die (n / 32)).cfg.schedcfg 16 16 < s.ns → s.ctxFree (n / 32) = true →
      (k.reached = none ∧ (k.wait.answer = none ∨ k.atSync = true)) ∨ (∃ m, k.reached = some m ∧ m < 8) →
      Answers .longWaitYield s (fun t => (t.core n).run = some { r with leave := some .longWait, preempt := false } ∧
        (t.core n).reached = none ∧ (t.core n).grp.active = false ∧ (t.core n).pc = (if k.grp.active then k.grp.start else k.pc)))

/-! ## The engines at work (13, 15, 16) -/

/-- 13 R315, R318 to R322, R325: each step of a die's copy engine, where it acts: a command starts once its release is complete and its checks
pass, a ring walk takes its slot, a command ends and says so, with its completion word, its delivery to a phaser or its credit to a ring. The
model's reading (notes/assumptions/24.md): a CADDR that names no ring gives status 4, a walk on a poisoned ring status 2. -/
def Obligations.CopyEngineSteps : Prop :=
  ∀ (s : State), let a := s.about
    let gone (c : BteCmd) (t : State) : Prop := ∀ x, x ∈ t.cmds → x.id ≠ c.id
    let tells (who : Who) (wd : Option Nat) (st : Word) (t : State) : Prop :=
      ∀ w, wd = some w → ∃ l, t.replies = l ++ [⟨who, [(w, st)], none, false⟩]
    let changed (c : BteCmd) (f : BteCmd → BteCmd) (t : State) : Prop := t.cmds = s.cmds.map (fun x => if x.id = c.id then f x else x)
    (∀ c, s.nextCmd a.die = some c → s.running a.die < 8 → s.releasedFor c.who c.after = true →
      let u := s.noteAddrs c.die c.checkAddrs
      (c.role ≠ .program → Answers .bteCommandStart s (fun t => changed c (fun x => { x with st := .running }) t ∧ t.mem = s.mem)) ∧
      (∀ list, c.role = .program → u.blockCheck c = .ok list →
        let starts (st : CmdSt) (slot : Nat) : State → Prop := changed c (fun x => { x with st := st, slot := slot, gather := list })
        (c.ckind = 0 ∨ c.ckind = 3 → Answers .bteCommandStart s (fun t => starts .running 0 t ∧ t.mem = s.mem)) ∧
        (∀ ring, c.ckind = 1 → u.cmdRing c = some ring → Answers .bteCommandStart s (starts .running (c.f 584 6))) ∧
        (∀ ring r, c.ckind = 2 → u.cmdRing c = some ring → s.ring? ring = some r → r.poison = none → Answers .bteCommandStart s (fun t =>
          starts .walking 0 t ∧ t.ring? ring = some (if r.loader.isNone then { r with loader := some (.walk c.id) } else r))) ∧
        (c.ckind = 1 ∨ c.ckind = 2 → u.cmdRing c = none → Answers .bteCommandStart s (fun t => gone c t ∧ tells c.who c.wd 4 t))) ∧
      (∀ e, c.role = .program → u.blockCheck c = .error e → Answers .bteCommandStart s (fun t => gone c t ∧ tells c.who c.wd 4 t))) ∧
    (∀ c ring r, s.cmd? a.n = some c → c.st = .walking → (s.noteAddrs c.die [c.caddr]).cmdRing c = some ring → s.ring? ring = some r →
      (r.poison = none → s.running c.die < 8 → (r.slotAt r.pnext).tag = .empty → Answers .ringWalkSlotTaken s (fun t =>
        changed c (fun x => { x with st := .running, slot := r.pnext }) t ∧
        ∃ r', t.ring? ring = some r' ∧ r'.pnext = (r.pnext + 1) % max 1 r.slots.length ∧ r'.cnext = r.cnext ∧
          (r.pnext < r.slots.length → r'.slots[r.pnext]? = some ⟨.filling, 0, some (.walk c.id)⟩) ∧
          ∀ i, i ≠ r.pnext → r'.slots[i]? = r.slots[i]?)) ∧
      (r.poison ≠ none → Answers .ringWalkSlotTaken s (fun t => gone c t ∧ tells c.who c.wd 2 t))) ∧
    (∀ c s1 e n, s.cmd? a.n = some c → c.st = .running → c.role = .program → s.copyPairs c.die c.who.kernel (s.repPairs c) = (s1, e, n) →
      let u := (s1.noteAddrs c.die (c.repAddrs.flatMap (fun p => [p.1, p.2]))).noteAddrs c.die [c.caddr]
      let st : Nat := if e = 0 then 0 else 4
      let bytes : Nat := if e = 0 ∧ c.kind = .multi then n * c.cores.length else n
      (c.ckind = 0 ∨ c.ckind = 3 → Answers .bteCommandComplete s (fun t =>
        gone c t ∧ tells c.who c.wd (BitVec.ofNat 64 st) t ∧ (c.ckind = 3 → t.mem = s1.mem))) ∧
      -- the completion word of CKIND 0: status, code and tag, and the bytes written
      (∀ pa, c.ckind = 0 → s.memOk → u.reportAddr c.die c.caddr (s.kernelPriv c.who.kernel) = .ok pa → pa % 4096 ≠ 48 ∨ s.phaser? (pa - 48) = none →
        (∀ j, j < 16 → s.unbacked (pa + j) = false ∧ unstated (pa + j) = false ∧ ∀ r, r ∈ s.frozen → ¬(r.1 ≤ pa + j ∧ pa + j < r.1 + r.2)) →
        Answers .bteCommandComplete s (fun t => ∀ j, j < 16 →
          t.cell (pa + j) = BitVec.ofNat 8 ((st + e * 2 ^ 8 + c.f 608 32 * 2 ^ 32 + bytes * 2 ^ 64) / 2 ^ (8 * j)))) ∧
      (∀ pa, c.ckind = 0 → e = 0 → a.flag = true → u.reportAddr c.die c.caddr (s.kernelPriv c.who.kernel) = .ok pa → s.unbacked pa = false →
        pa % 4096 = 48 → (s.phaser? (pa - 48)).isSome = true → Answers .bteCommandComplete s (fun t =>
          t.msgs = s.msgs ++ [⟨none, c.die, homeEngine pa, pa - 48, 0, .phcredit bytes, .none, .mod, false, 0, none, false⟩])) ∧
      -- the credit of CKIND 1 and of a walk, and their errors
      (∀ ring, c.ckind = 1 ∨ (c.ckind = 2 ∧ crosses (segReach c.segs ((BitVec.ofNat 64 (c.f 832 64)).toInt * c.rep))
          ((sideOf c.block 256).reach ((BitVec.ofNat 64 (c.f 896 64)).toInt * c.slot)) = false) →
        (e = 0 → a.flag = true → u.cmdRing c = some ring → Answers .bteCommandComplete s (fun t =>
          changed c (fun x => { x with st := .credit, done := x.done + bytes }) t ∧
          t.msgs = s.msgs ++ [⟨none, c.die, homeEngine ring, ring, c.caddr, .rcredit c.slot bytes, .cmd c.id, .mod, false, 0, none, false⟩])) ∧
        (e = 0 → u.cmdRing c = none → Answers .bteCommandComplete s (fun t => gone c t ∧ tells c.who c.wd 4 t)) ∧
        (e ≠ 0 → Answers .bteCommandComplete s (fun t => gone c t ∧ tells c.who c.wd 4 t)))) ∧
    (∀ c core i, s.cmd? a.n = some c → c.st = .running → c.role = .stage core i → Answers .bteCommandComplete s (gone c))

/-- 15 R355, R356, R363, R374, 18 R447, 19 R458: each step of a sync engine, where it acts: a message is applied in the engine's next cycle of the
present nanosecond, which then evaluates, or wakes its die; a monitor and a phaser wait expire, also with no route to the home. The model's
choices: the cycle is one of the two of the present nanosecond (notes/assumptions/64.md), and the value or phase that an expiry with no route
reports is free (notes/assumptions/88.md). -/
def Obligations.SyncEngineSteps : Prop :=
  ∀ (s : State), let a := s.about
    (∀ m, a.picks = [0] → s.msgs[0]? = some m → s.mayArrive [0] = true →
      let c := s.nextCycle m.engine a.n
      (s.engineAwake m.engine = true → s.cycleLeft m.engine a.n = true → Answers .syncOperationArrival s (fun t => t =
          (({ s with msgs := s.msgs.drop 1, engCycle := Sparse.put s.engCycle m.engine (c + 1) } : State).applyMsg m c).evaluate m.engine c)) ∧
      (s.engineAwake m.engine = false → Answers .syncOperationArrival s (fun t => t.msgs = s.msgs ∧
        ((t.island (512 + m.engine % 64)).going ≠ none ∨ (s.island (512 + m.engine % 64)).st = .run)))) ∧
    (let e := s.modid * 64 + a.die
      let c := s.nextCycle e a.n;
      a.picks = [] → s.cycleLeft e a.n = true → Answers .syncOperationArrival s (fun t => t =
        ({ s with engCycle := Sparse.put s.engCycle e (c + 1) } : State).evaluate e c)) ∧
    (∀ m e narrow c v poll, s.monitors[a.n]? = some m → m.expiry = some e → e ≤ s.ns → m.op = .wmon narrow c v poll →
      (s.lostRoute m.engine = true → Answers .wmonTimeout s (fun t => ∃ z : Word, (narrow = true → z.toNat < 2 ^ 32) ∧
        t = ({ s with monitors := s.monitors.eraseIdx a.n } : State).tick.answer m z 5 false)) ∧
      (s.lostRoute m.engine = false → Answers .wmonTimeout s (fun t => t = ({ s with monitors := s.monitors.eraseIdx a.n } : State).answer m
        (BitVec.ofNat 64 (s.wordAt m.addr (if narrow then 4 else 8))) 5 false))) ∧
    (∀ m e, a.flag = true → s.msgs[a.n]? = some m → s.stranded m = true → (∃ d, m.op = .phwait d) ∨ (∃ d ph, m.op = .phsw d ph) →
      m.expiry = some e → e ≤ s.ns → Answers .phaserWaitTimeout s (fun t => ∃ z : W32,
        t = ({ s with msgs := s.msgs.eraseIdx a.n } : State).tick.answer m (phWord z 5 (waitMember m.op) 0 0) 0 false)) ∧
    (∀ p m target e, a.flag = false → s.phaser? a.value.toNat = some p → p.waits[a.n]? = some (m, target) → m.expiry = some e → e ≤ s.ns →
      Answers .phaserWaitTimeout s (fun t => t.phaser? a.value.toNat = some { p with waits := p.waits.eraseIdx a.n } ∧
        ∃ (u : State) (z : W32), (s.lostRoute (homeEngine a.value.toNat) = false → z = p.phase) ∧
          t = u.answer m (phWord z 5 (waitMember m.op) 0 0) 0 false ∧ u.replies = s.replies ∧ u.cores = s.cores))

/-- 16 R401, R403, R406, R409, R410, R413, 22 R484: each step of a sequence's copies and of an attention engine, where it acts: flattening makes
the child, a tier command leaves its page moved or staged, a request starts, is turned away, or ends with its state, output and record written
and its credit sent; each drops its reference and says so. The model's choice (notes/assumptions/7.md): what a failing copy leaves is free. -/
def Obligations.SequenceAndAttentionSteps : Prop :=
  ∀ (s : State), let a := s.about
    let gone (c : BteCmd) (t : State) : Prop := ∀ x, x ∈ t.cmds → x.id ≠ c.id
    let tells (who : Who) (wd : Option Nat) (st : Word) (t : State) : Prop :=
      ∀ w, wd = some w → ∃ l, t.replies = l ++ [⟨who, [(w, st)], none, false⟩]
    let seqTells (m : SyncMsg) (main status : Word) (t : State) : Prop :=
      ∀ w x y, m.who = some w → m.reply = .w (some x) (some y) → t.replies = s.replies ++ [⟨w, [(x, main), (y, status)], none, false⟩]
    (∀ c child fl, s.cmd? a.n = some c → c.role = .flatten child → c.st = .running → Sparse.find? s.flats child = some fl →
      Answers .flattenCopyComplete s (fun t => gone c t ∧ t.flats = Sparse.erase s.flats child) ∧
      -- the child, its slots copied from where the parent's lookup finds them, or none
      (∀ par s1 e n, s.seq? fl.parent = some par → 1 < par.refs → fl.parent ≠ child →
        let logsz := blkField fl.blk 80 4
        let slots := blkField fl.blk 128 32
        let spp : Nat := 2 ^ (10 - logsz)
        let size : Nat := 2 ^ (logsz + 6)
        let dst (i : Nat) : Nat := (nth SeqEntry.none fl.table (i / spp)).pva + i % spp * size
        s.copyPairs c.die c.who.kernel ((List.range slots).flatMap (fun i => match s.resolveSlot 5 fl.parent i 0 with
          | none => [(.error eFaultSrc, [])]
          | some (_, _, va, _) => (List.range size).map (fun k =>
              (s.bteByte c.who c.die (signVa (va + k)) false, [s.bteByte c.who c.die (signVa (dst i + k)) true])))) = (s1, e, n) →
        Answers .flattenCopyComplete s (fun t => t.seq? fl.parent = some { par with refs := par.refs - 1 } ∧
          (e = 0 → t.seq? child = some ⟨fl.childVa, blkField fl.blk 0 57, logsz, blkField fl.blk 64 16, 1, 0, false, blkField fl.blk 88 1 == 1, 0,
            slots, slots, 0, none, fl.table, []⟩ ∧ seqTells fl.msg 0 (seqWord 0 0 0) t) ∧
          (e ≠ 0 → t.seq? child = s.seq? child ∧ seqTells fl.msg 0 (seqWord 4 (0x80 + e) 0) t)))) ∧
    (∀ tc, s.tiers.find? (fun x => x.id == a.n) = some tc →
      (tc.op = 1 → Answers .sqtierComplete s (fun t => t.tiers = s.tiers.filter (fun x => x.id != tc.id))) ∧
      (∀ c, tc.op ≠ 1 → s.cmds.find? (fun x => x.role == .tier tc.id) = some c → c.st = .running → Answers .sqtierComplete s (fun t =>
        gone c t ∧ t.tiers = s.tiers.filter (fun x => x.id != tc.id))) ∧
      -- the entry of the page once its work is done
      (∀ q, s.seq? tc.seq = some q → 1 < q.refs →
        let e := q.entry tc.page
        let leaves (x : SeqEntry) (old : List (Nat × Nat)) (t : State) : Prop :=
          t.seq? tc.seq = some { q.setEntry tc.page x with refs := q.refs - 1, old := old }
        (tc.op = 1 → Answers .sqtierComplete s (fun t => seqTells tc.msg 0 (seqWord 0 0 0) t ∧
          leaves { e with stage := 1, kept := dedup (e.kept ++ (s.frameOf tc.seq e.pva).toList) } q.old t)) ∧
        (∀ c s1 err n, tc.op = 0 → s.cmds.find? (fun x => x.role == .tier tc.id) = some c → c.st = .running →
          s.copyPairs c.die c.who.kernel ((List.range 0x10000).map (fun k =>
            (s.bteByte c.who c.die (signVa (e.pva + k)) false, [s.bteByte c.who c.die (tc.arg + BitVec.ofNat 64 k) true]))) = (s1, err, n) →
          Answers .sqtierComplete s (fun t =>
            (err = 0 → seqTells tc.msg (signVa e.pva) (seqWord 0 0 0) t ∧
              ∃ cxl : Bool, leaves { e with pva := tc.arg.toNat % 2 ^ 57, tier := cxl } ((tc.page, e.pva) :: q.old) t ∧
                ∀ pa, (s1.noteAddrs c.die [signVa e.pva, tc.arg]).frameOf tc.seq (tc.arg.toNat % 2 ^ 57) = some pa → cxl = (rangeOf pa == .cxl)) ∧
            (err ≠ 0 → seqTells tc.msg 0 (seqWord 4 (0x80 + err) 0) t ∧ t.seq? tc.seq = some { q with refs := q.refs - 1 }))) ∧
        (∀ c s1 err n w, tc.op = 2 → s.cmds.find? (fun x => x.role == .tier tc.id) = some c → c.st = .running → tc.msg.who = some w →
          s.copyPairs c.die c.who.kernel ((List.range 0x10000).map (fun k => (s.bteByte c.who c.die (signVa (e.pva + k)) false,
            [if tc.arg.toNat + k < 2 ^ 21 then .ok (tileBase s.modid w.core + tc.arg.toNat + k) else .error eProtDst]))) = (s1, err, n) →
          Answers .sqtierComplete s (fun t =>
            (err = 0 → seqTells tc.msg 0 (seqWord 0 0 0) t ∧
              leaves { e with stage := 2, stagepa := tileBase s.modid w.core + tc.arg.toNat % 2 ^ 21 } q.old t) ∧
            (err ≠ 0 → seqTells tc.msg 0 (seqWord 4 (0x80 + err) 0) t ∧ t.seq? tc.seq = some { q with refs := q.refs - 1 }))))) ∧
    (∀ q rest, s.attns.filter (fun y => quadOf y.who.core == a.quad) = q :: rest → (∀ y, y ∈ q :: rest → y.running = false) →
      s.creditDue a.quad = false → s.releasedFor q.who q.after = true →
      (q.badArg = true → Answers .attnRequestStart s (fun t => t.attns = s.attns.filter (fun y => y.id != q.id) ∧ tells q.who q.wd 4 t)) ∧
      (∀ e, q.badArg = false → s.attnSeq q = .error e → Answers .attnRequestStart s (fun t =>
        t.attns = s.attns.filter (fun y => y.id != q.id) ∧ tells q.who q.wd 4 t)) ∧
      (∀ key x, q.badArg = false → s.attnSeq q = .ok (key, x) →
        (s.attnCheck q key x = 0 → Answers .attnRequestStart s (fun t =>
          t.attns = s.attns.map (fun y => if y.id = q.id then { y with running := true, hold := some key, clen := x.clen } else y) ∧
          (∀ z, s.seq? key = some z → t.seq? key = some { z with refs := z.refs + 1 }))) ∧
        (s.attnCheck q key x ≠ 0 → Answers .attnRequestStart s (fun t =>
          t.attns = s.attns.filter (fun y => y.id != q.id) ∧ tells q.who q.wd 4 t)))) ∧
    (∀ q key x, s.attns.find? (fun y => quadOf y.who.core == a.quad && y.running) = some q → q.hold = some key → s.seq? key = some x →
      Answers .attnRequestComplete s (fun t => (∀ y, y ∈ t.attns → y.id ≠ q.id) ∧
        (tells q.who q.wd 0 t ∨ tells q.who q.wd 3 t ∨ tells q.who q.wd 4 t)) ∧
      (1 < x.refs → q.f 466 2 = 0 ∨ a.flag = true → Answers .attnRequestComplete s (fun t => t.seq? key = some { x with refs := x.refs - 1 })) ∧
      let die := q.who.core / 32
      let u := s.noteAddrs die (s.attnAddrs q key)
      let page0 := (q.pages x.spp).1
      (∀ e, u.attnInput q = .error e → Answers .attnRequestComplete s (tells q.who q.wd 4)) ∧
      (∀ i, u.attnInput q = .ok i →
        let o := (List.range (q.pages x.spp).2).foldl (fun o k => u.attnPage q key x i o (page0 + k)) ⟨i.st, 0, 0, none⟩
        let out : Word := BitVec.ofNat 64 (q.f 512 64)
        let cells := (q.stateBytes o.st).map (fun p => (q.state + BitVec.ofNat 64 p.1, p.2)) ++
          (if o.tmiss = 0 ∧ out ≠ 0 then (q.outBytes o.st).map (fun p => (out + BitVec.ofNat 64 p.1, p.2)) else [])
        let places := cells.filterMap (fun c => match u.attnByte q c.1 true with | .ok pa => some (pa, c.2) | .error _ => none)
        let masked := ((List.range q.rows).map (fun r => if (nth (RowState.empty q.hd) o.st r).masked then 2 ^ r else 0)).foldl (· + ·) 0
        let st : Nat := if o.tmiss = 0 then 0 else 3
        let w := (u.putMany die places).putRecord q (attnRecord st 0 masked (q.f 672 32) o.tmiss page0 o.nproc)
        (∀ e, o.err = some e → Answers .attnRequestComplete s (tells q.who q.wd 4)) ∧
        (o.err = none → places.length ≠ cells.length → Answers .attnRequestComplete s (tells q.who q.wd 4)) ∧
        (o.err = none → places.length = cells.length → 1 < x.refs → Answers .attnRequestComplete s (fun t =>
          tells q.who q.wd (BitVec.ofNat 64 st) t ∧ (q.f 466 2 = 0 → t.mem = w.mem) ∧
          (∀ pa, q.f 466 2 ≠ 0 → a.flag = true →
            (w.noteAddrs die [BitVec.ofNat 64 (q.f 320 64)]).engineAddr die (BitVec.ofNat 64 (q.f 320 64)) false (s.kernelPriv q.who.kernel) = .ok pa →
            t.mem = w.mem ∧ t.msgs = s.msgs ++ [⟨some q.who, die, homeEngine pa, pa, BitVec.ofNat 64 (q.f 320 64),
              (if q.f 466 2 = 1 then .rcredit (q.f 468 6) q.size else .phcredit q.size), .none, .mod, false, 0, none, false⟩]))) ∧
        (s.memOk → (places.map (·.1)).Nodup → ∀ p, p ∈ places → s.unbacked p.1 = false → unstated p.1 = false →
          (∀ r, r ∈ s.frozen → ¬(r.1 ≤ p.1 ∧ p.1 < r.1 + r.2)) → (u.putMany die places).cell p.1 = p.2)))

/-- 13 R325, R327, 15 R367, R369, R370, R376, 16 R396, R398: the sync objects: a ring's slots and its poison, a phaser's arrivals and its advance,
a sequence's reservation. -/
def Obligations.SyncObjectRules : Prop :=
  (∀ (r : Ring) (slot n : Nat) (x : RingSlot) (owner : Option Loader) (src : Nat) (code : Byte),
    let others (r' : Ring) (i : Nat) : Prop := (∀ j, j ≠ i → r'.slots[j]? = r.slots[j]?) ∧ r'.expect = r.expect ∧ r'.ended = r.ended
    (r.slots[r.pnext]? = some x → (x.tag = .empty → ∃ r', r.take owner = some (r.pnext, r') ∧ r'.slots[r.pnext]? = some ⟨.filling, 0, owner⟩ ∧
      r'.pnext = (r.pnext + 1) % r.slots.length ∧ others r' r.pnext) ∧ (x.tag ≠ .empty → r.take owner = none)) ∧
    (r.slots[slot]? = some x → let r' := r.credit slot n
      (x.tag = .filling → x.deliv + n < r.expect → r'.slots[slot]? = some { x with deliv := x.deliv + n } ∧ r'.poison = r.poison ∧ others r' slot) ∧
      (x.tag = .filling → x.deliv + n = r.expect → r'.slots[slot]? = some { x with deliv := r.expect, tag := .full } ∧
        r'.poison = r.poison ∧ others r' slot) ∧
      (x.tag = .filling → r.expect < x.deliv + n → r'.slots = r.slots ∧ (r.poison = none → r'.poison = some (3, 1))) ∧
      (x.tag ≠ .filling → r'.slots = r.slots ∧ (r.poison = none → r'.poison = some (3, 2)))) ∧
    (r.poison ≠ none → r.spoil src code = r) ∧ (r.poison = none → r.spoil src code = { r with poison := some (src, code) })) ∧
  (∀ (p : Phaser) (k cycle core : Nat) (m : Member) (kid : W32) (cfg : Word),
    let active (mode : Nat) : Nat := (p.members.filter (fun y => y.2.mode == mode && !y.2.pending)).length
    let n := active 0 + active 2
    let arrived := (p.members.filter (fun y => y.2.arrived)).length
    let q := p.advance cycle cfg
    (p.ready = true ↔ p.poison = none ∧ p.recv = p.expect ∧ ((1 ≤ n ∧ arrived = n) ∨ (n = 0 ∧ 0 < p.expect))) ∧
    (q.phase = p.phase + 1 ∧ q.expect = 0 ∧ q.recv = 0 ∧ q.poison = p.poison ∧ q.scope = p.scope ∧
      (∀ y, y ∈ q.members ↔ ∃ z, z ∈ p.members ∧ z.2.dropping = false ∧ y.1 = z.1 ∧
        y.2 = { z.2 with pending := false, arrived := z.2.early, early := false })) ∧
    (m.arrived = false → m.pending = false → ∃ p', p.arrive k m cycle core kid = some (p', p.phase) ∧
      Sparse.find? p'.members k = some { m with arrived := true } ∧ ∀ j, j ≠ k → Sparse.find? p'.members j = Sparse.find? p.members j) ∧
    (m.arrived = true ∨ m.pending = true → m.early = false → ∃ p', p.arrive k m cycle core kid = some (p', p.phase + 1) ∧
      Sparse.find? p'.members k = some { m with early := true } ∧ ∀ j, j ≠ k → Sparse.find? p'.members j = Sparse.find? p.members j) ∧
    (m.arrived = true ∨ m.pending = true → m.early = true → p.arrive k m cycle core kid = none)) ∧
  (∀ (s : State) (m : SyncMsg) (q : Seq) (v : Word), paModule m.addr = s.modid → s.seq? m.addr = some q → s.spoiled m.addr (64 + 16 * q.npages) = false →
    q.released = false →
    let op : SyncMsg := { m with op := .sqres v }
    (v.toNat = 0 ∨ 256 < v.toNat → s.seqOp op = s.answer op 0 (seqWord 4 5 0) false) ∧
    (0 < v.toNat → v.toNat ≤ 256 →
      (256 < q.rlen - q.clen + v.toNat → s.seqOp op = s.answer op 0 (seqWord 6 0 0) false) ∧
      (q.rlen - q.clen + v.toNat ≤ 256 → q.capacity < q.rlen + v.toNat → s.seqOp op = s.answer op 0 (seqWord 7 0 0) false) ∧
      (q.rlen - q.clen + v.toNat ≤ 256 → q.rlen + v.toNat ≤ q.capacity →
        ∃ o, ({ s with objs := o } : State).seq? m.addr = some { q with rlen := q.rlen + v.toNat } ∧
          s.seqOp op = ({ s with objs := o } : State).answer op (BitVec.ofNat 64 q.rlen) (seqWord 0 0 (q.rlen + v.toNat)) false)))

/-! ## Registers, islands, power (12, 17, 18, 19) -/

/-- 12 R304, R306, 17 R429 to R435, 18 R441 to R445, 19 R449 to R451, R476 to R478, 01 R11, R12: each step by which a register is written, an
island changes its state, or the module loses and regains its power, where it acts. The model's choices: DRAM reads zero after a loss
(notes/assumptions/1.md), registers and queues come back at their reset values (2.md, 40.md), low bits of base registers are dropped (22.md),
banks are numbered as 44.md says. -/
def Obligations.ModuleSteps : Prop :=
  ∀ (s : State), let a := s.about
    let v := a.value
    let i := s.island a.n
    let goes (n : Nat) (st : IslandSt) (ns : Nat) (t : State) : Prop := (t.island n).going = some (st, s.ns + ns) ∧ (t.island n).st = (s.island n).st
    (s.answers = true → s.hostUp = true →
      (a.flag = false →
        (∀ q, q < 64 → a.n = 0x10000 + 0x40 * q → Answers .registerWrite s (fun t => (t.queue q).qbase = v &&& ~~~(0xFF : Word))) ∧
        (∀ q, q < 64 → a.n = 0x10020 + 0x40 * q → Answers .registerWrite s (fun t => (t.queue q).qcbase = v &&& ~~~(0xF : Word))) ∧
        (a.n = 0x20000 → Answers .registerWrite s (fun t => t.xregs.ptroot.toNat = v.toNat / 2 ^ 13 % 2 ^ 39 * 2 ^ 13)) ∧
        (∀ d, d < 64 → a.n = 0x100000 + 0x1000 * d + 0xC0 → Answers .registerWrite s (fun t =>
          (t.cfgOf d).ctxbase.toNat = v.toNat / 2 ^ 16 % 2 ^ 36 * 2 ^ 16 ∧ t.dies = s.dies ∧ ∀ e, e ≠ d → t.cfgOf e = s.cfgOf e))) ∧
      (a.flag = true → a.n = 0 → s.mss.mbcmd.getLsbD 63 = false → v.getLsbD 63 = true → 1 ≤ v.toNat % 256 → v.toNat % 256 ≤ 12 →
        Answers .registerWrite s (fun t => t.mss.mbcmd = BitVec.ofNat 64 (2 ^ 63 + v.toNat % 256) ∧
          t.mss.mbstat = BitVec.ofNat 64 (0x100 + v.toNat % 256))) ∧
      Answers .rasstatClear s (fun t => (t.die a.die).cfg =
        { (s.die a.die).cfg with rasstat := if v.getLsbD 0 then (s.die a.die).cfg.rasstat &&& ~~~(1 : Word) else (s.die a.die).cfg.rasstat }) ∧
      (s.xregs.busy = false → Answers .tlbinvWrite s (fun t => t.xregs.busy = true ∧
        (v.getLsbD 63 = true → t.walked = [] ∧ ∀ n, (t.core n).tlb = [] ∧ (t.die n).l2tlb = []) ∧
        (∀ n e, v.toNat / 2 ^ 16 % 2 ^ 41 = e.unit → e.big = false → e ∉ (t.core n).tlb ∧ e ∉ (t.die n).l2tlb) ∧
        ∀ n e, v.getLsbD 63 = false → e.big = false → e.unit < v.toNat / 2 ^ 16 % 2 ^ 41 ∨
          v.toNat / 2 ^ 16 % 2 ^ 41 + v.toNat % 2 ^ 16 < e.unit → (e ∈ (t.core n).tlb ↔ e ∈ (s.core n).tlb))) ∧
      (s.faults.find? (fun g => g.token == v.setWidth 32 && g.written && s.waitsFor g) = none → exec .fqrespWrite s = .next s) ∧
      (∀ f, s.faults.find? (fun g => g.token == v.setWidth 32 && g.written && s.waitsFor g) = some f → v.getLsbD 32 = false →
        Answers .fqrespWrite s (fun t => t.faults = s.faults.filter (fun g => g.token != v.setWidth 32) ∧
          ∀ m r w, m ∈ s.members f.kernel f.slice → (s.core m).run = some r → r.leave = some (.pageFault w) →
            (t.core m).run = some { r with leave := none }))) ∧
    (s.holdsTranslations = false → Answers .tlbinvComplete s (fun t => t = { s with xregs := { s.xregs with busy := false } })) ∧
    Answers .configApply s (fun t => (t.die a.die).cfg = { s.cfgOf a.die with
      dqerrcnt := (s.die a.die).cfg.dqerrcnt, dqerrw := (s.die a.die).cfg.dqerrw
      rasstat := (s.die a.die).cfg.rasstat, rasaddr := (s.die a.die).cfg.rasaddr }) ∧
    (a.flag = true → Answers .scrubVisit s (fun t => t.poisoned a.value.toNat = true ∧ (a.len < Config.fuse 5 → t.mem = s.mem))) ∧
    (a.flag = false → Config.fuse 5 ≤ a.len → a.n ∉ s.lost → a.n < 40960 →
      (a.n ∉ s.bch → Answers .scrubVisit s (fun t => t = { s with bch := s.bch ++ [a.n] })) ∧
      (a.n ∈ s.bch → 36864 ≤ a.n → Answers .scrubVisit s (fun t => t.lost = s.lost ++ [a.n])) ∧
      (a.n ∈ s.bch → a.n < 36864 → Answers .scrubVisit s (fun t => t.mem = s.mem ∧
        Sparse.get t.spares 0 (a.n / 18) = min 32 (Sparse.get s.spares 0 (a.n / 18) + a.picks.length)))) ∧
    -- islands
    (∀ st at_, i.going = some (st, at_) → at_ ≤ s.ns → i.wake = false → Answers .islandTransitionComplete s (fun t =>
      t.island a.n = ⟨st, s.ns, none, false⟩ ∧ (st = .off → a.n < 512 → ∀ x, tileBase s.modid (4 * a.n) ≤ x →
        x < tileBase s.modid (4 * a.n) + 0x800000 → Mem.read t.mem x = 0 ∧ t.poisoned x = false) ∧
      (st = .run → 512 ≤ a.n → a.n < 576 → i.st = .retain ∨ i.st = .off → (t.die (a.n - 512)).cfg = { s.cfgOf (a.n - 512) with
        dqerrcnt := (s.die (a.n - 512)).cfg.dqerrcnt, dqerrw := (s.die (a.n - 512)).cfg.dqerrw
        rasstat := (s.die (a.n - 512)).cfg.rasstat, rasaddr := (s.die (a.n - 512)).cfg.rasaddr }))) ∧
    (a.n < 512 → s.awake a.n = true → s.quadTaken a.n = false → Answers .quadIslandIdle s (goes a.n .idle 10)) ∧
    (let us := (s.die (islandDie a.n)).cfg.evtcfg.toNat % 2 ^ 16;
      a.n < 640 ∧ i.st = .idle ∧ i.going = none ∧ us ≠ 0xFFFF ∧ i.since + 1000 * us ≤ s.ns ∧ s.mayLower a.n = true →
      Answers .idle2retExpiry s (fun t => goes a.n .retain 100 t ∧
        (a.n < 512 → ∀ p, p < 4 → (t.core (4 * a.n + p)).l1 = [] ∧ (t.core (4 * a.n + p)).icache = [] ∧ (t.core (4 * a.n + p)).tlb = []))) ∧
    (let evt := (s.die (islandDie a.n)).cfg.evtcfg.toNat
      let us := evt / 2 ^ 16 % 2 ^ 16;
      (a.n < 512 ∨ (576 ≤ a.n ∧ a.n < 640)) → i.st = .retain ∧ i.going = none ∧ us ≠ 0xFFFF ∧ i.since + 1000 * us ≤ s.ns ∧ s.mayLower a.n = true →
        evt / 2 ^ 32 % 2 = 0 → Answers .ret2offExpiry s (goes a.n .off 1000)) ∧
    (a.die < 64 → s.awake (512 + a.die) = true → s.uncoreBusy a.die = false → Answers .uncoreIdle s (goes (512 + a.die) .idle 10)) ∧
    (580 ≤ a.n → a.n < 640 → s.awake a.n = true → a.flag = false →
      (∀ c, c < 4 → let d := (a.n - 576) / 4 * 4 + c; s.awake (512 + d) = false ∨ s.uncoreBusy d = false) → Answers .bdieQuarterIdle s (goes a.n .idle 10)) ∧
    -- power
    (s.frozenPower = false → Answers .powerFailWarning s (fun t => t.frozenPower = true ∧ t.mem = s.mem ∧
      ∀ n m, m ∈ (t.core n).images → m.complete = true)) ∧
    (let keeps (t : State) : Prop := t.kernels = [] ∧ t.objs = [] ∧ t.queues = [] ∧ t.frozenPower = false ∧ t.floors = s.floors ∧
        t.sealedDram = s.sealedDram ∧ (∀ n, (t.core n).run = none ∧ (t.core n).regs = Regs.zero) ∧
        (s.memOk → ∀ x, paModule x = s.modid → rangeOf x = .mram → Mem.read t.mem x = Mem.read s.mem x) ∧
        (s.memOk → ∀ x, paModule x = s.modid → rangeOf x = .dram ∨ rangeOf x = .tile → Mem.read t.mem x = 0);
      Answers .coldReset s keeps ∧
      (s.mss.boot ≠ .deepOff → s.frozenPower = true → Answers .powerReturn s (fun t => keeps t ∧ t.mss.restorePending = true ∧
        t.saved.isSome = true ∧ (t.island 0).st = .off))) ∧
    (let leaves (t : State) : Prop := t.mss.bootCount = s.mss.bootCount + 1 ∧ t.mss.boot ≠ .deepOff ∧
        ∀ n, n < 640 → (s.island n).st = .off → (s.island n).going = none → (t.island n).going = some (.run, s.ns + 2400);
      s.mss.boot = .deepOff → Answers .perstRelease s leaves ∧ Answers .powerReturn s leaves) ∧
    (s.mss.boot = .booting →
      Answers .firmwareReady s (fun t => t.mss.boot = .running ∧ t.mss.bootCount = 0 ∧
        t.mss.rollback = max s.mss.rollback (if s.mss.runB then s.mss.slotB else s.mss.slotA).rollback) ∧
      Answers .firmwareWatchdogExpiry s (fun t => t.mss.bootCount = s.mss.bootCount + 1 ∧ t.mem = s.mem))

/-! ## The management subsystem, links, the pod (19, 01) -/

/-- 19 R453, R461, R462, R465, R466, R468, R469, R472, R473, R476 to R478: each command of the mailbox, where it acts. The model's choices: the
layouts of argument buffers and of the firmware image, and how an export with an uncorrectable error ends (notes/assumptions/33.md), the status
of a RESTORE that none awaits (42.md), DRAM as zero after deep-off (1.md). -/
def Obligations.MailboxCommands : Prop :=
  ∀ (s : State), let a := s.about
    let m := s.mss
    let arg (off n : Nat) : Nat := leNat (Mem.reads m.buf off n)
    let cmd (c : Nat) (i : Instr) (P : State → Prop) : Prop := Commanded s c → Answers i s P
    -- minimal mode answers four commands
    (∀ r c i, m.boot = .minimal r → m.exporting = none → m.mbcmd = BitVec.ofNat 64 (2 ^ 63 + c) →
      (c, i) ∈ [(1, Instr.restore), (2, .powerLimit), (3, .privLaunch), (4, .sealDram), (5, .exportRange), (10, .importOpen),
        (11, .importClose), (12, .deepOff)] → Answers i s (fun t => Ended t c 5)) ∧
    (m.restorePending = false → cmd 1 .restore (fun t => Ended t 1 2 ∨ Ended t 1 3)) ∧
    (∀ x, s.saved = some x → m.restorePending = true → (∀ p ∈ x.kernels, recPersist p.2.record = true) →
      cmd 1 .restore (fun t => Ended t 1 0 ∧ t.mss.restorePending = false ∧ t.saved = none)) ∧
    cmd 2 .powerLimit (fun t => Ended t 2 0 ∧ t.mss.powerLimit = min (arg 0 4) (Config.fuse 0)) ∧
    (s.proven 0x140 = none → cmd 3 .privLaunch (fun t => Ended t 3 2)) ∧
    (∀ x, s.proven 0x140 = some x → m.logRoom logPriv = true → s.frozenPower = false → s.kidRoom ≠ none →
      recCheck (BitVec.ofNat 2048 (arg 0x40 256)) = none → cmd 3 .privLaunch (fun t => Ended t 3 0 ∧ t.accepted = s.accepted + 1 ∧
        ∃ k, t.kernel? s.accepted = some k ∧ k.priv = true ∧ k.record = BitVec.ofNat 2048 (arg 0x40 256))) ∧
    (let pa := arg 0 8
      let n := arg 8 8
      pa % 0x10000 = 0 → n % 0x10000 = 0 → 0 < n → pa < 2 ^ 52 → paModule pa = s.modid → paLocal pa + n ≤ 0x018000000000 →
        m.logRoom logSeal = true → cmd 4 .sealDram (fun t => Ended t 4 0 ∧ (∀ x, pa ≤ x → x < pa + n → Mem.read t.mem x = 0) ∧
          ((pa, n) ∈ t.sealedDram ↔ arg 0x10 1 % 2 = 1) ∧
          ∀ x, x < pa ∨ pa + n ≤ x →
            ((∃ r ∈ t.sealedDram, r.1 ≤ x ∧ x < r.1 + r.2) ↔ ∃ r ∈ s.sealedDram, r.1 ≤ x ∧ x < r.1 + r.2))) ∧
    (let pa := arg 0 8
      let n := arg 8 8
      pa % 4096 = 0 → n % 4096 = 0 → 0 < n → n ≤ 2 ^ 46 → pa < 2 ^ 52 → m.logRoom logExport = true →
        (∀ j, j < n / 4096 → s.inGlove (pa + 4096 * j) = true ∧ s.blockValid (pa + 4096 * j) = true) →
        cmd 5 .exportRange (fun t => (Config.fuse 3 = 0 → Ended t 5 2) ∧
          (Config.fuse 3 ≠ 0 → t.mss.exporting = some ⟨pa, arg 0x10 8, n⟩ ∧ t.mss.mbcmd = m.mbcmd))) ∧
    (∀ e, m.exporting = some e → 4096 ≤ (m.accrue s.ns).tokens → s.hostUp = true → m.mbcmd = BitVec.ofNat 64 (2 ^ 63 + 5) →
      ((∃ j, j < 64 ∧ s.readFails (e.src + 64 * j) = true) → Answers .exportUnit s (fun t => t.mss.exporting = none ∧ t.hostMem = s.hostMem ∧
        (Ended t 5 2 ∨ Ended t 5 3))) ∧
      ((∀ j, j < 64 → s.readFails (e.src + 64 * j) = false) → Answers .exportUnit s (fun t => t.mss.tokens = (m.accrue s.ns).tokens - 4096 ∧ t.mem = s.mem ∧
        (s.memOk → Mem.reads t.hostMem e.dst 4096 = s.bytes e.src 4096) ∧
        (e.left ≤ 4096 → Ended t 5 0 ∧ t.mss.exporting = none) ∧
        (4096 < e.left → t.mss.exporting = some ⟨e.src + 4096, e.dst + 4096, e.left - 4096⟩)))) ∧
    (∀ e, m.exporting = some e → (m.accrue s.ns).tokens < 4096 → Answers .exportUnit s (fun t => t.mem = s.mem ∧ t.hostMem = s.hostMem)) ∧
    (let first := arg 0 8
      let n := arg 8 8
      m.logFloor ≤ first → first + n ≤ m.logHead → cmd 6 .logRead (fun t => Ended t 6 0 ∧
        t.mss.checkpoint.seq = m.logHead - 1 ∧ t.mss.checkpoint.chain = m.chain ∧ t.mss.checkpoint.dropped = m.dropped ∧
        t.mss.ckRead = m.logHead - 1 ∧
        (s.memOk → (∀ j, j < n → leNat (Mem.reads t.hostMem (arg 0x10 8 + 64 * j) 64) = (Sparse.get m.log 0 (first + j)).toNat) ∧
          leNat (Mem.reads t.hostMem (arg 0x10 8 + 64 * n) 8) = (m.logHead - 1) % 2 ^ 64 ∧
          leNat (Mem.reads t.hostMem (arg 0x10 8 + 64 * n + 56) 8) = m.dropped % 2 ^ 64))) ∧
    (arg 0 8 ≤ m.ckRead → cmd 7 .logAck (fun t => Ended t 7 0 ∧ t.mss.logFloor = max m.logFloor (arg 0 8) ∧ t.mss.logHead = m.logHead)) ∧
    (m.ckRead < arg 0 8 → cmd 7 .logAck (fun t => t.mss.logFloor = m.logFloor ∧ (Ended t 7 2 ∨ Ended t 7 3))) ∧
    (let image := s.hostBytes (arg 0x10 8) (arg 0x18 4);
      a.ok = true → cmd 8 .fwUpdate (fun t => Ended t 8 0 ∧ t.mss.activeB = (!m.activeB) ∧ t.mss.boot = .running ∧
        (let f := if m.activeB then t.mss.slotA else t.mss.slotB;
          f.version.toNat = leNat (image.take 4) ∧ f.rollback = leNat ((image.drop 8).take 8) ∧ f.valid = true) ∧
        (if m.activeB then t.mss.slotB = m.slotB else t.mss.slotA = m.slotA))) ∧
    cmd 9 .status (fun t => Ended t 9 0 ∧ (Memory.wf m.buf = true → let b := t.mss.buf
      Mem.read b 2 = (if m.restorePending then 1 else 0) ∧ leNat (Mem.reads b 8 8) = m.logHead % 2 ^ 64 ∧
        leNat (Mem.reads b 16 8) = m.logFloor % 2 ^ 64 ∧ leNat (Mem.reads b 24 8) = m.dropped % 2 ^ 64)) ∧
    (s.proven 0x20 = none → cmd 10 .importOpen (fun t => Ended t 10 2)) ∧
    (∀ x n, let core := arg 4 2
      let off := arg 8 4
      let len := arg 0xC 4
      s.proven 0x20 = some x → core < 2048 → arg 6 2 = 0 → off % 4096 = 0 → len % 4096 = 0 → 0 < len → off + len ≤ 0x400000 →
        n < 16 → Sparse.find? m.imports n = none → (∀ j, j < n → Sparse.find? m.imports j ≠ none) →
        (∀ p ∈ m.imports, p.2.core = core → off + len ≤ p.2.off ∨ p.2.off + p.2.len ≤ off) →
        cmd 10 .importOpen (fun t => Ended t 10 0 ∧ ∃ i, Sparse.find? t.mss.imports n = some i ∧ i.spdm = x.id ∧ i.core = core ∧
          i.off = off ∧ i.len = len ∧ i.next = 0 ∧ i.written = [] ∧
          ∀ j, j < len / 4096 → Sparse.get t.blocks blkValid (core * 1024 + off / 4096 + j) = blkOpen)) ∧
    (s.proven 8 = none → cmd 11 .importClose (fun t => Ended t 11 2)) ∧
    (∀ x i, s.proven 8 = some x → arg 5 3 = 0 → Sparse.find? m.imports (arg 4 1) = some i → i.spdm = x.id → m.logRoom logAbort = true →
      cmd 11 .importClose (fun t => Ended t 11 0 ∧
        ∀ j, j < i.len / 4096 → Sparse.get t.blocks blkValid (i.core * 1024 + i.off / 4096 + j) = blkInvalid)) ∧
    ((∀ q, q < 64 → (s.queue q).qcfg.getLsbD 0 = false) → (∀ p ∈ s.kernels, p.2.done ≠ none) → m.restorePending = false →
      cmd 12 .deepOff (fun t => t.mss.boot = .deepOff ∧ t.kernels = [] ∧ t.cfgFile = s.cfgFile ∧ 65 ∈ t.irqs ∧
        ∀ x, paModule x = s.modid → rangeOf x = .dram ∨ rangeOf x = .tile → Mem.read t.mem x = 0))

/-- 19 R470: each attestation message in its order: a message whose turn it is gets its answer and joins the transcript, another is refused; the
certificate chain ends in the identity key. The codes of the messages are DMTF's, which the spec does not give (notes/assumptions/8.md, the
model's choice). -/
def Obligations.AttestationMessages : Prop :=
  ∀ (s : State), let a := s.about
    let m := s.mss
    let id := BitVec.ofNat 32 a.n
    let said (code : Byte) : Prop := code ∈ m.transcript
    let agreed := said 0x84 ∧ said 0xE1 ∧ said 0xE3
    let answersWith (i : Instr) (code : Byte) (P : State → Prop) : Prop := Answers i s (fun t => t.mss.response.head? = some (code &&& 0x7F) ∧
      t.mss.transcript = (if code = 0x84 then [] else m.transcript) ++ [code, code &&& 0x7F] ∧ t.mem = s.mem ∧ P t)
    let refuses (i : Instr) : Prop := Answers i s (fun t => t.mss.response = [0x7F, 0x04] ∧ t.mss.transcript = m.transcript ∧ t.mem = s.mem)
    s.answers = true →
      answersWith .getVersion 0x84 (fun t => t.mss.sessions = m.sessions) ∧
      (said 0x84 → answersWith .getCapabilities 0xE1 (fun t => t.mss.sessions = m.sessions)) ∧ (¬said 0x84 → refuses .getCapabilities) ∧
      (said 0xE1 → answersWith .negotiateAlgorithms 0xE3 (fun t => t.mss.sessions = m.sessions)) ∧ (¬said 0xE1 → refuses .negotiateAlgorithms) ∧
      (agreed → answersWith .getDigests 0x81 (fun t => t.mss.response = 0x01 :: sha384 certificateChain ∧ t.mss.response.length = 49) ∧
        answersWith .getCertificate 0x82 (fun t => t.mss.sessions = m.sessions ∧ t.mss.response = 0x02 :: certificateChain ∧
          ∃ l, certificateChain = l ++ beBytes 96 Config.identityKey.toNat) ∧
        answersWith .challenge 0x83 (fun t => t.mss.response.length = 97) ∧
        answersWith .getMeasurements 0xE0 (fun t => 1 ≤ a.n → a.n ≤ 5 → ∃ sig : List Byte, sig.length = 96 ∧
          t.mss.response = 0x60 :: BitVec.ofNat 8 a.n :: m.measurement a.n ++ sig) ∧
        answersWith .keyExchange 0xE4 (fun t => ∃ x, x ∈ t.mss.sessions ∧ x.established = false ∧ x.port = a.n ∧
          x.id.toNat % 2 ^ 16 = a.value.toNat % 2 ^ 16)) ∧
      (¬agreed → refuses .getDigests ∧ refuses .getCertificate ∧ refuses .challenge ∧ refuses .getMeasurements ∧ refuses .keyExchange) ∧
      (∀ x, x ∈ m.sessions → x.id = id → x.established = false → a.ok = true →
        answersWith .finish 0xE5 (fun t => ∀ y, y ∈ t.mss.sessions → y.id = id → y.established = true)) ∧
      (a.ok = false → refuses .finish) ∧
      (∀ x, x ∈ m.sessions → x.id = id → x.established = true →
        answersWith .endSession 0xEC (fun t => ∀ y, y ∈ t.mss.sessions ↔ y ∈ m.sessions ∧ y.id ≠ id)) ∧
      ((∀ x, x ∈ m.sessions → x.id = id → x.established = false) → refuses .endSession)

/-- 01 R11, 19 R449, R455, R458, R461, R469: the Cuff's bucket and its two registers, which only go down; host links and the pod's routes as they
come and go, with what can then be reached and in which mode; and the clock of a quad. The model's choice (notes/assumptions/48.md): a clock
the spec does not allow is left out. -/
def Obligations.CuffLinksAndPod : Prop :=
  ∀ (s : State), let a := s.about
    let m := s.mss
    let v := a.value.toNat % 2 ^ 32
    let gain := m.frac + m.rate * (s.ns - m.accrued)
    Answers .cuffTokenAccrual s (fun t => t.mss.tokens = min (m.tokens + gain / 1000000000) m.burst ∧ t.mss.accrued = max m.accrued s.ns ∧
      t.mem = s.mem) ∧
    (v < m.rate → Answers .cuffrateWrite s (fun t => t.mss.rate = v ∧ t.mss.burst = m.burst ∧ t.irqs.head? = some 66)) ∧
    (m.rate ≤ v → exec .cuffrateWrite s = .next s) ∧
    (v < m.burst → Answers .cuffburstWrite s (fun t => t.mss.burst = v ∧ t.mss.rate = m.rate ∧ t.mss.tokens ≤ v ∧ t.irqs.head? = some 66)) ∧
    (m.burst ≤ v → exec .cuffburstWrite s = .next s) ∧
    Answers .hostLinkReset s (fun t => (∀ y, y ∈ t.mss.sessions ↔ y ∈ m.sessions ∧ y.port ≠ a.n) ∧ t.mem = s.mem) ∧
    (a.n < 2 → Answers .hostLinkDown s (fun t => (∀ p, p ∈ t.linksDown ↔ p ∈ s.linksDown ∨ p = a.n) ∧
      (t.hostUp = true ↔ (1 - a.n) ∉ s.linksDown))) ∧
    Answers .hostLinkUp s (fun t => (∀ p, p ∈ t.linksDown ↔ p ∈ s.linksDown ∧ p ≠ a.n) ∧ (a.n < 2 → t.hostUp = true) ∧
      (a.n < 2 → a.flag = false → t.hostCxl = true) ∧
      ∀ p, p ∈ t.plainPorts ↔ (p ∈ s.plainPorts ∧ p ≠ a.n) ∨ (a.flag = true ∧ p = a.n ∧ a.n < 2)) ∧
    (s.kernels = [] → s.objs = [] → s.msgs = [] → s.cmds = [] → Answers .podBringup s (fun t => t.modid = a.n % 64 ∧
      (∀ k, k ∈ t.noRoute ↔ k < 64 ∧ k ≠ a.n % 64 ∧ ∀ p, p ∈ a.picks → p % 64 ≠ k) ∧
      ∀ k, k < 64 → Sparse.get t.podPorts [] k = ((a.picks.filter (fun p => p % 64 == k)).map (fun p => p / 64 % 16)).take 2)) ∧
    (a.n < 64 → a.n ≠ s.modid → Answers .podRouteLoss s (fun t => a.n ∈ t.noRoute ∧ t.mem = s.mem ∧
      ∀ pa, paModule pa = a.n → t.unbacked pa = true)) ∧
    Answers .podRouteRestore s (fun t => (∀ k, k ∈ t.noRoute ↔ k ∈ s.noRoute ∧ k ≠ a.n) ∧
      ∀ pa, paModule pa = a.n → a.n ≠ s.modid → t.unbacked pa = false) ∧
    (400 ≤ a.n → a.n ≤ 3600 → a.n % 100 = 0 → a.quad < 512 → Answers .powerManagerThrottle s (fun t => Sparse.find? t.mhz a.quad = some a.n ∧
      ∀ q, q ≠ a.quad → Sparse.find? t.mhz q = Sparse.find? s.mhz q)) ∧
    (a.n < 400 ∨ 3600 < a.n ∨ a.n % 100 ≠ 0 → exec .powerManagerThrottle s = .next s)

/-! ## The whole machine (05, 03, 04, 15, 17) -/

/-- 05 R95, R97: whatever an instruction of a group does when it runs, no register, accumulator, stream, loop level, cache, trap register,
byte of memory or other core changes before the group completes: the state differs in the open group's own record and in pending marks of w
registers alone, or the instruction took a trap from there, or it is a wait that sends its request once. -/
def Obligations.GroupsHoldTheirEffects : Prop :=
  ∀ (i : Instr) (s t : State), (encode i).isSome = true → exec i s = .next t →
    (∃ s', (s' = s ∨ ∃ k', s' = s.setCur k' ∧ OnlyGroup s.cur k') ∧
      (t = s' ∨ ∃ slot code sub addr kind, t = s'.faultAt slot code sub addr kind)) ∨
    (s.cur.wait.answer = none ∧ s.cur.wait.sent = false ∧ t.cur.regs = s.cur.regs ∧ t.cur.grp = s.cur.grp ∧ t.cur.pc = s.cur.pc ∧
      match i with | .await poll _ => poll = false | .wmon _ _ _ _ _ _ | .phwait _ _ _ | .phsw _ _ _ => True | _ => False)

/-- 03 R44, R56, 04 R79, 15 R384, 17 R427, R431, 12 R303, 18 R442: what the registers of the module read after reset, where the spec gives a
reset value. That the log's first entry has SEQ 1, so that the log starts empty at 1, is the model's reading (log entry 98); that MBCMD
is 0 and no core runs a slice, a group or a handler then is its choice (log entry 2). -/
def Obligations.ResetValues : Prop :=
  let s := State.reset
  (∀ d, (s.cfgOf d).schedcfg = 0x0001000A00320014 ∧ (s.cfgOf d).strgcfg = 0x00000000010C07D0 ∧ (s.cfgOf d).evtcfg = 0x0000000000C80005 ∧
    (s.die d).cfg = s.cfgOf d ∧ s.readCfg d 0x10 = 0 ∧ s.readCfg d 0x18 = 0 ∧ s.readCfg d 0xE0 = 0 ∧ s.readCfg d 0xE8 = 0) ∧
  (∀ q, (s.queue q).qcfg = 0 ∧ (s.queue q).qstat = 0 ∧ (s.queue q).qtail = 0 ∧ (s.queue q).qhead = 0) ∧
  (s.xregs.busy = false ∧ s.xregs.fqcfg = 0 ∧ s.xregs.fqtail = 0 ∧ s.xregs.fqhead = 0) ∧
  (∀ n, (s.core n).run = none ∧ (s.core n).trap.active = false ∧ (s.core n).grp.active = false) ∧
  (s.mss.mbcmd = 0 ∧ s.mss.rate = Config.fuse 1 ∧ s.mss.burst = Config.fuse 2 ∧ s.mss.tokens = s.mss.burst ∧ s.mss.logHead = 1)
end

