-- ==== Sys2Proof/Laws/Sparse.lean ====
section
/-!
SUPPORT. What setting, removing and merging keys does to a list of pairs: reads after writes, and that keys stay strictly rising. The
read laws hold of every list, rising or not.
-/
namespace Sys2Proof

variable {α : Type}

@[simp] theorem Sparse.find?_nil (k : Nat) : Sparse.find? ([] : Sparse α) k = none := rfl

@[simp] theorem Sparse.get_nil (d : α) (k : Nat) : Sparse.get ([] : Sparse α) d k = d := rfl

@[simp] theorem Sparse.find?_put_self (m : Sparse α) (k : Nat) (v : α) : Sparse.find? (Sparse.put m k v) k = some v := by
  induction m with
  | nil => simp [Sparse.put, Sparse.find?]
  | cons p m ih =>
    obtain ⟨j, w⟩ := p
    simp only [Sparse.put]
    split
    · simp [Sparse.find?]
    · split
      · simp [Sparse.find?]
      · have : ¬ j = k := fun h => by subst h; simp_all
        simp [Sparse.find?, *]

theorem Sparse.find?_put_ne (m : Sparse α) (k l : Nat) (v : α) (h : l ≠ k) : Sparse.find? (Sparse.put m k v) l = Sparse.find? m l := by
  induction m with
  | nil => simp [Sparse.put, Sparse.find?, Ne.symm h]
  | cons p m ih =>
    obtain ⟨j, w⟩ := p
    simp only [Sparse.put]
    split
    · rename_i hk
      simp only [Sparse.find?, Ne.symm h, ite_false]
      split
      · rename_i hl
        have h1 : ¬ j = l := by omega
        have h2 : l < j := by omega
        simp [h1, h2]
      · rfl
    · split
      · rename_i hk hj
        subst hj
        simp [Sparse.find?, Ne.symm h]
      · simp only [Sparse.find?, ih]

@[simp] theorem Sparse.get_put_self (m : Sparse α) (d : α) (k : Nat) (v : α) : Sparse.get (Sparse.put m k v) d k = v := by
  simp [Sparse.get]

theorem Sparse.get_put_ne (m : Sparse α) (d : α) (k l : Nat) (v : α) (h : l ≠ k) : Sparse.get (Sparse.put m k v) d l = Sparse.get m d l := by
  simp [Sparse.get, Sparse.find?_put_ne m k l v h]

theorem Sparse.get_put (m : Sparse α) (d : α) (k l : Nat) (v : α) :
    Sparse.get (Sparse.put m k v) d l = if l = k then v else Sparse.get m d l := by
  split
  · subst_vars; simp
  · exact Sparse.get_put_ne m d k l v ‹_›

@[simp] theorem Sparse.put_put (m : Sparse α) (k : Nat) (v w : α) : Sparse.put (Sparse.put m k v) k w = Sparse.put m k w := by
  induction m with
  | nil => simp [Sparse.put]
  | cons p m ih =>
    obtain ⟨j, x⟩ := p
    simp only [Sparse.put]
    split
    · simp [Sparse.put]
    · split
      · simp [Sparse.put]
      · simp [Sparse.put, *]

/-- Every key is above a bound. -/
def Sparse.above (b : Nat) (m : Sparse α) : Prop := ∀ p ∈ m, b < p.1

theorem Sparse.rising_cons (i : Nat) (x : α) (m : Sparse α) :
    Sparse.rising ((i, x) :: m) = true ↔ Sparse.above i m ∧ Sparse.rising m = true := by
  induction m generalizing i x with
  | nil => simp [Sparse.rising, Sparse.above]
  | cons p m ih =>
    obtain ⟨j, y⟩ := p
    simp only [Sparse.rising, Bool.and_eq_true, decide_eq_true_eq, Sparse.above, List.mem_cons, forall_eq_or_imp]
    constructor
    · rintro ⟨h, hr⟩
      exact ⟨⟨h, fun p hp => Nat.lt_trans h (((ih j y).1 hr).1 p hp)⟩, hr⟩
    · rintro ⟨⟨h, _⟩, hr⟩
      exact ⟨h, hr⟩

theorem Sparse.above_put (b k : Nat) (v : α) (m : Sparse α) (h : Sparse.above b m) (hk : b < k) : Sparse.above b (Sparse.put m k v) := by
  induction m with
  | nil => simpa [Sparse.put, Sparse.above] using hk
  | cons p m ih =>
    obtain ⟨j, w⟩ := p
    have hj : b < j := h (j, w) (by simp)
    have hm : Sparse.above b m := fun p hp => h p (by simp [hp])
    simp only [Sparse.put]
    split
    · intro p hp
      simp only [List.mem_cons] at hp
      rcases hp with rfl | rfl | hp
      · exact hk
      · exact hj
      · exact hm p hp
    · split
      · intro p hp
        simp only [List.mem_cons] at hp
        rcases hp with rfl | hp
        · exact hk
        · exact hm p hp
      · intro p hp
        simp only [List.mem_cons] at hp
        rcases hp with rfl | hp
        · exact hj
        · exact ih hm p hp

theorem Sparse.rising_put (k : Nat) (v : α) (m : Sparse α) (h : Sparse.rising m = true) : Sparse.rising (Sparse.put m k v) = true := by
  induction m with
  | nil => simp [Sparse.put, Sparse.rising]
  | cons p m ih =>
    obtain ⟨j, w⟩ := p
    have hc := (Sparse.rising_cons j w m).1 h
    simp only [Sparse.put]
    split
    · rename_i hk
      simp [Sparse.rising, hk, h]
    · split
      · rename_i hj
        subst hj
        exact (Sparse.rising_cons k v m).2 hc
      · rename_i h1 h2
        exact (Sparse.rising_cons j w _).2 ⟨Sparse.above_put j k v m hc.1 (by omega), ih hc.2⟩

/-- A filter keeps keys rising. -/
theorem Sparse.rising_filter (f : Nat × α → Bool) (m : Sparse α) (h : Sparse.rising m = true) : Sparse.rising (m.filter f) = true := by
  induction m with
  | nil => rfl
  | cons p m ih =>
    obtain ⟨j, w⟩ := p
    have hc := (Sparse.rising_cons j w m).1 h
    simp only [List.filter_cons]
    split
    · exact (Sparse.rising_cons j w _).2 ⟨fun p hp => hc.1 p (List.mem_filter.1 hp).1, ih hc.2⟩
    · exact ih hc.2

theorem Sparse.erase_sub (k : Nat) (m : Sparse α) : ∀ p ∈ Sparse.erase m k, p ∈ m := by
  induction m with
  | nil => simp [Sparse.erase]
  | cons p m ih =>
    obtain ⟨j, w⟩ := p
    simp only [Sparse.erase]
    split
    · exact fun p hp => hp
    · split
      · exact fun p hp => List.mem_cons_of_mem _ hp
      · intro p hp
        simp only [List.mem_cons] at hp ⊢
        rcases hp with rfl | hp
        · exact Or.inl rfl
        · exact Or.inr (ih p hp)

theorem Sparse.rising_erase (k : Nat) (m : Sparse α) (h : Sparse.rising m = true) : Sparse.rising (Sparse.erase m k) = true := by
  induction m with
  | nil => rfl
  | cons p m ih =>
    obtain ⟨j, w⟩ := p
    have hc := (Sparse.rising_cons j w m).1 h
    simp only [Sparse.erase]
    split
    · exact h
    · split
      · exact hc.2
      · exact (Sparse.rising_cons j w _).2 ⟨fun p hp => hc.1 p (Sparse.erase_sub k m p hp), ih hc.2⟩

/-- A key below every key of a rising list is not held. -/
theorem Sparse.find?_above (k : Nat) (m : Sparse α) (h : Sparse.above k m) : Sparse.find? m k = none := by
  cases m with
  | nil => rfl
  | cons p m =>
    obtain ⟨j, w⟩ := p
    have hj : k < j := h (j, w) (by simp)
    have h1 : ¬ j = k := by omega
    simp [Sparse.find?, h1, hj]

theorem Sparse.find?_erase_self (k : Nat) (m : Sparse α) (h : Sparse.rising m = true) : Sparse.find? (Sparse.erase m k) k = none := by
  induction m with
  | nil => rfl
  | cons p m ih =>
    obtain ⟨j, w⟩ := p
    have hc := (Sparse.rising_cons j w m).1 h
    simp only [Sparse.erase]
    split
    · rename_i hk
      have h1 : ¬ j = k := by omega
      simp [Sparse.find?, h1, hk]
    · split
      · rename_i hk
        subst hk
        exact Sparse.find?_above _ _ hc.1
      · rename_i h1 h2
        have h3 : ¬ j = k := fun e => h2 e.symm
        simp [Sparse.find?, h3, h1, ih hc.2]

theorem Sparse.find?_erase_ne (k l : Nat) (m : Sparse α) (hne : l ≠ k) (h : Sparse.rising m = true) :
    Sparse.find? (Sparse.erase m k) l = Sparse.find? m l := by
  induction m with
  | nil => rfl
  | cons p m ih =>
    obtain ⟨j, w⟩ := p
    have hc := (Sparse.rising_cons j w m).1 h
    simp only [Sparse.erase]
    split
    · rfl
    · split
      · rename_i hk
        subst hk
        simp only [Sparse.find?, Ne.symm hne, ite_false]
        split
        · rename_i hl
          exact Sparse.find?_above _ _ (fun p hp => Nat.lt_trans hl (hc.1 p hp))
        · rfl
      · simp only [Sparse.find?, ih hc.2]

theorem Sparse.above_mergeFuel (b n : Nat) (x y : Sparse α) (hx : Sparse.above b x) (hy : Sparse.above b y) :
    Sparse.above b (Sparse.mergeFuel n x y) := by
  induction n generalizing x y with
  | zero => exact hy
  | succ n ih =>
    match x, y with
    | [], y => exact hy
    | (i, a) :: x, [] => exact hx
    | (i, a) :: x, (j, c) :: y =>
      have hi : b < i := hx (i, a) (by simp)
      have hj : b < j := hy (j, c) (by simp)
      have hx' : Sparse.above b x := fun p hp => hx p (by simp [hp])
      have hy' : Sparse.above b y := fun p hp => hy p (by simp [hp])
      simp only [Sparse.mergeFuel]
      split
      · intro p hp
        simp only [List.mem_cons] at hp
        rcases hp with rfl | hp
        · exact hi
        · exact ih x _ hx' hy p hp
      · split
        · intro p hp
          simp only [List.mem_cons] at hp
          rcases hp with rfl | hp
          · exact hj
          · exact ih _ y hx hy' p hp
        · intro p hp
          simp only [List.mem_cons] at hp
          rcases hp with rfl | hp
          · exact hj
          · exact ih x y hx' hy' p hp

theorem Sparse.rising_mergeFuel (n : Nat) (x y : Sparse α) (hx : Sparse.rising x = true) (hy : Sparse.rising y = true) :
    Sparse.rising (Sparse.mergeFuel n x y) = true := by
  induction n generalizing x y with
  | zero => exact hy
  | succ n ih =>
    match x, y with
    | [], y => simpa [Sparse.mergeFuel] using hy
    | (i, a) :: x, [] => simpa [Sparse.mergeFuel] using hx
    | (i, a) :: x, (j, c) :: y =>
      have cx := (Sparse.rising_cons i a x).1 hx
      have cy := (Sparse.rising_cons j c y).1 hy
      simp only [Sparse.mergeFuel]
      split
      · rename_i hij
        refine (Sparse.rising_cons i a _).2 ⟨Sparse.above_mergeFuel i n x _ cx.1 ?_, ih x _ cx.2 hy⟩
        intro p hp
        simp only [List.mem_cons] at hp
        rcases hp with rfl | hp
        · exact hij
        · exact Nat.lt_trans hij (cy.1 p hp)
      · split
        · rename_i hji
          refine (Sparse.rising_cons j c _).2 ⟨Sparse.above_mergeFuel j n _ y ?_ cy.1, ih _ y hx cy.2⟩
          intro p hp
          simp only [List.mem_cons] at hp
          rcases hp with rfl | hp
          · exact hji
          · exact Nat.lt_trans hji (cx.1 p hp)
        · rename_i h1 h2
          have he : i = j := by omega
          subst he
          exact (Sparse.rising_cons i c _).2 ⟨Sparse.above_mergeFuel i n x y cx.1 cy.1, ih x y cx.2 cy.2⟩

theorem Sparse.rising_merge (x y : Sparse α) (hx : Sparse.rising x = true) (hy : Sparse.rising y = true) :
    Sparse.rising (Sparse.merge x y) = true := Sparse.rising_mergeFuel _ x y hx hy

theorem Sparse.mem_mergeFuel (n : Nat) (x y : Sparse α) : ∀ p ∈ Sparse.mergeFuel n x y, p ∈ x ∨ p ∈ y := by
  induction n generalizing x y with
  | zero => exact fun p hp => Or.inr hp
  | succ n ih =>
    match x, y with
    | [], y => exact fun p hp => Or.inr hp
    | (i, a) :: x, [] => exact fun p hp => Or.inl hp
    | (i, a) :: x, (j, c) :: y =>
      intro p
      simp only [Sparse.mergeFuel]
      split
      · simp only [List.mem_cons]
        rintro (rfl | hp)
        · simp
        · rcases ih x _ p hp with h | h
          · simp [h]
          · exact Or.inr (by simpa using h)
      · split
        · simp only [List.mem_cons]
          rintro (rfl | hp)
          · simp
          · rcases ih _ y p hp with h | h
            · exact Or.inl (by simpa using h)
            · simp [h]
        · simp only [List.mem_cons]
          rintro (rfl | hp)
          · simp
          · rcases ih x y p hp with h | h <;> simp [h]

end Sys2Proof
end

