-- ==== Sys2Proof/Laws/State.lean ====
section
/-!
SUPPORT. Each update of State and Core, field by field: what it sets and what it leaves, so that no later proof opens a record update.
-/
namespace Sys2Proof.Machine

open Sys2Proof

/-! ## One core or one die set in the module -/

@[simp] theorem State.core_setCore_self (s : State) (n : Nat) (k : Core) : (s.setCore n k).core n = k := by
  simp [State.core, State.setCore, Sparse.get]
theorem State.core_setCore_of_ne (s : State) (n m : Nat) (k : Core) (h : m ≠ n) : (s.setCore n k).core m = s.core m := by
  exact Sparse.get_put_ne _ _ _ _ _ h
@[simp] theorem State.cur_setCur (s : State) (k : Core) : (s.setCur k).cur = k := State.core_setCore_self s s.me k
@[simp] theorem State.core_modCore_self (s : State) (n : Nat) (f : Core → Core) : (s.modCore n f).core n = f (s.core n) :=
  State.core_setCore_self s n _
theorem State.core_modCore_of_ne (s : State) (n m : Nat) (f : Core → Core) (h : m ≠ n) : (s.modCore n f).core m = s.core m :=
  State.core_setCore_of_ne s n m _ h
@[simp] theorem State.cur_modCur (s : State) (f : Core → Core) : (s.modCur f).cur = f s.cur := State.core_modCore_self s s.me f
@[simp] theorem State.die_setDie_self (s : State) (n : Nat) (d : Die) : (s.setDie n d).die n = d := by
  simp [State.die, State.setDie, Sparse.get]
@[simp] theorem State.die_modDie_self (s : State) (n : Nat) (f : Die → Die) : (s.modDie n f).die n = f (s.die n) :=
  State.die_setDie_self s n _
@[simp] theorem State.core_setDie (s : State) (n m : Nat) (d : Die) : (s.setDie n d).core m = s.core m := rfl
@[simp] theorem State.core_modDie (s : State) (n m : Nat) (f : Die → Die) : (s.modDie n f).core m = s.core m := rfl
@[simp] theorem State.die_setCore (s : State) (n m : Nat) (k : Core) : (s.setCore n k).die m = s.die m := rfl
@[simp] theorem State.die_modCore (s : State) (n m : Nat) (f : Core → Core) : (s.modCore n f).die m = s.die m := rfl

/-! ## State.setCore -/

@[simp] theorem State.setCore_mem (s : State) (n : Nat) (k : Core) : (s.setCore n k).mem = s.mem := rfl
@[simp] theorem State.setCore_hostMem (s : State) (n : Nat) (k : Core) : (s.setCore n k).hostMem = s.hostMem := rfl
@[simp] theorem State.setCore_l2 (s : State) (n : Nat) (k : Core) : (s.setCore n k).l2 = s.l2 := rfl
@[simp] theorem State.setCore_l3 (s : State) (n : Nat) (k : Core) : (s.setCore n k).l3 = s.l3 := rfl
@[simp] theorem State.setCore_altered (s : State) (n : Nat) (k : Core) : (s.setCore n k).altered = s.altered := rfl
@[simp] theorem State.setCore_cxlLosses (s : State) (n : Nat) (k : Core) : (s.setCore n k).cxlLosses = s.cxlLosses := rfl
@[simp] theorem State.setCore_kernels (s : State) (n : Nat) (k : Core) : (s.setCore n k).kernels = s.kernels := rfl
@[simp] theorem State.setCore_words (s : State) (n : Nat) (k : Core) : (s.setCore n k).words = s.words := rfl
@[simp] theorem State.setCore_dies (s : State) (n : Nat) (k : Core) : (s.setCore n k).dies = s.dies := rfl
@[simp] theorem State.setCore_cfgFile (s : State) (n : Nat) (k : Core) : (s.setCore n k).cfgFile = s.cfgFile := rfl
@[simp] theorem State.setCore_queues (s : State) (n : Nat) (k : Core) : (s.setCore n k).queues = s.queues := rfl
@[simp] theorem State.setCore_launches (s : State) (n : Nat) (k : Core) : (s.setCore n k).launches = s.launches := rfl
@[simp] theorem State.setCore_turn (s : State) (n : Nat) (k : Core) : (s.setCore n k).turn = s.turn := rfl
@[simp] theorem State.setCore_kidTable (s : State) (n : Nat) (k : Core) : (s.setCore n k).kidTable = s.kidTable := rfl
@[simp] theorem State.setCore_accepted (s : State) (n : Nat) (k : Core) : (s.setCore n k).accepted = s.accepted := rfl
@[simp] theorem State.setCore_xregs (s : State) (n : Nat) (k : Core) : (s.setCore n k).xregs = s.xregs := rfl
@[simp] theorem State.setCore_walked (s : State) (n : Nat) (k : Core) : (s.setCore n k).walked = s.walked := rfl
@[simp] theorem State.setCore_walkCache (s : State) (n : Nat) (k : Core) : (s.setCore n k).walkCache = s.walkCache := rfl
@[simp] theorem State.setCore_walkers (s : State) (n : Nat) (k : Core) : (s.setCore n k).walkers = s.walkers := rfl
@[simp] theorem State.setCore_faults (s : State) (n : Nat) (k : Core) : (s.setCore n k).faults = s.faults := rfl
@[simp] theorem State.setCore_mail (s : State) (n : Nat) (k : Core) : (s.setCore n k).mail = s.mail := rfl
@[simp] theorem State.setCore_objs (s : State) (n : Nat) (k : Core) : (s.setCore n k).objs = s.objs := rfl
@[simp] theorem State.setCore_flats (s : State) (n : Nat) (k : Core) : (s.setCore n k).flats = s.flats := rfl
@[simp] theorem State.setCore_msgs (s : State) (n : Nat) (k : Core) : (s.setCore n k).msgs = s.msgs := rfl
@[simp] theorem State.setCore_replies (s : State) (n : Nat) (k : Core) : (s.setCore n k).replies = s.replies := rfl
@[simp] theorem State.setCore_monitors (s : State) (n : Nat) (k : Core) : (s.setCore n k).monitors = s.monitors := rfl
@[simp] theorem State.setCore_engCycle (s : State) (n : Nat) (k : Core) : (s.setCore n k).engCycle = s.engCycle := rfl
@[simp] theorem State.setCore_masks (s : State) (n : Nat) (k : Core) : (s.setCore n k).masks = s.masks := rfl
@[simp] theorem State.setCore_cmds (s : State) (n : Nat) (k : Core) : (s.setCore n k).cmds = s.cmds := rfl
@[simp] theorem State.setCore_attns (s : State) (n : Nat) (k : Core) : (s.setCore n k).attns = s.attns := rfl
@[simp] theorem State.setCore_tiers (s : State) (n : Nat) (k : Core) : (s.setCore n k).tiers = s.tiers := rfl
@[simp] theorem State.setCore_nextId (s : State) (n : Nat) (k : Core) : (s.setCore n k).nextId = s.nextId := rfl
@[simp] theorem State.setCore_floors (s : State) (n : Nat) (k : Core) : (s.setCore n k).floors = s.floors := rfl
@[simp] theorem State.setCore_sealedDram (s : State) (n : Nat) (k : Core) : (s.setCore n k).sealedDram = s.sealedDram := rfl
@[simp] theorem State.setCore_frozen (s : State) (n : Nat) (k : Core) : (s.setCore n k).frozen = s.frozen := rfl
@[simp] theorem State.setCore_poison (s : State) (n : Nat) (k : Core) : (s.setCore n k).poison = s.poison := rfl
@[simp] theorem State.setCore_blocks (s : State) (n : Nat) (k : Core) : (s.setCore n k).blocks = s.blocks := rfl
@[simp] theorem State.setCore_wear (s : State) (n : Nat) (k : Core) : (s.setCore n k).wear = s.wear := rfl
@[simp] theorem State.setCore_spares (s : State) (n : Nat) (k : Core) : (s.setCore n k).spares = s.spares := rfl
@[simp] theorem State.setCore_bch (s : State) (n : Nat) (k : Core) : (s.setCore n k).bch = s.bch := rfl
@[simp] theorem State.setCore_lost (s : State) (n : Nat) (k : Core) : (s.setCore n k).lost = s.lost := rfl
@[simp] theorem State.setCore_cxl (s : State) (n : Nat) (k : Core) : (s.setCore n k).cxl = s.cxl := rfl
@[simp] theorem State.setCore_podPorts (s : State) (n : Nat) (k : Core) : (s.setCore n k).podPorts = s.podPorts := rfl
@[simp] theorem State.setCore_modid (s : State) (n : Nat) (k : Core) : (s.setCore n k).modid = s.modid := rfl
@[simp] theorem State.setCore_noRoute (s : State) (n : Nat) (k : Core) : (s.setCore n k).noRoute = s.noRoute := rfl
@[simp] theorem State.setCore_linksDown (s : State) (n : Nat) (k : Core) : (s.setCore n k).linksDown = s.linksDown := rfl
@[simp] theorem State.setCore_plainPorts (s : State) (n : Nat) (k : Core) : (s.setCore n k).plainPorts = s.plainPorts := rfl
@[simp] theorem State.setCore_podSealed (s : State) (n : Nat) (k : Core) : (s.setCore n k).podSealed = s.podSealed := rfl
@[simp] theorem State.setCore_mhz (s : State) (n : Nat) (k : Core) : (s.setCore n k).mhz = s.mhz := rfl
@[simp] theorem State.setCore_islands (s : State) (n : Nat) (k : Core) : (s.setCore n k).islands = s.islands := rfl
@[simp] theorem State.setCore_frozenPower (s : State) (n : Nat) (k : Core) : (s.setCore n k).frozenPower = s.frozenPower := rfl
@[simp] theorem State.setCore_saved (s : State) (n : Nat) (k : Core) : (s.setCore n k).saved = s.saved := rfl
@[simp] theorem State.setCore_mss (s : State) (n : Nat) (k : Core) : (s.setCore n k).mss = s.mss := rfl
@[simp] theorem State.setCore_irqs (s : State) (n : Nat) (k : Core) : (s.setCore n k).irqs = s.irqs := rfl
@[simp] theorem State.setCore_msix (s : State) (n : Nat) (k : Core) : (s.setCore n k).msix = s.msix := rfl
@[simp] theorem State.setCore_pending (s : State) (n : Nat) (k : Core) : (s.setCore n k).pending = s.pending := rfl
@[simp] theorem State.setCore_ns (s : State) (n : Nat) (k : Core) : (s.setCore n k).ns = s.ns := rfl
@[simp] theorem State.setCore_me (s : State) (n : Nat) (k : Core) : (s.setCore n k).me = s.me := rfl
@[simp] theorem State.setCore_about (s : State) (n : Nat) (k : Core) : (s.setCore n k).about = s.about := rfl
@[simp] theorem State.setCore_agenda (s : State) (n : Nat) (k : Core) : (s.setCore n k).agenda = s.agenda := rfl
@[simp] theorem State.setCore_free (s : State) (n : Nat) (k : Core) : (s.setCore n k).free = s.free := rfl

/-! ## State.setCur -/

@[simp] theorem State.setCur_mem (s : State) (k : Core) : (s.setCur k).mem = s.mem := rfl
@[simp] theorem State.setCur_hostMem (s : State) (k : Core) : (s.setCur k).hostMem = s.hostMem := rfl
@[simp] theorem State.setCur_l2 (s : State) (k : Core) : (s.setCur k).l2 = s.l2 := rfl
@[simp] theorem State.setCur_l3 (s : State) (k : Core) : (s.setCur k).l3 = s.l3 := rfl
@[simp] theorem State.setCur_altered (s : State) (k : Core) : (s.setCur k).altered = s.altered := rfl
@[simp] theorem State.setCur_cxlLosses (s : State) (k : Core) : (s.setCur k).cxlLosses = s.cxlLosses := rfl
@[simp] theorem State.setCur_kernels (s : State) (k : Core) : (s.setCur k).kernels = s.kernels := rfl
@[simp] theorem State.setCur_words (s : State) (k : Core) : (s.setCur k).words = s.words := rfl
@[simp] theorem State.setCur_dies (s : State) (k : Core) : (s.setCur k).dies = s.dies := rfl
@[simp] theorem State.setCur_cfgFile (s : State) (k : Core) : (s.setCur k).cfgFile = s.cfgFile := rfl
@[simp] theorem State.setCur_queues (s : State) (k : Core) : (s.setCur k).queues = s.queues := rfl
@[simp] theorem State.setCur_launches (s : State) (k : Core) : (s.setCur k).launches = s.launches := rfl
@[simp] theorem State.setCur_turn (s : State) (k : Core) : (s.setCur k).turn = s.turn := rfl
@[simp] theorem State.setCur_kidTable (s : State) (k : Core) : (s.setCur k).kidTable = s.kidTable := rfl
@[simp] theorem State.setCur_accepted (s : State) (k : Core) : (s.setCur k).accepted = s.accepted := rfl
@[simp] theorem State.setCur_xregs (s : State) (k : Core) : (s.setCur k).xregs = s.xregs := rfl
@[simp] theorem State.setCur_walked (s : State) (k : Core) : (s.setCur k).walked = s.walked := rfl
@[simp] theorem State.setCur_walkCache (s : State) (k : Core) : (s.setCur k).walkCache = s.walkCache := rfl
@[simp] theorem State.setCur_walkers (s : State) (k : Core) : (s.setCur k).walkers = s.walkers := rfl
@[simp] theorem State.setCur_faults (s : State) (k : Core) : (s.setCur k).faults = s.faults := rfl
@[simp] theorem State.setCur_mail (s : State) (k : Core) : (s.setCur k).mail = s.mail := rfl
@[simp] theorem State.setCur_objs (s : State) (k : Core) : (s.setCur k).objs = s.objs := rfl
@[simp] theorem State.setCur_flats (s : State) (k : Core) : (s.setCur k).flats = s.flats := rfl
@[simp] theorem State.setCur_msgs (s : State) (k : Core) : (s.setCur k).msgs = s.msgs := rfl
@[simp] theorem State.setCur_replies (s : State) (k : Core) : (s.setCur k).replies = s.replies := rfl
@[simp] theorem State.setCur_monitors (s : State) (k : Core) : (s.setCur k).monitors = s.monitors := rfl
@[simp] theorem State.setCur_engCycle (s : State) (k : Core) : (s.setCur k).engCycle = s.engCycle := rfl
@[simp] theorem State.setCur_masks (s : State) (k : Core) : (s.setCur k).masks = s.masks := rfl
@[simp] theorem State.setCur_cmds (s : State) (k : Core) : (s.setCur k).cmds = s.cmds := rfl
@[simp] theorem State.setCur_attns (s : State) (k : Core) : (s.setCur k).attns = s.attns := rfl
@[simp] theorem State.setCur_tiers (s : State) (k : Core) : (s.setCur k).tiers = s.tiers := rfl
@[simp] theorem State.setCur_nextId (s : State) (k : Core) : (s.setCur k).nextId = s.nextId := rfl
@[simp] theorem State.setCur_floors (s : State) (k : Core) : (s.setCur k).floors = s.floors := rfl
@[simp] theorem State.setCur_sealedDram (s : State) (k : Core) : (s.setCur k).sealedDram = s.sealedDram := rfl
@[simp] theorem State.setCur_frozen (s : State) (k : Core) : (s.setCur k).frozen = s.frozen := rfl
@[simp] theorem State.setCur_poison (s : State) (k : Core) : (s.setCur k).poison = s.poison := rfl
@[simp] theorem State.setCur_blocks (s : State) (k : Core) : (s.setCur k).blocks = s.blocks := rfl
@[simp] theorem State.setCur_wear (s : State) (k : Core) : (s.setCur k).wear = s.wear := rfl
@[simp] theorem State.setCur_spares (s : State) (k : Core) : (s.setCur k).spares = s.spares := rfl
@[simp] theorem State.setCur_bch (s : State) (k : Core) : (s.setCur k).bch = s.bch := rfl
@[simp] theorem State.setCur_lost (s : State) (k : Core) : (s.setCur k).lost = s.lost := rfl
@[simp] theorem State.setCur_cxl (s : State) (k : Core) : (s.setCur k).cxl = s.cxl := rfl
@[simp] theorem State.setCur_podPorts (s : State) (k : Core) : (s.setCur k).podPorts = s.podPorts := rfl
@[simp] theorem State.setCur_modid (s : State) (k : Core) : (s.setCur k).modid = s.modid := rfl
@[simp] theorem State.setCur_noRoute (s : State) (k : Core) : (s.setCur k).noRoute = s.noRoute := rfl
@[simp] theorem State.setCur_linksDown (s : State) (k : Core) : (s.setCur k).linksDown = s.linksDown := rfl
@[simp] theorem State.setCur_plainPorts (s : State) (k : Core) : (s.setCur k).plainPorts = s.plainPorts := rfl
@[simp] theorem State.setCur_podSealed (s : State) (k : Core) : (s.setCur k).podSealed = s.podSealed := rfl
@[simp] theorem State.setCur_mhz (s : State) (k : Core) : (s.setCur k).mhz = s.mhz := rfl
@[simp] theorem State.setCur_islands (s : State) (k : Core) : (s.setCur k).islands = s.islands := rfl
@[simp] theorem State.setCur_frozenPower (s : State) (k : Core) : (s.setCur k).frozenPower = s.frozenPower := rfl
@[simp] theorem State.setCur_saved (s : State) (k : Core) : (s.setCur k).saved = s.saved := rfl
@[simp] theorem State.setCur_mss (s : State) (k : Core) : (s.setCur k).mss = s.mss := rfl
@[simp] theorem State.setCur_irqs (s : State) (k : Core) : (s.setCur k).irqs = s.irqs := rfl
@[simp] theorem State.setCur_msix (s : State) (k : Core) : (s.setCur k).msix = s.msix := rfl
@[simp] theorem State.setCur_pending (s : State) (k : Core) : (s.setCur k).pending = s.pending := rfl
@[simp] theorem State.setCur_ns (s : State) (k : Core) : (s.setCur k).ns = s.ns := rfl
@[simp] theorem State.setCur_me (s : State) (k : Core) : (s.setCur k).me = s.me := rfl
@[simp] theorem State.setCur_about (s : State) (k : Core) : (s.setCur k).about = s.about := rfl
@[simp] theorem State.setCur_agenda (s : State) (k : Core) : (s.setCur k).agenda = s.agenda := rfl
@[simp] theorem State.setCur_free (s : State) (k : Core) : (s.setCur k).free = s.free := rfl

/-! ## State.modCore -/

@[simp] theorem State.modCore_mem (s : State) (n : Nat) (f : Core → Core) : (s.modCore n f).mem = s.mem := rfl
@[simp] theorem State.modCore_hostMem (s : State) (n : Nat) (f : Core → Core) : (s.modCore n f).hostMem = s.hostMem := rfl
@[simp] theorem State.modCore_l2 (s : State) (n : Nat) (f : Core → Core) : (s.modCore n f).l2 = s.l2 := rfl
@[simp] theorem State.modCore_l3 (s : State) (n : Nat) (f : Core → Core) : (s.modCore n f).l3 = s.l3 := rfl
@[simp] theorem State.modCore_altered (s : State) (n : Nat) (f : Core → Core) : (s.modCore n f).altered = s.altered := rfl
@[simp] theorem State.modCore_cxlLosses (s : State) (n : Nat) (f : Core → Core) : (s.modCore n f).cxlLosses = s.cxlLosses := rfl
@[simp] theorem State.modCore_kernels (s : State) (n : Nat) (f : Core → Core) : (s.modCore n f).kernels = s.kernels := rfl
@[simp] theorem State.modCore_words (s : State) (n : Nat) (f : Core → Core) : (s.modCore n f).words = s.words := rfl
@[simp] theorem State.modCore_dies (s : State) (n : Nat) (f : Core → Core) : (s.modCore n f).dies = s.dies := rfl
@[simp] theorem State.modCore_cfgFile (s : State) (n : Nat) (f : Core → Core) : (s.modCore n f).cfgFile = s.cfgFile := rfl
@[simp] theorem State.modCore_queues (s : State) (n : Nat) (f : Core → Core) : (s.modCore n f).queues = s.queues := rfl
@[simp] theorem State.modCore_launches (s : State) (n : Nat) (f : Core → Core) : (s.modCore n f).launches = s.launches := rfl
@[simp] theorem State.modCore_turn (s : State) (n : Nat) (f : Core → Core) : (s.modCore n f).turn = s.turn := rfl
@[simp] theorem State.modCore_kidTable (s : State) (n : Nat) (f : Core → Core) : (s.modCore n f).kidTable = s.kidTable := rfl
@[simp] theorem State.modCore_accepted (s : State) (n : Nat) (f : Core → Core) : (s.modCore n f).accepted = s.accepted := rfl
@[simp] theorem State.modCore_xregs (s : State) (n : Nat) (f : Core → Core) : (s.modCore n f).xregs = s.xregs := rfl
@[simp] theorem State.modCore_walked (s : State) (n : Nat) (f : Core → Core) : (s.modCore n f).walked = s.walked := rfl
@[simp] theorem State.modCore_walkCache (s : State) (n : Nat) (f : Core → Core) : (s.modCore n f).walkCache = s.walkCache := rfl
@[simp] theorem State.modCore_walkers (s : State) (n : Nat) (f : Core → Core) : (s.modCore n f).walkers = s.walkers := rfl
@[simp] theorem State.modCore_faults (s : State) (n : Nat) (f : Core → Core) : (s.modCore n f).faults = s.faults := rfl
@[simp] theorem State.modCore_mail (s : State) (n : Nat) (f : Core → Core) : (s.modCore n f).mail = s.mail := rfl
@[simp] theorem State.modCore_objs (s : State) (n : Nat) (f : Core → Core) : (s.modCore n f).objs = s.objs := rfl
@[simp] theorem State.modCore_flats (s : State) (n : Nat) (f : Core → Core) : (s.modCore n f).flats = s.flats := rfl
@[simp] theorem State.modCore_msgs (s : State) (n : Nat) (f : Core → Core) : (s.modCore n f).msgs = s.msgs := rfl
@[simp] theorem State.modCore_replies (s : State) (n : Nat) (f : Core → Core) : (s.modCore n f).replies = s.replies := rfl
@[simp] theorem State.modCore_monitors (s : State) (n : Nat) (f : Core → Core) : (s.modCore n f).monitors = s.monitors := rfl
@[simp] theorem State.modCore_engCycle (s : State) (n : Nat) (f : Core → Core) : (s.modCore n f).engCycle = s.engCycle := rfl
@[simp] theorem State.modCore_masks (s : State) (n : Nat) (f : Core → Core) : (s.modCore n f).masks = s.masks := rfl
@[simp] theorem State.modCore_cmds (s : State) (n : Nat) (f : Core → Core) : (s.modCore n f).cmds = s.cmds := rfl
@[simp] theorem State.modCore_attns (s : State) (n : Nat) (f : Core → Core) : (s.modCore n f).attns = s.attns := rfl
@[simp] theorem State.modCore_tiers (s : State) (n : Nat) (f : Core → Core) : (s.modCore n f).tiers = s.tiers := rfl
@[simp] theorem State.modCore_nextId (s : State) (n : Nat) (f : Core → Core) : (s.modCore n f).nextId = s.nextId := rfl
@[simp] theorem State.modCore_floors (s : State) (n : Nat) (f : Core → Core) : (s.modCore n f).floors = s.floors := rfl
@[simp] theorem State.modCore_sealedDram (s : State) (n : Nat) (f : Core → Core) : (s.modCore n f).sealedDram = s.sealedDram := rfl
@[simp] theorem State.modCore_frozen (s : State) (n : Nat) (f : Core → Core) : (s.modCore n f).frozen = s.frozen := rfl
@[simp] theorem State.modCore_poison (s : State) (n : Nat) (f : Core → Core) : (s.modCore n f).poison = s.poison := rfl
@[simp] theorem State.modCore_blocks (s : State) (n : Nat) (f : Core → Core) : (s.modCore n f).blocks = s.blocks := rfl
@[simp] theorem State.modCore_wear (s : State) (n : Nat) (f : Core → Core) : (s.modCore n f).wear = s.wear := rfl
@[simp] theorem State.modCore_spares (s : State) (n : Nat) (f : Core → Core) : (s.modCore n f).spares = s.spares := rfl
@[simp] theorem State.modCore_bch (s : State) (n : Nat) (f : Core → Core) : (s.modCore n f).bch = s.bch := rfl
@[simp] theorem State.modCore_lost (s : State) (n : Nat) (f : Core → Core) : (s.modCore n f).lost = s.lost := rfl
@[simp] theorem State.modCore_cxl (s : State) (n : Nat) (f : Core → Core) : (s.modCore n f).cxl = s.cxl := rfl
@[simp] theorem State.modCore_podPorts (s : State) (n : Nat) (f : Core → Core) : (s.modCore n f).podPorts = s.podPorts := rfl
@[simp] theorem State.modCore_modid (s : State) (n : Nat) (f : Core → Core) : (s.modCore n f).modid = s.modid := rfl
@[simp] theorem State.modCore_noRoute (s : State) (n : Nat) (f : Core → Core) : (s.modCore n f).noRoute = s.noRoute := rfl
@[simp] theorem State.modCore_linksDown (s : State) (n : Nat) (f : Core → Core) : (s.modCore n f).linksDown = s.linksDown := rfl
@[simp] theorem State.modCore_plainPorts (s : State) (n : Nat) (f : Core → Core) : (s.modCore n f).plainPorts = s.plainPorts := rfl
@[simp] theorem State.modCore_podSealed (s : State) (n : Nat) (f : Core → Core) : (s.modCore n f).podSealed = s.podSealed := rfl
@[simp] theorem State.modCore_mhz (s : State) (n : Nat) (f : Core → Core) : (s.modCore n f).mhz = s.mhz := rfl
@[simp] theorem State.modCore_islands (s : State) (n : Nat) (f : Core → Core) : (s.modCore n f).islands = s.islands := rfl
@[simp] theorem State.modCore_frozenPower (s : State) (n : Nat) (f : Core → Core) : (s.modCore n f).frozenPower = s.frozenPower := rfl
@[simp] theorem State.modCore_saved (s : State) (n : Nat) (f : Core → Core) : (s.modCore n f).saved = s.saved := rfl
@[simp] theorem State.modCore_mss (s : State) (n : Nat) (f : Core → Core) : (s.modCore n f).mss = s.mss := rfl
@[simp] theorem State.modCore_irqs (s : State) (n : Nat) (f : Core → Core) : (s.modCore n f).irqs = s.irqs := rfl
@[simp] theorem State.modCore_msix (s : State) (n : Nat) (f : Core → Core) : (s.modCore n f).msix = s.msix := rfl
@[simp] theorem State.modCore_pending (s : State) (n : Nat) (f : Core → Core) : (s.modCore n f).pending = s.pending := rfl
@[simp] theorem State.modCore_ns (s : State) (n : Nat) (f : Core → Core) : (s.modCore n f).ns = s.ns := rfl
@[simp] theorem State.modCore_me (s : State) (n : Nat) (f : Core → Core) : (s.modCore n f).me = s.me := rfl
@[simp] theorem State.modCore_about (s : State) (n : Nat) (f : Core → Core) : (s.modCore n f).about = s.about := rfl
@[simp] theorem State.modCore_agenda (s : State) (n : Nat) (f : Core → Core) : (s.modCore n f).agenda = s.agenda := rfl
@[simp] theorem State.modCore_free (s : State) (n : Nat) (f : Core → Core) : (s.modCore n f).free = s.free := rfl

/-! ## State.modCur -/

@[simp] theorem State.modCur_mem (s : State) (f : Core → Core) : (s.modCur f).mem = s.mem := rfl
@[simp] theorem State.modCur_hostMem (s : State) (f : Core → Core) : (s.modCur f).hostMem = s.hostMem := rfl
@[simp] theorem State.modCur_l2 (s : State) (f : Core → Core) : (s.modCur f).l2 = s.l2 := rfl
@[simp] theorem State.modCur_l3 (s : State) (f : Core → Core) : (s.modCur f).l3 = s.l3 := rfl
@[simp] theorem State.modCur_altered (s : State) (f : Core → Core) : (s.modCur f).altered = s.altered := rfl
@[simp] theorem State.modCur_cxlLosses (s : State) (f : Core → Core) : (s.modCur f).cxlLosses = s.cxlLosses := rfl
@[simp] theorem State.modCur_kernels (s : State) (f : Core → Core) : (s.modCur f).kernels = s.kernels := rfl
@[simp] theorem State.modCur_words (s : State) (f : Core → Core) : (s.modCur f).words = s.words := rfl
@[simp] theorem State.modCur_dies (s : State) (f : Core → Core) : (s.modCur f).dies = s.dies := rfl
@[simp] theorem State.modCur_cfgFile (s : State) (f : Core → Core) : (s.modCur f).cfgFile = s.cfgFile := rfl
@[simp] theorem State.modCur_queues (s : State) (f : Core → Core) : (s.modCur f).queues = s.queues := rfl
@[simp] theorem State.modCur_launches (s : State) (f : Core → Core) : (s.modCur f).launches = s.launches := rfl
@[simp] theorem State.modCur_turn (s : State) (f : Core → Core) : (s.modCur f).turn = s.turn := rfl
@[simp] theorem State.modCur_kidTable (s : State) (f : Core → Core) : (s.modCur f).kidTable = s.kidTable := rfl
@[simp] theorem State.modCur_accepted (s : State) (f : Core → Core) : (s.modCur f).accepted = s.accepted := rfl
@[simp] theorem State.modCur_xregs (s : State) (f : Core → Core) : (s.modCur f).xregs = s.xregs := rfl
@[simp] theorem State.modCur_walked (s : State) (f : Core → Core) : (s.modCur f).walked = s.walked := rfl
@[simp] theorem State.modCur_walkCache (s : State) (f : Core → Core) : (s.modCur f).walkCache = s.walkCache := rfl
@[simp] theorem State.modCur_walkers (s : State) (f : Core → Core) : (s.modCur f).walkers = s.walkers := rfl
@[simp] theorem State.modCur_faults (s : State) (f : Core → Core) : (s.modCur f).faults = s.faults := rfl
@[simp] theorem State.modCur_mail (s : State) (f : Core → Core) : (s.modCur f).mail = s.mail := rfl
@[simp] theorem State.modCur_objs (s : State) (f : Core → Core) : (s.modCur f).objs = s.objs := rfl
@[simp] theorem State.modCur_flats (s : State) (f : Core → Core) : (s.modCur f).flats = s.flats := rfl
@[simp] theorem State.modCur_msgs (s : State) (f : Core → Core) : (s.modCur f).msgs = s.msgs := rfl
@[simp] theorem State.modCur_replies (s : State) (f : Core → Core) : (s.modCur f).replies = s.replies := rfl
@[simp] theorem State.modCur_monitors (s : State) (f : Core → Core) : (s.modCur f).monitors = s.monitors := rfl
@[simp] theorem State.modCur_engCycle (s : State) (f : Core → Core) : (s.modCur f).engCycle = s.engCycle := rfl
@[simp] theorem State.modCur_masks (s : State) (f : Core → Core) : (s.modCur f).masks = s.masks := rfl
@[simp] theorem State.modCur_cmds (s : State) (f : Core → Core) : (s.modCur f).cmds = s.cmds := rfl
@[simp] theorem State.modCur_attns (s : State) (f : Core → Core) : (s.modCur f).attns = s.attns := rfl
@[simp] theorem State.modCur_tiers (s : State) (f : Core → Core) : (s.modCur f).tiers = s.tiers := rfl
@[simp] theorem State.modCur_nextId (s : State) (f : Core → Core) : (s.modCur f).nextId = s.nextId := rfl
@[simp] theorem State.modCur_floors (s : State) (f : Core → Core) : (s.modCur f).floors = s.floors := rfl
@[simp] theorem State.modCur_sealedDram (s : State) (f : Core → Core) : (s.modCur f).sealedDram = s.sealedDram := rfl
@[simp] theorem State.modCur_frozen (s : State) (f : Core → Core) : (s.modCur f).frozen = s.frozen := rfl
@[simp] theorem State.modCur_poison (s : State) (f : Core → Core) : (s.modCur f).poison = s.poison := rfl
@[simp] theorem State.modCur_blocks (s : State) (f : Core → Core) : (s.modCur f).blocks = s.blocks := rfl
@[simp] theorem State.modCur_wear (s : State) (f : Core → Core) : (s.modCur f).wear = s.wear := rfl
@[simp] theorem State.modCur_spares (s : State) (f : Core → Core) : (s.modCur f).spares = s.spares := rfl
@[simp] theorem State.modCur_bch (s : State) (f : Core → Core) : (s.modCur f).bch = s.bch := rfl
@[simp] theorem State.modCur_lost (s : State) (f : Core → Core) : (s.modCur f).lost = s.lost := rfl
@[simp] theorem State.modCur_cxl (s : State) (f : Core → Core) : (s.modCur f).cxl = s.cxl := rfl
@[simp] theorem State.modCur_podPorts (s : State) (f : Core → Core) : (s.modCur f).podPorts = s.podPorts := rfl
@[simp] theorem State.modCur_modid (s : State) (f : Core → Core) : (s.modCur f).modid = s.modid := rfl
@[simp] theorem State.modCur_noRoute (s : State) (f : Core → Core) : (s.modCur f).noRoute = s.noRoute := rfl
@[simp] theorem State.modCur_linksDown (s : State) (f : Core → Core) : (s.modCur f).linksDown = s.linksDown := rfl
@[simp] theorem State.modCur_plainPorts (s : State) (f : Core → Core) : (s.modCur f).plainPorts = s.plainPorts := rfl
@[simp] theorem State.modCur_podSealed (s : State) (f : Core → Core) : (s.modCur f).podSealed = s.podSealed := rfl
@[simp] theorem State.modCur_mhz (s : State) (f : Core → Core) : (s.modCur f).mhz = s.mhz := rfl
@[simp] theorem State.modCur_islands (s : State) (f : Core → Core) : (s.modCur f).islands = s.islands := rfl
@[simp] theorem State.modCur_frozenPower (s : State) (f : Core → Core) : (s.modCur f).frozenPower = s.frozenPower := rfl
@[simp] theorem State.modCur_saved (s : State) (f : Core → Core) : (s.modCur f).saved = s.saved := rfl
@[simp] theorem State.modCur_mss (s : State) (f : Core → Core) : (s.modCur f).mss = s.mss := rfl
@[simp] theorem State.modCur_irqs (s : State) (f : Core → Core) : (s.modCur f).irqs = s.irqs := rfl
@[simp] theorem State.modCur_msix (s : State) (f : Core → Core) : (s.modCur f).msix = s.msix := rfl
@[simp] theorem State.modCur_pending (s : State) (f : Core → Core) : (s.modCur f).pending = s.pending := rfl
@[simp] theorem State.modCur_ns (s : State) (f : Core → Core) : (s.modCur f).ns = s.ns := rfl
@[simp] theorem State.modCur_me (s : State) (f : Core → Core) : (s.modCur f).me = s.me := rfl
@[simp] theorem State.modCur_about (s : State) (f : Core → Core) : (s.modCur f).about = s.about := rfl
@[simp] theorem State.modCur_agenda (s : State) (f : Core → Core) : (s.modCur f).agenda = s.agenda := rfl
@[simp] theorem State.modCur_free (s : State) (f : Core → Core) : (s.modCur f).free = s.free := rfl

/-! ## State.setDie -/

@[simp] theorem State.setDie_mem (s : State) (n : Nat) (d : Die) : (s.setDie n d).mem = s.mem := rfl
@[simp] theorem State.setDie_hostMem (s : State) (n : Nat) (d : Die) : (s.setDie n d).hostMem = s.hostMem := rfl
@[simp] theorem State.setDie_l2 (s : State) (n : Nat) (d : Die) : (s.setDie n d).l2 = s.l2 := rfl
@[simp] theorem State.setDie_l3 (s : State) (n : Nat) (d : Die) : (s.setDie n d).l3 = s.l3 := rfl
@[simp] theorem State.setDie_altered (s : State) (n : Nat) (d : Die) : (s.setDie n d).altered = s.altered := rfl
@[simp] theorem State.setDie_cxlLosses (s : State) (n : Nat) (d : Die) : (s.setDie n d).cxlLosses = s.cxlLosses := rfl
@[simp] theorem State.setDie_cores (s : State) (n : Nat) (d : Die) : (s.setDie n d).cores = s.cores := rfl
@[simp] theorem State.setDie_kernels (s : State) (n : Nat) (d : Die) : (s.setDie n d).kernels = s.kernels := rfl
@[simp] theorem State.setDie_words (s : State) (n : Nat) (d : Die) : (s.setDie n d).words = s.words := rfl
@[simp] theorem State.setDie_cfgFile (s : State) (n : Nat) (d : Die) : (s.setDie n d).cfgFile = s.cfgFile := rfl
@[simp] theorem State.setDie_queues (s : State) (n : Nat) (d : Die) : (s.setDie n d).queues = s.queues := rfl
@[simp] theorem State.setDie_launches (s : State) (n : Nat) (d : Die) : (s.setDie n d).launches = s.launches := rfl
@[simp] theorem State.setDie_turn (s : State) (n : Nat) (d : Die) : (s.setDie n d).turn = s.turn := rfl
@[simp] theorem State.setDie_kidTable (s : State) (n : Nat) (d : Die) : (s.setDie n d).kidTable = s.kidTable := rfl
@[simp] theorem State.setDie_accepted (s : State) (n : Nat) (d : Die) : (s.setDie n d).accepted = s.accepted := rfl
@[simp] theorem State.setDie_xregs (s : State) (n : Nat) (d : Die) : (s.setDie n d).xregs = s.xregs := rfl
@[simp] theorem State.setDie_walked (s : State) (n : Nat) (d : Die) : (s.setDie n d).walked = s.walked := rfl
@[simp] theorem State.setDie_walkCache (s : State) (n : Nat) (d : Die) : (s.setDie n d).walkCache = s.walkCache := rfl
@[simp] theorem State.setDie_walkers (s : State) (n : Nat) (d : Die) : (s.setDie n d).walkers = s.walkers := rfl
@[simp] theorem State.setDie_faults (s : State) (n : Nat) (d : Die) : (s.setDie n d).faults = s.faults := rfl
@[simp] theorem State.setDie_mail (s : State) (n : Nat) (d : Die) : (s.setDie n d).mail = s.mail := rfl
@[simp] theorem State.setDie_objs (s : State) (n : Nat) (d : Die) : (s.setDie n d).objs = s.objs := rfl
@[simp] theorem State.setDie_flats (s : State) (n : Nat) (d : Die) : (s.setDie n d).flats = s.flats := rfl
@[simp] theorem State.setDie_msgs (s : State) (n : Nat) (d : Die) : (s.setDie n d).msgs = s.msgs := rfl
@[simp] theorem State.setDie_replies (s : State) (n : Nat) (d : Die) : (s.setDie n d).replies = s.replies := rfl
@[simp] theorem State.setDie_monitors (s : State) (n : Nat) (d : Die) : (s.setDie n d).monitors = s.monitors := rfl
@[simp] theorem State.setDie_engCycle (s : State) (n : Nat) (d : Die) : (s.setDie n d).engCycle = s.engCycle := rfl
@[simp] theorem State.setDie_masks (s : State) (n : Nat) (d : Die) : (s.setDie n d).masks = s.masks := rfl
@[simp] theorem State.setDie_cmds (s : State) (n : Nat) (d : Die) : (s.setDie n d).cmds = s.cmds := rfl
@[simp] theorem State.setDie_attns (s : State) (n : Nat) (d : Die) : (s.setDie n d).attns = s.attns := rfl
@[simp] theorem State.setDie_tiers (s : State) (n : Nat) (d : Die) : (s.setDie n d).tiers = s.tiers := rfl
@[simp] theorem State.setDie_nextId (s : State) (n : Nat) (d : Die) : (s.setDie n d).nextId = s.nextId := rfl
@[simp] theorem State.setDie_floors (s : State) (n : Nat) (d : Die) : (s.setDie n d).floors = s.floors := rfl
@[simp] theorem State.setDie_sealedDram (s : State) (n : Nat) (d : Die) : (s.setDie n d).sealedDram = s.sealedDram := rfl
@[simp] theorem State.setDie_frozen (s : State) (n : Nat) (d : Die) : (s.setDie n d).frozen = s.frozen := rfl
@[simp] theorem State.setDie_poison (s : State) (n : Nat) (d : Die) : (s.setDie n d).poison = s.poison := rfl
@[simp] theorem State.setDie_blocks (s : State) (n : Nat) (d : Die) : (s.setDie n d).blocks = s.blocks := rfl
@[simp] theorem State.setDie_wear (s : State) (n : Nat) (d : Die) : (s.setDie n d).wear = s.wear := rfl
@[simp] theorem State.setDie_spares (s : State) (n : Nat) (d : Die) : (s.setDie n d).spares = s.spares := rfl
@[simp] theorem State.setDie_bch (s : State) (n : Nat) (d : Die) : (s.setDie n d).bch = s.bch := rfl
@[simp] theorem State.setDie_lost (s : State) (n : Nat) (d : Die) : (s.setDie n d).lost = s.lost := rfl
@[simp] theorem State.setDie_cxl (s : State) (n : Nat) (d : Die) : (s.setDie n d).cxl = s.cxl := rfl
@[simp] theorem State.setDie_podPorts (s : State) (n : Nat) (d : Die) : (s.setDie n d).podPorts = s.podPorts := rfl
@[simp] theorem State.setDie_modid (s : State) (n : Nat) (d : Die) : (s.setDie n d).modid = s.modid := rfl
@[simp] theorem State.setDie_noRoute (s : State) (n : Nat) (d : Die) : (s.setDie n d).noRoute = s.noRoute := rfl
@[simp] theorem State.setDie_linksDown (s : State) (n : Nat) (d : Die) : (s.setDie n d).linksDown = s.linksDown := rfl
@[simp] theorem State.setDie_plainPorts (s : State) (n : Nat) (d : Die) : (s.setDie n d).plainPorts = s.plainPorts := rfl
@[simp] theorem State.setDie_podSealed (s : State) (n : Nat) (d : Die) : (s.setDie n d).podSealed = s.podSealed := rfl
@[simp] theorem State.setDie_mhz (s : State) (n : Nat) (d : Die) : (s.setDie n d).mhz = s.mhz := rfl
@[simp] theorem State.setDie_islands (s : State) (n : Nat) (d : Die) : (s.setDie n d).islands = s.islands := rfl
@[simp] theorem State.setDie_frozenPower (s : State) (n : Nat) (d : Die) : (s.setDie n d).frozenPower = s.frozenPower := rfl
@[simp] theorem State.setDie_saved (s : State) (n : Nat) (d : Die) : (s.setDie n d).saved = s.saved := rfl
@[simp] theorem State.setDie_mss (s : State) (n : Nat) (d : Die) : (s.setDie n d).mss = s.mss := rfl
@[simp] theorem State.setDie_irqs (s : State) (n : Nat) (d : Die) : (s.setDie n d).irqs = s.irqs := rfl
@[simp] theorem State.setDie_msix (s : State) (n : Nat) (d : Die) : (s.setDie n d).msix = s.msix := rfl
@[simp] theorem State.setDie_pending (s : State) (n : Nat) (d : Die) : (s.setDie n d).pending = s.pending := rfl
@[simp] theorem State.setDie_ns (s : State) (n : Nat) (d : Die) : (s.setDie n d).ns = s.ns := rfl
@[simp] theorem State.setDie_me (s : State) (n : Nat) (d : Die) : (s.setDie n d).me = s.me := rfl
@[simp] theorem State.setDie_about (s : State) (n : Nat) (d : Die) : (s.setDie n d).about = s.about := rfl
@[simp] theorem State.setDie_agenda (s : State) (n : Nat) (d : Die) : (s.setDie n d).agenda = s.agenda := rfl
@[simp] theorem State.setDie_free (s : State) (n : Nat) (d : Die) : (s.setDie n d).free = s.free := rfl

/-! ## State.modDie -/

@[simp] theorem State.modDie_mem (s : State) (n : Nat) (f : Die → Die) : (s.modDie n f).mem = s.mem := rfl
@[simp] theorem State.modDie_hostMem (s : State) (n : Nat) (f : Die → Die) : (s.modDie n f).hostMem = s.hostMem := rfl
@[simp] theorem State.modDie_l2 (s : State) (n : Nat) (f : Die → Die) : (s.modDie n f).l2 = s.l2 := rfl
@[simp] theorem State.modDie_l3 (s : State) (n : Nat) (f : Die → Die) : (s.modDie n f).l3 = s.l3 := rfl
@[simp] theorem State.modDie_altered (s : State) (n : Nat) (f : Die → Die) : (s.modDie n f).altered = s.altered := rfl
@[simp] theorem State.modDie_cxlLosses (s : State) (n : Nat) (f : Die → Die) : (s.modDie n f).cxlLosses = s.cxlLosses := rfl
@[simp] theorem State.modDie_cores (s : State) (n : Nat) (f : Die → Die) : (s.modDie n f).cores = s.cores := rfl
@[simp] theorem State.modDie_kernels (s : State) (n : Nat) (f : Die → Die) : (s.modDie n f).kernels = s.kernels := rfl
@[simp] theorem State.modDie_words (s : State) (n : Nat) (f : Die → Die) : (s.modDie n f).words = s.words := rfl
@[simp] theorem State.modDie_cfgFile (s : State) (n : Nat) (f : Die → Die) : (s.modDie n f).cfgFile = s.cfgFile := rfl
@[simp] theorem State.modDie_queues (s : State) (n : Nat) (f : Die → Die) : (s.modDie n f).queues = s.queues := rfl
@[simp] theorem State.modDie_launches (s : State) (n : Nat) (f : Die → Die) : (s.modDie n f).launches = s.launches := rfl
@[simp] theorem State.modDie_turn (s : State) (n : Nat) (f : Die → Die) : (s.modDie n f).turn = s.turn := rfl
@[simp] theorem State.modDie_kidTable (s : State) (n : Nat) (f : Die → Die) : (s.modDie n f).kidTable = s.kidTable := rfl
@[simp] theorem State.modDie_accepted (s : State) (n : Nat) (f : Die → Die) : (s.modDie n f).accepted = s.accepted := rfl
@[simp] theorem State.modDie_xregs (s : State) (n : Nat) (f : Die → Die) : (s.modDie n f).xregs = s.xregs := rfl
@[simp] theorem State.modDie_walked (s : State) (n : Nat) (f : Die → Die) : (s.modDie n f).walked = s.walked := rfl
@[simp] theorem State.modDie_walkCache (s : State) (n : Nat) (f : Die → Die) : (s.modDie n f).walkCache = s.walkCache := rfl
@[simp] theorem State.modDie_walkers (s : State) (n : Nat) (f : Die → Die) : (s.modDie n f).walkers = s.walkers := rfl
@[simp] theorem State.modDie_faults (s : State) (n : Nat) (f : Die → Die) : (s.modDie n f).faults = s.faults := rfl
@[simp] theorem State.modDie_mail (s : State) (n : Nat) (f : Die → Die) : (s.modDie n f).mail = s.mail := rfl
@[simp] theorem State.modDie_objs (s : State) (n : Nat) (f : Die → Die) : (s.modDie n f).objs = s.objs := rfl
@[simp] theorem State.modDie_flats (s : State) (n : Nat) (f : Die → Die) : (s.modDie n f).flats = s.flats := rfl
@[simp] theorem State.modDie_msgs (s : State) (n : Nat) (f : Die → Die) : (s.modDie n f).msgs = s.msgs := rfl
@[simp] theorem State.modDie_replies (s : State) (n : Nat) (f : Die → Die) : (s.modDie n f).replies = s.replies := rfl
@[simp] theorem State.modDie_monitors (s : State) (n : Nat) (f : Die → Die) : (s.modDie n f).monitors = s.monitors := rfl
@[simp] theorem State.modDie_engCycle (s : State) (n : Nat) (f : Die → Die) : (s.modDie n f).engCycle = s.engCycle := rfl
@[simp] theorem State.modDie_masks (s : State) (n : Nat) (f : Die → Die) : (s.modDie n f).masks = s.masks := rfl
@[simp] theorem State.modDie_cmds (s : State) (n : Nat) (f : Die → Die) : (s.modDie n f).cmds = s.cmds := rfl
@[simp] theorem State.modDie_attns (s : State) (n : Nat) (f : Die → Die) : (s.modDie n f).attns = s.attns := rfl
@[simp] theorem State.modDie_tiers (s : State) (n : Nat) (f : Die → Die) : (s.modDie n f).tiers = s.tiers := rfl
@[simp] theorem State.modDie_nextId (s : State) (n : Nat) (f : Die → Die) : (s.modDie n f).nextId = s.nextId := rfl
@[simp] theorem State.modDie_floors (s : State) (n : Nat) (f : Die → Die) : (s.modDie n f).floors = s.floors := rfl
@[simp] theorem State.modDie_sealedDram (s : State) (n : Nat) (f : Die → Die) : (s.modDie n f).sealedDram = s.sealedDram := rfl
@[simp] theorem State.modDie_frozen (s : State) (n : Nat) (f : Die → Die) : (s.modDie n f).frozen = s.frozen := rfl
@[simp] theorem State.modDie_poison (s : State) (n : Nat) (f : Die → Die) : (s.modDie n f).poison = s.poison := rfl
@[simp] theorem State.modDie_blocks (s : State) (n : Nat) (f : Die → Die) : (s.modDie n f).blocks = s.blocks := rfl
@[simp] theorem State.modDie_wear (s : State) (n : Nat) (f : Die → Die) : (s.modDie n f).wear = s.wear := rfl
@[simp] theorem State.modDie_spares (s : State) (n : Nat) (f : Die → Die) : (s.modDie n f).spares = s.spares := rfl
@[simp] theorem State.modDie_bch (s : State) (n : Nat) (f : Die → Die) : (s.modDie n f).bch = s.bch := rfl
@[simp] theorem State.modDie_lost (s : State) (n : Nat) (f : Die → Die) : (s.modDie n f).lost = s.lost := rfl
@[simp] theorem State.modDie_cxl (s : State) (n : Nat) (f : Die → Die) : (s.modDie n f).cxl = s.cxl := rfl
@[simp] theorem State.modDie_podPorts (s : State) (n : Nat) (f : Die → Die) : (s.modDie n f).podPorts = s.podPorts := rfl
@[simp] theorem State.modDie_modid (s : State) (n : Nat) (f : Die → Die) : (s.modDie n f).modid = s.modid := rfl
@[simp] theorem State.modDie_noRoute (s : State) (n : Nat) (f : Die → Die) : (s.modDie n f).noRoute = s.noRoute := rfl
@[simp] theorem State.modDie_linksDown (s : State) (n : Nat) (f : Die → Die) : (s.modDie n f).linksDown = s.linksDown := rfl
@[simp] theorem State.modDie_plainPorts (s : State) (n : Nat) (f : Die → Die) : (s.modDie n f).plainPorts = s.plainPorts := rfl
@[simp] theorem State.modDie_podSealed (s : State) (n : Nat) (f : Die → Die) : (s.modDie n f).podSealed = s.podSealed := rfl
@[simp] theorem State.modDie_mhz (s : State) (n : Nat) (f : Die → Die) : (s.modDie n f).mhz = s.mhz := rfl
@[simp] theorem State.modDie_islands (s : State) (n : Nat) (f : Die → Die) : (s.modDie n f).islands = s.islands := rfl
@[simp] theorem State.modDie_frozenPower (s : State) (n : Nat) (f : Die → Die) : (s.modDie n f).frozenPower = s.frozenPower := rfl
@[simp] theorem State.modDie_saved (s : State) (n : Nat) (f : Die → Die) : (s.modDie n f).saved = s.saved := rfl
@[simp] theorem State.modDie_mss (s : State) (n : Nat) (f : Die → Die) : (s.modDie n f).mss = s.mss := rfl
@[simp] theorem State.modDie_irqs (s : State) (n : Nat) (f : Die → Die) : (s.modDie n f).irqs = s.irqs := rfl
@[simp] theorem State.modDie_msix (s : State) (n : Nat) (f : Die → Die) : (s.modDie n f).msix = s.msix := rfl
@[simp] theorem State.modDie_pending (s : State) (n : Nat) (f : Die → Die) : (s.modDie n f).pending = s.pending := rfl
@[simp] theorem State.modDie_ns (s : State) (n : Nat) (f : Die → Die) : (s.modDie n f).ns = s.ns := rfl
@[simp] theorem State.modDie_me (s : State) (n : Nat) (f : Die → Die) : (s.modDie n f).me = s.me := rfl
@[simp] theorem State.modDie_about (s : State) (n : Nat) (f : Die → Die) : (s.modDie n f).about = s.about := rfl
@[simp] theorem State.modDie_agenda (s : State) (n : Nat) (f : Die → Die) : (s.modDie n f).agenda = s.agenda := rfl
@[simp] theorem State.modDie_free (s : State) (n : Nat) (f : Die → Die) : (s.modDie n f).free = s.free := rfl

/-! ## State.tick -/

@[simp] theorem State.tick_mem (s : State) : s.tick.mem = s.mem := rfl
@[simp] theorem State.tick_hostMem (s : State) : s.tick.hostMem = s.hostMem := rfl
@[simp] theorem State.tick_l2 (s : State) : s.tick.l2 = s.l2 := rfl
@[simp] theorem State.tick_l3 (s : State) : s.tick.l3 = s.l3 := rfl
@[simp] theorem State.tick_altered (s : State) : s.tick.altered = s.altered := rfl
@[simp] theorem State.tick_cxlLosses (s : State) : s.tick.cxlLosses = s.cxlLosses := rfl
@[simp] theorem State.tick_cores (s : State) : s.tick.cores = s.cores := rfl
@[simp] theorem State.tick_kernels (s : State) : s.tick.kernels = s.kernels := rfl
@[simp] theorem State.tick_words (s : State) : s.tick.words = s.words := rfl
@[simp] theorem State.tick_dies (s : State) : s.tick.dies = s.dies := rfl
@[simp] theorem State.tick_cfgFile (s : State) : s.tick.cfgFile = s.cfgFile := rfl
@[simp] theorem State.tick_queues (s : State) : s.tick.queues = s.queues := rfl
@[simp] theorem State.tick_launches (s : State) : s.tick.launches = s.launches := rfl
@[simp] theorem State.tick_turn (s : State) : s.tick.turn = s.turn := rfl
@[simp] theorem State.tick_kidTable (s : State) : s.tick.kidTable = s.kidTable := rfl
@[simp] theorem State.tick_accepted (s : State) : s.tick.accepted = s.accepted := rfl
@[simp] theorem State.tick_xregs (s : State) : s.tick.xregs = s.xregs := rfl
@[simp] theorem State.tick_walked (s : State) : s.tick.walked = s.walked := rfl
@[simp] theorem State.tick_walkCache (s : State) : s.tick.walkCache = s.walkCache := rfl
@[simp] theorem State.tick_walkers (s : State) : s.tick.walkers = s.walkers := rfl
@[simp] theorem State.tick_faults (s : State) : s.tick.faults = s.faults := rfl
@[simp] theorem State.tick_mail (s : State) : s.tick.mail = s.mail := rfl
@[simp] theorem State.tick_objs (s : State) : s.tick.objs = s.objs := rfl
@[simp] theorem State.tick_flats (s : State) : s.tick.flats = s.flats := rfl
@[simp] theorem State.tick_msgs (s : State) : s.tick.msgs = s.msgs := rfl
@[simp] theorem State.tick_replies (s : State) : s.tick.replies = s.replies := rfl
@[simp] theorem State.tick_monitors (s : State) : s.tick.monitors = s.monitors := rfl
@[simp] theorem State.tick_engCycle (s : State) : s.tick.engCycle = s.engCycle := rfl
@[simp] theorem State.tick_masks (s : State) : s.tick.masks = s.masks := rfl
@[simp] theorem State.tick_cmds (s : State) : s.tick.cmds = s.cmds := rfl
@[simp] theorem State.tick_attns (s : State) : s.tick.attns = s.attns := rfl
@[simp] theorem State.tick_tiers (s : State) : s.tick.tiers = s.tiers := rfl
@[simp] theorem State.tick_nextId (s : State) : s.tick.nextId = s.nextId := rfl
@[simp] theorem State.tick_floors (s : State) : s.tick.floors = s.floors := rfl
@[simp] theorem State.tick_sealedDram (s : State) : s.tick.sealedDram = s.sealedDram := rfl
@[simp] theorem State.tick_frozen (s : State) : s.tick.frozen = s.frozen := rfl
@[simp] theorem State.tick_poison (s : State) : s.tick.poison = s.poison := rfl
@[simp] theorem State.tick_blocks (s : State) : s.tick.blocks = s.blocks := rfl
@[simp] theorem State.tick_wear (s : State) : s.tick.wear = s.wear := rfl
@[simp] theorem State.tick_spares (s : State) : s.tick.spares = s.spares := rfl
@[simp] theorem State.tick_bch (s : State) : s.tick.bch = s.bch := rfl
@[simp] theorem State.tick_lost (s : State) : s.tick.lost = s.lost := rfl
@[simp] theorem State.tick_cxl (s : State) : s.tick.cxl = s.cxl := rfl
@[simp] theorem State.tick_podPorts (s : State) : s.tick.podPorts = s.podPorts := rfl
@[simp] theorem State.tick_modid (s : State) : s.tick.modid = s.modid := rfl
@[simp] theorem State.tick_noRoute (s : State) : s.tick.noRoute = s.noRoute := rfl
@[simp] theorem State.tick_linksDown (s : State) : s.tick.linksDown = s.linksDown := rfl
@[simp] theorem State.tick_plainPorts (s : State) : s.tick.plainPorts = s.plainPorts := rfl
@[simp] theorem State.tick_podSealed (s : State) : s.tick.podSealed = s.podSealed := rfl
@[simp] theorem State.tick_mhz (s : State) : s.tick.mhz = s.mhz := rfl
@[simp] theorem State.tick_islands (s : State) : s.tick.islands = s.islands := rfl
@[simp] theorem State.tick_frozenPower (s : State) : s.tick.frozenPower = s.frozenPower := rfl
@[simp] theorem State.tick_saved (s : State) : s.tick.saved = s.saved := rfl
@[simp] theorem State.tick_mss (s : State) : s.tick.mss = s.mss := rfl
@[simp] theorem State.tick_irqs (s : State) : s.tick.irqs = s.irqs := rfl
@[simp] theorem State.tick_msix (s : State) : s.tick.msix = s.msix := rfl
@[simp] theorem State.tick_pending (s : State) : s.tick.pending = s.pending := rfl
@[simp] theorem State.tick_ns (s : State) : s.tick.ns = s.ns := rfl
@[simp] theorem State.tick_me (s : State) : s.tick.me = s.me := rfl
@[simp] theorem State.tick_about (s : State) : s.tick.about = s.about := rfl
@[simp] theorem State.tick_agenda (s : State) : s.tick.agenda = s.agenda := rfl

/-! ## State.setKernel -/

@[simp] theorem State.setKernel_mem (s : State) (n : Nat) (x : Kernel) : (s.setKernel n x).mem = s.mem := rfl
@[simp] theorem State.setKernel_hostMem (s : State) (n : Nat) (x : Kernel) : (s.setKernel n x).hostMem = s.hostMem := rfl
@[simp] theorem State.setKernel_l2 (s : State) (n : Nat) (x : Kernel) : (s.setKernel n x).l2 = s.l2 := rfl
@[simp] theorem State.setKernel_l3 (s : State) (n : Nat) (x : Kernel) : (s.setKernel n x).l3 = s.l3 := rfl
@[simp] theorem State.setKernel_altered (s : State) (n : Nat) (x : Kernel) : (s.setKernel n x).altered = s.altered := rfl
@[simp] theorem State.setKernel_cxlLosses (s : State) (n : Nat) (x : Kernel) : (s.setKernel n x).cxlLosses = s.cxlLosses := rfl
@[simp] theorem State.setKernel_cores (s : State) (n : Nat) (x : Kernel) : (s.setKernel n x).cores = s.cores := rfl
@[simp] theorem State.setKernel_words (s : State) (n : Nat) (x : Kernel) : (s.setKernel n x).words = s.words := rfl
@[simp] theorem State.setKernel_dies (s : State) (n : Nat) (x : Kernel) : (s.setKernel n x).dies = s.dies := rfl
@[simp] theorem State.setKernel_cfgFile (s : State) (n : Nat) (x : Kernel) : (s.setKernel n x).cfgFile = s.cfgFile := rfl
@[simp] theorem State.setKernel_queues (s : State) (n : Nat) (x : Kernel) : (s.setKernel n x).queues = s.queues := rfl
@[simp] theorem State.setKernel_launches (s : State) (n : Nat) (x : Kernel) : (s.setKernel n x).launches = s.launches := rfl
@[simp] theorem State.setKernel_turn (s : State) (n : Nat) (x : Kernel) : (s.setKernel n x).turn = s.turn := rfl
@[simp] theorem State.setKernel_kidTable (s : State) (n : Nat) (x : Kernel) : (s.setKernel n x).kidTable = s.kidTable := rfl
@[simp] theorem State.setKernel_accepted (s : State) (n : Nat) (x : Kernel) : (s.setKernel n x).accepted = s.accepted := rfl
@[simp] theorem State.setKernel_xregs (s : State) (n : Nat) (x : Kernel) : (s.setKernel n x).xregs = s.xregs := rfl
@[simp] theorem State.setKernel_walked (s : State) (n : Nat) (x : Kernel) : (s.setKernel n x).walked = s.walked := rfl
@[simp] theorem State.setKernel_walkCache (s : State) (n : Nat) (x : Kernel) : (s.setKernel n x).walkCache = s.walkCache := rfl
@[simp] theorem State.setKernel_walkers (s : State) (n : Nat) (x : Kernel) : (s.setKernel n x).walkers = s.walkers := rfl
@[simp] theorem State.setKernel_faults (s : State) (n : Nat) (x : Kernel) : (s.setKernel n x).faults = s.faults := rfl
@[simp] theorem State.setKernel_mail (s : State) (n : Nat) (x : Kernel) : (s.setKernel n x).mail = s.mail := rfl
@[simp] theorem State.setKernel_objs (s : State) (n : Nat) (x : Kernel) : (s.setKernel n x).objs = s.objs := rfl
@[simp] theorem State.setKernel_flats (s : State) (n : Nat) (x : Kernel) : (s.setKernel n x).flats = s.flats := rfl
@[simp] theorem State.setKernel_msgs (s : State) (n : Nat) (x : Kernel) : (s.setKernel n x).msgs = s.msgs := rfl
@[simp] theorem State.setKernel_replies (s : State) (n : Nat) (x : Kernel) : (s.setKernel n x).replies = s.replies := rfl
@[simp] theorem State.setKernel_monitors (s : State) (n : Nat) (x : Kernel) : (s.setKernel n x).monitors = s.monitors := rfl
@[simp] theorem State.setKernel_engCycle (s : State) (n : Nat) (x : Kernel) : (s.setKernel n x).engCycle = s.engCycle := rfl
@[simp] theorem State.setKernel_masks (s : State) (n : Nat) (x : Kernel) : (s.setKernel n x).masks = s.masks := rfl
@[simp] theorem State.setKernel_cmds (s : State) (n : Nat) (x : Kernel) : (s.setKernel n x).cmds = s.cmds := rfl
@[simp] theorem State.setKernel_attns (s : State) (n : Nat) (x : Kernel) : (s.setKernel n x).attns = s.attns := rfl
@[simp] theorem State.setKernel_tiers (s : State) (n : Nat) (x : Kernel) : (s.setKernel n x).tiers = s.tiers := rfl
@[simp] theorem State.setKernel_nextId (s : State) (n : Nat) (x : Kernel) : (s.setKernel n x).nextId = s.nextId := rfl
@[simp] theorem State.setKernel_floors (s : State) (n : Nat) (x : Kernel) : (s.setKernel n x).floors = s.floors := rfl
@[simp] theorem State.setKernel_sealedDram (s : State) (n : Nat) (x : Kernel) : (s.setKernel n x).sealedDram = s.sealedDram := rfl
@[simp] theorem State.setKernel_frozen (s : State) (n : Nat) (x : Kernel) : (s.setKernel n x).frozen = s.frozen := rfl
@[simp] theorem State.setKernel_poison (s : State) (n : Nat) (x : Kernel) : (s.setKernel n x).poison = s.poison := rfl
@[simp] theorem State.setKernel_blocks (s : State) (n : Nat) (x : Kernel) : (s.setKernel n x).blocks = s.blocks := rfl
@[simp] theorem State.setKernel_wear (s : State) (n : Nat) (x : Kernel) : (s.setKernel n x).wear = s.wear := rfl
@[simp] theorem State.setKernel_spares (s : State) (n : Nat) (x : Kernel) : (s.setKernel n x).spares = s.spares := rfl
@[simp] theorem State.setKernel_bch (s : State) (n : Nat) (x : Kernel) : (s.setKernel n x).bch = s.bch := rfl
@[simp] theorem State.setKernel_lost (s : State) (n : Nat) (x : Kernel) : (s.setKernel n x).lost = s.lost := rfl
@[simp] theorem State.setKernel_cxl (s : State) (n : Nat) (x : Kernel) : (s.setKernel n x).cxl = s.cxl := rfl
@[simp] theorem State.setKernel_podPorts (s : State) (n : Nat) (x : Kernel) : (s.setKernel n x).podPorts = s.podPorts := rfl
@[simp] theorem State.setKernel_modid (s : State) (n : Nat) (x : Kernel) : (s.setKernel n x).modid = s.modid := rfl
@[simp] theorem State.setKernel_noRoute (s : State) (n : Nat) (x : Kernel) : (s.setKernel n x).noRoute = s.noRoute := rfl
@[simp] theorem State.setKernel_linksDown (s : State) (n : Nat) (x : Kernel) : (s.setKernel n x).linksDown = s.linksDown := rfl
@[simp] theorem State.setKernel_plainPorts (s : State) (n : Nat) (x : Kernel) : (s.setKernel n x).plainPorts = s.plainPorts := rfl
@[simp] theorem State.setKernel_podSealed (s : State) (n : Nat) (x : Kernel) : (s.setKernel n x).podSealed = s.podSealed := rfl
@[simp] theorem State.setKernel_mhz (s : State) (n : Nat) (x : Kernel) : (s.setKernel n x).mhz = s.mhz := rfl
@[simp] theorem State.setKernel_islands (s : State) (n : Nat) (x : Kernel) : (s.setKernel n x).islands = s.islands := rfl
@[simp] theorem State.setKernel_frozenPower (s : State) (n : Nat) (x : Kernel) : (s.setKernel n x).frozenPower = s.frozenPower := rfl
@[simp] theorem State.setKernel_saved (s : State) (n : Nat) (x : Kernel) : (s.setKernel n x).saved = s.saved := rfl
@[simp] theorem State.setKernel_mss (s : State) (n : Nat) (x : Kernel) : (s.setKernel n x).mss = s.mss := rfl
@[simp] theorem State.setKernel_irqs (s : State) (n : Nat) (x : Kernel) : (s.setKernel n x).irqs = s.irqs := rfl
@[simp] theorem State.setKernel_msix (s : State) (n : Nat) (x : Kernel) : (s.setKernel n x).msix = s.msix := rfl
@[simp] theorem State.setKernel_pending (s : State) (n : Nat) (x : Kernel) : (s.setKernel n x).pending = s.pending := rfl
@[simp] theorem State.setKernel_ns (s : State) (n : Nat) (x : Kernel) : (s.setKernel n x).ns = s.ns := rfl
@[simp] theorem State.setKernel_me (s : State) (n : Nat) (x : Kernel) : (s.setKernel n x).me = s.me := rfl
@[simp] theorem State.setKernel_about (s : State) (n : Nat) (x : Kernel) : (s.setKernel n x).about = s.about := rfl
@[simp] theorem State.setKernel_agenda (s : State) (n : Nat) (x : Kernel) : (s.setKernel n x).agenda = s.agenda := rfl
@[simp] theorem State.setKernel_free (s : State) (n : Nat) (x : Kernel) : (s.setKernel n x).free = s.free := rfl

/-! ## State.setQueue -/

@[simp] theorem State.setQueue_mem (s : State) (n : Nat) (x : HostQueue) : (s.setQueue n x).mem = s.mem := rfl
@[simp] theorem State.setQueue_hostMem (s : State) (n : Nat) (x : HostQueue) : (s.setQueue n x).hostMem = s.hostMem := rfl
@[simp] theorem State.setQueue_l2 (s : State) (n : Nat) (x : HostQueue) : (s.setQueue n x).l2 = s.l2 := rfl
@[simp] theorem State.setQueue_l3 (s : State) (n : Nat) (x : HostQueue) : (s.setQueue n x).l3 = s.l3 := rfl
@[simp] theorem State.setQueue_altered (s : State) (n : Nat) (x : HostQueue) : (s.setQueue n x).altered = s.altered := rfl
@[simp] theorem State.setQueue_cxlLosses (s : State) (n : Nat) (x : HostQueue) : (s.setQueue n x).cxlLosses = s.cxlLosses := rfl
@[simp] theorem State.setQueue_cores (s : State) (n : Nat) (x : HostQueue) : (s.setQueue n x).cores = s.cores := rfl
@[simp] theorem State.setQueue_kernels (s : State) (n : Nat) (x : HostQueue) : (s.setQueue n x).kernels = s.kernels := rfl
@[simp] theorem State.setQueue_words (s : State) (n : Nat) (x : HostQueue) : (s.setQueue n x).words = s.words := rfl
@[simp] theorem State.setQueue_dies (s : State) (n : Nat) (x : HostQueue) : (s.setQueue n x).dies = s.dies := rfl
@[simp] theorem State.setQueue_cfgFile (s : State) (n : Nat) (x : HostQueue) : (s.setQueue n x).cfgFile = s.cfgFile := rfl
@[simp] theorem State.setQueue_launches (s : State) (n : Nat) (x : HostQueue) : (s.setQueue n x).launches = s.launches := rfl
@[simp] theorem State.setQueue_turn (s : State) (n : Nat) (x : HostQueue) : (s.setQueue n x).turn = s.turn := rfl
@[simp] theorem State.setQueue_kidTable (s : State) (n : Nat) (x : HostQueue) : (s.setQueue n x).kidTable = s.kidTable := rfl
@[simp] theorem State.setQueue_accepted (s : State) (n : Nat) (x : HostQueue) : (s.setQueue n x).accepted = s.accepted := rfl
@[simp] theorem State.setQueue_xregs (s : State) (n : Nat) (x : HostQueue) : (s.setQueue n x).xregs = s.xregs := rfl
@[simp] theorem State.setQueue_walked (s : State) (n : Nat) (x : HostQueue) : (s.setQueue n x).walked = s.walked := rfl
@[simp] theorem State.setQueue_walkCache (s : State) (n : Nat) (x : HostQueue) : (s.setQueue n x).walkCache = s.walkCache := rfl
@[simp] theorem State.setQueue_walkers (s : State) (n : Nat) (x : HostQueue) : (s.setQueue n x).walkers = s.walkers := rfl
@[simp] theorem State.setQueue_faults (s : State) (n : Nat) (x : HostQueue) : (s.setQueue n x).faults = s.faults := rfl
@[simp] theorem State.setQueue_mail (s : State) (n : Nat) (x : HostQueue) : (s.setQueue n x).mail = s.mail := rfl
@[simp] theorem State.setQueue_objs (s : State) (n : Nat) (x : HostQueue) : (s.setQueue n x).objs = s.objs := rfl
@[simp] theorem State.setQueue_flats (s : State) (n : Nat) (x : HostQueue) : (s.setQueue n x).flats = s.flats := rfl
@[simp] theorem State.setQueue_msgs (s : State) (n : Nat) (x : HostQueue) : (s.setQueue n x).msgs = s.msgs := rfl
@[simp] theorem State.setQueue_replies (s : State) (n : Nat) (x : HostQueue) : (s.setQueue n x).replies = s.replies := rfl
@[simp] theorem State.setQueue_monitors (s : State) (n : Nat) (x : HostQueue) : (s.setQueue n x).monitors = s.monitors := rfl
@[simp] theorem State.setQueue_engCycle (s : State) (n : Nat) (x : HostQueue) : (s.setQueue n x).engCycle = s.engCycle := rfl
@[simp] theorem State.setQueue_masks (s : State) (n : Nat) (x : HostQueue) : (s.setQueue n x).masks = s.masks := rfl
@[simp] theorem State.setQueue_cmds (s : State) (n : Nat) (x : HostQueue) : (s.setQueue n x).cmds = s.cmds := rfl
@[simp] theorem State.setQueue_attns (s : State) (n : Nat) (x : HostQueue) : (s.setQueue n x).attns = s.attns := rfl
@[simp] theorem State.setQueue_tiers (s : State) (n : Nat) (x : HostQueue) : (s.setQueue n x).tiers = s.tiers := rfl
@[simp] theorem State.setQueue_nextId (s : State) (n : Nat) (x : HostQueue) : (s.setQueue n x).nextId = s.nextId := rfl
@[simp] theorem State.setQueue_floors (s : State) (n : Nat) (x : HostQueue) : (s.setQueue n x).floors = s.floors := rfl
@[simp] theorem State.setQueue_sealedDram (s : State) (n : Nat) (x : HostQueue) : (s.setQueue n x).sealedDram = s.sealedDram := rfl
@[simp] theorem State.setQueue_frozen (s : State) (n : Nat) (x : HostQueue) : (s.setQueue n x).frozen = s.frozen := rfl
@[simp] theorem State.setQueue_poison (s : State) (n : Nat) (x : HostQueue) : (s.setQueue n x).poison = s.poison := rfl
@[simp] theorem State.setQueue_blocks (s : State) (n : Nat) (x : HostQueue) : (s.setQueue n x).blocks = s.blocks := rfl
@[simp] theorem State.setQueue_wear (s : State) (n : Nat) (x : HostQueue) : (s.setQueue n x).wear = s.wear := rfl
@[simp] theorem State.setQueue_spares (s : State) (n : Nat) (x : HostQueue) : (s.setQueue n x).spares = s.spares := rfl
@[simp] theorem State.setQueue_bch (s : State) (n : Nat) (x : HostQueue) : (s.setQueue n x).bch = s.bch := rfl
@[simp] theorem State.setQueue_lost (s : State) (n : Nat) (x : HostQueue) : (s.setQueue n x).lost = s.lost := rfl
@[simp] theorem State.setQueue_cxl (s : State) (n : Nat) (x : HostQueue) : (s.setQueue n x).cxl = s.cxl := rfl
@[simp] theorem State.setQueue_podPorts (s : State) (n : Nat) (x : HostQueue) : (s.setQueue n x).podPorts = s.podPorts := rfl
@[simp] theorem State.setQueue_modid (s : State) (n : Nat) (x : HostQueue) : (s.setQueue n x).modid = s.modid := rfl
@[simp] theorem State.setQueue_noRoute (s : State) (n : Nat) (x : HostQueue) : (s.setQueue n x).noRoute = s.noRoute := rfl
@[simp] theorem State.setQueue_linksDown (s : State) (n : Nat) (x : HostQueue) : (s.setQueue n x).linksDown = s.linksDown := rfl
@[simp] theorem State.setQueue_plainPorts (s : State) (n : Nat) (x : HostQueue) : (s.setQueue n x).plainPorts = s.plainPorts := rfl
@[simp] theorem State.setQueue_podSealed (s : State) (n : Nat) (x : HostQueue) : (s.setQueue n x).podSealed = s.podSealed := rfl
@[simp] theorem State.setQueue_mhz (s : State) (n : Nat) (x : HostQueue) : (s.setQueue n x).mhz = s.mhz := rfl
@[simp] theorem State.setQueue_islands (s : State) (n : Nat) (x : HostQueue) : (s.setQueue n x).islands = s.islands := rfl
@[simp] theorem State.setQueue_frozenPower (s : State) (n : Nat) (x : HostQueue) : (s.setQueue n x).frozenPower = s.frozenPower := rfl
@[simp] theorem State.setQueue_saved (s : State) (n : Nat) (x : HostQueue) : (s.setQueue n x).saved = s.saved := rfl
@[simp] theorem State.setQueue_mss (s : State) (n : Nat) (x : HostQueue) : (s.setQueue n x).mss = s.mss := rfl
@[simp] theorem State.setQueue_irqs (s : State) (n : Nat) (x : HostQueue) : (s.setQueue n x).irqs = s.irqs := rfl
@[simp] theorem State.setQueue_msix (s : State) (n : Nat) (x : HostQueue) : (s.setQueue n x).msix = s.msix := rfl
@[simp] theorem State.setQueue_pending (s : State) (n : Nat) (x : HostQueue) : (s.setQueue n x).pending = s.pending := rfl
@[simp] theorem State.setQueue_ns (s : State) (n : Nat) (x : HostQueue) : (s.setQueue n x).ns = s.ns := rfl
@[simp] theorem State.setQueue_me (s : State) (n : Nat) (x : HostQueue) : (s.setQueue n x).me = s.me := rfl
@[simp] theorem State.setQueue_about (s : State) (n : Nat) (x : HostQueue) : (s.setQueue n x).about = s.about := rfl
@[simp] theorem State.setQueue_agenda (s : State) (n : Nat) (x : HostQueue) : (s.setQueue n x).agenda = s.agenda := rfl
@[simp] theorem State.setQueue_free (s : State) (n : Nat) (x : HostQueue) : (s.setQueue n x).free = s.free := rfl

/-! ## State.setIsland -/

@[simp] theorem State.setIsland_mem (s : State) (n : Nat) (x : Island) : (s.setIsland n x).mem = s.mem := rfl
@[simp] theorem State.setIsland_hostMem (s : State) (n : Nat) (x : Island) : (s.setIsland n x).hostMem = s.hostMem := rfl
@[simp] theorem State.setIsland_l2 (s : State) (n : Nat) (x : Island) : (s.setIsland n x).l2 = s.l2 := rfl
@[simp] theorem State.setIsland_l3 (s : State) (n : Nat) (x : Island) : (s.setIsland n x).l3 = s.l3 := rfl
@[simp] theorem State.setIsland_altered (s : State) (n : Nat) (x : Island) : (s.setIsland n x).altered = s.altered := rfl
@[simp] theorem State.setIsland_cxlLosses (s : State) (n : Nat) (x : Island) : (s.setIsland n x).cxlLosses = s.cxlLosses := rfl
@[simp] theorem State.setIsland_cores (s : State) (n : Nat) (x : Island) : (s.setIsland n x).cores = s.cores := rfl
@[simp] theorem State.setIsland_kernels (s : State) (n : Nat) (x : Island) : (s.setIsland n x).kernels = s.kernels := rfl
@[simp] theorem State.setIsland_words (s : State) (n : Nat) (x : Island) : (s.setIsland n x).words = s.words := rfl
@[simp] theorem State.setIsland_dies (s : State) (n : Nat) (x : Island) : (s.setIsland n x).dies = s.dies := rfl
@[simp] theorem State.setIsland_cfgFile (s : State) (n : Nat) (x : Island) : (s.setIsland n x).cfgFile = s.cfgFile := rfl
@[simp] theorem State.setIsland_queues (s : State) (n : Nat) (x : Island) : (s.setIsland n x).queues = s.queues := rfl
@[simp] theorem State.setIsland_launches (s : State) (n : Nat) (x : Island) : (s.setIsland n x).launches = s.launches := rfl
@[simp] theorem State.setIsland_turn (s : State) (n : Nat) (x : Island) : (s.setIsland n x).turn = s.turn := rfl
@[simp] theorem State.setIsland_kidTable (s : State) (n : Nat) (x : Island) : (s.setIsland n x).kidTable = s.kidTable := rfl
@[simp] theorem State.setIsland_accepted (s : State) (n : Nat) (x : Island) : (s.setIsland n x).accepted = s.accepted := rfl
@[simp] theorem State.setIsland_xregs (s : State) (n : Nat) (x : Island) : (s.setIsland n x).xregs = s.xregs := rfl
@[simp] theorem State.setIsland_walked (s : State) (n : Nat) (x : Island) : (s.setIsland n x).walked = s.walked := rfl
@[simp] theorem State.setIsland_walkCache (s : State) (n : Nat) (x : Island) : (s.setIsland n x).walkCache = s.walkCache := rfl
@[simp] theorem State.setIsland_walkers (s : State) (n : Nat) (x : Island) : (s.setIsland n x).walkers = s.walkers := rfl
@[simp] theorem State.setIsland_faults (s : State) (n : Nat) (x : Island) : (s.setIsland n x).faults = s.faults := rfl
@[simp] theorem State.setIsland_mail (s : State) (n : Nat) (x : Island) : (s.setIsland n x).mail = s.mail := rfl
@[simp] theorem State.setIsland_objs (s : State) (n : Nat) (x : Island) : (s.setIsland n x).objs = s.objs := rfl
@[simp] theorem State.setIsland_flats (s : State) (n : Nat) (x : Island) : (s.setIsland n x).flats = s.flats := rfl
@[simp] theorem State.setIsland_msgs (s : State) (n : Nat) (x : Island) : (s.setIsland n x).msgs = s.msgs := rfl
@[simp] theorem State.setIsland_replies (s : State) (n : Nat) (x : Island) : (s.setIsland n x).replies = s.replies := rfl
@[simp] theorem State.setIsland_monitors (s : State) (n : Nat) (x : Island) : (s.setIsland n x).monitors = s.monitors := rfl
@[simp] theorem State.setIsland_engCycle (s : State) (n : Nat) (x : Island) : (s.setIsland n x).engCycle = s.engCycle := rfl
@[simp] theorem State.setIsland_masks (s : State) (n : Nat) (x : Island) : (s.setIsland n x).masks = s.masks := rfl
@[simp] theorem State.setIsland_cmds (s : State) (n : Nat) (x : Island) : (s.setIsland n x).cmds = s.cmds := rfl
@[simp] theorem State.setIsland_attns (s : State) (n : Nat) (x : Island) : (s.setIsland n x).attns = s.attns := rfl
@[simp] theorem State.setIsland_tiers (s : State) (n : Nat) (x : Island) : (s.setIsland n x).tiers = s.tiers := rfl
@[simp] theorem State.setIsland_nextId (s : State) (n : Nat) (x : Island) : (s.setIsland n x).nextId = s.nextId := rfl
@[simp] theorem State.setIsland_floors (s : State) (n : Nat) (x : Island) : (s.setIsland n x).floors = s.floors := rfl
@[simp] theorem State.setIsland_sealedDram (s : State) (n : Nat) (x : Island) : (s.setIsland n x).sealedDram = s.sealedDram := rfl
@[simp] theorem State.setIsland_frozen (s : State) (n : Nat) (x : Island) : (s.setIsland n x).frozen = s.frozen := rfl
@[simp] theorem State.setIsland_poison (s : State) (n : Nat) (x : Island) : (s.setIsland n x).poison = s.poison := rfl
@[simp] theorem State.setIsland_blocks (s : State) (n : Nat) (x : Island) : (s.setIsland n x).blocks = s.blocks := rfl
@[simp] theorem State.setIsland_wear (s : State) (n : Nat) (x : Island) : (s.setIsland n x).wear = s.wear := rfl
@[simp] theorem State.setIsland_spares (s : State) (n : Nat) (x : Island) : (s.setIsland n x).spares = s.spares := rfl
@[simp] theorem State.setIsland_bch (s : State) (n : Nat) (x : Island) : (s.setIsland n x).bch = s.bch := rfl
@[simp] theorem State.setIsland_lost (s : State) (n : Nat) (x : Island) : (s.setIsland n x).lost = s.lost := rfl
@[simp] theorem State.setIsland_cxl (s : State) (n : Nat) (x : Island) : (s.setIsland n x).cxl = s.cxl := rfl
@[simp] theorem State.setIsland_podPorts (s : State) (n : Nat) (x : Island) : (s.setIsland n x).podPorts = s.podPorts := rfl
@[simp] theorem State.setIsland_modid (s : State) (n : Nat) (x : Island) : (s.setIsland n x).modid = s.modid := rfl
@[simp] theorem State.setIsland_noRoute (s : State) (n : Nat) (x : Island) : (s.setIsland n x).noRoute = s.noRoute := rfl
@[simp] theorem State.setIsland_linksDown (s : State) (n : Nat) (x : Island) : (s.setIsland n x).linksDown = s.linksDown := rfl
@[simp] theorem State.setIsland_plainPorts (s : State) (n : Nat) (x : Island) : (s.setIsland n x).plainPorts = s.plainPorts := rfl
@[simp] theorem State.setIsland_podSealed (s : State) (n : Nat) (x : Island) : (s.setIsland n x).podSealed = s.podSealed := rfl
@[simp] theorem State.setIsland_mhz (s : State) (n : Nat) (x : Island) : (s.setIsland n x).mhz = s.mhz := rfl
@[simp] theorem State.setIsland_frozenPower (s : State) (n : Nat) (x : Island) : (s.setIsland n x).frozenPower = s.frozenPower := rfl
@[simp] theorem State.setIsland_saved (s : State) (n : Nat) (x : Island) : (s.setIsland n x).saved = s.saved := rfl
@[simp] theorem State.setIsland_mss (s : State) (n : Nat) (x : Island) : (s.setIsland n x).mss = s.mss := rfl
@[simp] theorem State.setIsland_irqs (s : State) (n : Nat) (x : Island) : (s.setIsland n x).irqs = s.irqs := rfl
@[simp] theorem State.setIsland_msix (s : State) (n : Nat) (x : Island) : (s.setIsland n x).msix = s.msix := rfl
@[simp] theorem State.setIsland_pending (s : State) (n : Nat) (x : Island) : (s.setIsland n x).pending = s.pending := rfl
@[simp] theorem State.setIsland_ns (s : State) (n : Nat) (x : Island) : (s.setIsland n x).ns = s.ns := rfl
@[simp] theorem State.setIsland_me (s : State) (n : Nat) (x : Island) : (s.setIsland n x).me = s.me := rfl
@[simp] theorem State.setIsland_about (s : State) (n : Nat) (x : Island) : (s.setIsland n x).about = s.about := rfl
@[simp] theorem State.setIsland_agenda (s : State) (n : Nat) (x : Island) : (s.setIsland n x).agenda = s.agenda := rfl
@[simp] theorem State.setIsland_free (s : State) (n : Nat) (x : Island) : (s.setIsland n x).free = s.free := rfl

/-! ## State.raise -/

@[simp] theorem State.raise_mem (s : State) (v : Nat) : (s.raise v).mem = s.mem := rfl
@[simp] theorem State.raise_hostMem (s : State) (v : Nat) : (s.raise v).hostMem = s.hostMem := rfl
@[simp] theorem State.raise_l2 (s : State) (v : Nat) : (s.raise v).l2 = s.l2 := rfl
@[simp] theorem State.raise_l3 (s : State) (v : Nat) : (s.raise v).l3 = s.l3 := rfl
@[simp] theorem State.raise_altered (s : State) (v : Nat) : (s.raise v).altered = s.altered := rfl
@[simp] theorem State.raise_cxlLosses (s : State) (v : Nat) : (s.raise v).cxlLosses = s.cxlLosses := rfl
@[simp] theorem State.raise_cores (s : State) (v : Nat) : (s.raise v).cores = s.cores := rfl
@[simp] theorem State.raise_kernels (s : State) (v : Nat) : (s.raise v).kernels = s.kernels := rfl
@[simp] theorem State.raise_words (s : State) (v : Nat) : (s.raise v).words = s.words := rfl
@[simp] theorem State.raise_dies (s : State) (v : Nat) : (s.raise v).dies = s.dies := rfl
@[simp] theorem State.raise_cfgFile (s : State) (v : Nat) : (s.raise v).cfgFile = s.cfgFile := rfl
@[simp] theorem State.raise_queues (s : State) (v : Nat) : (s.raise v).queues = s.queues := rfl
@[simp] theorem State.raise_launches (s : State) (v : Nat) : (s.raise v).launches = s.launches := rfl
@[simp] theorem State.raise_turn (s : State) (v : Nat) : (s.raise v).turn = s.turn := rfl
@[simp] theorem State.raise_kidTable (s : State) (v : Nat) : (s.raise v).kidTable = s.kidTable := rfl
@[simp] theorem State.raise_accepted (s : State) (v : Nat) : (s.raise v).accepted = s.accepted := rfl
@[simp] theorem State.raise_xregs (s : State) (v : Nat) : (s.raise v).xregs = s.xregs := rfl
@[simp] theorem State.raise_walked (s : State) (v : Nat) : (s.raise v).walked = s.walked := rfl
@[simp] theorem State.raise_walkCache (s : State) (v : Nat) : (s.raise v).walkCache = s.walkCache := rfl
@[simp] theorem State.raise_walkers (s : State) (v : Nat) : (s.raise v).walkers = s.walkers := rfl
@[simp] theorem State.raise_faults (s : State) (v : Nat) : (s.raise v).faults = s.faults := rfl
@[simp] theorem State.raise_mail (s : State) (v : Nat) : (s.raise v).mail = s.mail := rfl
@[simp] theorem State.raise_objs (s : State) (v : Nat) : (s.raise v).objs = s.objs := rfl
@[simp] theorem State.raise_flats (s : State) (v : Nat) : (s.raise v).flats = s.flats := rfl
@[simp] theorem State.raise_msgs (s : State) (v : Nat) : (s.raise v).msgs = s.msgs := rfl
@[simp] theorem State.raise_replies (s : State) (v : Nat) : (s.raise v).replies = s.replies := rfl
@[simp] theorem State.raise_monitors (s : State) (v : Nat) : (s.raise v).monitors = s.monitors := rfl
@[simp] theorem State.raise_engCycle (s : State) (v : Nat) : (s.raise v).engCycle = s.engCycle := rfl
@[simp] theorem State.raise_masks (s : State) (v : Nat) : (s.raise v).masks = s.masks := rfl
@[simp] theorem State.raise_cmds (s : State) (v : Nat) : (s.raise v).cmds = s.cmds := rfl
@[simp] theorem State.raise_attns (s : State) (v : Nat) : (s.raise v).attns = s.attns := rfl
@[simp] theorem State.raise_tiers (s : State) (v : Nat) : (s.raise v).tiers = s.tiers := rfl
@[simp] theorem State.raise_nextId (s : State) (v : Nat) : (s.raise v).nextId = s.nextId := rfl
@[simp] theorem State.raise_floors (s : State) (v : Nat) : (s.raise v).floors = s.floors := rfl
@[simp] theorem State.raise_sealedDram (s : State) (v : Nat) : (s.raise v).sealedDram = s.sealedDram := rfl
@[simp] theorem State.raise_frozen (s : State) (v : Nat) : (s.raise v).frozen = s.frozen := rfl
@[simp] theorem State.raise_poison (s : State) (v : Nat) : (s.raise v).poison = s.poison := rfl
@[simp] theorem State.raise_blocks (s : State) (v : Nat) : (s.raise v).blocks = s.blocks := rfl
@[simp] theorem State.raise_wear (s : State) (v : Nat) : (s.raise v).wear = s.wear := rfl
@[simp] theorem State.raise_spares (s : State) (v : Nat) : (s.raise v).spares = s.spares := rfl
@[simp] theorem State.raise_bch (s : State) (v : Nat) : (s.raise v).bch = s.bch := rfl
@[simp] theorem State.raise_lost (s : State) (v : Nat) : (s.raise v).lost = s.lost := rfl
@[simp] theorem State.raise_cxl (s : State) (v : Nat) : (s.raise v).cxl = s.cxl := rfl
@[simp] theorem State.raise_podPorts (s : State) (v : Nat) : (s.raise v).podPorts = s.podPorts := rfl
@[simp] theorem State.raise_modid (s : State) (v : Nat) : (s.raise v).modid = s.modid := rfl
@[simp] theorem State.raise_noRoute (s : State) (v : Nat) : (s.raise v).noRoute = s.noRoute := rfl
@[simp] theorem State.raise_linksDown (s : State) (v : Nat) : (s.raise v).linksDown = s.linksDown := rfl
@[simp] theorem State.raise_plainPorts (s : State) (v : Nat) : (s.raise v).plainPorts = s.plainPorts := rfl
@[simp] theorem State.raise_podSealed (s : State) (v : Nat) : (s.raise v).podSealed = s.podSealed := rfl
@[simp] theorem State.raise_mhz (s : State) (v : Nat) : (s.raise v).mhz = s.mhz := rfl
@[simp] theorem State.raise_islands (s : State) (v : Nat) : (s.raise v).islands = s.islands := rfl
@[simp] theorem State.raise_frozenPower (s : State) (v : Nat) : (s.raise v).frozenPower = s.frozenPower := rfl
@[simp] theorem State.raise_saved (s : State) (v : Nat) : (s.raise v).saved = s.saved := rfl
@[simp] theorem State.raise_mss (s : State) (v : Nat) : (s.raise v).mss = s.mss := rfl
@[simp] theorem State.raise_msix (s : State) (v : Nat) : (s.raise v).msix = s.msix := rfl
@[simp] theorem State.raise_ns (s : State) (v : Nat) : (s.raise v).ns = s.ns := rfl
@[simp] theorem State.raise_me (s : State) (v : Nat) : (s.raise v).me = s.me := rfl
@[simp] theorem State.raise_about (s : State) (v : Nat) : (s.raise v).about = s.about := rfl
@[simp] theorem State.raise_agenda (s : State) (v : Nat) : (s.raise v).agenda = s.agenda := rfl
@[simp] theorem State.raise_free (s : State) (v : Nat) : (s.raise v).free = s.free := rfl

/-! ## Core.keepA -/

@[simp] theorem Core.keepA_run (k : Core) (x : Slot) (p : Port) : (k.keepA x p).run = k.run := rfl
@[simp] theorem Core.keepA_regs (k : Core) (x : Slot) (p : Port) : (k.keepA x p).regs = k.regs := rfl
@[simp] theorem Core.keepA_prev (k : Core) (x : Slot) (p : Port) : (k.keepA x p).prev = k.prev := rfl
@[simp] theorem Core.keepA_just (k : Core) (x : Slot) (p : Port) : (k.keepA x p).just = k.just := rfl
@[simp] theorem Core.keepA_turned (k : Core) (x : Slot) (p : Port) : (k.keepA x p).turned = k.turned := rfl
@[simp] theorem Core.keepA_loops (k : Core) (x : Slot) (p : Port) : (k.keepA x p).loops = k.loops := rfl
@[simp] theorem Core.keepA_j (k : Core) (x : Slot) (p : Port) : (k.keepA x p).j = k.j := rfl
@[simp] theorem Core.keepA_pc (k : Core) (x : Slot) (p : Port) : (k.keepA x p).pc = k.pc := rfl
@[simp] theorem Core.keepA_ports (k : Core) (x : Slot) (p : Port) : (k.keepA x p).ports = k.ports := rfl
@[simp] theorem Core.keepA_q (k : Core) (x : Slot) (p : Port) : (k.keepA x p).q = k.q := rfl
@[simp] theorem Core.keepA_qpend (k : Core) (x : Slot) (p : Port) : (k.keepA x p).qpend = k.qpend := rfl
@[simp] theorem Core.keepA_inflight (k : Core) (x : Slot) (p : Port) : (k.keepA x p).inflight = k.inflight := rfl
@[simp] theorem Core.keepA_gloads (k : Core) (x : Slot) (p : Port) : (k.keepA x p).gloads = k.gloads := rfl
@[simp] theorem Core.keepA_nloads (k : Core) (x : Slot) (p : Port) : (k.keepA x p).nloads = k.nloads := rfl
@[simp] theorem Core.keepA_landings (k : Core) (x : Slot) (p : Port) : (k.keepA x p).landings = k.landings := rfl
@[simp] theorem Core.keepA_acc (k : Core) (x : Slot) (p : Port) : (k.keepA x p).acc = k.acc := rfl
@[simp] theorem Core.keepA_accPend (k : Core) (x : Slot) (p : Port) : (k.keepA x p).accPend = k.accPend := rfl
@[simp] theorem Core.keepA_mx (k : Core) (x : Slot) (p : Port) : (k.keepA x p).mx = k.mx := rfl
@[simp] theorem Core.keepA_pinned (k : Core) (x : Slot) (p : Port) : (k.keepA x p).pinned = k.pinned := rfl
@[simp] theorem Core.keepA_cycle (k : Core) (x : Slot) (p : Port) : (k.keepA x p).cycle = k.cycle := rfl
@[simp] theorem Core.keepA_holdUntil (k : Core) (x : Slot) (p : Port) : (k.keepA x p).holdUntil = k.holdUntil := rfl
@[simp] theorem Core.keepA_afterEret (k : Core) (x : Slot) (p : Port) : (k.keepA x p).afterEret = k.afterEret := rfl
@[simp] theorem Core.keepA_landing (k : Core) (x : Slot) (p : Port) : (k.keepA x p).landing = k.landing := rfl
@[simp] theorem Core.keepA_trap (k : Core) (x : Slot) (p : Port) : (k.keepA x p).trap = k.trap := rfl
@[simp] theorem Core.keepA_issued (k : Core) (x : Slot) (p : Port) : (k.keepA x p).issued = k.issued := rfl
@[simp] theorem Core.keepA_wpend (k : Core) (x : Slot) (p : Port) : (k.keepA x p).wpend = k.wpend := rfl
@[simp] theorem Core.keepA_l1 (k : Core) (x : Slot) (p : Port) : (k.keepA x p).l1 = k.l1 := rfl
@[simp] theorem Core.keepA_tlb (k : Core) (x : Slot) (p : Port) : (k.keepA x p).tlb = k.tlb := rfl
@[simp] theorem Core.keepA_misses (k : Core) (x : Slot) (p : Port) : (k.keepA x p).misses = k.misses := rfl
@[simp] theorem Core.keepA_icache (k : Core) (x : Slot) (p : Port) : (k.keepA x p).icache = k.icache := rfl
@[simp] theorem Core.keepA_fetching (k : Core) (x : Slot) (p : Port) : (k.keepA x p).fetching = k.fetching := rfl
@[simp] theorem Core.keepA_wait (k : Core) (x : Slot) (p : Port) : (k.keepA x p).wait = k.wait := rfl
@[simp] theorem Core.keepA_kept (k : Core) (x : Slot) (p : Port) : (k.keepA x p).kept = k.kept := rfl
@[simp] theorem Core.keepA_reached (k : Core) (x : Slot) (p : Port) : (k.keepA x p).reached = k.reached := rfl
@[simp] theorem Core.keepA_atSync (k : Core) (x : Slot) (p : Port) : (k.keepA x p).atSync = k.atSync := rfl
@[simp] theorem Core.keepA_resuming (k : Core) (x : Slot) (p : Port) : (k.keepA x p).resuming = k.resuming := rfl
@[simp] theorem Core.keepA_pins (k : Core) (x : Slot) (p : Port) : (k.keepA x p).pins = k.pins := rfl
@[simp] theorem Core.keepA_images (k : Core) (x : Slot) (p : Port) : (k.keepA x p).images = k.images := rfl
@[simp] theorem Core.keepA_mmag (k : Core) (x : Slot) (p : Port) : (k.keepA x p).mmag = k.mmag := rfl
@[simp] theorem Core.keepA_gang (k : Core) (x : Slot) (p : Port) : (k.keepA x p).gang = k.gang := rfl
@[simp] theorem Core.keepA_fenceAt (k : Core) (x : Slot) (p : Port) : (k.keepA x p).fenceAt = k.fenceAt := rfl
@[simp] theorem Core.keepA_fences (k : Core) (x : Slot) (p : Port) : (k.keepA x p).fences = k.fences := rfl
@[simp] theorem Core.keepA_rels (k : Core) (x : Slot) (p : Port) : (k.keepA x p).rels = k.rels := rfl
@[simp] theorem Core.keepA_epoch (k : Core) (x : Slot) (p : Port) : (k.keepA x p).epoch = k.epoch := rfl
@[simp] theorem Core.keepA_forkTrap (k : Core) (x : Slot) (p : Port) : (k.keepA x p).forkTrap = k.forkTrap := rfl
@[simp] theorem Core.keepA_lostData (k : Core) (x : Slot) (p : Port) : (k.keepA x p).lostData = k.lostData := rfl
@[simp] theorem Core.keepA_accLost (k : Core) (x : Slot) (p : Port) : (k.keepA x p).accLost = k.accLost := rfl

/-! ## Core.keepB -/

@[simp] theorem Core.keepB_run (k : Core) (x : Slot) (p : Port) : (k.keepB x p).run = k.run := rfl
@[simp] theorem Core.keepB_regs (k : Core) (x : Slot) (p : Port) : (k.keepB x p).regs = k.regs := rfl
@[simp] theorem Core.keepB_prev (k : Core) (x : Slot) (p : Port) : (k.keepB x p).prev = k.prev := rfl
@[simp] theorem Core.keepB_just (k : Core) (x : Slot) (p : Port) : (k.keepB x p).just = k.just := rfl
@[simp] theorem Core.keepB_turned (k : Core) (x : Slot) (p : Port) : (k.keepB x p).turned = k.turned := rfl
@[simp] theorem Core.keepB_loops (k : Core) (x : Slot) (p : Port) : (k.keepB x p).loops = k.loops := rfl
@[simp] theorem Core.keepB_j (k : Core) (x : Slot) (p : Port) : (k.keepB x p).j = k.j := rfl
@[simp] theorem Core.keepB_pc (k : Core) (x : Slot) (p : Port) : (k.keepB x p).pc = k.pc := rfl
@[simp] theorem Core.keepB_ports (k : Core) (x : Slot) (p : Port) : (k.keepB x p).ports = k.ports := rfl
@[simp] theorem Core.keepB_q (k : Core) (x : Slot) (p : Port) : (k.keepB x p).q = k.q := rfl
@[simp] theorem Core.keepB_qpend (k : Core) (x : Slot) (p : Port) : (k.keepB x p).qpend = k.qpend := rfl
@[simp] theorem Core.keepB_inflight (k : Core) (x : Slot) (p : Port) : (k.keepB x p).inflight = k.inflight := rfl
@[simp] theorem Core.keepB_gloads (k : Core) (x : Slot) (p : Port) : (k.keepB x p).gloads = k.gloads := rfl
@[simp] theorem Core.keepB_nloads (k : Core) (x : Slot) (p : Port) : (k.keepB x p).nloads = k.nloads := rfl
@[simp] theorem Core.keepB_landings (k : Core) (x : Slot) (p : Port) : (k.keepB x p).landings = k.landings := rfl
@[simp] theorem Core.keepB_acc (k : Core) (x : Slot) (p : Port) : (k.keepB x p).acc = k.acc := rfl
@[simp] theorem Core.keepB_accPend (k : Core) (x : Slot) (p : Port) : (k.keepB x p).accPend = k.accPend := rfl
@[simp] theorem Core.keepB_mx (k : Core) (x : Slot) (p : Port) : (k.keepB x p).mx = k.mx := rfl
@[simp] theorem Core.keepB_pinned (k : Core) (x : Slot) (p : Port) : (k.keepB x p).pinned = k.pinned := rfl
@[simp] theorem Core.keepB_cycle (k : Core) (x : Slot) (p : Port) : (k.keepB x p).cycle = k.cycle := rfl
@[simp] theorem Core.keepB_holdUntil (k : Core) (x : Slot) (p : Port) : (k.keepB x p).holdUntil = k.holdUntil := rfl
@[simp] theorem Core.keepB_afterEret (k : Core) (x : Slot) (p : Port) : (k.keepB x p).afterEret = k.afterEret := rfl
@[simp] theorem Core.keepB_landing (k : Core) (x : Slot) (p : Port) : (k.keepB x p).landing = k.landing := rfl
@[simp] theorem Core.keepB_trap (k : Core) (x : Slot) (p : Port) : (k.keepB x p).trap = k.trap := rfl
@[simp] theorem Core.keepB_issued (k : Core) (x : Slot) (p : Port) : (k.keepB x p).issued = k.issued := rfl
@[simp] theorem Core.keepB_wpend (k : Core) (x : Slot) (p : Port) : (k.keepB x p).wpend = k.wpend := rfl
@[simp] theorem Core.keepB_l1 (k : Core) (x : Slot) (p : Port) : (k.keepB x p).l1 = k.l1 := rfl
@[simp] theorem Core.keepB_tlb (k : Core) (x : Slot) (p : Port) : (k.keepB x p).tlb = k.tlb := rfl
@[simp] theorem Core.keepB_misses (k : Core) (x : Slot) (p : Port) : (k.keepB x p).misses = k.misses := rfl
@[simp] theorem Core.keepB_icache (k : Core) (x : Slot) (p : Port) : (k.keepB x p).icache = k.icache := rfl
@[simp] theorem Core.keepB_fetching (k : Core) (x : Slot) (p : Port) : (k.keepB x p).fetching = k.fetching := rfl
@[simp] theorem Core.keepB_wait (k : Core) (x : Slot) (p : Port) : (k.keepB x p).wait = k.wait := rfl
@[simp] theorem Core.keepB_kept (k : Core) (x : Slot) (p : Port) : (k.keepB x p).kept = k.kept := rfl
@[simp] theorem Core.keepB_reached (k : Core) (x : Slot) (p : Port) : (k.keepB x p).reached = k.reached := rfl
@[simp] theorem Core.keepB_atSync (k : Core) (x : Slot) (p : Port) : (k.keepB x p).atSync = k.atSync := rfl
@[simp] theorem Core.keepB_resuming (k : Core) (x : Slot) (p : Port) : (k.keepB x p).resuming = k.resuming := rfl
@[simp] theorem Core.keepB_pins (k : Core) (x : Slot) (p : Port) : (k.keepB x p).pins = k.pins := rfl
@[simp] theorem Core.keepB_images (k : Core) (x : Slot) (p : Port) : (k.keepB x p).images = k.images := rfl
@[simp] theorem Core.keepB_mmag (k : Core) (x : Slot) (p : Port) : (k.keepB x p).mmag = k.mmag := rfl
@[simp] theorem Core.keepB_gang (k : Core) (x : Slot) (p : Port) : (k.keepB x p).gang = k.gang := rfl
@[simp] theorem Core.keepB_fenceAt (k : Core) (x : Slot) (p : Port) : (k.keepB x p).fenceAt = k.fenceAt := rfl
@[simp] theorem Core.keepB_fences (k : Core) (x : Slot) (p : Port) : (k.keepB x p).fences = k.fences := rfl
@[simp] theorem Core.keepB_rels (k : Core) (x : Slot) (p : Port) : (k.keepB x p).rels = k.rels := rfl
@[simp] theorem Core.keepB_epoch (k : Core) (x : Slot) (p : Port) : (k.keepB x p).epoch = k.epoch := rfl
@[simp] theorem Core.keepB_forkTrap (k : Core) (x : Slot) (p : Port) : (k.keepB x p).forkTrap = k.forkTrap := rfl
@[simp] theorem Core.keepB_lostData (k : Core) (x : Slot) (p : Port) : (k.keepB x p).lostData = k.lostData := rfl
@[simp] theorem Core.keepB_accLost (k : Core) (x : Slot) (p : Port) : (k.keepB x p).accLost = k.accLost := rfl

/-! ## Core.emit -/

@[simp] theorem Core.emit_run (k : Core) (o : Op) : (k.emit o).run = k.run := rfl
@[simp] theorem Core.emit_regs (k : Core) (o : Op) : (k.emit o).regs = k.regs := rfl
@[simp] theorem Core.emit_prev (k : Core) (o : Op) : (k.emit o).prev = k.prev := rfl
@[simp] theorem Core.emit_just (k : Core) (o : Op) : (k.emit o).just = k.just := rfl
@[simp] theorem Core.emit_turned (k : Core) (o : Op) : (k.emit o).turned = k.turned := rfl
@[simp] theorem Core.emit_loops (k : Core) (o : Op) : (k.emit o).loops = k.loops := rfl
@[simp] theorem Core.emit_j (k : Core) (o : Op) : (k.emit o).j = k.j := rfl
@[simp] theorem Core.emit_pc (k : Core) (o : Op) : (k.emit o).pc = k.pc := rfl
@[simp] theorem Core.emit_ports (k : Core) (o : Op) : (k.emit o).ports = k.ports := rfl
@[simp] theorem Core.emit_q (k : Core) (o : Op) : (k.emit o).q = k.q := rfl
@[simp] theorem Core.emit_qpend (k : Core) (o : Op) : (k.emit o).qpend = k.qpend := rfl
@[simp] theorem Core.emit_inflight (k : Core) (o : Op) : (k.emit o).inflight = k.inflight := rfl
@[simp] theorem Core.emit_gloads (k : Core) (o : Op) : (k.emit o).gloads = k.gloads := rfl
@[simp] theorem Core.emit_nloads (k : Core) (o : Op) : (k.emit o).nloads = k.nloads := rfl
@[simp] theorem Core.emit_landings (k : Core) (o : Op) : (k.emit o).landings = k.landings := rfl
@[simp] theorem Core.emit_acc (k : Core) (o : Op) : (k.emit o).acc = k.acc := rfl
@[simp] theorem Core.emit_accPend (k : Core) (o : Op) : (k.emit o).accPend = k.accPend := rfl
@[simp] theorem Core.emit_mx (k : Core) (o : Op) : (k.emit o).mx = k.mx := rfl
@[simp] theorem Core.emit_pinned (k : Core) (o : Op) : (k.emit o).pinned = k.pinned := rfl
@[simp] theorem Core.emit_cycle (k : Core) (o : Op) : (k.emit o).cycle = k.cycle := rfl
@[simp] theorem Core.emit_holdUntil (k : Core) (o : Op) : (k.emit o).holdUntil = k.holdUntil := rfl
@[simp] theorem Core.emit_afterEret (k : Core) (o : Op) : (k.emit o).afterEret = k.afterEret := rfl
@[simp] theorem Core.emit_landing (k : Core) (o : Op) : (k.emit o).landing = k.landing := rfl
@[simp] theorem Core.emit_trap (k : Core) (o : Op) : (k.emit o).trap = k.trap := rfl
@[simp] theorem Core.emit_issued (k : Core) (o : Op) : (k.emit o).issued = k.issued := rfl
@[simp] theorem Core.emit_wpend (k : Core) (o : Op) : (k.emit o).wpend = k.wpend := rfl
@[simp] theorem Core.emit_l1 (k : Core) (o : Op) : (k.emit o).l1 = k.l1 := rfl
@[simp] theorem Core.emit_tlb (k : Core) (o : Op) : (k.emit o).tlb = k.tlb := rfl
@[simp] theorem Core.emit_misses (k : Core) (o : Op) : (k.emit o).misses = k.misses := rfl
@[simp] theorem Core.emit_icache (k : Core) (o : Op) : (k.emit o).icache = k.icache := rfl
@[simp] theorem Core.emit_fetching (k : Core) (o : Op) : (k.emit o).fetching = k.fetching := rfl
@[simp] theorem Core.emit_wait (k : Core) (o : Op) : (k.emit o).wait = k.wait := rfl
@[simp] theorem Core.emit_kept (k : Core) (o : Op) : (k.emit o).kept = k.kept := rfl
@[simp] theorem Core.emit_reached (k : Core) (o : Op) : (k.emit o).reached = k.reached := rfl
@[simp] theorem Core.emit_atSync (k : Core) (o : Op) : (k.emit o).atSync = k.atSync := rfl
@[simp] theorem Core.emit_resuming (k : Core) (o : Op) : (k.emit o).resuming = k.resuming := rfl
@[simp] theorem Core.emit_pins (k : Core) (o : Op) : (k.emit o).pins = k.pins := rfl
@[simp] theorem Core.emit_images (k : Core) (o : Op) : (k.emit o).images = k.images := rfl
@[simp] theorem Core.emit_mmag (k : Core) (o : Op) : (k.emit o).mmag = k.mmag := rfl
@[simp] theorem Core.emit_gang (k : Core) (o : Op) : (k.emit o).gang = k.gang := rfl
@[simp] theorem Core.emit_fenceAt (k : Core) (o : Op) : (k.emit o).fenceAt = k.fenceAt := rfl
@[simp] theorem Core.emit_fences (k : Core) (o : Op) : (k.emit o).fences = k.fences := rfl
@[simp] theorem Core.emit_rels (k : Core) (o : Op) : (k.emit o).rels = k.rels := rfl
@[simp] theorem Core.emit_epoch (k : Core) (o : Op) : (k.emit o).epoch = k.epoch := rfl
@[simp] theorem Core.emit_forkTrap (k : Core) (o : Op) : (k.emit o).forkTrap = k.forkTrap := rfl
@[simp] theorem Core.emit_lostData (k : Core) (o : Op) : (k.emit o).lostData = k.lostData := rfl
@[simp] theorem Core.emit_accLost (k : Core) (o : Op) : (k.emit o).accLost = k.accLost := rfl

/-! ## Core.leaveBy -/

@[simp] theorem Core.leaveBy_run (k : Core) (c : Ctrl) : (k.leaveBy c).run = k.run := rfl
@[simp] theorem Core.leaveBy_regs (k : Core) (c : Ctrl) : (k.leaveBy c).regs = k.regs := rfl
@[simp] theorem Core.leaveBy_prev (k : Core) (c : Ctrl) : (k.leaveBy c).prev = k.prev := rfl
@[simp] theorem Core.leaveBy_just (k : Core) (c : Ctrl) : (k.leaveBy c).just = k.just := rfl
@[simp] theorem Core.leaveBy_turned (k : Core) (c : Ctrl) : (k.leaveBy c).turned = k.turned := rfl
@[simp] theorem Core.leaveBy_loops (k : Core) (c : Ctrl) : (k.leaveBy c).loops = k.loops := rfl
@[simp] theorem Core.leaveBy_j (k : Core) (c : Ctrl) : (k.leaveBy c).j = k.j := rfl
@[simp] theorem Core.leaveBy_pc (k : Core) (c : Ctrl) : (k.leaveBy c).pc = k.pc := rfl
@[simp] theorem Core.leaveBy_ports (k : Core) (c : Ctrl) : (k.leaveBy c).ports = k.ports := rfl
@[simp] theorem Core.leaveBy_q (k : Core) (c : Ctrl) : (k.leaveBy c).q = k.q := rfl
@[simp] theorem Core.leaveBy_qpend (k : Core) (c : Ctrl) : (k.leaveBy c).qpend = k.qpend := rfl
@[simp] theorem Core.leaveBy_inflight (k : Core) (c : Ctrl) : (k.leaveBy c).inflight = k.inflight := rfl
@[simp] theorem Core.leaveBy_gloads (k : Core) (c : Ctrl) : (k.leaveBy c).gloads = k.gloads := rfl
@[simp] theorem Core.leaveBy_nloads (k : Core) (c : Ctrl) : (k.leaveBy c).nloads = k.nloads := rfl
@[simp] theorem Core.leaveBy_landings (k : Core) (c : Ctrl) : (k.leaveBy c).landings = k.landings := rfl
@[simp] theorem Core.leaveBy_acc (k : Core) (c : Ctrl) : (k.leaveBy c).acc = k.acc := rfl
@[simp] theorem Core.leaveBy_accPend (k : Core) (c : Ctrl) : (k.leaveBy c).accPend = k.accPend := rfl
@[simp] theorem Core.leaveBy_mx (k : Core) (c : Ctrl) : (k.leaveBy c).mx = k.mx := rfl
@[simp] theorem Core.leaveBy_pinned (k : Core) (c : Ctrl) : (k.leaveBy c).pinned = k.pinned := rfl
@[simp] theorem Core.leaveBy_cycle (k : Core) (c : Ctrl) : (k.leaveBy c).cycle = k.cycle := rfl
@[simp] theorem Core.leaveBy_holdUntil (k : Core) (c : Ctrl) : (k.leaveBy c).holdUntil = k.holdUntil := rfl
@[simp] theorem Core.leaveBy_afterEret (k : Core) (c : Ctrl) : (k.leaveBy c).afterEret = k.afterEret := rfl
@[simp] theorem Core.leaveBy_landing (k : Core) (c : Ctrl) : (k.leaveBy c).landing = k.landing := rfl
@[simp] theorem Core.leaveBy_trap (k : Core) (c : Ctrl) : (k.leaveBy c).trap = k.trap := rfl
@[simp] theorem Core.leaveBy_issued (k : Core) (c : Ctrl) : (k.leaveBy c).issued = k.issued := rfl
@[simp] theorem Core.leaveBy_wpend (k : Core) (c : Ctrl) : (k.leaveBy c).wpend = k.wpend := rfl
@[simp] theorem Core.leaveBy_l1 (k : Core) (c : Ctrl) : (k.leaveBy c).l1 = k.l1 := rfl
@[simp] theorem Core.leaveBy_tlb (k : Core) (c : Ctrl) : (k.leaveBy c).tlb = k.tlb := rfl
@[simp] theorem Core.leaveBy_misses (k : Core) (c : Ctrl) : (k.leaveBy c).misses = k.misses := rfl
@[simp] theorem Core.leaveBy_icache (k : Core) (c : Ctrl) : (k.leaveBy c).icache = k.icache := rfl
@[simp] theorem Core.leaveBy_fetching (k : Core) (c : Ctrl) : (k.leaveBy c).fetching = k.fetching := rfl
@[simp] theorem Core.leaveBy_wait (k : Core) (c : Ctrl) : (k.leaveBy c).wait = k.wait := rfl
@[simp] theorem Core.leaveBy_kept (k : Core) (c : Ctrl) : (k.leaveBy c).kept = k.kept := rfl
@[simp] theorem Core.leaveBy_reached (k : Core) (c : Ctrl) : (k.leaveBy c).reached = k.reached := rfl
@[simp] theorem Core.leaveBy_atSync (k : Core) (c : Ctrl) : (k.leaveBy c).atSync = k.atSync := rfl
@[simp] theorem Core.leaveBy_resuming (k : Core) (c : Ctrl) : (k.leaveBy c).resuming = k.resuming := rfl
@[simp] theorem Core.leaveBy_pins (k : Core) (c : Ctrl) : (k.leaveBy c).pins = k.pins := rfl
@[simp] theorem Core.leaveBy_images (k : Core) (c : Ctrl) : (k.leaveBy c).images = k.images := rfl
@[simp] theorem Core.leaveBy_mmag (k : Core) (c : Ctrl) : (k.leaveBy c).mmag = k.mmag := rfl
@[simp] theorem Core.leaveBy_gang (k : Core) (c : Ctrl) : (k.leaveBy c).gang = k.gang := rfl
@[simp] theorem Core.leaveBy_fenceAt (k : Core) (c : Ctrl) : (k.leaveBy c).fenceAt = k.fenceAt := rfl
@[simp] theorem Core.leaveBy_fences (k : Core) (c : Ctrl) : (k.leaveBy c).fences = k.fences := rfl
@[simp] theorem Core.leaveBy_rels (k : Core) (c : Ctrl) : (k.leaveBy c).rels = k.rels := rfl
@[simp] theorem Core.leaveBy_epoch (k : Core) (c : Ctrl) : (k.leaveBy c).epoch = k.epoch := rfl
@[simp] theorem Core.leaveBy_forkTrap (k : Core) (c : Ctrl) : (k.leaveBy c).forkTrap = k.forkTrap := rfl
@[simp] theorem Core.leaveBy_lostData (k : Core) (c : Ctrl) : (k.leaveBy c).lostData = k.lostData := rfl
@[simp] theorem Core.leaveBy_accLost (k : Core) (c : Ctrl) : (k.leaveBy c).accLost = k.accLost := rfl

/-! ## Core.pendW -/

@[simp] theorem Core.pendW_run (k : Core) (n : Nat) : (k.pendW n).run = k.run := rfl
@[simp] theorem Core.pendW_regs (k : Core) (n : Nat) : (k.pendW n).regs = k.regs := rfl
@[simp] theorem Core.pendW_prev (k : Core) (n : Nat) : (k.pendW n).prev = k.prev := rfl
@[simp] theorem Core.pendW_just (k : Core) (n : Nat) : (k.pendW n).just = k.just := rfl
@[simp] theorem Core.pendW_turned (k : Core) (n : Nat) : (k.pendW n).turned = k.turned := rfl
@[simp] theorem Core.pendW_loops (k : Core) (n : Nat) : (k.pendW n).loops = k.loops := rfl
@[simp] theorem Core.pendW_j (k : Core) (n : Nat) : (k.pendW n).j = k.j := rfl
@[simp] theorem Core.pendW_pc (k : Core) (n : Nat) : (k.pendW n).pc = k.pc := rfl
@[simp] theorem Core.pendW_ports (k : Core) (n : Nat) : (k.pendW n).ports = k.ports := rfl
@[simp] theorem Core.pendW_q (k : Core) (n : Nat) : (k.pendW n).q = k.q := rfl
@[simp] theorem Core.pendW_qpend (k : Core) (n : Nat) : (k.pendW n).qpend = k.qpend := rfl
@[simp] theorem Core.pendW_gloads (k : Core) (n : Nat) : (k.pendW n).gloads = k.gloads := rfl
@[simp] theorem Core.pendW_nloads (k : Core) (n : Nat) : (k.pendW n).nloads = k.nloads := rfl
@[simp] theorem Core.pendW_landings (k : Core) (n : Nat) : (k.pendW n).landings = k.landings := rfl
@[simp] theorem Core.pendW_acc (k : Core) (n : Nat) : (k.pendW n).acc = k.acc := rfl
@[simp] theorem Core.pendW_accPend (k : Core) (n : Nat) : (k.pendW n).accPend = k.accPend := rfl
@[simp] theorem Core.pendW_mx (k : Core) (n : Nat) : (k.pendW n).mx = k.mx := rfl
@[simp] theorem Core.pendW_pinned (k : Core) (n : Nat) : (k.pendW n).pinned = k.pinned := rfl
@[simp] theorem Core.pendW_cycle (k : Core) (n : Nat) : (k.pendW n).cycle = k.cycle := rfl
@[simp] theorem Core.pendW_holdUntil (k : Core) (n : Nat) : (k.pendW n).holdUntil = k.holdUntil := rfl
@[simp] theorem Core.pendW_afterEret (k : Core) (n : Nat) : (k.pendW n).afterEret = k.afterEret := rfl
@[simp] theorem Core.pendW_landing (k : Core) (n : Nat) : (k.pendW n).landing = k.landing := rfl
@[simp] theorem Core.pendW_trap (k : Core) (n : Nat) : (k.pendW n).trap = k.trap := rfl
@[simp] theorem Core.pendW_issued (k : Core) (n : Nat) : (k.pendW n).issued = k.issued := rfl
@[simp] theorem Core.pendW_wpend (k : Core) (n : Nat) : (k.pendW n).wpend = k.wpend := rfl
@[simp] theorem Core.pendW_l1 (k : Core) (n : Nat) : (k.pendW n).l1 = k.l1 := rfl
@[simp] theorem Core.pendW_tlb (k : Core) (n : Nat) : (k.pendW n).tlb = k.tlb := rfl
@[simp] theorem Core.pendW_misses (k : Core) (n : Nat) : (k.pendW n).misses = k.misses := rfl
@[simp] theorem Core.pendW_icache (k : Core) (n : Nat) : (k.pendW n).icache = k.icache := rfl
@[simp] theorem Core.pendW_fetching (k : Core) (n : Nat) : (k.pendW n).fetching = k.fetching := rfl
@[simp] theorem Core.pendW_wait (k : Core) (n : Nat) : (k.pendW n).wait = k.wait := rfl
@[simp] theorem Core.pendW_kept (k : Core) (n : Nat) : (k.pendW n).kept = k.kept := rfl
@[simp] theorem Core.pendW_reached (k : Core) (n : Nat) : (k.pendW n).reached = k.reached := rfl
@[simp] theorem Core.pendW_atSync (k : Core) (n : Nat) : (k.pendW n).atSync = k.atSync := rfl
@[simp] theorem Core.pendW_resuming (k : Core) (n : Nat) : (k.pendW n).resuming = k.resuming := rfl
@[simp] theorem Core.pendW_pins (k : Core) (n : Nat) : (k.pendW n).pins = k.pins := rfl
@[simp] theorem Core.pendW_images (k : Core) (n : Nat) : (k.pendW n).images = k.images := rfl
@[simp] theorem Core.pendW_mmag (k : Core) (n : Nat) : (k.pendW n).mmag = k.mmag := rfl
@[simp] theorem Core.pendW_gang (k : Core) (n : Nat) : (k.pendW n).gang = k.gang := rfl
@[simp] theorem Core.pendW_fenceAt (k : Core) (n : Nat) : (k.pendW n).fenceAt = k.fenceAt := rfl
@[simp] theorem Core.pendW_fences (k : Core) (n : Nat) : (k.pendW n).fences = k.fences := rfl
@[simp] theorem Core.pendW_rels (k : Core) (n : Nat) : (k.pendW n).rels = k.rels := rfl
@[simp] theorem Core.pendW_epoch (k : Core) (n : Nat) : (k.pendW n).epoch = k.epoch := rfl
@[simp] theorem Core.pendW_forkTrap (k : Core) (n : Nat) : (k.pendW n).forkTrap = k.forkTrap := rfl
@[simp] theorem Core.pendW_lostData (k : Core) (n : Nat) : (k.pendW n).lostData = k.lostData := rfl
@[simp] theorem Core.pendW_accLost (k : Core) (n : Nat) : (k.pendW n).accLost = k.accLost := rfl

/-! ## Core.push -/

@[simp] theorem Core.push_run (k : Core) (r : Option RegName) (v : RVal) (c : Nat) : (k.push r v c).run = k.run := by cases r <;> rfl
@[simp] theorem Core.push_regs (k : Core) (r : Option RegName) (v : RVal) (c : Nat) : (k.push r v c).regs = k.regs := by cases r <;> rfl
@[simp] theorem Core.push_prev (k : Core) (r : Option RegName) (v : RVal) (c : Nat) : (k.push r v c).prev = k.prev := by cases r <;> rfl
@[simp] theorem Core.push_just (k : Core) (r : Option RegName) (v : RVal) (c : Nat) : (k.push r v c).just = k.just := by cases r <;> rfl
@[simp] theorem Core.push_turned (k : Core) (r : Option RegName) (v : RVal) (c : Nat) : (k.push r v c).turned = k.turned := by cases r <;> rfl
@[simp] theorem Core.push_loops (k : Core) (r : Option RegName) (v : RVal) (c : Nat) : (k.push r v c).loops = k.loops := by cases r <;> rfl
@[simp] theorem Core.push_j (k : Core) (r : Option RegName) (v : RVal) (c : Nat) : (k.push r v c).j = k.j := by cases r <;> rfl
@[simp] theorem Core.push_pc (k : Core) (r : Option RegName) (v : RVal) (c : Nat) : (k.push r v c).pc = k.pc := by cases r <;> rfl
@[simp] theorem Core.push_ports (k : Core) (r : Option RegName) (v : RVal) (c : Nat) : (k.push r v c).ports = k.ports := by cases r <;> rfl
@[simp] theorem Core.push_q (k : Core) (r : Option RegName) (v : RVal) (c : Nat) : (k.push r v c).q = k.q := by cases r <;> rfl
@[simp] theorem Core.push_qpend (k : Core) (r : Option RegName) (v : RVal) (c : Nat) : (k.push r v c).qpend = k.qpend := by cases r <;> rfl
@[simp] theorem Core.push_inflight (k : Core) (r : Option RegName) (v : RVal) (c : Nat) : (k.push r v c).inflight = k.inflight := by cases r <;> rfl
@[simp] theorem Core.push_gloads (k : Core) (r : Option RegName) (v : RVal) (c : Nat) : (k.push r v c).gloads = k.gloads := by cases r <;> rfl
@[simp] theorem Core.push_nloads (k : Core) (r : Option RegName) (v : RVal) (c : Nat) : (k.push r v c).nloads = k.nloads := by cases r <;> rfl
@[simp] theorem Core.push_landings (k : Core) (r : Option RegName) (v : RVal) (c : Nat) : (k.push r v c).landings = k.landings := by cases r <;> rfl
@[simp] theorem Core.push_acc (k : Core) (r : Option RegName) (v : RVal) (c : Nat) : (k.push r v c).acc = k.acc := by cases r <;> rfl
@[simp] theorem Core.push_accPend (k : Core) (r : Option RegName) (v : RVal) (c : Nat) : (k.push r v c).accPend = k.accPend := by cases r <;> rfl
@[simp] theorem Core.push_mx (k : Core) (r : Option RegName) (v : RVal) (c : Nat) : (k.push r v c).mx = k.mx := by cases r <;> rfl
@[simp] theorem Core.push_pinned (k : Core) (r : Option RegName) (v : RVal) (c : Nat) : (k.push r v c).pinned = k.pinned := by cases r <;> rfl
@[simp] theorem Core.push_cycle (k : Core) (r : Option RegName) (v : RVal) (c : Nat) : (k.push r v c).cycle = k.cycle := by cases r <;> rfl
@[simp] theorem Core.push_holdUntil (k : Core) (r : Option RegName) (v : RVal) (c : Nat) : (k.push r v c).holdUntil = k.holdUntil := by cases r <;> rfl
@[simp] theorem Core.push_afterEret (k : Core) (r : Option RegName) (v : RVal) (c : Nat) : (k.push r v c).afterEret = k.afterEret := by cases r <;> rfl
@[simp] theorem Core.push_landing (k : Core) (r : Option RegName) (v : RVal) (c : Nat) : (k.push r v c).landing = k.landing := by cases r <;> rfl
@[simp] theorem Core.push_trap (k : Core) (r : Option RegName) (v : RVal) (c : Nat) : (k.push r v c).trap = k.trap := by cases r <;> rfl
@[simp] theorem Core.push_issued (k : Core) (r : Option RegName) (v : RVal) (c : Nat) : (k.push r v c).issued = k.issued := by cases r <;> rfl
@[simp] theorem Core.push_wpend (k : Core) (r : Option RegName) (v : RVal) (c : Nat) : (k.push r v c).wpend = k.wpend := by cases r <;> rfl
@[simp] theorem Core.push_l1 (k : Core) (r : Option RegName) (v : RVal) (c : Nat) : (k.push r v c).l1 = k.l1 := by cases r <;> rfl
@[simp] theorem Core.push_tlb (k : Core) (r : Option RegName) (v : RVal) (c : Nat) : (k.push r v c).tlb = k.tlb := by cases r <;> rfl
@[simp] theorem Core.push_misses (k : Core) (r : Option RegName) (v : RVal) (c : Nat) : (k.push r v c).misses = k.misses := by cases r <;> rfl
@[simp] theorem Core.push_icache (k : Core) (r : Option RegName) (v : RVal) (c : Nat) : (k.push r v c).icache = k.icache := by cases r <;> rfl
@[simp] theorem Core.push_fetching (k : Core) (r : Option RegName) (v : RVal) (c : Nat) : (k.push r v c).fetching = k.fetching := by cases r <;> rfl
@[simp] theorem Core.push_wait (k : Core) (r : Option RegName) (v : RVal) (c : Nat) : (k.push r v c).wait = k.wait := by cases r <;> rfl
@[simp] theorem Core.push_kept (k : Core) (r : Option RegName) (v : RVal) (c : Nat) : (k.push r v c).kept = k.kept := by cases r <;> rfl
@[simp] theorem Core.push_reached (k : Core) (r : Option RegName) (v : RVal) (c : Nat) : (k.push r v c).reached = k.reached := by cases r <;> rfl
@[simp] theorem Core.push_atSync (k : Core) (r : Option RegName) (v : RVal) (c : Nat) : (k.push r v c).atSync = k.atSync := by cases r <;> rfl
@[simp] theorem Core.push_resuming (k : Core) (r : Option RegName) (v : RVal) (c : Nat) : (k.push r v c).resuming = k.resuming := by cases r <;> rfl
@[simp] theorem Core.push_pins (k : Core) (r : Option RegName) (v : RVal) (c : Nat) : (k.push r v c).pins = k.pins := by cases r <;> rfl
@[simp] theorem Core.push_images (k : Core) (r : Option RegName) (v : RVal) (c : Nat) : (k.push r v c).images = k.images := by cases r <;> rfl
@[simp] theorem Core.push_mmag (k : Core) (r : Option RegName) (v : RVal) (c : Nat) : (k.push r v c).mmag = k.mmag := by cases r <;> rfl
@[simp] theorem Core.push_gang (k : Core) (r : Option RegName) (v : RVal) (c : Nat) : (k.push r v c).gang = k.gang := by cases r <;> rfl
@[simp] theorem Core.push_fenceAt (k : Core) (r : Option RegName) (v : RVal) (c : Nat) : (k.push r v c).fenceAt = k.fenceAt := by cases r <;> rfl
@[simp] theorem Core.push_fences (k : Core) (r : Option RegName) (v : RVal) (c : Nat) : (k.push r v c).fences = k.fences := by cases r <;> rfl
@[simp] theorem Core.push_rels (k : Core) (r : Option RegName) (v : RVal) (c : Nat) : (k.push r v c).rels = k.rels := by cases r <;> rfl
@[simp] theorem Core.push_epoch (k : Core) (r : Option RegName) (v : RVal) (c : Nat) : (k.push r v c).epoch = k.epoch := by cases r <;> rfl
@[simp] theorem Core.push_forkTrap (k : Core) (r : Option RegName) (v : RVal) (c : Nat) : (k.push r v c).forkTrap = k.forkTrap := by cases r <;> rfl
@[simp] theorem Core.push_lostData (k : Core) (r : Option RegName) (v : RVal) (c : Nat) : (k.push r v c).lostData = k.lostData := by cases r <;> rfl
@[simp] theorem Core.push_accLost (k : Core) (r : Option RegName) (v : RVal) (c : Nat) : (k.push r v c).accLost = k.accLost := by cases r <;> rfl

@[simp] theorem Core.push_none (k : Core) (v : RVal) (c : Nat) : k.push none v c = k := rfl
@[simp] theorem Core.push_writes (k : Core) (r : RegName) (v : RVal) (c : Nat) :
    (k.push (some r) v c).grp.writes = k.grp.writes ++ [⟨r, v, c, false⟩] := rfl
@[simp] theorem Core.emit_ops (k : Core) (o : Op) : (k.emit o).grp.ops = k.grp.ops ++ [o] := rfl
@[simp] theorem Core.emit_writes (k : Core) (o : Op) : (k.emit o).grp.writes = k.grp.writes := rfl
@[simp] theorem Core.leaveBy_ctrl (k : Core) (c : Ctrl) : (k.leaveBy c).grp.ctrl = c := rfl

end Sys2Proof.Machine
end

