-- ==== Sys2Proof/Laws/Memory.lean ====
section
/-!
SUPPORT. The laws of memory: a byte read after a write, and that every operation on memory keeps the canonical form: one byte, many bytes,
bytes removed, a record merged in, and the operations of the module that write through them.
-/
namespace Sys2Proof.Machine

open Sys2Proof

/-- The canonical form, as two facts. -/
theorem Memory.wf_iff (m : List Host.Cell) : Memory.wf m = true ↔ Sparse.rising m = true ∧ ∀ c ∈ m, c.2 ≠ 0 := by
  simp [Memory.wf]

theorem Memory.wf_nil : Memory.wf [] = true := rfl

theorem Mem.read_write (m : List Host.Cell) (a c : Nat) (b : Byte) (h : Memory.wf m = true) :
    Mem.read (Mem.write m a b) c = if c = a then b else Mem.read m c := by
  have hr := ((Memory.wf_iff m).1 h).1
  unfold Mem.read Mem.write
  by_cases hb : b = 0
  · simp only [hb, ite_true]
    by_cases hc : c = a
    · subst hc
      simp [Sparse.get, Sparse.find?_erase_self c m hr]
    · simp [Sparse.get, hc, Sparse.find?_erase_ne a c m hc hr]
  · simp only [hb, ite_false, Sparse.get_put]

theorem Mem.write_wf (m : List Host.Cell) (a : Nat) (b : Byte) (h : Memory.wf m = true) : Memory.wf (Mem.write m a b) = true := by
  obtain ⟨hr, hz⟩ := (Memory.wf_iff m).1 h
  refine (Memory.wf_iff _).2 ?_
  unfold Mem.write
  split
  · exact ⟨Sparse.rising_erase a m hr, fun c hc => hz c (Sparse.erase_sub a m c hc)⟩
  · rename_i hb
    refine ⟨Sparse.rising_put a b m hr, ?_⟩
    clear h hr
    induction m with
    | nil => simpa [Sparse.put] using hb
    | cons p m ih =>
      obtain ⟨j, w⟩ := p
      have hw : w ≠ 0 := hz (j, w) (by simp)
      have ih' := ih (fun c hc => hz c (by simp [hc]))
      intro c
      simp only [Sparse.put]
      split
      · simp only [List.mem_cons]
        rintro (rfl | rfl | hc)
        · exact hb
        · exact hw
        · exact hz c (by simp [hc])
      · split
        · simp only [List.mem_cons]
          rintro (rfl | hc)
          · exact hb
          · exact hz c (by simp [hc])
        · simp only [List.mem_cons]
          rintro (rfl | hc)
          · exact hw
          · exact ih' c hc

theorem Mem.writes_wf (m : List Host.Cell) (a : Nat) (bs : List Byte) (h : Memory.wf m = true) : Memory.wf (Mem.writes m a bs) = true := by
  induction bs generalizing m a with
  | nil => exact h
  | cons b bs ih => exact ih _ _ (Mem.write_wf m a b h)

theorem Mem.put_wf (m : List Host.Cell) (bs : List (Nat × Byte)) (h : Memory.wf m = true) : Memory.wf (Mem.put m bs) = true := by
  unfold Mem.put
  induction bs generalizing m with
  | nil => exact h
  | cons b bs ih => exact ih _ (Mem.write_wf m b.1 b.2 h)

theorem Memory.wf_filter (m : List Host.Cell) (f : Host.Cell → Bool) (h : Memory.wf m = true) : Memory.wf (m.filter f) = true := by
  obtain ⟨hr, hz⟩ := (Memory.wf_iff m).1 h
  exact (Memory.wf_iff _).2 ⟨Sparse.rising_filter f m hr, fun c hc => hz c (List.mem_filter.1 hc).1⟩

theorem Memory.wf_merge (x y : List Host.Cell) (hx : Memory.wf x = true) (hy : Memory.wf y = true) :
    Memory.wf (Sparse.merge x y) = true := by
  obtain ⟨hr, hz⟩ := (Memory.wf_iff x).1 hx
  obtain ⟨hr', hz'⟩ := (Memory.wf_iff y).1 hy
  refine (Memory.wf_iff _).2 ⟨Sparse.rising_merge x y hr hr', fun c hc => ?_⟩
  rcases Sparse.mem_mergeFuel _ x y c hc with h | h
  · exact hz c h
  · exact hz' c h

theorem Mem.read_writes (m : List Host.Cell) (a c : Nat) (bs : List Byte) (h : Memory.wf m = true) (hc : c < a ∨ a + bs.length ≤ c) :
    Mem.read (Mem.writes m a bs) c = Mem.read m c := by
  induction bs generalizing m a with
  | nil => rfl
  | cons b bs ih =>
    have hl : (b :: bs).length = bs.length + 1 := rfl
    have hne : ¬ c = a := by omega
    rw [Mem.writes, ih _ _ (Mem.write_wf m a b h) (by omega), Mem.read_write m a c b h]
    simp [hne]

/-! ## The state's operations on memory -/

theorem State.memOk_of_eq {s t : State} (h : s.memOk) (h1 : t.mem = s.mem) (h2 : t.hostMem = s.hostMem) : t.memOk := by
  unfold State.memOk; rw [h1, h2]; exact h

@[simp] theorem State.unowned_mem (s : State) (d src pa : Nat) : (s.unowned d src pa).mem = s.mem := rfl
@[simp] theorem State.unowned_hostMem (s : State) (d src pa : Nat) : (s.unowned d src pa).hostMem = s.hostMem := rfl

theorem State.setCore_memOk {s : State} (h : s.memOk) (n : Nat) (k : Core) : (s.setCore n k).memOk := h
theorem State.modCore_memOk {s : State} (h : s.memOk) (n : Nat) (f : Core → Core) : (s.modCore n f).memOk := h
theorem State.modDie_memOk {s : State} (h : s.memOk) (n : Nat) (f : Die → Die) : (s.modDie n f).memOk := h
theorem State.unowned_memOk {s : State} (h : s.memOk) (d src pa : Nat) : (s.unowned d src pa).memOk := h

/-- A fold of steps that each keep the form keeps it. -/
theorem State.foldl_memOk {α : Type} (f : State → α → State) (hf : ∀ s a, s.memOk → (f s a).memOk) (l : List α) (s : State)
    (h : s.memOk) : (l.foldl f s).memOk := by
  induction l generalizing s with
  | nil => exact h
  | cons a l ih => exact ih _ (hf s a h)

theorem State.wakeAll_mem (s : State) (ns : List Nat) : (s.wakeAll ns).mem = s.mem ∧ (s.wakeAll ns).hostMem = s.hostMem := by
  unfold State.wakeAll
  induction ns generalizing s with
  | nil => exact ⟨rfl, rfl⟩
  | cons n ns ih =>
    have hw : (s.wake n).mem = s.mem ∧ (s.wake n).hostMem = s.hostMem := by
      unfold State.wake
      simp only
      split
      · split <;> exact ⟨rfl, rfl⟩
      all_goals exact ⟨rfl, rfl⟩
    exact ⟨(ih (s.wake n)).1.trans hw.1, (ih (s.wake n)).2.trans hw.2⟩

theorem State.stir_memOk {s : State} (h : s.memOk) (pa : Nat) : (s.stir pa).memOk :=
  State.memOk_of_eq h (s.wakeAll_mem _).1 (s.wakeAll_mem _).2

theorem State.sendVia_memOk {s : State} (h : s.memOk) (passes : Bool) (d pa : Nat) (b : Byte) : (State.sendVia passes s d pa b).memOk := by
  unfold State.sendVia
  split
  · exact h
  · split
    · exact h
    · exact ⟨Mem.write_wf _ _ _ h.1, (State.stir_memOk h pa).2⟩

theorem State.sendByte_memOk {s : State} (h : s.memOk) (d pa : Nat) (b : Byte) : (s.sendByte d pa b).memOk :=
  State.sendVia_memOk h false d pa b

theorem State.putByte_memOk {s : State} (h : s.memOk) (pa : Nat) (b : Byte) : (s.putByte pa b).memOk := State.sendByte_memOk h _ pa b

theorem State.putBytesRaw_memOk {s : State} (h : s.memOk) (pa : Nat) (bs : List Byte) : (s.putBytesRaw pa bs).memOk := by
  induction bs generalizing s pa with
  | nil => exact h
  | cons b bs ih => exact ih (State.putByte_memOk h pa b) (pa + 1)

theorem State.putBytes_memOk {s : State} (h : s.memOk) (pa : Nat) (bs : List Byte) : (s.putBytes pa bs).memOk :=
  State.putBytesRaw_memOk h pa bs

theorem State.putCells_memOk {s : State} (h : s.memOk) (n fence : Nat) (passes : Bool) (cs : List MByte) :
    (s.putCells n fence passes cs).memOk := by
  unfold State.putCells
  refine State.modCore_memOk (?_ : State.memOk _) _ _
  have h1 := State.foldl_memOk (fun (s : State) (c : MByte) => if c.mask = 0 then s
      else State.sendVia passes s (dieOf n) c.pa ((s.cell c.pa &&& ~~~c.mask) ||| (c.val &&& c.mask))) (fun s c hs => by
    split
    · exact hs
    · exact State.sendVia_memOk hs _ _ _ _) cs s h
  exact h1

theorem State.readNeighbour_memOk {s : State} (h : s.memOk) (n : Nat) (g : NLoad) : (s.readNeighbour n g).memOk := by
  unfold State.readNeighbour
  simp only
  split <;> exact State.setCore_memOk h _ _

theorem State.readNow_memOk {s : State} (h : s.memOk) (n : Nat) (sel : NLoad → Bool) : (s.readNow n sel).memOk := by
  unfold State.readNow
  simp only
  split
  · exact State.foldl_memOk _ (fun s g hs => State.readNeighbour_memOk hs n g) _ _ (State.setCore_memOk h _ _)
  · exact h

theorem State.serveLoads_memOk {s : State} (h : s.memOk) (n : Nat) (need : GLoad → Bool) : (s.serveLoads n need).memOk :=
  State.modCore_memOk (State.readNow_memOk h n _) _ _

theorem State.landSet_memOk {s : State} (h : s.memOk) (n : Nat) (go : Landing → Bool) : (s.landSet n go).memOk := by
  unfold State.landSet
  simp only
  split
  · exact h
  · exact State.foldl_memOk _ (fun s (l : Landing) hs => State.putCells_memOk hs n l.fence l.path.passes l.cells) _ _
      (State.modCore_memOk (State.serveLoads_memOk (State.readNow_memOk h n _) n _) _ _)

theorem State.landFirst_memOk {s : State} (h : s.memOk) (n : Nat) : (s.landFirst n).memOk :=
  State.readNow_memOk (State.landSet_memOk h n _) n _

theorem State.flushL1_memOk {s : State} (h : s.memOk) (n : Nat) (sel : Nat → Bool) : (s.flushL1 n sel).memOk := by
  unfold State.flushL1
  simp only
  split
  · exact h
  · have h1 : ∀ sel' need, ((((s.landFirst n).landSet n sel').serveLoads n need)).memOk := fun sel' need =>
      State.serveLoads_memOk (State.landSet_memOk (State.landFirst_memOk h n) n sel') n need
    generalize hs : State.serveLoads _ _ _ = s1
    have h2 : s1.memOk := hs ▸ h1 _ _
    clear hs h1
    generalize hl : List.filter _ (s1.core n).l1 = l
    have h3 := State.foldl_memOk (fun s (p : Nat × L1Byte) => s.sendByte (dieOf n) p.1 p.2.val)
      (fun s p hs => State.sendByte_memOk hs (dieOf n) p.1 p.2.val) l s1 h2
    generalize List.foldl (fun s (p : Nat × L1Byte) => s.sendByte (dieOf n) p.1 p.2.val) s1 l = s2 at h3
    exact h3

theorem State.boundary_memOk {s : State} (h : s.memOk) (n : Nat) (f : Core → Core) : (s.boundary n f).memOk :=
  State.landSet_memOk (State.modCore_memOk h _ _) n _

theorem State.fence_memOk {s : State} (h : s.memOk) (n : Nat) : (s.fence n).memOk :=
  State.boundary_memOk (State.flushL1_memOk h n _) n _

theorem State.evictLine_memOk {s : State} (h : s.memOk) (n line : Nat) : (s.evictLine n line).memOk :=
  State.modCore_memOk (State.flushL1_memOk h n _) _ _

theorem State.fitL1_memOk {s : State} (h : s.memOk) (n line : Nat) : (s.fitL1 n line).memOk := by
  unfold State.fitL1
  simp only
  split
  · exact h
  · exact State.evictLine_memOk h _ _

theorem State.release_memOk {s : State} (h : s.memOk) (n : Nat) : (s.release n).memOk :=
  State.boundary_memOk (State.flushL1_memOk (State.serveLoads_memOk h n _) n _) n _

theorem State.acquire_memOk {s : State} (h : s.memOk) (n : Nat) (σ : Scope) : (s.acquire n σ).memOk := by
  unfold State.acquire
  split
  · exact State.boundary_memOk h n _
  · exact State.boundary_memOk (State.modCore_memOk (State.serveLoads_memOk h n _) _ _) n _

theorem State.pushWord_memOk {s : State} (h : s.memOk) (n pa : Nat) : (s.pushWord n pa).memOk := by
  unfold State.pushWord
  exact State.modCore_memOk (State.flushL1_memOk h n _) _ _

theorem State.vacate_memOk {s : State} (h : s.memOk) (n : Nat) : (s.vacate n).memOk := by
  unfold State.vacate
  exact State.modCore_memOk (State.landSet_memOk (State.release_memOk h n) n _) _ _

theorem State.retireSlice_memOk {s : State} (h : s.memOk) (kernel slice : Nat) (err : Option Word) :
    (s.retireSlice kernel slice err).memOk := by
  unfold State.retireSlice
  exact (State.foldl_memOk _ (fun s n hs => State.vacate_memOk hs n) (s.members kernel slice) s h : _)

theorem State.killSlice_memOk {s : State} (h : s.memOk) (n cls : Nat) (code : Byte) : (s.killSlice n cls code).memOk := by
  unfold State.killSlice
  split
  · exact State.vacate_memOk h n
  · exact State.retireSlice_memOk h _ _ _

theorem State.endMember_memOk {s : State} (h : s.memOk) (n : Nat) : (s.endMember n).memOk := by
  unfold State.endMember
  split
  · exact h
  · simp only
    split
    · exact State.retireSlice_memOk (State.modCore_memOk h _ _) _ _ _
    · exact State.modCore_memOk h _ _

theorem State.enterHandler_memOk {s : State} (h : s.memOk) (n : Nat) (info : TrapInfo) (pc : Word) (e : Nat) :
    (s.enterHandler n info pc e).memOk := by
  unfold State.enterHandler
  exact State.acquire_memOk (State.setCore_memOk (State.release_memOk h n) _ _) _ _

theorem State.hostFault_memOk {s : State} (h : s.memOk) (n : Nat) (info : TrapInfo) (pc : Word) : (s.hostFault n info pc).memOk := by
  unfold State.hostFault
  split <;> exact h

theorem State.trapTo_memOk {s : State} (h : s.memOk) (n : Nat) (info : TrapInfo) (pc : Word) (e : Nat) :
    (s.trapTo n info pc e).memOk := by
  unfold State.trapTo
  simp only
  split
  · exact State.hostFault_memOk h _ _ _
  · split
    · exact State.killSlice_memOk h _ _ _
    · exact State.enterHandler_memOk h _ _ _ _

/-- Taking a fault keeps the form: what every meaning that traps ends in. -/
theorem State.faultAt_memOk {s : State} (h : s.memOk) (slot : Slot) (code sub : Byte) (addr : Word) (kind : BitVec 2) :
    (s.faultAt slot code sub addr kind).memOk := by
  unfold State.faultAt State.fault
  exact State.trapTo_memOk (State.setCore_memOk h _ _) _ _ _ _

theorem State.leaveHandler_memOk {s : State} (h : s.memOk) (n : Nat) : (s.leaveHandler n).memOk := by
  unfold State.leaveHandler
  exact State.acquire_memOk (State.setCore_memOk (State.release_memOk h n) _ _) _ _

end Sys2Proof.Machine
end

