-- ==== Sys2Proof/Laws/Ops.lean ====
section
/-!
SUPPORT. What each shared operation can do, said once: the end of an instruction, an operand, a stream use, a message to an engine, a mailbox
command, a step; and that these stay inside the open group's record.
-/
namespace Sys2Proof.Machine

open Sys2Proof Sys2Proof.Safety

/-! ## The end of an instruction -/

@[simp] theorem State.orFault_ok (s : State) (x : Slot) (k : Core) : s.orFault x (.ok k) = .next (s.setCur k) := rfl
@[simp] theorem State.orFault_error (s : State) (x : Slot) (f : Flt) :
    s.orFault x (.error f) = .next (s.faultAt x f.code f.sub f.addr f.kind) := rfl

theorem State.orFault_cases {s t : State} {x : Slot} {r : Except Flt Core} (h : s.orFault x r = .next t) :
    (∃ k, r = .ok k ∧ t = s.setCur k) ∨ ∃ f, r = .error f ∧ t = s.faultAt x f.code f.sub f.addr f.kind := by
  cases r with
  | ok k => exact .inl ⟨k, rfl, by simpa [State.orFault] using h.symm⟩
  | error f => exact .inr ⟨f, rfl, by simpa [State.orFault] using h.symm⟩

theorem State.lsEnd_cases {s t : State} {r : Except Flt Core} (h : s.lsEnd r = .next t) :
    (∃ k, r = .ok k ∧ t = s.setCur k) ∨ ∃ f, r = .error f ∧ t = s.faultAt .ls f.code f.sub f.addr f.kind := by
  cases r with
  | ok k => exact .inl ⟨k, rfl, by simpa [State.lsEnd] using h.symm⟩
  | error f => exact .inr ⟨f, rfl, by simpa [State.lsEnd] using h.symm⟩

theorem State.mxEnd_cases {s t : State} {r : Except Flt Core} (h : s.mxEnd r = .next t) :
    (∃ k, r = .ok k ∧ t = s.setCur k) ∨
    (∃ f, r = .error f ∧ f.code = tEccUe ∧
      t = s.modCur (fun k => { k with grp := { k.grp with after := some ⟨tEccUe, 0, 0, 3, k.grp.idx, .mx⟩ } })) ∨
    ∃ f, r = .error f ∧ f.code ≠ tEccUe ∧ t = s.faultAt .mx f.code f.sub f.addr f.kind := by
  cases r with
  | ok k => exact .inl ⟨k, rfl, by simpa [State.mxEnd] using h.symm⟩
  | error f =>
    by_cases hc : f.code = tEccUe
    · exact .inr (.inl ⟨f, rfl, hc, by simpa [State.mxEnd, hc] using h.symm⟩)
    · exact .inr (.inr ⟨f, rfl, hc, by simpa [State.mxEnd, hc] using h.symm⟩)

/-! ## Inside the open group -/

theorem onlyGroup_refl (k : Core) : OnlyGroup k k := ⟨k.grp, [], by simp⟩

theorem onlyGroup_trans {a b c : Core} (h : OnlyGroup a b) (h' : OnlyGroup b c) : OnlyGroup a c := by
  obtain ⟨g, ps, rfl⟩ := h
  obtain ⟨g', ps', rfl⟩ := h'
  exact ⟨g', ps ++ ps', by simp⟩

/-- A change of the open group's record alone. -/
theorem onlyGroup_grp (k : Core) (g : Group) : OnlyGroup k { k with grp := g } := ⟨g, [], by simp⟩

theorem onlyGroup_keepA (k : Core) (x : Slot) (p : Port) : OnlyGroup k (k.keepA x p) := onlyGroup_grp k _
theorem onlyGroup_keepB (k : Core) (x : Slot) (p : Port) : OnlyGroup k (k.keepB x p) := onlyGroup_grp k _
theorem onlyGroup_emit (k : Core) (o : Op) : OnlyGroup k (k.emit o) := onlyGroup_grp k _
theorem onlyGroup_leaveBy (k : Core) (c : Ctrl) : OnlyGroup k (k.leaveBy c) := onlyGroup_grp k _
theorem onlyGroup_putStream (k : Core) (q : Nat) (r : StreamReg) : OnlyGroup k (k.putStream q r) := onlyGroup_grp k _
theorem onlyGroup_startMx (k : Core) (n : Nat) : OnlyGroup k (k.startMx n) := onlyGroup_grp k _
theorem onlyGroup_pendW (k : Core) (n : Nat) : OnlyGroup k (k.pendW n) := ⟨_, _, rfl⟩

theorem onlyGroup_push (k : Core) (r : Option RegName) (v : RVal) (c : Nat) : OnlyGroup k (k.push r v c) := by
  cases r with
  | none => exact onlyGroup_refl k
  | some r => exact onlyGroup_grp k _

theorem onlyGroup_takeLit (k : Core) (x : Slot) (l : Lit) : OnlyGroup k (k.takeLit x l) := onlyGroup_keepB k x _

theorem onlyGroup_missIf (k : Core) (m : Bool) (va : Word) : OnlyGroup k (k.missIf m va) := by
  cases m
  · exact onlyGroup_refl k
  · exact onlyGroup_emit k _

/-- A list of changes that each stay inside the group stays inside it. -/
theorem onlyGroup_foldl {α : Type} (f : Core → α → Core) (hf : ∀ k a, OnlyGroup k (f k a)) (l : List α) (k : Core) :
    OnlyGroup k (l.foldl f k) := by
  induction l generalizing k with
  | nil => exact onlyGroup_refl k
  | cons a l ih => exact onlyGroup_trans (hf k a) (ih (f k a))

theorem onlyGroup_missAll (k : Core) (ms : List Nat) : OnlyGroup k (k.missAll ms) := onlyGroup_foldl _ (fun k _ => onlyGroup_emit k _) ms k
theorem onlyGroup_pendAll (k : Core) (rs : List (Option Nat)) : OnlyGroup k (k.pendAll rs) :=
  onlyGroup_foldl _ (fun k n => onlyGroup_pendW k n) _ k

theorem State.touched_onlyGroup (s : State) (k : Core) (d : Desc) (es : List Nat) : OnlyGroup k (s.touched k d es) := by
  unfold State.touched
  split
  · exact onlyGroup_emit k _
  · exact onlyGroup_refl k

theorem State.streamRead_onlyGroup {s : State} {k : Core} {q width v x : Nat} {k' : Core}
    (h : s.streamRead k q width = .ok (v, x, k')) : OnlyGroup k k' := by
  unfold State.streamRead at h
  split at h
  · cases h
  · simp only at h
    split at h
    · cases h
    · cases h
      exact onlyGroup_trans (onlyGroup_trans (onlyGroup_missAll k _) (State.touched_onlyGroup _ _ _ _)) (onlyGroup_putStream _ _ _)

theorem State.streamWrite_onlyGroup {s : State} {k : Core} {q width v : Nat} {keep : Nat → Bool} {due : Nat} {k' : Core}
    (h : s.streamWrite k q width v keep due = .ok k') : OnlyGroup k k' := by
  unfold State.streamWrite at h
  split at h
  · cases h
  · simp only at h
    split at h
    · cases h
    · cases h
      exact onlyGroup_trans (onlyGroup_trans (onlyGroup_missAll k _) (onlyGroup_putStream _ _ _)) (onlyGroup_emit _ _)

theorem State.putLs_onlyGroup {s : State} {k : Core} {d : Opnd} {v : Word} {due : Nat} {k' : Core}
    (h : s.putLs k d v due = .ok k') : OnlyGroup k k' := by
  unfold State.putLs at h
  split at h
  · exact State.streamWrite_onlyGroup h
  · cases h; exact onlyGroup_push k _ _ _

theorem State.putVec_onlyGroup {s : State} {k : Core} {x : Slot} {d : Opnd} {v : Vec} {mask : Word} {due : Nat} {k' : Core}
    (h : s.putVec k x d v mask due = .ok k') : OnlyGroup k k' := by
  unfold State.putVec at h
  split at h
  · exact State.streamWrite_onlyGroup h
  · cases h; exact onlyGroup_push k _ _ _

/-- A message to an engine: the trap of its target, or the message as the group's last operation with its w registers pending. -/
theorem State.sendSync_cases (s : State) (k : Core) (va : Word) (align : Nat) (a : Access) (memory : Bool) (op : SyncOp)
    (main status : Option Nat) (σ : Scope) (acq rel : Bool) :
    (∃ f, s.syncTarget va align a memory = .error f ∧ s.sendSync k va align a memory op main status σ acq rel = .error f) ∨
    ∃ pa m k', s.syncTarget va align a memory = .ok (pa, m) ∧
      s.sendSync k va align a memory op main status σ acq rel = .ok k' ∧ OnlyGroup k k' := by
  unfold State.sendSync
  cases h : s.syncTarget va align a memory with
  | error f => exact .inl ⟨f, rfl, rfl⟩
  | ok p =>
    obtain ⟨pa, m⟩ := p
    refine .inr ⟨pa, m, _, rfl, rfl, ?_⟩
    refine onlyGroup_trans ?_ (onlyGroup_pendAll _ _)
    refine onlyGroup_trans (onlyGroup_missIf k m va) ?_
    cases rel
    · exact onlyGroup_emit _ _
    · exact onlyGroup_trans (onlyGroup_emit _ _) (onlyGroup_emit _ _)

/-! ## Integer and scalar shapes -/

theorem iTwo_next (u : ISlot) (d a : Opnd) (b : OpB) (lat : Nat) (f : Word → Word → Word) (s : State) :
    iTwo u d a b lat f s = .next (s.setCur ((readBoth s.cur u.slot a b).push (destOf u.slot d)
      (.word (f (wordOf s u.slot a) (wordOfB s u.slot b))) (s.cur.cycle + lat))) := rfl

theorem iOne_next (u : ISlot) (d a : Opnd) (lat : Nat) (f : Word → Word) (s : State) :
    iOne u d a lat f s = .next (s.setCur ((readA s.cur u.slot a).push (destOf u.slot d)
      (.word (f (wordOf s u.slot a))) (s.cur.cycle + lat))) := rfl

/-! ## Registers and the mailbox -/

theorem State.fromHost_next (s : State) (f : State → State) (h : s.answers = true) (hu : s.hostUp = true) :
    s.fromHost f = .next (f s) := by
  simp [State.fromHost, h, hu]

theorem State.command_next (s : State) (code : Nat) (body : State → State) (h : Commanded s code) : s.command code body = .next (body s) := by
  obtain ⟨h1, h2, h3⟩ := h
  simp [State.command, h1, h2, h3]

theorem State.mbDone_ended (s : State) (code status : Nat) (h : s.mss.mbcmd.toNat % 256 = code) : Ended (s.mbDone status) code status := by
  subst h
  simp [Ended, State.mbDone, State.raise, bitsOf]

/-! ## Steps -/

theorem step_eq (s : State) : step s = match s.nextMove with
    | (none, s1) => .next s1
    | (some m, s1) => match s1.move m with
      | .next s2 => .next s2.afterMove
      | x => x := rfl

/-- A step of an agent that takes place now is its instruction on the state the move describes. -/
theorem step_event (s : State) (i : Instr) (a : About) (rest : List Move) (t : State) (ha : s.agenda = .event i a :: rest)
    (hi : isSlotInstr i = false) (he : a.exists_ = true) (hn : ({ s with agenda := rest } : State).stepsNow i = true)
    (h : exec i { s with agenda := rest, about := a } = .next t) : step s = .next t.afterMove := by
  simp [step, State.oneStep, State.nextMove, ha, State.move, hi, he, hn, h]

end Sys2Proof.Machine
end

