-- ==== Sys2Proof/Laws/PerInstr.lean ====
section
/-!
SUPPORT. The family LiteralBit: the top bit of an encoded instruction word says whether a literal follows it (05 R101), one lemma per instruction.
-/
namespace Sys2Proof.Laws.LiteralBit

open Sys2Proof

/-- Bit 31 of the word an instruction is encoded in is set just when the instruction takes a literal; a step of an agent has no word. -/
def Statement (i : Instr) : Prop := ∀ e, encode i = some e → (e.word.msb = true ↔ e.lit.isSome = true)

/-- The claim of `Statement` about any words. -/
def Good (o : Option Encoded) : Prop := ∀ e, o = some e → (e.word.msb = true ↔ e.lit.isSome = true)

theorem good_none : Good none := by intro e h; simp at h

theorem msb_first {w v : Nat} (h : w ≠ 0) (x : BitVec w) (y : BitVec v) : (x ++ y).msb = x.msb := by
  rw [BitVec.msb_append]; simp [h]

theorem msb_ofBool (b : Bool) : (BitVec.ofBool b).msb = b := by cases b <;> rfl

theorem msb_wordA (wide : Bool) (op : BitVec 7) (d a b m : BitVec 6) : (wordA wide op d a b m).msb = wide :=
  (msb_first (by decide) _ _).trans ((msb_first (by decide) _ _).trans ((msb_first (by decide) _ _).trans (msb_ofBool wide)))

theorem msb_wordM (wide : Bool) (op : BitVec 7) (ac : BitVec 4) (a b : BitVec 6) (t m : BitVec 4) : (wordM wide op ac a b t m).msb = wide :=
  (msb_first (by decide) _ _).trans ((msb_first (by decide) _ _).trans ((msb_first (by decide) _ _).trans (msb_ofBool wide)))

theorem good_wide (s : Slot) (op : BitVec 7) (d a b m : BitVec 6) (v : W32) : Good (some ⟨s, wordA true op d a b m, some v⟩) := by
  rintro e ⟨rfl⟩; simp [msb_wordA]

theorem good_encA (s : Slot) (op : BitVec 7) (d a b m : BitVec 6) : Good (encA s op d a b m) := by
  rintro e ⟨rfl⟩; simp [msb_wordA]

theorem good_encL (s : Slot) (op : BitVec 7) (d a : BitVec 6) (l : Lit) (m : BitVec 6) : Good (encL s op d a l m) :=
  good_wide s op d a l.mode.code m l.val

theorem good_encB (s : Slot) (op : BitVec 7) (d a : BitVec 6) (b : OpB) (m : BitVec 6) : Good (encB s op d a b m) := by
  rintro e ⟨rfl⟩; cases b <;> simp [msb_wordA, OpB.wide, OpB.word]

theorem good_encM (op : BitVec 7) (ac : BitVec 4) (a b : BitVec 6) (t m : BitVec 4) (l : Option W32) : Good (encM op ac a b t m l) := by
  rintro e ⟨rfl⟩; cases l <;> simp [msb_wordM]

theorem cNop : Statement .cNop := good_encA _ _ _ _ _ _
theorem br (off : Lit) : Statement (.br off) := good_encL _ _ _ _ _ _
theorem brt (cond : Opnd) (off : Lit) : Statement (.brt cond off) := good_encL _ _ _ _ _ _
theorem brf (cond : Opnd) (off : Lit) : Statement (.brf cond off) := good_encL _ _ _ _ _ _
theorem call (off : Lit) : Statement (.call off) := good_encL _ _ _ _ _ _
theorem ret : Statement .ret := good_encA _ _ _ _ _ _
theorem jmpi (a : Opnd) (b : OpB) : Statement (.jmpi a b) := good_encB _ _ _ _ _ _
theorem loop (cnt : LoopCount) (off : Lit) : Statement (.loop cnt off) := by
  cases cnt
  · exact good_encL _ _ _ _ _ _
  · exact good_encL _ _ _ _ _ _
theorem lbrk (n : BitVec 3) : Statement (.lbrk n) := good_encA _ _ _ _ _ _
theorem lcont : Statement .lcont := good_encA _ _ _ _ _ _
theorem lrd (d : Opnd) (level : BitVec 3) (f : LoopField) : Statement (.lrd d level f) := good_encA _ _ _ _ _ _
theorem lwr (src : Opnd) (level : BitVec 3) (f : LoopField) : Statement (.lwr src level f) := good_encA _ _ _ _ _ _
theorem yield : Statement .yield := good_encA _ _ _ _ _ _
theorem exit : Statement .exit := good_encA _ _ _ _ _ _
theorem exitK (src : Opnd) : Statement (.exitK src) := good_encA _ _ _ _ _ _
theorem trap (code : Byte) : Statement (.trap code) := good_wide _ _ _ _ _ _ _
theorem eret : Statement .eret := good_encA _ _ _ _ _ _
theorem ckpt : Statement .ckpt := good_encA _ _ _ _ _ _
theorem ckptT (src : Opnd) : Statement (.ckptT src) := good_encA _ _ _ _ _ _
theorem ckptL : Statement .ckptL := good_encA _ _ _ _ _ _
theorem rdsys (d : Opnd) (n : BitVec 6) : Statement (.rdsys d n) := good_encA _ _ _ _ _ _
theorem wrsys (src : Opnd) (n : BitVec 6) : Statement (.wrsys src n) := good_encA _ _ _ _ _ _
theorem cXcp (x : XArgs) : Statement (.cXcp x) := good_encA _ _ _ _ _ _
theorem cMovl (d : Opnd) (l : Lit) : Statement (.cMovl d l) := good_encL _ _ _ _ _ _
theorem cAdd (p : SArgs) : Statement (.cAdd p) := good_encB _ _ _ _ _ _
theorem fop (d : BitVec 4) (e : FlagExp) : Statement (.fop d e) := by
  cases e
  · exact good_encA _ _ _ _ _ _
  · exact good_encA _ _ _ _ _ _
  · exact good_encA _ _ _ _ _ _
  · exact good_encA _ _ _ _ _ _
  · exact good_encA _ _ _ _ _ _
  · exact good_encA _ _ _ _ _ _
theorem iNop (u : ISlot) : Statement (.iNop u) := good_encA _ _ _ _ _ _
theorem add (p : IArgs) : Statement (.add p) := good_encB _ _ _ _ _ _
theorem sub (p : IArgs) : Statement (.sub p) := good_encB _ _ _ _ _ _
theorem mul (p : IArgs) : Statement (.mul p) := good_encB _ _ _ _ _ _
theorem mulhs (p : IArgs) : Statement (.mulhs p) := good_encB _ _ _ _ _ _
theorem mulhu (p : IArgs) : Statement (.mulhu p) := good_encB _ _ _ _ _ _
theorem divs (p : IArgs) : Statement (.divs p) := good_encB _ _ _ _ _ _
theorem divu (p : IArgs) : Statement (.divu p) := good_encB _ _ _ _ _ _
theorem rems (p : IArgs) : Statement (.rems p) := good_encB _ _ _ _ _ _
theorem remu (p : IArgs) : Statement (.remu p) := good_encB _ _ _ _ _ _
theorem and (p : IArgs) : Statement (.and p) := good_encB _ _ _ _ _ _
theorem or (p : IArgs) : Statement (.or p) := good_encB _ _ _ _ _ _
theorem xor (p : IArgs) : Statement (.xor p) := good_encB _ _ _ _ _ _
theorem andn (p : IArgs) : Statement (.andn p) := good_encB _ _ _ _ _ _
theorem shl (p : IArgs) : Statement (.shl p) := good_encB _ _ _ _ _ _
theorem shr (p : IArgs) : Statement (.shr p) := good_encB _ _ _ _ _ _
theorem sar (p : IArgs) : Statement (.sar p) := good_encB _ _ _ _ _ _
theorem ror (p : IArgs) : Statement (.ror p) := good_encB _ _ _ _ _ _
theorem min (p : IArgs) : Statement (.min p) := good_encB _ _ _ _ _ _
theorem max (p : IArgs) : Statement (.max p) := good_encB _ _ _ _ _ _
theorem minu (p : IArgs) : Statement (.minu p) := good_encB _ _ _ _ _ _
theorem maxu (p : IArgs) : Statement (.maxu p) := good_encB _ _ _ _ _ _
theorem abs (p : IUn) : Statement (.abs p) := good_encA _ _ _ _ _ _
theorem clz (p : IUn) : Statement (.clz p) := good_encA _ _ _ _ _ _
theorem ctz (p : IUn) : Statement (.ctz p) := good_encA _ _ _ _ _ _
theorem popc (p : IUn) : Statement (.popc p) := good_encA _ _ _ _ _ _
theorem bfx (p : IArgs64) : Statement (.bfx p) := good_encB _ _ _ _ _ _
theorem bfi (p : IArgs64) : Statement (.bfi p) := good_encB _ _ _ _ _ _
theorem clmul (p : IArgs) : Statement (.clmul p) := good_encB _ _ _ _ _ _
theorem clmulh (p : IArgs) : Statement (.clmulh p) := good_encB _ _ _ _ _ _
theorem cmp (u : ISlot) (w : Width) (c : Cond) (d : CmpDst) (a : Opnd) (b : OpB) : Statement (.cmp u w c d a b) := by
  cases d
  · exact good_encB _ _ _ _ _ _
  · exact good_encB _ _ _ _ _ _
theorem sel (u : ISlot) (w : Width) (k : BitVec 4) (d a b : Opnd) : Statement (.sel u w k d a b) := good_encA _ _ _ _ _ _
theorem mov (p : IUn) : Statement (.mov p) := good_encA _ _ _ _ _ _
theorem movl (u : ISlot) (d : Opnd) (l : Lit) : Statement (.movl u d l) := good_encL _ _ _ _ _ _
theorem movh (u : ISlot) (d : Opnd) (l : W32) : Statement (.movh u d l) := good_wide _ _ _ _ _ _ _
theorem lea (p : IArgs64) : Statement (.lea p) := good_encB _ _ _ _ _ _
theorem xcp (u : ISlot) (x : XArgs) : Statement (.xcp u x) := good_encA _ _ _ _ _ _
theorem adds (p : IArgs) : Statement (.adds p) := good_encB _ _ _ _ _ _
theorem bswap (p : IUn) : Statement (.bswap p) := good_encA _ _ _ _ _ _
theorem crc32c (narrow : Bool) (p : IArgs64) : Statement (.crc32c narrow p) := good_encB _ _ _ _ _ _
theorem lsNop : Statement .lsNop := good_encA _ _ _ _ _ _
theorem ld (k : LoadKind) (d a : Opnd) (b : OpB) : Statement (.ld k d a b) := good_encB _ _ _ _ _ _
theorem st (sz : AccSize) (data a : Opnd) (b : OpB) : Statement (.st sz data a b) := good_encB _ _ _ _ _ _
theorem ldx (k : LoadKind) (d a ix : Opnd) : Statement (.ldx k d a ix) := good_encA _ _ _ _ _ _
theorem stx (sz : AccSize) (data a ix : Opnd) : Statement (.stx sz data a ix) := good_encA _ _ _ _ _ _
theorem lsAdd (p : SArgs) : Statement (.lsAdd p) := good_encB _ _ _ _ _ _
theorem lsSub (p : SArgs) : Statement (.lsSub p) := good_encB _ _ _ _ _ _
theorem lsShl (p : SArgs) : Statement (.lsShl p) := good_encB _ _ _ _ _ _
theorem lsMovl (d : Opnd) (l : Lit) : Statement (.lsMovl d l) := good_encL _ _ _ _ _ _
theorem lsAnd (p : SArgs) : Statement (.lsAnd p) := good_encB _ _ _ _ _ _
theorem lsXcp (x : XArgs) : Statement (.lsXcp x) := good_encA _ _ _ _ _ _
theorem scfg (q : BitVec 4) (word : BitVec 3) (b : OpB) : Statement (.scfg q word b) := good_encB _ _ _ _ _ _
theorem sldd (q : BitVec 4) (a : Opnd) (b : OpB) : Statement (.sldd q a b) := good_encB _ _ _ _ _ _
theorem sstd (q : BitVec 4) (a : Opnd) (b : OpB) : Statement (.sstd q a b) := good_encB _ _ _ _ _ _
theorem srst (q : BitVec 4) : Statement (.srst q) := good_encA _ _ _ _ _ _
theorem sadv (q : BitVec 4) (b : OpB) : Statement (.sadv q b) := good_encB _ _ _ _ _ _
theorem spos (d : Opnd) (q : BitVec 4) : Statement (.spos d q) := good_encA _ _ _ _ _ _
theorem fence : Statement .fence := good_encA _ _ _ _ _ _
theorem phase (s : Scope) : Statement (.phase s) := good_encA _ _ _ _ _ _
theorem cflush (s : Scope) (a : Opnd) (b : OpB) : Statement (.cflush s a b) := good_encB _ _ _ _ _ _
theorem cinv (s : Scope) (a : Opnd) (b : OpB) : Statement (.cinv s a b) := good_encB _ _ _ _ _ _
theorem pref (l : PrefLevel) (a : Opnd) (b : OpB) : Statement (.pref l a b) := good_encB _ _ _ _ _ _
theorem zfill (a : Opnd) (b : OpB) : Statement (.zfill a b) := good_encB _ _ _ _ _ _
theorem ldp (d : ZPair) (a : Opnd) (b : OpB) : Statement (.ldp d a b) := good_encB _ _ _ _ _ _
theorem vnop (u : VSlot) : Statement (.vnop u) := good_encA _ _ _ _ _ _
theorem vadd (p : VBin) : Statement (.vadd p) := good_encB _ _ _ _ _ _
theorem vsub (p : VBin) : Statement (.vsub p) := good_encB _ _ _ _ _ _
theorem vmul (p : VBin) : Statement (.vmul p) := good_encB _ _ _ _ _ _
theorem vfma (p : VBin) : Statement (.vfma p) := good_encB _ _ _ _ _ _
theorem vfms (p : VBin) : Statement (.vfms p) := good_encB _ _ _ _ _ _
theorem vmin (p : VBin) : Statement (.vmin p) := good_encB _ _ _ _ _ _
theorem vmax (p : VBin) : Statement (.vmax p) := good_encB _ _ _ _ _ _
theorem vabs (p : VUn) : Statement (.vabs p) := good_encA _ _ _ _ _ _
theorem vneg (p : VUn) : Statement (.vneg p) := good_encA _ _ _ _ _ _
theorem vrcp (p : VBit1) : Statement (.vrcp p) := good_encA _ _ _ _ _ _
theorem vrsq (p : VBit1) : Statement (.vrsq p) := good_encA _ _ _ _ _ _
theorem vexp2 (p : VBit1) : Statement (.vexp2 p) := good_encA _ _ _ _ _ _
theorem vlog2 (p : VBit1) : Statement (.vlog2 p) := good_encA _ _ _ _ _ _
theorem vand (p : VBit) : Statement (.vand p) := good_encB _ _ _ _ _ _
theorem vor (p : VBit) : Statement (.vor p) := good_encB _ _ _ _ _ _
theorem vxor (p : VBit) : Statement (.vxor p) := good_encB _ _ _ _ _ _
theorem vnot (p : VBit1) : Statement (.vnot p) := good_encA _ _ _ _ _ _
theorem vshl (p : VBin) : Statement (.vshl p) := good_encB _ _ _ _ _ _
theorem vshr (p : VBin) : Statement (.vshr p) := good_encB _ _ _ _ _ _
theorem vsar (p : VBin) : Statement (.vsar p) := good_encB _ _ _ _ _ _
theorem vcmp (p : VBin) : Statement (.vcmp p) := good_encB _ _ _ _ _ _
theorem vsel (p : VBit) : Statement (.vsel p) := good_encB _ _ _ _ _ _
theorem vcvt (rm : RMode) (src : ElemTy) (p : VUn) : Statement (.vcvt rm src p) := good_encA _ _ _ _ _ _
theorem vpack (q : BitVec 2) (u : VSlot) (t : ElemTy) (d a : Opnd) (b : OpB) : Statement (.vpack q u t d a b) := good_encB _ _ _ _ _ _
theorem vunpk (q : BitVec 6) (p : VUn) : Statement (.vunpk q p) := good_encA _ _ _ _ _ _
theorem vshuf (p : VBit) : Statement (.vshuf p) := good_encB _ _ _ _ _ _
theorem vbcst (j : BitVec 6) (p : VBit1) : Statement (.vbcst j p) := good_encA _ _ _ _ _ _
theorem vred (f : VFn) (p : VUn) : Statement (.vred f p) := good_encA _ _ _ _ _ _
theorem vscan (f : VFn) (p : VUn) : Statement (.vscan f p) := good_encA _ _ _ _ _ _
theorem vclmul (p : VBit) : Statement (.vclmul p) := good_encB _ _ _ _ _ _
theorem vpopc (p : VUn) : Statement (.vpopc p) := good_encA _ _ _ _ _ _
theorem vclz (p : VUn) : Statement (.vclz p) := good_encA _ _ _ _ _ _
theorem vmovl (u : VSlot) (p : BitVec 2) (d : Opnd) (l : Lit) : Statement (.vmovl u p d l) := good_encL _ _ _ _ _ _
theorem vxcp (u : VSlot) (dst : Slot) (ix : BitVec 5) (lane : BitVec 6) (a : Opnd) : Statement (.vxcp u dst ix lane a) := good_encA _ _ _ _ _ _
theorem vpop (f : VQuant) (u : VSlot) (t : ElemTy) (p d : BitVec 2) (a : Opnd) : Statement (.vpop f u t p d a) := good_encA _ _ _ _ _ _
theorem vany (u : VSlot) (p : BitVec 2) (d : BitVec 4) : Statement (.vany u p d) := good_encA _ _ _ _ _ _
theorem vall (u : VSlot) (p : BitVec 2) (d : BitVec 4) : Statement (.vall u p d) := good_encA _ _ _ _ _ _
theorem vidx (p : VBin) : Statement (.vidx p) := good_encB _ _ _ _ _ _
theorem vslide (u : VSlot) (n : BitVec 6) (d a : Opnd) (b : OpB) : Statement (.vslide u n d a b) := good_encB _ _ _ _ _ _
theorem vdot (p : VBin) : Statement (.vdot p) := good_encB _ _ _ _ _ _
theorem vsat (p : VUn) : Statement (.vsat p) := good_encA _ _ _ _ _ _
theorem vexpm (p : VBit) : Statement (.vexpm p) := good_encB _ _ _ _ _ _
theorem vround (rm : RMode) (p : VUn) : Statement (.vround rm p) := good_encA _ _ _ _ _ _
theorem vplj (q : BitVec 1) (u : VSlot) (t : ElemTy) (d a b : Opnd) : Statement (.vplj q u t d a b) := good_encA _ _ _ _ _ _
theorem vpls (q : BitVec 1) (hi : BitVec 1) (u : VSlot) (t : ElemTy) (d a : Opnd) : Statement (.vpls q hi u t d a) := good_encA _ _ _ _ _ _
theorem vcomp (p : VBit1) : Statement (.vcomp p) := good_encA _ _ _ _ _ _
theorem mxNop : Statement .mxNop := good_encM _ _ _ _ _ _ _
theorem mma (p : MArgs) : Statement (.mma p) := good_encM _ _ _ _ _ _ _
theorem mmaz (p : MArgs) : Statement (.mmaz p) := good_encM _ _ _ _ _ _ _
theorem mmag (p : MArgs) : Statement (.mmag p) := good_encM _ _ _ _ _ _ _
theorem mzero (ac : BitVec 4) (m : AccMode) : Statement (.mzero ac m) := good_encM _ _ _ _ _ _ _
theorem mnrm (ac : BitVec 4) (q : BitVec 4) (t : ElemTy) (ov : Bool) (rm : RMode) (scale : Option Byte) : Statement (.mnrm ac q t ov rm scale) := good_encM _ _ _ _ _ _ _
theorem mnrmAlign (ac : BitVec 4) (x : BitVec 16) : Statement (.mnrmAlign ac x) := good_encM _ _ _ _ _ _ _
theorem mdrn (ac : BitVec 4) (side : Option (BitVec 4)) (q : BitVec 4) (t : ElemTy) (slot : BitVec 4) : Statement (.mdrn ac side q t slot) := good_encM _ _ _ _ _ _ _
theorem mepi (slot : BitVec 4) (off : BitVec 21) : Statement (.mepi slot off) := good_encM _ _ _ _ _ _ _
theorem mchkOff (ac : BitVec 4) : Statement (.mchkOff ac) := good_encM _ _ _ _ _ _ _
theorem mchkOn (ac : BitVec 4) : Statement (.mchkOn ac) := good_encM _ _ _ _ _ _ _
theorem mld (ac : BitVec 4) (off : BitVec 21) : Statement (.mld ac off) := good_encM _ _ _ _ _ _ _
theorem mst (ac : BitVec 4) (off : BitVec 21) : Statement (.mst ac off) := good_encM _ _ _ _ _ _ _
theorem mregLo (ac : BitVec 4) (l : W32) : Statement (.mregLo ac l) := good_encM _ _ _ _ _ _ _
theorem mregHi (ac : BitVec 4) (l : W32) : Statement (.mregHi ac l) := good_encM _ _ _ _ _ _ _
theorem mstat (ac : BitVec 4) (w : BitVec 4) : Statement (.mstat ac w) := good_encM _ _ _ _ _ _ _
theorem enNop : Statement .enNop := good_encA _ _ _ _ _ _
theorem btc (p : EUn) : Statement (.btc p) := good_encA _ _ _ _ _ _
theorem btcm (p : EUn) : Statement (.btcm p) := good_encA _ _ _ _ _ _
theorem btcg (p : EUn) : Statement (.btcg p) := good_encA _ _ _ _ _ _
theorem rinit (loader : Bool) (p : EArgs) : Statement (.rinit loader p) := good_encB _ _ _ _ _ _
theorem racq (p : EUn) : Statement (.racq p) := good_encA _ _ _ _ _ _
theorem rpub (p : EArgs) : Statement (.rpub p) := good_encB _ _ _ _ _ _
theorem await (poll : Bool) (p : EUn) : Statement (.await poll p) := good_encA _ _ _ _ _ _
theorem rels (p : EArgs) : Statement (.rels p) := good_encB _ _ _ _ _ _
theorem rpois (p : EArgs) : Statement (.rpois p) := good_encB _ _ _ _ _ _
theorem aadd (p : AArgs) : Statement (.aadd p) := good_encB _ _ _ _ _ _
theorem amin (p : AArgs) : Statement (.amin p) := good_encB _ _ _ _ _ _
theorem amax (p : AArgs) : Statement (.amax p) := good_encB _ _ _ _ _ _
theorem aand (p : AArgs) : Statement (.aand p) := good_encB _ _ _ _ _ _
theorem aor (p : AArgs) : Statement (.aor p) := good_encB _ _ _ _ _ _
theorem axor (p : AArgs) : Statement (.axor p) := good_encB _ _ _ _ _ _
theorem aswp (p : AArgs) : Statement (.aswp p) := good_encB _ _ _ _ _ _
theorem acas (p : AArgs) : Statement (.acas p) := good_encB _ _ _ _ _ _
theorem afadd (d : Option WPair) (a : Opnd) (b : OpB) (o : AOrder) : Statement (.afadd d a b o) := good_encB _ _ _ _ _ _
theorem red (f : RedFn) (t : AType) (o : ROrder) (a : Opnd) (b : OpB) : Statement (.red f t o a b) := good_encB _ _ _ _ _ _
theorem wmon (d : WPair) (a : Opnd) (v : WPair) (narrow : Bool) (c : Cond) (s : AScope) : Statement (.wmon d a v narrow c s) := good_encA _ _ _ _ _ _
theorem sigdec (d : Option WPair) (a : Opnd) (amt : SigAmt) (s : AScope) : Statement (.sigdec d a amt s) := by
  cases amt
  · exact good_encB _ _ _ _ _ _
  · exact good_encA _ _ _ _ _ _
theorem phnew (p : EArgs) : Statement (.phnew p) := good_encB _ _ _ _ _ _
theorem phreg (p : EArgs) : Statement (.phreg p) := good_encB _ _ _ _ _ _
theorem phdrop (p : EArgs) : Statement (.phdrop p) := good_encB _ _ _ _ _ _
theorem phsig (p : EArgs) : Statement (.phsig p) := good_encB _ _ _ _ _ _
theorem phwait (d a b : Opnd) : Statement (.phwait d a b) := good_encA _ _ _ _ _ _
theorem phsw (d a b : Opnd) : Statement (.phsw d a b) := good_encA _ _ _ _ _ _
theorem phbyt (p : EArgs) : Statement (.phbyt p) := good_encB _ _ _ _ _ _
theorem phrd (d : Option WPair) (a : Opnd) (k : BitVec 2) : Statement (.phrd d a k) := good_encA _ _ _ _ _ _
theorem phpois (p : EArgs) : Statement (.phpois p) := good_encB _ _ _ _ _ _
theorem sqnew (d : Option WPair) (a b : Opnd) : Statement (.sqnew d a b) := good_encA _ _ _ _ _ _
theorem sqres (p : PArgs) : Statement (.sqres p) := good_encB _ _ _ _ _ _
theorem sqcmt (p : PArgs) : Statement (.sqcmt p) := good_encB _ _ _ _ _ _
theorem sqlen (d : Option WPair) (a : Opnd) : Statement (.sqlen d a) := good_encA _ _ _ _ _ _
theorem sqlenH (p : PArgs) : Statement (.sqlenH p) := good_encB _ _ _ _ _ _
theorem sqfork (t : Bool) (d : Option WPair) (a b : Opnd) : Statement (.sqfork t d a b) := good_encA _ _ _ _ _ _
theorem sqforkF (t : Bool) (d : Option WPair) (a b : Opnd) : Statement (.sqforkF t d a b) := good_encA _ _ _ _ _ _
theorem sqrel (d : Option WPair) (a : Opnd) : Statement (.sqrel d a) := good_encA _ _ _ _ _ _
theorem sqmap (p : PArgs) : Statement (.sqmap p) := good_encB _ _ _ _ _ _
theorem sqtierMove (d : Option WPair) (a : Opnd) (b : WPair) : Statement (.sqtierMove d a b) := good_encA _ _ _ _ _ _
theorem sqtierL3 (d : Option WPair) (a : Opnd) (b : WPair) : Statement (.sqtierL3 d a b) := good_encA _ _ _ _ _ _
theorem sqtierTile (d : Option WPair) (a : Opnd) (b : WPair) : Statement (.sqtierTile d a b) := good_encA _ _ _ _ _ _
theorem sqtierUnstage (d : Option WPair) (a : Opnd) (b : WPair) : Statement (.sqtierUnstage d a b) := good_encA _ _ _ _ _ _
theorem attn (p : EUn) : Statement (.attn p) := good_encA _ _ _ _ _ _
theorem launch (d : BitVec 4) (a : Opnd) : Statement (.launch d a) := good_encA _ _ _ _ _ _
theorem launchw (d : BitVec 4) (a : Opnd) : Statement (.launchw d a) := good_encA _ _ _ _ _ _
theorem mupdWrite (p : EUn) : Statement (.mupdWrite p) := good_encA _ _ _ _ _ _
theorem mupdCommit (p : EUn) : Statement (.mupdCommit p) := good_encA _ _ _ _ _ _
theorem mupdAbort (p : EUn) : Statement (.mupdAbort p) := good_encA _ _ _ _ _ _
theorem enXcp (x : XArgs) : Statement (.enXcp x) := good_encA _ _ _ _ _ _
theorem enMovl (d : Opnd) (l : Lit) : Statement (.enMovl d l) := good_encL _ _ _ _ _ _
theorem enAdd (p : SArgs) : Statement (.enAdd p) := good_encB _ _ _ _ _ _
theorem strg (p : PArgs) : Statement (.strg p) := good_encB _ _ _ _ _ _
theorem strgBar (p : PArgs) : Statement (.strgBar p) := good_encB _ _ _ _ _ _
theorem qtailWrite : Statement .qtailWrite := good_none
theorem tailLineInvalidate : Statement .tailLineInvalidate := good_none
theorem qcfgWrite : Statement .qcfgWrite := good_none
theorem qstatClear : Statement .qstatClear := good_none
theorem recordAccept : Statement .recordAccept := good_none
theorem hostSignalPoll : Statement .hostSignalPoll := good_none
theorem kernelHandover : Statement .kernelHandover := good_none
theorem slicePublish : Statement .slicePublish := good_none
theorem retirementWordArrival : Statement .retirementWordArrival := good_none
theorem sliceBind : Statement .sliceBind := good_none
theorem sliceStart : Statement .sliceStart := good_none
theorem recordAged : Statement .recordAged := good_none
theorem preemptMark : Statement .preemptMark := good_none
theorem preemptStop : Statement .preemptStop := good_none
theorem contextRecordWrite : Statement .contextRecordWrite := good_none
theorem sliceResume : Statement .sliceResume := good_none
theorem longWaitYield : Statement .longWaitYield := good_none
theorem stealRequest : Statement .stealRequest := good_none
theorem stealAccept : Statement .stealAccept := good_none
theorem stealDecline : Statement .stealDecline := good_none
theorem stealOfferTimeout : Statement .stealOfferTimeout := good_none
theorem stealVoidReceive : Statement .stealVoidReceive := good_none
theorem stealCommitReceive : Statement .stealCommitReceive := good_none
theorem stealAck : Statement .stealAck := good_none
theorem kernelComplete : Statement .kernelComplete := good_none
theorem dqerrcntWrite : Statement .dqerrcntWrite := good_none
theorem deviceQueueEnqueueDone : Statement .deviceQueueEnqueueDone := good_none
theorem instructionFetchFill : Statement .instructionFetchFill := good_none
theorem loadDataArrival : Statement .loadDataArrival := good_none
theorem streamGroupArrival : Statement .streamGroupArrival := good_none
theorem mxPinComplete : Statement .mxPinComplete := good_none
theorem pageWalkComplete : Statement .pageWalkComplete := good_none
theorem wiredBarrierReach : Statement .wiredBarrierReach := good_none
theorem asyncEngineWrite : Statement .asyncEngineWrite := good_none
theorem budgetExhausted : Statement .budgetExhausted := good_none
theorem budgetTrap : Statement .budgetTrap := good_none
theorem ckptImageComplete : Statement .ckptImageComplete := good_none
theorem ckptJournalVerified : Statement .ckptJournalVerified := good_none
theorem powerFailWarning : Statement .powerFailWarning := good_none
theorem powerReturn : Statement .powerReturn := good_none
theorem islandTransitionComplete : Statement .islandTransitionComplete := good_none
theorem quadIslandIdle : Statement .quadIslandIdle := good_none
theorem idle2retExpiry : Statement .idle2retExpiry := good_none
theorem ret2offExpiry : Statement .ret2offExpiry := good_none
theorem uncoreIdle : Statement .uncoreIdle := good_none
theorem bdieQuarterIdle : Statement .bdieQuarterIdle := good_none
theorem bteCommandStart : Statement .bteCommandStart := good_none
theorem bteCommandComplete : Statement .bteCommandComplete := good_none
theorem ringWalkSlotTaken : Statement .ringWalkSlotTaken := good_none
theorem syncOperationArrival : Statement .syncOperationArrival := good_none
theorem wmonTimeout : Statement .wmonTimeout := good_none
theorem phaserWaitTimeout : Statement .phaserWaitTimeout := good_none
theorem flattenCopyComplete : Statement .flattenCopyComplete := good_none
theorem sqtierComplete : Statement .sqtierComplete := good_none
theorem attnRequestStart : Statement .attnRequestStart := good_none
theorem attnRequestComplete : Statement .attnRequestComplete := good_none
theorem tlbinvWrite : Statement .tlbinvWrite := good_none
theorem tlbinvComplete : Statement .tlbinvComplete := good_none
theorem fqrespWrite : Statement .fqrespWrite := good_none
theorem registerWrite : Statement .registerWrite := good_none
theorem configApply : Statement .configApply := good_none
theorem rasstatClear : Statement .rasstatClear := good_none
theorem scrubVisit : Statement .scrubVisit := good_none
theorem restore : Statement .restore := good_none
theorem powerLimit : Statement .powerLimit := good_none
theorem privLaunch : Statement .privLaunch := good_none
theorem sealDram : Statement .sealDram := good_none
theorem exportRange : Statement .exportRange := good_none
theorem exportUnit : Statement .exportUnit := good_none
theorem cuffTokenAccrual : Statement .cuffTokenAccrual := good_none
theorem cuffrateWrite : Statement .cuffrateWrite := good_none
theorem cuffburstWrite : Statement .cuffburstWrite := good_none
theorem logRead : Statement .logRead := good_none
theorem logAck : Statement .logAck := good_none
theorem fwUpdate : Statement .fwUpdate := good_none
theorem status : Statement .status := good_none
theorem importOpen : Statement .importOpen := good_none
theorem importClose : Statement .importClose := good_none
theorem deepOff : Statement .deepOff := good_none
theorem perstRelease : Statement .perstRelease := good_none
theorem coldReset : Statement .coldReset := good_none
theorem firmwareReady : Statement .firmwareReady := good_none
theorem firmwareWatchdogExpiry : Statement .firmwareWatchdogExpiry := good_none
theorem getVersion : Statement .getVersion := good_none
theorem getCapabilities : Statement .getCapabilities := good_none
theorem negotiateAlgorithms : Statement .negotiateAlgorithms := good_none
theorem getDigests : Statement .getDigests := good_none
theorem getCertificate : Statement .getCertificate := good_none
theorem challenge : Statement .challenge := good_none
theorem getMeasurements : Statement .getMeasurements := good_none
theorem keyExchange : Statement .keyExchange := good_none
theorem finish : Statement .finish := good_none
theorem endSession : Statement .endSession := good_none
theorem hostLinkReset : Statement .hostLinkReset := good_none
theorem hostLinkDown : Statement .hostLinkDown := good_none
theorem podBringup : Statement .podBringup := good_none
theorem podRouteLoss : Statement .podRouteLoss := good_none
theorem podRouteRestore : Statement .podRouteRestore := good_none
theorem powerManagerThrottle : Statement .powerManagerThrottle := good_none
theorem hostLinkUp : Statement .hostLinkUp := good_none

end Sys2Proof.Laws.LiteralBit
end

