-- ==== Sys2Proof/Tests/Slice0.lean ====
section
/-!
SUPPORT. Tests: well-formedness refuses ill-formed terms, words written out from the encoding tables decode, small steps checked by hand from the
spec's rules, and for every statement a concrete state and operands that meet each of its hypotheses.
-/
namespace Sys2Proof.Tests

open Sys2Proof Sys2Proof.Machine Sys2Proof.Safety

set_option maxRecDepth 100000
set_option exponentiation.threshold 40000

/-! ## States to test on -/

/-- A slice of kernel 0 on a core. -/
def run0 (priv : Bool) : Run := ⟨0, 0, 0, 0, 0, 1, priv, none, false, false, none, false, none, []⟩

/-- Core 0 with a change, the rest of the module as after reset. -/
def core0 (f : Core → Core) : State := State.reset.setCore 0 (f { Core.reset with run := some (run0 false) })

/-- Core 0 with w registers set. -/
def withW (l : List (Nat × Word)) : State := core0 (fun k => { k with regs := { k.regs with w := l } })

/-- The module after reset with what a step is about. -/
def told (a : About) : State := { State.reset with about := a }
/-! ## Hypotheses met: integer, control, groups -/

theorem wit_BitsAndSelection : (0x2040 : Word).getLsbD 13 = true ∧ 0 < min ((0x2040 : Word).toNat / 64 % 128) (64 - (0x2040 : Word).toNat % 64) ∧
    ¬((0x003F : Word).getLsbD 13 = true ∧ 0 < min ((0x003F : Word).toNat / 64 % 128) (64 - (0x003F : Word).toNat % 64)) := by decide

theorem wit_ControlTransfers : wordOf State.reset .c .zero = 0 ∧ wordOf (core0 (fun k => { k with regs := { k.regs with f := 1 } })) .c (.flag 0) ≠ 0 := by
  decide

/-- A loop level over the line at 0x1000. -/
def level0 (count index : W32) : LoopLevel := ⟨0x1000, 0x1000, count, index⟩

/-- Core 0 in a group with some loop levels, with a line of empty bundles at 0x1000 in its instruction cache. -/
def looping (ls : List LoopLevel) : State := core0 (fun k => { k with
  loops := ls, grp := { k.grp with loops := ls }, icache := [(0x1000, lineWith [])] })

theorem wit_HardwareLoops_depth :
    (looping []).cur.grp.loops.length < 6 ∧ (looping (List.replicate 5 (level0 1 0))).cur.grp.loops.length < 6 ∧
    6 ≤ (looping (List.replicate 6 (level0 1 0))).cur.grp.loops.length ∧ (looping []).cur.grp.loops.length < (1 : BitVec 3).toNat ∧
    (1 : BitVec 3).toNat ≤ (looping [level0 2 0]).cur.grp.loops.length ∧ (63 : BitVec 6) ≠ 0 ∧
    wordOf (looping []) .c .zero = 0 ∧ wordOf (core0 (fun k => { k with regs := { k.regs with f := 1 } })) .c (.flag 0) ≠ 0 := by decide

theorem wit_HardwareLoops_level :
    (looping [level0 2 0]).cur.grp.loops[1 - 1]? = some (level0 2 0) ∧ (level0 2 0).index.toNat + 1 < (level0 2 0).count.toNat ∧
    (level0 2 1).count.toNat ≤ (level0 2 1).index.toNat + 1 ∧ fetchBad 0 (level0 2 1).last = none ∧
    (looping [level0 2 1]).lineOf 0 0x1000 = some (lineWith []) ∧
    bundleLength ((lineWith []).drop ((0x1000 : Word).toNat % 64)) = .ok 2 :=
  ⟨by decide, by decide, by decide, by decide, by decide, rfl⟩

theorem wit_LeavingASlice : (core0 id).cur.trap.active = false ∧ (core0 (fun k => { k with trap := { k.trap with active := true } })).cur.trap.active = true := by
  decide

/-- Core 0 with one range, 64 bytes at 64, in a CKPT.T list at the start of its tile SRAM. -/
def listed : State := { core0 id with mem := Mem.writes [] (tileBase 0 0) (leBytes 8 1 ++ leBytes 8 (64 + 64 * 2 ^ 32)) }

theorem wit_LeavingASlice_checkpoints :
    let at8 (o : Nat) : Nat := leNat ((List.range 8).map (fun i => listed.seenByte (tileBase listed.modid listed.me + o + i)))
    at8 0 = 1 ∧ (at8 8) / 2 ^ 21 % 2 ^ 11 = 0 ∧ at8 8 / 2 ^ 53 = 0 ∧ at8 8 % 64 = 0 ∧ at8 8 / 2 ^ 32 % 64 = 0 ∧
    at8 8 % 2 ^ 21 + at8 8 / 2 ^ 32 % 2 ^ 21 ≤ 2 ^ 21 ∧ at8 8 / 2 ^ 32 % 2 ^ 21 ≤ 65536 ∧ listed.cur.trap.active = false ∧
    (wordOf listed .c .zero).toNat % 2 ^ 21 % 8 = 0 ∧
    (wordOf (core0 (fun k => { k with regs := { k.regs with c := [(1, 4)] } })) .c (.own 1)).toNat % 2 ^ 21 % 8 ≠ 0 := by decide

/-- Core 0 with a CKPT.T list of `n` ranges at offset 56 of its tile SRAM, of which the first entry, past the sector, is `e`; the sectors `bad` hold
uncorrectable data. -/
def listing (n e : Nat) (bad : List Nat) : State :=
  { core0 (fun k => { k with regs := { k.regs with c := [(1, 56)] } }) with
    mem := Mem.writes (Mem.writes [] (tileBase 0 0 + 56) (leBytes 8 n)) (tileBase 0 0 + 64) (leBytes 8 e), poison := bad }

theorem wit_LeavingASlice_lists :
    let at8 (s : State) (o : Nat) : Nat := leNat ((List.range 8).map (fun i => s.seenByte (tileBase s.modid s.me + o + i)))
    let s := listing 1 (64 * 2 ^ 32) []
    (wordOf s .c (.own 1)).toNat % 2 ^ 21 = 56 ∧ at8 s 56 = 1 ∧ s.spoiled (tileBase 0 0 + 56) 8 = false ∧
    (listing 1 0 [tileBase 0 0]).spoiled (tileBase 0 0 + 56) 8 = true ∧ at8 (listing 9 0 []) 56 = 9 ∧
    (listing 1 0 [tileBase 0 0 + 64]).spoiled (tileBase 0 0 + 56) 8 = false ∧ (listing 1 0 [tileBase 0 0 + 64]).spoiled (tileBase 0 0 + 56) 16 = true ∧
    at8 (listing 1 32 []) 64 % 64 ≠ 0 ∧ at8 (listing 1 (2 ^ 53) []) 64 % 64 = 0 ∧ at8 (listing 1 (2 ^ 53) []) 64 / 2 ^ 53 ≠ 0 := by decide

theorem wit_SystemRegisters : (core0 (fun k => { k with run := some (run0 true) })).cur.priv = true ∧ (core0 id).cur.priv = false ∧
    ((core0 id).core 0).run = some (run0 false) ∧ (run0 false).deadline = none ∧ recBudget ((core0 id).recOf 0) = 0 ∧ (run0 false).rank < 4 := by decide

theorem wit_SystemRegisters_budget :
    recBudget (({ core0 id with kernels := [(0, ⟨BitVec.allOnes 2048, .mailbox, false, [], none, none, [], [], false, 0, none, none⟩)] } : State).recOf 0) ≠ 0 ∧
    ({ run0 false with deadline := some 5 } : Run).deadline = some 5 := by decide

theorem wit_DecodeOfEncode : Instr.wf .exit = true ∧ encode .exit = some ⟨.c, 0x0D000000#32, none⟩ := by decide

/-- Core 0 with a group of one bundle about to complete. -/
def ending (w : List Pend) : State := core0 (fun k => { k with
  grp := { k.grp with active := true, bundles := [⟨0, 2, ⟨false, false, 0, true, 0⟩, []⟩], writes := w } })

theorem wit_GroupCompletion : let k := (ending [⟨.x 1, .word 5, 3, false⟩]).core 0
    k.landings = [] ∧ k.grp.ops = [] ∧ k.grp.ctrl = .next ∧ k.grp.after = none ∧ k.grp.old = false ∧ k.grp.loops = k.loops ∧ innermost k.loops = none ∧
    k.grp.bundles[k.grp.idx]?.isSome = true := by decide

theorem wit_CommitInItsCycle :
    let k (c : Nat) (p : Pend) : Core := { Core.reset with cycle := c, inflight := [p] }
    (k 3 ⟨.x 31, .word 5, 4, false⟩).cycle < 4 ∧ 4 ≤ (k 4 ⟨.x 31, .word 5, 4, false⟩).cycle ∧ InFile (.x 31) ∧ InFile (.f 15) ∧ InFile (.w 0) ∧
    Apart (.x 1) (.x 31) ∧ ¬ Apart (.i 1) (.loop 1 .index) := by
  refine ⟨by decide, by decide, by show (31 : Nat) < 32; decide, by show (15 : Nat) < 16; decide, by show (0 : Nat) < 16; decide, ?_, ?_⟩
  · unfold Apart; decide
  · unfold Apart; decide

theorem wit_OperandCodes_void : let p : Port := ⟨5, .op (.own 1), some (.x 1), 3, false⟩
    (0, p) ∈ ({ Core.reset with ports := [(0, p)] } : Core).ports ∧ p.reg = some (RegName.x 1).voids ∧ p.taken < 4 ∧ p.reg ≠ some (RegName.x 2).voids ∧
    p.void = false ∧ ({ p with void := true } : Port).void = true ∧ nameOf .i0 (.own 31) = some (.x 31) := by decide
/-! ## Hypotheses met: the step, exceptions, memory -/

/-- The module with an EXIT bundle placed for core 0's next step. -/
def placed : State := State.reset.withFetchWord 32 0x0D000000

/-- Core 0 of it as its cycle begins, and the bundle at its pc. -/
def began : State := ((({ placed with agenda := [], me := 0 } : State).landOwn 0).modCore 0 Core.beginCycle).unpin 0
def exitBundle : Bundle := ⟨0x1000, 6, ⟨false, false, 0, true, 1⟩, [(.c, .exit)]⟩

theorem wit_StepRunsDecoded_state :
    placed.agenda = [.issue 0] ∧ (placed.core 0).run = some (run0 true) ∧ placed.awake (quadIsland 0) = true ∧ placed.frozenPower = false ∧ placed.mayCycle 0 = true ∧
    (run0 true).ended = false ∧ (run0 true).leave = none ∧ (placed.core 0).lostData = false ∧ (placed.core 0).accLost = false ∧
    (began.core 0).forkTrap ≠ .now ∧ (began.core 0).grp.active = false ∧ (began.core 0).holdUntil ≤ (began.core 0).cycle ∧
    fetchBad 0 (began.core 0).pc = none := by decide

theorem wit_StepRunsDecoded_bundle :
    ∃ line, Sparse.find? (began.core 0).icache ((began.core 0).pc.toNat / 64 * 64) = some line ∧
      decodeBundle (began.core 0).pc (line.drop ((began.core 0).pc.toNat % 64)) = .ok exitBundle ∧
      exitBundle.hdr = ⟨false, false, 0, true, exitBundle.hdr.pres⟩ ∧ exitBundle.instrs = [(.c, .exit)] :=
  ⟨_, rfl, rfl, rfl, rfl⟩

theorem wit_StepRunsDecoded_free :
    let k := began.core 0
    began.land 0 = none ∧ (began.setCore 0 { k with landing := k.landing }).land 0 = none ∧ k.groupTrap [exitBundle] = none ∧
    Free ((began.setCore 0 { k with landing := k.landing }).modCore 0
      (fun k => k.opened [exitBundle] (began.skipPads 0 (2 ^ 51) (k.pc + BitVec.ofNat 64 6)))) 0 := by
  unfold Free; decide

/-- A kernel record with a handler at 0x2000. -/
def handled : Kernel := ⟨BitVec.ofNat 2048 (0x2000 * 2 ^ 128), .mailbox, false, [], none, none, [], [], false, 0, none, none⟩

/-- Core 0 in an open group of a kernel with a handler. -/
def faulting : State := { core0 (fun k => { k with grp := { k.grp with active := true } }) with kernels := [(0, handled)] }

/-- Its sequencer took the innermost level's index from 0 to 1 in cycle 5. -/
theorem wit_HandlerEntry :
    let k : Core := { faulting.core 0 with loops := [level0 2 1], turned := some (5, [level0 2 0], []) }
    (faulting.core 0).just = [] ∧ k.just = [] ∧ k.turned = some (5, [level0 2 0], []) ∧ 5 ≤ 5 ∧ [level0 2 0][0]? = some (level0 2 0) ∧
    k.loops[0]? = some (level0 2 1) ∧ (level0 2 0).index ≠ (level0 2 1).index ∧ (faulting.core 0).turned = none ∧ 5 < 6 := by decide

theorem wit_FaultLeavesNothing : let k := faulting.cur
    k.nloads = [] ∧ k.grp.active = true ∧ k.grp.olds = [] ∧ k.just = [] ∧ k.afterEret = false ∧ k.turned = none ∧ k.trap.active = false ∧ recHandler (faulting.recOf faulting.me) ≠ 0 ∧
    tAlign ≠ tEccUe ∧ tAlign ≠ tMxUe ∧ recHostpf (faulting.recOf faulting.me) = false := by decide

theorem wit_TrapWithoutHandlerKills :
    Sparse.find? (core0 id).cores 0 = some ((core0 id).core 0) ∧ ((core0 id).core 0).run = some (run0 false) ∧
    recHostpf ((core0 id).recOf 0) = false ∧ recHandler ((core0 id).recOf 0) = 0 ∧
    ((core0 (fun k => { k with trap := { k.trap with active := true } })).core 0).trap.active = true := by decide

/-- A bundle with one, and one with two, instructions. -/
def bundleOf (is : List (Slot × Instr)) : Bundle := ⟨0, 6, ⟨false, false, 0, true, 1⟩, is⟩
def addX (d : BitVec 5) (u : ISlot) : Instr := .add ⟨u, .w64, .own d, .zero, .op .zero⟩

theorem wit_GroupChecks : let k := (core0 id).core 0
    k.illegal 0 [bundleOf [(.c, .wrsys .zero 0)]] = none ∧ k.depends 0 [bundleOf [(.c, .wrsys .zero 0)]] [] [] = none ∧ k.priv = false ∧
    privileged (.wrsys .zero 0) = true ∧ ((core0 (fun k => { k with run := some (run0 true) })).core 0).priv = true ∧
    RegName.x 1 ∈ (usesOf k.loops.length (addX 1 .i0)).writes ∧
    (k.depends 0 [bundleOf [(.i0, addX 1 .i0), (.i0, addX 1 .i0)]] [] []).isSome = true ∧
    k.illegal 0 [bundleOf [(.i0, addX 1 .i0), (.i0, addX 1 .i0)]] = none ∧
    [bundleOf [(.i0, addX 1 .i0)], bundleOf [(.i0, addX 1 .i0)]] = [] ++ bundleOf [(.i0, addX 1 .i0)] :: [] ++ bundleOf [(.i0, addX 1 .i0)] :: [] ∧
    (k.depends 0 [bundleOf [(.i0, addX 1 .i0)], bundleOf [(.i0, addX 1 .i0)]] [] []).isSome = true ∧
    ((bundleOf [(.i0, addX 1 .i0)]).instrs.flatMap (fun p => (usesOf k.loops.length p.2).writes)).Nodup ∧
    (k.illegal 0 (List.replicate 4 ⟨0, 6, ⟨false, false, 0, false, 1⟩, [(.c, .exit)]⟩)).isSome = true := by decide

theorem wit_MemoryStaysCanonical : State.reset.memOk ∧ ∃ t, step State.reset = .next t := ⟨by unfold State.memOk; decide, _, rfl⟩

theorem wit_ByteWrites : State.reset.unbacked 0 = false ∧ unstated 0 = false ∧ unstated 0x100500000000 = true ∧ ({ State.reset with noRoute := [1] } : State).unbacked (2 ^ 46) = true ∧
    (∃ r, r ∈ ({ State.reset with frozen := [(64, 16)] } : State).frozen ∧ r.1 ≤ 79 ∧ 79 < r.1 + r.2) ∧ State.reset.frozen = [] :=
  ⟨by decide, by decide, by decide, by decide, ⟨(64, 16), by decide⟩, rfl⟩
/-! ## Hypotheses met: memory and streams -/

/-- Core 0 with pages in its TLB: 64 KiB units 0 to 3 map to DRAM, device registers, a reserved range and read-only DRAM. -/
def mapped (priv : Bool) : State := core0 (fun k => { k with
  run := some (run0 priv), tlb := [⟨0, false, 0x7⟩, ⟨1, false, 0x100400000007⟩, ⟨2, false, 0x100500000007⟩, ⟨3, false, 0x30001⟩] })

/-- The same with DRAM sealed from 0. -/
def sealedPage : State := { mapped false with sealedDram := [(0, 0x10000)] }

theorem wit_AccessTargets_windows :
    (0xFFFFFFFF00000004 : Word).toNat % 8 ≠ 0 ∧ (0xFFFFFFFF00000000 : Word).toNat % 8 = 0 ∧ canonical 0x0100000000000000 = false ∧
    (0xFFFFFFFF001FFFF8 : Word).toNat - 0xFFFFFFFF00000000 < 0x200000 ∧ 0x200000 ≤ (0xFFFFFFFF00200000 : Word).toNat - 0xFFFFFFFF00000000 ∧
    (0xFFFFFFFF00FFFFF8 : Word).toNat - 0xFFFFFFFF00000000 < 0x1000000 ∧ 0x1000000 ≤ (0xFFFFFFFF01000000 : Word).toNat - 0xFFFFFFFF00000000 ∧
    (0xFFFFFFFF017FFFF8 : Word).toNat - 0xFFFFFFFF00000000 < 0x1800000 ∧ 0x1800000 ≤ (0xFFFFFFFF01800000 : Word).toNat - 0xFFFFFFFF00000000 ∧
    canonical 0 = true ∧ canonical 0xFFFFFFFEFFFFFFF8 = true ∧ (0xFFFFFFFEFFFFFFF8 : Word).toNat < 0xFFFFFFFF00000000 := by decide

theorem wit_AccessTargets_pages :
    (mapped false).xlate 0 0x40 = .ok 0x40 0x7 false ∧ leafAllows 0x7 .write false = true ∧ (mapped false).inGlove 0x40 = false ∧ rangeOf 0x40 = .dram ∧
    (mapped false).xlate 0 0x30000 = .ok 0x30000 0x30001 false ∧ leafAllows 0x30001 .write false = false ∧ sealedPage.inGlove 0x40 = true ∧
    (mapped false).xlate 0 0x10000 = .ok 0x100400000000 0x100400000007 false ∧ (mapped false).rangeAllows 0x100400000000 false = false ∧
    rangeOf 0x080000000000 = .cxl ∧ (mapped false).xlate 0 0x40000 = .fault ∧ ({ mapped false with poison := [0] } : State).xlate 0 0x40000 = .ue := by
  decide

/-- Core 0, privileged, with units 0 to 2 mapped to the tile SRAM of cores 0, 3 and 4, and unit 3 to its MRAM. -/
def tilePages : State := core0 (fun k => { k with
  run := some (run0 true), tlb := [⟨0, false, 0x100200000007⟩, ⟨1, false, 0x100200600007⟩, ⟨2, false, 0x100200800007⟩, ⟨3, false, 0x100000000001⟩] })

theorem wit_AccessTargets_tiles :
    tilePages.modid < 64 ∧ tilePages.xlate 0 0x8 = .ok (tileBase 0 0 + 8) 0x100200000007 false ∧ tilePages.xlate 0 0x10008 = .ok (tileBase 0 3 + 8) 0x100200600007 false ∧
    tilePages.xlate 0 0x20008 = .ok (tileBase 0 4 + 8) 0x100200800007 false ∧ 3 / 4 = tilePages.me / 4 ∧ 4 / 4 ≠ tilePages.me / 4 ∧
    leafAllows 0x100200800007 .write true = true ∧ tilePages.inGlove (tileBase 0 4 + 8) = false ∧ tilePages.rangeAllows (tileBase 0 4 + 8) true = true ∧
    tilePages.xlate 0 0x30008 = .ok 0x100000000008 0x100000000001 false ∧ rangeOf 0x100000000008 = .mram ∧ leafAllows 0x100000000001 .read true = true := by decide

/-- Core 0 with its first page in another module, where the addresses from that page's first byte on are sealed. -/
def podPage : State := { core0 (fun k => { k with tlb := [⟨0, false, 0x400000000007⟩] }) with podSealed := [(0x400000000000, 64)] }

theorem wit_AccessTargets_pod : podPage.xlate 0 0x8 = .ok 0x400000000008 0x400000000007 false ∧ podPage.podGlove 0x400000000008 = true ∧
    podPage.podGlove 0x400000000040 = false ∧ (mapped false).podGlove 0x40 = false ∧ tilePages.podGlove (tileBase 0 4 + 8) = false ∧
    rangeOf 0x100300000000 = .sync ∧ rangeOf 0x100500000000 = .reserved := by decide

theorem wit_Loads_Stores (acc : Access) (h : acc = .read ∨ acc = .write) :
    (mapped false).lsTarget 0xFFFFFFFF00000008 acc 8 8 = .ok (.own 8, false) ∧ (mapped false).lsTarget 0xFFFFFFFF01200008 acc 8 8 = .ok (.nbr 1 8, false) ∧
    ((mapped true).lsTarget 0x10008 acc 8 8).toOption = some (.device 8, false) ∧ ((mapped false).lsTarget 0x40 acc 8 8).toOption = some (.phys 0x40, false) ∧
    ((mapped true).lsTarget 0x20000 acc 8 8).toOption = some (.raw 0x100500000000, false) ∧ (mapped false).lsTarget 0x41 acc 8 8 = .error ⟨tAlign, 0, 0x41, acc.kind⟩ ∧
    (mapped false).poisoned (tileBase 0 0 + 8) = false ∧ (mapped false).lsTarget 0xFFFFFFFF00000040 acc 64 64 = .ok (.own 64, false) ∧
    (mapped false).lsTarget 0xFFFFFFFF00000040 acc 16 16 = .ok (.own 64, false) := by
  rcases h with rfl | rfl <;> exact ⟨rfl, rfl, by decide, by decide, by decide, rfl, rfl, rfl, rfl⟩

/-- A descriptor over own tile SRAM: `t` the type's code, `n` elements, other bits in `extra`. -/
def desc0 (t n extra : Nat) : Desc := BitVec.ofNat 512 (t * 2 ^ 252 + (n - 1) * 2 ^ 64 + extra)

/-- Core 0 with one stream configured as q1 in the open group. -/
def streaming (d : Desc) : State := core0 (fun k => { k with
  q := [(1, ⟨d, false, 0⟩)], grp := { k.grp with q := [(1, ⟨d, false, 0⟩)] } })

theorem wit_StreamOperands_kind :
    destStream (.own 3) = none ∧ destStream (.stream 1) = some 1 ∧ Sparse.find? (streaming (desc0 3 2 0)).cur.grp.q 1 = some ⟨desc0 3 2 0, false, 0⟩ ∧
    Sparse.find? (core0 id).cur.grp.q 1 = none ∧ Desc.good (desc0 3 2 (2 ^ 57)) = false ∧ Desc.good (desc0 3 2 0) = true := by decide

theorem wit_StreamOperands_use :
    Desc.writes (desc0 3 2 (2 ^ 63)) = true ∧ Desc.writes (desc0 3 2 0) = false ∧ (Desc.ty (desc0 11 4 0)).is6 = true ∧
    Desc.scaled (desc0 10 2 (2 ^ 249)) = true ∧ (Desc.ty (desc0 10 2 (2 ^ 249))).is6 = false ∧ Desc.space (desc0 3 2 0) ≠ 4 ∧
    Desc.exh (desc0 3 2 (2 ^ 447)) = true ∧ Desc.exh (desc0 3 2 0) = false ∧ Desc.scaled (desc0 3 2 0) = false := by decide

theorem wit_StreamOperands_read :
    ((streaming (desc0 3 2 0)).setCur (streaming (desc0 3 2 0)).cur).readElems (desc0 3 2 0) (64 / (Desc.ty (desc0 3 2 0)).bits) 0 = .ok (0, []) := rfl

/-- A stream of two 32-bit elements over own tile SRAM that is written. -/
def outStream : Desc := desc0 3 2 (2 ^ 63)

theorem wit_StreamDestinations :
    let s := streaming outStream
    Sparse.find? s.cur.grp.q 1 = some ⟨outStream, false, 0⟩ ∧ Sparse.find? (core0 id).cur.grp.q 1 = none ∧ Desc.good outStream = true ∧
    Desc.writes outStream = true ∧ (Desc.ty outStream).is6 = false ∧ Desc.scaled outStream = false ∧ Desc.exh outStream = false ∧
    Desc.exh (desc0 3 2 (2 ^ 63 + 2 ^ 447)) = true ∧ 8 ≤ (Desc.ty outStream).bits ∧ (Desc.ty outStream).bits = 32 ∧
    Desc.ord outStream + 1 < Desc.total outStream ∧ rangeOf (tileBase 0 0) ≠ .mram ∧ unstated (tileBase 0 0) = false := by decide

theorem wit_StreamDestinations_elems :
    (∃ cs ms, ((streaming outStream).setCur (streaming outStream).cur).writeElems outStream 5 (fun _ => true) 2 0 0 = .ok (cs, ms)) ∧
    (∃ e, ((mapped false).setCur (mapped false).cur).writeElems (desc0 3 2 (2 ^ 63 + 2 ^ 61 + 0x30000)) 5 (fun _ => true) 2 0 0 = .error e) :=
  ⟨⟨_, _, rfl⟩, ⟨_, rfl⟩⟩

theorem wit_StreamOperands_mram :
    let k := (core0 (fun k => { k with grp := { k.grp with q := [(1, ⟨desc0 3 2 (2 ^ 60), false, 0⟩), (2, ⟨desc0 3 2 (2 ^ 60), false, 0⟩)] } })).cur
    Sparse.find? k.grp.q 1 = some ⟨desc0 3 2 (2 ^ 60), false, 0⟩ ∧ Desc.space (desc0 3 2 (2 ^ 60)) = 1 ∧ Desc.writes (desc0 3 2 (2 ^ 60)) = false ∧
    1 ∈ (usesOf 0 (Instr.lsAdd ⟨.own 1, .stream 1, .op .zero⟩)).streams ∧ Slot.ls.code.toNat < Slot.va.code.toNat := by decide

theorem wit_LsArithmetic :
    let s := streaming (desc0 3 2 0)
    (∃ p x k, s.operand s.cur .ls (.own 1) = .ok (p, x, k)) ∧ (∃ p x k, s.operandB s.cur .ls (.lit ⟨.w0, 5⟩) = .ok (p, x, k)) ∧
    (∃ k, s.putLs s.cur (.own 1) 5 1 = .ok k) ∧ (∃ e, s.operand s.cur .ls (.stream 2) = .error e) ∧
    (∃ e, s.operandB s.cur .ls (.op (.stream 2)) = .error e) ∧ (∃ e, s.putLs s.cur (.stream 1) 5 1 = .error e) :=
  ⟨⟨_, _, _, rfl⟩, ⟨_, _, _, rfl⟩, ⟨_, rfl⟩, ⟨_, rfl⟩, ⟨_, rfl⟩, ⟨_, rfl⟩⟩

theorem wit_StreamControl :
    (0xFFFFFFFF00000040 : Word).toNat % 64 = 0 ∧ (0xFFFFFFFF00000048 : Word).toNat % 64 ≠ 0 ∧ placeOf 0 0xFFFFFFFF00000040 = .tile 0 64 ∧
    placeOf 0 0xFFFFFFFF01200000 = .tile 1 0 ∧ (streaming 0).poisoned (tileBase 0 0 + 64) = false ∧
    Sparse.find? (streaming (desc0 3 2 0)).cur.grp.q (1 : BitVec 4).toNat = some ⟨desc0 3 2 0, false, 0⟩ ∧
    Sparse.find? (streaming (desc0 3 2 0)).cur.grp.q (2 : BitVec 4).toNat = none := by decide

theorem wit_StreamControl_traps :
    Sparse.find? (streaming (desc0 3 2 (2 ^ 57))).cur.grp.q (1 : BitVec 4).toNat = some ⟨desc0 3 2 (2 ^ 57), false, 0⟩ ∧
    Desc.good (desc0 3 2 (2 ^ 57)) = false ∧ (0x1000 : Word).toNat % 64 = 0 ∧ placeOf 0 0x1000 = .virt ∧
    ({ streaming 0 with poison := [tileBase 0 0 + 64] } : State).poisoned (tileBase 0 0 + 64) = true ∧
    placeOf 0 0xFFFFFFFF01200040 = .tile 1 0x40 ∧ (1 : Nat) ≠ (streaming 0).me := by decide

theorem wit_StreamChanges : Desc.total (desc0 3 2 0) ≤ 2 ∧ ¬ Desc.total (desc0 3 2 0) ≤ 1 ∧ (7 : Nat) < 8 ∧ (2 : Nat) ≠ 1 := by decide

theorem wit_OrderingInstructions :
    0xFFFFFFFF00000000 ≤ (wordOf (withW []) .ls .zero + wordOfB (withW []) .ls (.lit ⟨.w1, 0xFFFFFFFF⟩)).toNat := by decide

/-- Core 0 with a dirty and a clean byte of its L1. -/
def caching : State := { mapped false with cores := [(0, { (mapped false).core 0 with l1 := [(0x40, ⟨7, true, 0⟩), (0x48, ⟨8, false, 0⟩)] })] }

theorem wit_MemoryOperations : caching.memOk ∧ Sparse.rising (caching.core 0).l1 = true ∧ (caching.core 0).landings = [] ∧
    caching.unbacked 5 = false ∧ unstated 5 = false ∧ caching.frozen = [] ∧ ([7, 8] : List Byte)[1]? = some 8 ∧
    ((l1Lines (l1Store 0 (caching.core 0).l1 0x40 [7, 8])).filter (· != 0x40 / 64)).length < 2048 ∧
    Sparse.find? (caching.core 0).l1 0x40 = some ⟨7, true, 0⟩ ∧ (⟨8, false, 0⟩ : L1Byte).dirty = false ∧ Scope.die ≠ Scope.core ∧ (0x12 : Nat) ≠ 0x11 ∧
    rangeOf 0x100000000008 = .mram ∧ unstated 0x100500000000 = true ∧ rangeOf (tileBase 0 4) ≠ .mram ∧ unstated (tileBase 0 4) = false := by
  unfold State.memOk; decide

theorem wit_MemoryOperations_landings :
    let k : Core := { Core.reset with landings := [⟨4, fullCells 0x40 [7, 8], 0, 0, .ls 1, none, false⟩] }
    (∀ l, l ∈ k.landings → l.held = none ∧ decide (l.due ≤ 4) = true) ∧ (∃ c, c ∈ k.landings.flatMap (·.cells)) := by
  refine ⟨?_, ⟨0x40, 7, 0xFF⟩, by decide⟩
  intro l h
  have : l = ⟨4, fullCells 0x40 [7, 8], 0, 0, .ls 1, none, false⟩ := by simpa using h
  subst this; decide

theorem wit_MemoryOperations_ranges :
    (0 : Nat) < 16 ∧ (0x40 : Word).toNat % 65536 + 16 ≤ 65536 ∧ placeOf 0 0xFFFFFFFF00000000 ≠ .virt ∧ placeOf 0 0x40 = .virt ∧
    caching.xlate 0 0x40 = .ok 0x40 0x7 false ∧ caching.xlate 0 0x40000 = .fault ∧ caching.flushSpans 0 0x40 8 = [(0x40, 8)] ∧
    caching.flushSpans 0 0xFFFFFFFF00000000 8 = [] := by decide
/-! ## Hypotheses met: vectors and the matrix engine -/

theorem wit_VectorTypes : ElemTy.isNum .f32 = true ∧ ElemTy.isNum .i8 = true ∧ ElemTy.isInt .u32 = true ∧ ElemTy.isSint .i16 = true ∧
    ElemTy.isFlt .bf16 = true ∧ ElemTy.isSat .i4 = true ∧ ElemTy.isPackable .i8 = true ∧ ElemTy.isDot .i8 = true ∧
    128 * ((1 : BitVec 2).toNat + 1) ≤ 2048 / ElemTy.bits .i8 ∧ (3 : BitVec 6).toNat < 32 / ElemTy.bits .i8 := by decide

theorem wit_VectorOperands :
    let s := streaming (desc0 3 64 0)
    (∃ p x k, s.operand s.cur .va (.own 1) = .ok (p, x, k)) ∧ (∃ p x k, s.operandB s.cur .va (.op (.own 2)) = .ok (p, x, k)) ∧
    (∃ k, s.putVec s.cur .va (.own 1) 5 1 2 = .ok k) ∧ (∃ e, s.operand s.cur .vb (.stream 2) = .error e) ∧
    (∃ e, s.operandB s.cur .vb (.op (.stream 2)) = .error e) ∧ (∃ e, s.putVec s.cur .vb (.stream 1) 5 1 2 = .error e) :=
  ⟨⟨_, _, _, rfl⟩, ⟨_, _, _, rfl⟩, ⟨_, rfl⟩, ⟨_, rfl⟩, ⟨_, rfl⟩, ⟨_, rfl⟩⟩

theorem wit_VectorFunctions_lane :
    ElemTy.value .f32 0x7FC00000 = .nan ∧ ElemTy.value .f32 0xFF800000 = .inf true ∧
    (∃ n d, ElemTy.value .f32 0 = .fin false n d ∧ n = 0) ∧ ∃ n d, ElemTy.value .f32 0x40000000 = .fin false n d ∧ n = 2 * d ∧ 0 < d :=
  ⟨by decide, by decide, ⟨_, _, rfl, rfl⟩, _, _, rfl, by decide, by decide⟩

/-- The region register of one element at row 0, column 0, KLEN 1. -/
def oneElem : Word := 0x0000000101010000

/-- An element in integer mode. -/
def intElem (m : BitVec 48) : Elem := ⟨m, 0, 0, some .integer⟩

/-- Core 0 with the region, streams q1 and q2 of bytes to read and q3 to write, and an element. -/
def matrix (e : Elem) (f : MxSt → MxSt) : State := core0 (fun k => { k with
  regs := { k.regs with ac := [(1, oneElem)] }, acc := [(0, e)]
  grp := { k.grp with
    q := [(1, ⟨desc0 0 1 0, false, 0⟩), (2, ⟨desc0 0 1 0, false, 0⟩), (3, ⟨desc0 0 1 (2 ^ 63), false, 0⟩)]
    mx := f { k.grp.mx with accNew := [(0, e)] } } })

theorem wit_MatrixRegions :
    Fits ((matrix (intElem 3) id).cur.word (.ac 1)) ∧ ¬ Fits ((matrix (intElem 3) id).cur.word (.ac 2)) ∧ Fits 0x80800000 ∧ Fits 0x01017F7F ∧
    ¬ Fits 0x80800001 ∧ ¬ Fits 0x01010080 ∧ (0x1FFFF0 : BitVec 21).toNat % 16 = 0 ∧ (0x1FFFF0 : BitVec 21).toNat + 16 * 1 * 1 ≤ 2 ^ 21 ∧
    2 ^ 21 < (0x1FFFF0 : BitVec 21).toNat + 16 * 2 * 1 ∧ (8 : BitVec 21).toNat % 16 ≠ 0 := by
  unfold Fits; decide

theorem wit_MatrixProducts_first :
    let s := matrix (intElem 3) id
    s.mxStream s.cur 1 .i8 false true true = .ok (desc0 0 1 0) ∧ shapeOk (desc0 0 1 0) 1 = .ok false ∧
    (∃ x, s.mxLines (desc0 0 1 0) 1 1 0 = .ok x) ∧ s.mxStream s.cur 4 .i8 false true true = .error (streamFlt sfUnconfigured) ∧
    (streamFlt sfUnconfigured).code ≠ tEccUe ∧ s.cur.rank = 0 ∧ s.cur.gang = none := ⟨rfl, rfl, ⟨_, rfl⟩, rfl, by decide, rfl, rfl⟩

theorem wit_MatrixProducts_second :
    let s := matrix (intElem 3) id
    s.mxStream s.cur 2 .i8 false false true = .ok (desc0 0 1 0) ∧
    (Sparse.get s.cur.grp.mx.accNew Elem.zero (elemKey (regionOf oneElem).region 0 0)).tag = some (mmaMode .i8 false) ∧
    (Sparse.get (matrix Elem.zero id).cur.grp.mx.accNew Elem.zero (elemKey (regionOf oneElem).region 0 0)).tag ≠ some (mmaMode .i8 false) ∧
    (s.pinLines (desc0 0 1 0) (lineElems (desc0 0 1 0) 1 1)).eraseDups.length ≤ 256 := ⟨rfl, by decide, by decide, by decide⟩

theorem wit_MatrixProducts_member : let k : Core := { Core.reset with
      run := some { run0 false with rank := 1, width := 4 }, gang := some ⟨true, 1, 1, .i8, false, false, []⟩ }
    k.rank ≠ 0 ∧ k.gang = some ⟨true, 1, 1, .i8, false, false, []⟩ := by decide

theorem wit_MatrixDrains_stream :
    let s := matrix (intElem 3) id
    s.mxStream s.cur 3 .i8 true false true = .ok (desc0 0 1 (2 ^ 63)) ∧ Desc.count (desc0 0 1 (2 ^ 63)) 0 = 1 ∧ (regionOf oneElem).region.cols = 1 ∧
    (∀ v, ∃ x, s.writeElems (desc0 0 1 (2 ^ 63)) v (fun _ => true) 1 0 0 = .ok x) ∧
    (s.pinLines (desc0 0 1 (2 ^ 63)) (lineElems (desc0 0 1 (2 ^ 63)) 1 1)).eraseDups.length ≤ 256 ∧
    s.mxStream s.cur 1 .i8 true false true = .error (streamFlt sfDirection) ∧ recAcctrap (s.recOf 0) = false ∧ s.cur.grp.mx.chk = none :=
  ⟨rfl, by decide, by decide, fun _ => ⟨_, rfl⟩, by decide, rfl, by decide, rfl⟩

/-- 300 rows of 64 bytes, 512 apart, in global space: each row a line of its own. -/
theorem wit_MatrixDrains_pins :
    let d := desc0 0 64 (2 ^ 63 + 2 * 2 ^ 60 + 299 * 2 ^ 80 + 512 * 2 ^ 128 + 2 ^ 250)
    Desc.fabric d = true ∧ Desc.good d = true ∧ Desc.count d 0 = 64 ∧ Desc.count d 1 = 300 := by decide

/-- A kernel that traps on an overflowing accumulator. -/
def accTrap : Kernel := { handled with record := BitVec.ofNat 2048 (2 ^ 14) }

theorem wit_MatrixDrains_traps :
    let s : State := { matrix { intElem 3 with g := 1 } (fun m => { m with chk := some ⟨1, (regionOf oneElem).region, [0], [0], .ue, 0⟩ }) with
      kernels := [(0, accTrap)] }
    recAcctrap (s.recOf 0) = true ∧ (s.cur.elemAt 0).tag ≠ none ∧ (s.cur.elemAt 0).g.getLsbD 0 = true ∧
    (∃ c, s.cur.grp.mx.chk = some c ∧ c.region = (regionOf oneElem).region ∧ c.status = .ue) ∧ (0, 0) ∈ (regionOf oneElem).region.cells :=
  ⟨by decide, by decide, by decide, ⟨_, rfl, rfl, rfl⟩, by decide⟩

/-- Core 0 with an epilogue program in tile SRAM: ECVT of e0, EEND. -/
def program0 : State := { matrix (intElem 3) id with mem := Mem.writes [] (tileBase 0 0) (leBytes 4 0xC0000000 ++ leBytes 4 0xD0000000) }

theorem wit_MatrixDrains_programs :
    epiOk [0xC0000000, 0xD0000000] = true ∧ epiOk [0xD0000000] = false ∧ usesCol [0xC0000000, 0xD0000000] = false ∧
    usesCol [0x91000000, 0xC0000000, 0xD0000000] = true ∧ epiOk [0x91000000, 0xC0000000, 0xD0000000] = true ∧
    (program0.seenByte (tileBase 0 0 + 7)).toNat / 16 = 13 ∧ (program0.seenByte (tileBase 0 0 + 3)).toNat / 16 ≠ 13 ∧
    (2 ^ 21 - (2 ^ 21 - 4)) / 4 < 32 ∧ program0.poison = [] ∧ (∀ n, n < 32 → ((matrix (intElem 3) id).seenByte (tileBase 0 0 + 4 * n + 3)).toNat / 16 ≠ 13) ∧
    ¬ (∀ p, p ∈ ({ program0 with poison := [tileBase 0 0] } : State).poison → tileBase 0 0 / 64 ≤ p / 64 → (tileBase 0 0 + 8 - 1) / 64 < p / 64) := by decide

theorem wit_MatrixDrains_side :
    let s := core0 (fun k => { k with grp := { k.grp with q := [(1, ⟨desc0 5 1 0, false, 0⟩)], mx := { k.grp.mx with
      epi := [(2, ⟨[0x91000000, 0xC0000000, 0xD0000000], 0⟩)] } } })
    (∃ p, Sparse.find? s.cur.grp.mx.epi 2 = some p) ∧ Sparse.find? s.cur.grp.mx.epi 1 = none ∧
    s.mxStream s.cur 1 .f32 false true false = .ok (desc0 5 1 0) ∧ (∃ x ms, s.readElems (desc0 5 1 0) 1 0 = .ok (x, ms)) :=
  ⟨⟨_, rfl⟩, rfl, rfl, ⟨_, _, rfl⟩⟩

/-- Magnitude 64·2^z ≠ 0 codes of a d8, and exponent gaps at the borders of the three cases. -/
theorem wit_ElementRules :
    (1 : Nat) % 128 ≠ 0 ∧ (127 : Nat) % 128 ≠ 0 ∧ (255 : Nat) < 256 ∧ (255 : Nat) % 128 ≠ 0 ∧ ¬ (12 : Int) < 12 ∧ (12 : Int) < 13 ∧
    (0 : Int) ≤ 0 ∧ (-1 : Int) < 0 ∧ (intElem 0).tag ≠ none ∧ Elem.zero.tag = none ∧ (8 : BitVec 6).getLsbD 3 = true ∧ (8 : BitVec 6).getLsbD 2 = false := by
  decide

/-- −3 in an element, and a block of one product, 3: the sum is 0, in units of 2^−100. -/
theorem wit_BinaryAccumulation :
    let e : Elem := ⟨-3, 0, 0, some .binary⟩
    let pairs : List (Factor × Factor) := [(.dyad 1 0, .dyad 3 0)]
    let prod (p : Factor × Factor) : Int := match p with | (.dyad m x, .dyad n y) => m * n * (2 ^ (x + y - (-100)).toNat : Nat) | _ => 0
    let v : Int := e.m.toInt * (2 ^ (e.x.toInt - (-100)).toNat : Nat) + 3 * 2 ^ 88 * 2 ^ 12
    (∀ m x n y, (.dyad m x, .dyad n y) ∈ pairs → (-100 : Int) ≤ x + y) ∧ (-100 : Int) ≤ e.x.toInt ∧
    (∀ p, p ∈ pairs → (prod p).natAbs < 2 ^ ((1 : Int) + 1 - (-100)).toNat) ∧ (∃ p, p ∈ pairs ∧ 2 ^ ((1 : Int) - (-100)).toNat ≤ (prod p).natAbs) ∧
    (-100 : Int) ≤ 1 + 6 - 95 ∧ (pairs.map (fun p => prod p / (2 ^ 12 : Nat))).sum = 3 * 2 ^ 88 ∧
    3 * 2 ^ 88 * 2 ^ 12 < 2 ^ ((46 : Int) + (-44) - (-100)).toNat ∧ 2 ^ ((45 : Int) + (-44) - (-100)).toNat ≤ 3 * 2 ^ 88 * 2 ^ 12 ∧ v = 0 ∧
    (∀ n : Nat, 2 * (v - 0 * (2 ^ n : Nat)).natAbs ≤ 2 ^ n ∧ 2 * (v - 0 * (2 ^ n : Nat)).natAbs ≠ 2 ^ n) := by
  refine ⟨?_, by decide, ?_, ⟨_, List.mem_singleton.2 rfl, by decide⟩, by decide, by decide, by decide, by decide, by decide, ?_⟩
  · intro m x n y h
    obtain ⟨⟨rfl, rfl⟩, rfl, rfl⟩ : (m = 1 ∧ x = 0) ∧ n = 3 ∧ y = 0 := by simpa using h
    decide
  · intro p h
    obtain rfl : p = (.dyad 1 0, .dyad 3 0) := by simpa using h
    decide
  · intro n
    have : (0 : Nat) < 2 ^ n := Nat.two_pow_pos n
    have hv : (⟨-3, 0, 0, some .binary⟩ : Elem).m.toInt * (2 ^ ((⟨-3, 0, 0, some .binary⟩ : Elem).x.toInt - (-100)).toNat : Nat) + 3 * 2 ^ 88 * 2 ^ 12 = 0 := by decide
    simp only [hv]
    omega

/-- The values about the ends of two types: 1000 lies beyond every i8, and 2^20 beyond every finite e5m2, whose two largest are 49152 and 57344. -/
theorem wit_RoundingIntoTypes :
    (List.range 256).all (fun c => match ElemTy.value .i8 c with | .fin s m e => decide ((if s then -(m : Int) else m) < 1000 * (e : Int)) | _ => true) = true ∧
    (List.range 256).all (fun c => match ElemTy.value .e5m2 c with | .fin s m e => decide ((if s then -(m : Int) else m) < 2 ^ 20 * (e : Int)) | _ => true) = true ∧
    (∃ m e, ElemTy.value .e5m2 0x7A = .fin false m e ∧ m = 49152 * e ∧ 0 < e) ∧ (∃ m e, ElemTy.value .e5m2 0x7B = .fin false m e ∧ m = 57344 * e ∧ 0 < e) ∧
    (∃ m e, ElemTy.value .i8 100 = .fin false m e ∧ m = 100 * e ∧ 0 < e) := by
  exact ⟨by decide, by decide, ⟨_, _, rfl, by decide, by decide⟩, ⟨_, _, rfl, by decide, by decide⟩, ⟨_, _, rfl, by decide, by decide⟩⟩
/-! ## Hypotheses met: engines, launch unit, schedulers, cores -/

theorem wit_EngineMessages_targets :
    let s := mapped false
    (0x1000 : Word).toNat % 1024 = 0 ∧ (0x40 : Word).toNat % 1024 ≠ 0 ∧ canonical 0x0100000000000000 = false ∧ 0xFFFFFFFF00000000 ≤ (0xFFFFFFFF00000000 : Word).toNat ∧
    s.xlate 0 0x40000 = .fault ∧ s.xlate 0 0x1000 = .ok 0x1000 0x7 false ∧ leafAllows 0x7 .write false = true ∧ s.inGlove 0x1000 = false ∧
    s.rangeAllows 0x1000 false = true ∧ rangeOf 0x1000 = .dram ∧ (mapped true).rangeAllows 0x100500000000 true = true ∧
    rangeOf 0x100500000000 ≠ .dram ∧ rangeOf 0x100500000000 ≠ .cxl := by decide

theorem wit_EngineMessages_sends (acc : Access) (h : acc = .read ∨ acc = .write) :
    (mapped false).syncTarget 0x1000 4096 acc true = .ok (0x1000, false) ∧ (mapped false).syncTarget 0x40000 64 acc true = .error ⟨tPageFault, 0, 0x40000, acc.kind⟩ ∧
    (mapped false).cur.wait.answer = none ∧ (mapped false).cur.wait.sent = false ∧ ((0 : Word).toNat % 2 ^ 32 = 0) ∧ (0 : Word).toNat / 2 ^ 40 = 0 := by
  rcases h with rfl | rfl <;> exact ⟨rfl, rfl, rfl, rfl, rfl, rfl⟩

/-- Core 0 waiting, with the request sent, or with the answer there. -/
def waiting (w : Wait) : State := { mapped false with cores := Sparse.put (mapped false).cores 0 { (mapped false).cur with wait := w } }

theorem wit_BlockingWaits :
    (waiting ⟨true, none, some 0⟩).cur.wait.sent = true ∧ (waiting ⟨true, some (1, 0), some 0⟩).cur.wait.answer = some (1, 0) ∧
    (0xFFFFFFFF : Word).toNat % 2 ^ 32 ≠ 0 ∧ (0xFFFFFFFE : Word).toNat % 2 ^ 32 ≠ 2 ^ 32 - 1 ∧ (0xFFFFFF0000000000 : Word).toNat / 2 ^ 40 ≠ 0 := by decide

theorem wit_EngineBlocks :
    (0xFFFFFFFF00000080 : Word).toNat % 128 = 0 ∧ (0xFFFFFFFF00000040 : Word).toNat % 128 ≠ 0 ∧ 0xFFFFFFFF00200000 ≤ (0xFFFFFFFF00200000 : Word).toNat ∧
    (0xFFFFFFFF001FFF80 : Word).toNat < 0xFFFFFFFF00200000 ∧ (mapped false).poisoned (tileBase 0 0 + 0x80) = false ∧
    ({ mapped false with poison := [tileBase 0 0 + 0x80] } : State).poisoned (tileBase 0 0 + 0x80) = true ∧ (mapped true).cur.priv = true ∧ (mapped false).cur.priv = false := by
  decide

theorem wit_EngineBlocks_launch :
    ((mapped false).recordLines 0x1000).toOption = some ([0x1000, 0x1040, 0x1080, 0x10C0], []) ∧ ((mapped false).recordLines 0x40000).toOption = none ∧
    (0x1020 : Word).toNat % 64 ≠ 0 := by decide

/-- A message to a word at 0x40. -/
def toWord : SyncMsg := ⟨none, 0, 0, 0x40, 0x40, .sqlen, .none, .mod, false, 0, none, false⟩

theorem wit_WordOperations :
    (∀ j, j < 16 → State.reset.readFails (toWord.addr + j) = false) ∧ (∀ j, j < 16 → ∀ b, State.reset.forced (toWord.addr + j) b = b) ∧
    State.reset.frozen = [] ∧ (∃ j, j < 4 ∧ ({ State.reset with poison := [0x40] } : State).readFails (toWord.addr + j) = true) ∧
    Holds .eq 64 0 0 ∧ ¬ Holds .eq 32 0 1 := by
  refine ⟨by decide, ?_, rfl, ⟨0, by decide⟩, ?_, ?_⟩
  · have hr : ∀ j, j < 16 → rangeOf (toWord.addr + j) = .dram := by decide
    intro j hj b; simp [State.forced, hr j hj]
  · unfold Holds; decide
  · unfold Holds; decide

/-- Queue 0 with a configuration and a tail. -/
def queued (cfg : Word) (tail : W32) : State := { State.reset with queues := [(0, { HostQueue.reset with qcfg := cfg, tail := tail })] }

theorem wit_LaunchSteps_queue :
    State.reset.answers = true ∧ (queued 1 0).hostUp = true ∧ (queued 3 0).about.flag = false ∧ ({ queued 3 0 with linksDown := [0, 1] } : State).hostUp = false ∧
    (queued 3 0).hostCxl = true ∧ ((queued 3 0).queue 0).qcfg.getLsbD 0 = true ∧ ((queued 3 0).queue 0).qcfg.getLsbD 1 = true ∧ ((queued 1 0).queue 0).qcfg.getLsbD 1 = false ∧
    ((16 : W32) - 0).toNat ≤ 2 ^ ((1 : Word).toNat / 256 % 16 + 4) ∧ 2 ^ ((1 : Word).toNat / 256 % 16 + 4) < ((17 : W32) - 0).toNat := by decide

/-- A record that passes every check: VER 1, PROGRAM at 0x1000, one iteration. -/
def goodRecord : BitVec 2048 := placeRecord

/-- Kernel 0 accepted, with a source. -/
def kernel0 (src : KSource) (runnable : Option Nat) : Kernel := ⟨goodRecord, src, false, [], runnable, none, [], [], false, 0, none, none⟩

theorem wit_LaunchSteps_accept :
    State.reset.frozenPower = false ∧ State.reset.kidRoom ≠ none ∧ State.reset.mss.boot = .running ∧ (queued 1 1).mayAccept 0 = true ∧
    ((queued 1 1).queue 0).undef = false ∧ recCheck goodRecord = none ∧
    ({ State.reset with turn := 64, dies := [(0, { Die.reset with dq := [⟨goodRecord, ⟨0, 0, 0, 0⟩, 1, false, none⟩] })] } : State).mayAccept 64 = true := by
  decide

/-- A page table whose unit 0 lies in host memory, which reads 0. -/
theorem wit_LaunchSteps_signal :
    let d : Dep := ⟨some 0x40, none, false⟩
    let s : State := { State.reset with
      kernels := [(0, { kernel0 .mailbox none with deps := [d] })], xregs := { XlatRegs.reset with ptroot := 0x2000 }
      mem := Mem.writes (Mem.writes (Mem.writes (Mem.writes [] 0x2000 (leBytes 8 0x4001)) 0x4000 (leBytes 8 0x5001)) 0x5000 (leBytes 8 0x10001)) 0x10000
        (leBytes 8 0x200000000007) }
    s.kernel? 0 = some { kernel0 .mailbox none with deps := [d] } ∧ s.signalReached 0x40 true = true ∧ d.signal = some 0x40 := by decide

/-- A record handed over to die 0, whose queue has `n` records in the die and some in its overflow area of `size` slots. -/
def handing (n : Nat) (outside : List Nat) (size : Word) : State := { State.reset with
  launches := [⟨⟨0, 0, 0, 0⟩, 1, false, 0x1000, [0x1000, 0x1040, 0x1080, 0x10C0], 0⟩]
  dies := [(0, { Die.reset with cfg := { DieCfg.reset with dqosize := size }
                                dq := List.replicate n ⟨0, ⟨0, 0, 0, 0⟩, 1, false, none⟩ ++ outside.map (fun pa => ⟨0, ⟨0, 0, 0, 0⟩, 1, false, some pa⟩) })] }

theorem wit_LaunchSteps_device :
    let l : LaunchPend := ⟨⟨0, 0, 0, 0⟩, 1, false, 0x1000, [0x1000, 0x1040, 0x1080, 0x10C0], 0⟩
    let inside (s : State) : Nat := ((s.die 0).dq.filter (fun e => e.overflow.isNone)).length
    let full := handing 256 [0] 2
    full.launches[0]? = some l ∧ full.releasedFor l.who l.after = true ∧ inside (handing 255 [] 0) < 256 ∧ 256 ≤ inside full ∧
    (∃ e, e ∈ (full.die 0).dq ∧ e.overflow = some 0) ∧ ¬ (∃ e, e ∈ (full.die 0).dq ∧ e.overflow = some 256) ∧ 1 < (full.die 0).cfg.dqosize.toNat ∧
    full.unbacked 256 = false ∧ full.unbacked (256 + 255) = false ∧ full.frozen = [] ∧ (handing 256 [] 0).launches[0]? = some l ∧
    256 ≤ inside (handing 256 [] 0) ∧ ((handing 256 [] 0).die 0).cfg.dqosize.toNat = 0 := by decide

theorem wit_LaunchSteps_kernel :
    let s : State := { State.reset with kernels := [(0, kernel0 (.host 0 0 16) (some 0))], words := [⟨0, 0, none, none⟩, ⟨0, 0, some 1, some 3⟩] }
    let k := kernel0 (.host 0 0 16) (some 0)
    s.kernel? 0 = some k ∧ k.runnable = some 0 ∧ k.done = none ∧ 63 ∈ replicaDies k.record ∧ 63 ∉ k.handed ∧ k.failed = false ∧ (s.die 63).next.length < 512 ∧ s.awake (512 + 63) = true ∧
    s.words[0]? = some ⟨0, 0, none, none⟩ ∧ s.words[1]? = some ⟨0, 0, some 1, some 3⟩ ∧ s.finished 0 k = false ∧
    s.finished 0 { k with retired := [0] } = true ∧ recSignal k.record = 0 := by decide

/-- A record of zeros is refused, with SIGNAL 0. -/
theorem wit_LaunchSteps_reject : (queued 1 1).memOk ∧ recCheck 0 = some 1 ∧ recSignal 0 = 0 := by unfold State.memOk; decide

theorem wit_LaunchSteps_waiting :
    let l : LaunchPend := ⟨⟨0, 0, 0, 0⟩, 1, true, 0x1000, [0x1000, 0x1040, 0x1080, 0x10C0], 0⟩
    let s : State := { core0 id with launches := [l], dies := (handing 256 [] 0).dies }
    s.launches[0]? = some l ∧ l.waits = true ∧ 256 ≤ ((s.die 0).dq.filter (fun e => e.overflow.isNone)).length ∧ (s.die 0).cfg.dqosize.toNat = 0 ∧
    (s.core 0).run = some (run0 false) ∧ (run0 false).kernel = 0 ∧ (run0 false).slice = 0 ∧
    (∀ b, b < 256 → unstated (256 + b) = false) ∧ (handing 256 [0] 2).memOk := by unfold State.memOk; decide

/-- A die whose uncore is in RETAIN. -/
theorem wit_LaunchSteps_asleep :
    let s : State := { State.reset with islands := [(512 + 63, ⟨.retain, 0, none, false⟩)] }
    s.awake (512 + 63) = false ∧ State.reset.awake (512 + 3) = true ∧ Sparse.find? (State.reset.die 63).next 0 = none := by decide

/-- Kernel 0 retired, with a signal at 0x40 and an error, or without, under a page table whose unit 0 is host memory or memory of the module. -/
def ended (va : Nat) (err : Word) (leaf : Nat) : State := { State.reset with
  kernels := [(0, { kernel0 (.device 5) (some 0) with retired := [0], error := err, record := placeRecord ||| BitVec.ofNat 2048 (va * 2 ^ 192) })]
  xregs := { XlatRegs.reset with ptroot := 0x2000 }
  mem := Mem.writes (Mem.writes (Mem.writes (Mem.writes [] 0x2000 (leBytes 8 0x4001)) 0x4000 (leBytes 8 0x5001)) 0x5000 (leBytes 8 0x10001)) 0x10000
    (leBytes 8 leaf) }

theorem wit_LaunchSteps_complete :
    let k (va : Nat) (err : Word) : Kernel := { kernel0 (.device 5) (some 0) with retired := [0], error := err, record := placeRecord ||| BitVec.ofNat 2048 (va * 2 ^ 192) }
    (ended 0 1 7).kernel? 0 = some (k 0 1) ∧ (ended 0 1 7).finished 0 (k 0 1) = true ∧ recSignal (k 0 1).record = 0 ∧ (k 0 1).error ≠ 0 ∧ (k 0 0).error = 0 ∧
    (ended 64 1 0x200000000007).kernel? 0 = some (k 64 1) ∧ (ended 64 1 0x200000000007).finished 0 (k 64 1) = true ∧ recSignal (k 64 1).record = 64 ∧
    ((ended 64 1 0x200000000007).keepWalk 64).signalPa 64 = some 0x200000000040 ∧ (ended 64 1 0x200000000007).isHost 0x200000000040 = true ∧
    ((ended 64 1 7).keepWalk 64).signalPa 64 = some 0x40 ∧ (ended 64 1 7).refused 0x40 = false ∧ (ended 64 1 7).isHost 0x40 = false := by decide

theorem wit_LaunchSteps_complete_mem : (ended 64 1 0x200000000007).memOk ∧ (ended 0 1 7).memOk := by unfold State.memOk; decide

/-- A record of slice 0 on die 0. -/
def rec0 : SliceRec := SliceRec.new 0 0 [] (some 0) none

/-- Kernel 0 on die 0 with slice records, walker and configuration. -/
def placing (rs : List SliceRec) : State := { State.reset with
  kernels := [(0, kernel0 .mailbox (some 0))], dies := [(0, { Die.reset with recs := rs, next := [(0, (0, none))] })] }

theorem wit_SchedulerSteps_publish :
    Sparse.find? ((placing []).die 0).next 0 = some (0, none) ∧ 0 < sliceCount goodRecord ∧ (placing []).frozenPower = false ∧ (placing []).awake (512 + 0) = true ∧ ((placing []).die 0).back = [] ∧
    ((((placing []).die 0).recs.filter (·.fresh)).length < 1024) ∧
    (placing [rec0]).ranked 0 = [rec0] ∧ ((placing [rec0]).fit 0 rec0).isSome = true ∧ ((placing [rec0]).die 0).reserve = none := by decide

/-- A slice that left a core of die 0, with a context record there, and die 1 with nothing to run. -/
theorem wit_SchedulerSteps_resume_away :
    let r := { rec0 with ctx := [(0, 0)] }
    let s := placing [r]
    s.recFor 0 0 0 = some r ∧ r.ready = true ∧ r.ctx ≠ [] ∧ 1 ∈ replicaDies goodRecord ∧ s.ranked 1 = [] ∧ (s.fit 1 r).isSome = true ∧ s.frozenPower = false := by
  decide

theorem wit_SchedulerSteps_start :
    let r := { rec0 with st := .started, bound := [0] }
    (placing [r]).recFor 0 0 0 = some r ∧ (placing [r]).mayStart r = true ∧ r.ctx = [] ∧ r.stageErr = none ∧ r.restored = false ∧ r.bound.Nodup ∧
    (placing [{ r with ctx := [(0, 0)] }]).mayStart { r with ctx := [(0, 0)] } = true := by decide

theorem wit_SchedulerSteps_aged :
    let s : State := { placing [rec0] with ns := 10000001 }
    s.recFor 0 0 0 = some rec0 ∧ rec0.readySince = some 0 ∧ rec0.ready = true ∧ rec0.aged = none ∧
    0 + bitsOf (s.die 0).cfg.schedcfg 32 16 * 1000000 < s.ns ∧ recDeadline goodRecord = 0 := by decide

/-- Die 0 with every core running a slice of kernel 0 but one rank 0 in reach. -/
theorem wit_SchedulerSteps_preempt :
    let r := { rec0 with slice := 1, aged := some 0 }
    let busy : Sparse Core := (List.range 32).map (fun i => (i, { Core.reset with run := some { run0 false with rank := if i = 0 then 0 else 1 } }))
    let s : State := { placing [r] with cores := busy, dies := [(0, { Die.reset with recs := [r], cfg := { DieCfg.reset with ctxsize := 4 } })] }
    s.recFor 0 0 1 = some r ∧ s.fit 0 r = none ∧ s.ctxFree 0 = true ∧
    (s.runningOn 0).filter (fun p => (s.quadsOf 0 r).contains (p.1 / 4 % 8)) = [(0, run0 false)] ∧ r.aged.isSome = true := by decide

/-- A straggler on die 0 for kernel id 0, and die 1 idle beside it. -/
theorem wit_SchedulerSteps_steal :
    let g : Strag := { Strag.zero with victims := [(3, (0, 0))] }
    let s : State := { placing [rec0] with masks := [(0, ⟨none, [], g⟩)] }
    s.victimFor 0 (recKid goodRecord) = true ∧ nearStacks (1 / 4) (0 / 4) = true ∧ 1 ∈ replicaDies goodRecord ∧ s.stealOn 1 = true ∧ s.stealOn 0 = true ∧
    s.idleDie 1 = true ∧ rec0 ∈ (s.die 0).recs ∧ rec0.fresh = true ∧ rec0.bound = [] := by decide

theorem wit_SchedulerSteps_mail :
    let r := { rec0 with st := .offered 1 0 9 }
    let s : State := { placing [r] with mail := [⟨1, 0, 0, 0, .accept 9⟩], ns := 20000 }
    s.mail[0]? = some ⟨1, 0, 0, 0, .accept 9⟩ ∧ s.awake (512 + 0) = true ∧ s.recFor 0 0 0 = some r ∧ r.st = .offered 1 0 9 ∧ 0 + 20000 ≤ s.ns ∧
    s.mail.take 0 = [] ∧ ((s.die 1).recs.filter (·.fresh)).length < 1024 := by decide

theorem wit_CoreSteps_fetch :
    let s := core0 (fun k => { k with fetching := some 0x1000, tlb := [⟨0, false, 0x7⟩] })
    (s.core 0).fetching = some 0x1000 ∧ (s.codeLine 0 0x1000).isSome = true ∧ (placed.core 0).landsNow = false := by decide

/-- A load of 8 bytes at 0x40 that has the bytes `own`. -/
def load8 (own : List (Option Byte)) : GLoad := ⟨[(1, 0)], 0x40, 0x40, 8, false, false, own, 0, false, false, 0, 0, false, false⟩

/-- Core 0 with such a load on its way and a fabric stream. -/
def loading (own : List (Option Byte)) : State := core0 (fun k => { k with gloads := [load8 own], q := [(0, ⟨desc0 3 2 (2 * 2 ^ 60), false, 0⟩)] })

theorem wit_CoreSteps_load :
    let g := load8 (List.replicate 8 none)
    let s := loading (List.replicate 8 none)
    (s.core 0).gloads[0]? = some g ∧ (s.core 0).nloads = [] ∧ s.reaches g.pa = true ∧ g.after ≤ (s.core 0).cycle ∧ g.dests = [(1, 0)] ∧ g.latched = false ∧ g.device = false ∧ g.ue = false ∧
    g.own.length = g.size ∧ (∀ i, i < g.size → s.readFails (g.pa + i) = false) ∧ ((loading []).core 0).gloads = [load8 []] ∧ (load8 []).dests ≠ [] ∧
    ({ loading [] with poison := [0x40] } : State).poisoned (load8 []).pa = true ∧ Sparse.find? (s.core 0).q 0 = some ⟨desc0 3 2 (2 * 2 ^ 60), false, 0⟩ ∧
    Desc.fabric (desc0 3 2 (2 * 2 ^ 60)) = true ∧ Desc.writes (desc0 3 2 (2 * 2 ^ 60)) = false := by decide

/-- A page table that maps the 64 KiB unit 0 to itself, at PTROOT 0x2000. -/
def tabled : State := { core0 (fun k => { k with misses := [0, 1] }) with
  walkers := [(0, (0, [(0, 0), (0, 1)]))]
  xregs := { XlatRegs.reset with ptroot := 0x2000 }
  mem := Mem.writes (Mem.writes (Mem.writes (Mem.writes [] 0x2000 (leBytes 8 0x4001)) 0x4000 (leBytes 8 0x5001)) 0x5000 (leBytes 8 0x10001)) 0x10000
    (leBytes 8 0x7) }

theorem wit_CoreSteps_walk : tabled.walk (signVa (0 * 0x10000)) = .leaf 0x7 false ∧ tabled.walk (signVa (1 * 0x10000)) = .fault ∧
    0 ∈ (tabled.core 0).misses ∧ 1 ∈ (tabled.core 0).misses ∧ (0, 0) ∈ (Sparse.get tabled.walkers (0, []) 0).2 ∧
    (0, 1) ∈ (Sparse.get tabled.walkers (0, []) 0).2 := by decide

/-- Core 0 at the barrier of a SYNC bundle. -/
def syncing (m : BitVec 3) : State := core0 (fun k => { k with
  atSync := true, grp := { k.grp with active := true, bundles := [⟨0, 2, ⟨false, false, m, true, 0⟩, []⟩] } })

theorem wit_CoreSteps_barrier :
    let here (s : State) (i : Nat) : Bool := decide (i = 0) || (Sparse.find? (s.maskRec (maskKey 0 2)).arr i).isSome
    let k := (syncing 1).core 0
    ({ syncing 2 with masks := [(maskKey 0 2, ⟨some 2, [], Strag.zero⟩)] } : State).takesPart 0 2 = false ∧ k.bundle.hdr.sync.toNat = 1 ∧ k.atSync = true ∧
    k.run = some (run0 false) ∧ 0 ∈ (syncing 1).members 0 0 ∧ k.reached = none ∧ k.allLanded = true ∧ k.grp.active = true ∧
    (∀ c, c ∈ (syncing 1).members 0 0 → c ≠ 0 → ((syncing 1).core c).reached = some 1) ∧ (syncing 2).takesPart 0 2 = true ∧
    here (syncing 2) 1 = false ∧ ((syncing 2).maskFor 0 2).getLsbD 1 = true ∧
    (∀ i, i < 32 → (({ syncing 2 with masks := [(maskKey 0 2, ⟨some 1, [], Strag.zero⟩)] } : State).maskFor 0 2).getLsbD i = true → here (syncing 2) i = true) := by
  decide

/-- A gang of two of which the other member has not come. -/
theorem wit_CoreSteps_gang_barrier :
    let s := (syncing 1).modCore 1 (fun k => { k with run := some { run0 false with rank := 1, width := 2 } })
    1 ∈ s.members 0 0 ∧ (s.core 1).reached ≠ some 1 := by decide

theorem wit_CoreSteps_reply :
    let r : Reply := ⟨⟨0, 0, 0, 0⟩, [(1, 5)], none, false⟩
    let s : State := { core0 id with replies := [r] }
    s.replies[0]? = some r ∧ s.coreOf r.who = some 0 ∧ (s.core 0).resuming = false := by decide

/-- An image of the restart shadow, with a journal of one range or none. -/
def image0 (journal : Option (List (Nat × List Byte))) : Image := ⟨0, 0, 0, 0, [], Regs.zero, [], [], [], 0, 0, 0, journal, 0, 0, false, false⟩

theorem wit_CoreSteps_images :
    let s (j : Option (List (Nat × List Byte))) := core0 (fun k => { k with images := [image0 j] })
    ((s none).core 0).images = [image0 none] ∧ (image0 none).loads = [] ∧ (image0 none).ready ≤ ((s none).core 0).cycle ∧ (image0 none).journal = none ∧
    ((s (some [(0, List.replicate 64 0)])).core 0).images = [image0 (some [(0, List.replicate 64 0)])] ∧
    Sparse.get (s none).spares 0 0 + 1 ≤ 32 := by decide

/-- A worn journal block with no spare left. -/
theorem wit_CoreSteps_journal_fails :
    (({ State.reset with spares := [(0, 32)], wear := [(journalBlock 0 0, Config.fuse 4)] } : State).mramWriteAll 0 [journalBlock 0 0]).2 = false := by
  simp [State.mramWriteAll, State.mramWrite, Sparse.get, Sparse.find?]

/-- Core 0 whose kernel has a budget of one issue, at the end of it. -/
theorem wit_CoreSteps_budget :
    let s : State := { core0 (fun k => { k with issued := 1, landing := true, trap := { k.trap with allow := 1 }, run := some { run0 false with budgetMark := true } }) with
      kernels := [(0, { handled with record := BitVec.ofNat 2048 (2 ^ 320) })] }
    recBudget (s.recOf 0) ≠ 0 ∧ (s.core 0).trap.allow.toNat ≤ (s.core 0).issued ∧ (run0 false).marked ≠ some 1 ∧ (s.core 0).landsNow = true := by decide

theorem wit_CoreSteps_leave :
    let run := { run0 false with leave := some Leave.preempt }
    let y := { rec0 with st := .started, bound := [0] }
    let s : State := { placing [y] with cores := [(0, { Core.reset with run := some run, wait := { Wait.none with since := some 0 } })], ns := 50001, dies := [(0, { Die.reset with recs := [y], cfg := { DieCfg.reset with ctxsize := 4 } })] }
    s.mayWriteRecord 0 run y = true ∧ (s.die 0).recs.find? (fun x => x.kernel == 0 && x.slice == 0 && x.st == .started) = some y ∧
    0 ∈ s.members 0 0 ∧ 0 + 1000 * bitsOf (s.die 0).cfg.schedcfg 16 16 < s.ns ∧ (s.core 0).wait.since = some 0 ∧
    s.mayWriteRecord 0 { run with width := 2 } y = true ∧ y.ctx.length + 1 < 2 := by decide

/-- A core held at a barrier, and one with a budget, each in a state that may leave. -/
theorem wit_CoreSteps_yield :
    let s : State := { (syncing 2).modCore 0 (fun k => { k with wait := { Wait.none with since := some 0 }, reached := some 2 }) with
      ns := 50001, dies := [(0, { Die.reset with cfg := { DieCfg.reset with ctxsize := 4 } })] }
    (s.core 0).run = some (run0 false) ∧ (run0 false).leave = none ∧ (s.core 0).wait.since = some 0 ∧ 0 + 1000 * bitsOf (s.die 0).cfg.schedcfg 16 16 < s.ns ∧
    s.ctxFree 0 = true ∧ (s.core 0).reached = some 2 ∧ (s.core 0).wait.answer = none := by decide
/-! ## Hypotheses met: engines at work, objects, registers, islands, power, commands -/

/-- A copy of 8 bytes from 0x1000 to 0x1040 that reports nothing (CKIND 3), or to a ring. -/
def copyBlock (kind caddr reps : Nat) : BitVec 1024 :=
  BitVec.ofNat 1024 (0x1000 + 8 * 2 ^ 64 + 0x1040 * 2 ^ 256 + 8 * 2 ^ 320 + caddr * 2 ^ 512 + kind * 2 ^ 576 + reps * 2 ^ 768)

def copyCmd (st : CmdSt) (kind caddr reps : Nat) : BteCmd := ⟨0, 0, .one, copyBlock kind caddr reps, ⟨0, 0, 0, 0⟩, some 1, .program, st, 0, 0, 0, 0, []⟩

/-- Two slots, the first empty. -/
def ring2 (t : RTag) : Ring := ⟨8, [⟨t, 0, none⟩, ⟨.empty, 0, none⟩], 0, 0, none, false, none, []⟩

/-- Die 0 with commands, unit 0 in its L2 TLB, objects at 0x2000. -/
def copying (cs : List BteCmd) (os : Sparse ObjRec) : State := { State.reset with
  cmds := cs, objs := os, dies := [(0, { Die.reset with l2tlb := [⟨0, false, 0x7⟩] })] }

theorem wit_CopyEngineSteps_start :
    let c := copyCmd .queued 3 0 0
    let s := copying [c] []
    s.nextCmd 0 = some c ∧ s.running 0 = 0 ∧ s.releasedFor c.who c.after = true ∧ c.role = .program ∧ (s.blockCheck c).toOption = some [] ∧ c.ckind = 3 ∧
    (copying [{ c with role := .stage 0 0 }] []).nextCmd 0 = some { c with role := .stage 0 0 } := by decide

theorem wit_CopyEngineSteps_start_ring :
    let s (c : BteCmd) := copying [c] [(0x2000, ⟨.ring (ring2 .empty), false⟩)]
    let c := copyCmd .queued 1 0x2000 0
    let w := copyCmd .queued 2 0x2000 1
    ((s c).blockCheck c).toOption = some [] ∧ c.ckind = 1 ∧ (s c).cmdRing c = some 0x2000 ∧
    ((s w).blockCheck w).toOption = some [] ∧ w.ckind = 2 ∧ (s w).cmdRing w = some 0x2000 ∧ (s w).ring? 0x2000 = some (ring2 .empty) ∧ (ring2 .empty).poison = none ∧
    ((copying [c] []).blockCheck c).toOption = some [] ∧ (copying [c] []).cmdRing c = none ∧
    ((copying [copyCmd .queued 0 0x2001 0] []).blockCheck (copyCmd .queued 0 0x2001 0)).toOption = none := by decide

theorem wit_CopyEngineSteps_walk :
    let w := copyCmd .walking 2 0x2000 1
    let s (p : Option (Nat × Byte)) := copying [w] [(0x2000, ⟨.ring { ring2 .empty with poison := p }, false⟩)]
    (s none).cmd? 0 = some w ∧ (s none).cmdRing w = some 0x2000 ∧ (s none).running 0 = 0 ∧ ((ring2 .empty).slotAt (ring2 .empty).pnext).tag = .empty ∧
    (s (some (1, 2))).cmdRing w = some 0x2000 := by decide

theorem wit_CopyEngineSteps_copy :
    let c := copyCmd .running 3 0 0
    let s := copying [c] []
    s.cmd? 0 = some c ∧ (∃ s1 e n, s.copyPairs 0 0 (s.repPairs c) = (s1, e, n)) ∧ c.who.kernel = 0 ∧ c.die = 0 ∧
    ({ c with role := .stage 0 0 } : BteCmd).role = .stage 0 0 := ⟨rfl, ⟨_, _, _, rfl⟩, rfl, rfl, rfl⟩

/-- A copy that ends well with a completion word at 0x2000, with a delivery to the phaser of the word at 0x2030, with a credit, or badly. -/
theorem wit_CopyEngineSteps_report :
    let c (kind caddr : Nat) := copyCmd .running kind caddr 0
    let s (k : Nat) (os : Sparse ObjRec) := copying [c k 0x2000] os
    let u (t : State) (k caddr : Nat) : State := (t.noteAddrs 0 ((c k caddr).repAddrs.flatMap (fun p => [p.1, p.2]))).noteAddrs 0 [(c k caddr).caddr]
    ((s 0 []).copyPairs 0 0 ((s 0 []).repPairs (c 0 0x2000))).2.1 = 0 ∧
    ((u (s 0 []) 0 0x2000).reportAddr 0 0x2000 false).toOption = some 0x2000 ∧ 0x2000 % 4096 ≠ 48 ∧
    (∀ j, j < 16 → (s 0 []).unbacked (0x2000 + j) = false ∧ unstated (0x2000 + j) = false) ∧ (s 0 []).frozen = [] ∧
    ((u (copying [c 0 0x2030] []) 0 0x2030).reportAddr 0 0x2030 false).toOption = some 0x2030 ∧ 0x2030 % 4096 = 48 ∧
    ((u (s 1 [(0x2000, ⟨.ring (ring2 .filling), false⟩)]) 1 0x2000).cmdRing (c 1 0x2000)) = some 0x2000 ∧ ((u (s 1 []) 1 0x2000).cmdRing (c 1 0x2000)) = none := by decide

/-- A copy whose one pair is in error. -/
theorem wit_CopyEngineSteps_failing (s : State) : ∃ s1 e n, s.copyPairs 0 0 [(.error eFaultSrc, [])] = (s1, e, n) ∧ e ≠ 0 := by
  refine ⟨_, _, _, rfl, ?_⟩
  show nth eFaultSrc [eFaultSrc] (Config.freeNat s.free % 1) ≠ 0
  rw [Nat.mod_one]; decide

theorem wit_CopyEngineSteps_mem : (copying [copyCmd .running 0 0x2000 0] []).memOk := by unfold State.memOk; decide

/-- A message with no sender to a sequence at 0x40, its die awake or not. -/
theorem wit_SyncEngineSteps_message :
    let s : State := { State.reset with msgs := [toWord], about := { State.reset.about with picks := [0] } }
    s.about.picks = [0] ∧ s.msgs[0]? = some toWord ∧ s.mayArrive [0] = true ∧ s.engineAwake toWord.engine = true ∧ s.cycleLeft toWord.engine 0 = true ∧
    ({ s with islands := [(512, ⟨.idle, 0, none, false⟩)] } : State).engineAwake toWord.engine = false := by decide

/-- Phaser with one member that waits and signals. -/
def phaser1 (m : Member) : Phaser := ⟨3, 0, 0, [(0, m)], .mod, 0, none, [], [], Strag.zero⟩
def both1 : Member := ⟨2, false, false, none, false, false⟩

theorem wit_SyncEngineSteps_waits :
    let m : SyncMsg := { toWord with op := .wmon true .eq 0 false, expiry := some 5 }
    let s : State := { State.reset with ns := 5, monitors := [m], objs := [(0, ⟨.phaser { phaser1 both1 with waits := [({ m with op := .phwait 0 }, 4)] }, false⟩)] }
    s.monitors[0]? = some m ∧ m.expiry = some 5 ∧ m.op = .wmon true .eq 0 false ∧
    s.phaser? 0 = some { phaser1 both1 with waits := [({ m with op := .phwait 0 }, 4)] } := by decide

/-- A wait for a phaser of module 1, to which no route is left. -/
theorem wit_SyncEngineSteps_stranded :
    let m : SyncMsg := { toWord with engine := 64, op := .phwait 0, expiry := some 5 }
    let s : State := { State.reset with ns := 5, msgs := [m], noRoute := [1], about := { State.reset.about with flag := true } }
    s.msgs[0]? = some m ∧ s.stranded m = true ∧ m.expiry = some 5 ∧ m.op = .phwait 0 ∧ s.lostRoute m.engine = true ∧ s.lostRoute 0 = false := by decide

/-- A sequence of 64 pages of 1024 slots of 64 bytes, 8 positions of it committed. -/
def seq0 : Seq := ⟨0x2000, 0, 0, 64, 1, 0, false, false, 0, 16, 8, 0, none, [], []⟩

theorem wit_SequenceAndAttentionSteps_copies :
    let f := { copyCmd .running 0 0 0 with role := .flatten 7 }
    let t : TierCmd := ⟨9, toWord, 0x40, 0, 1, 0⟩
    let c := { copyCmd .running 0 0 0 with role := .tier 9 }
    let s := { copying [f] [] with flats := [(7, ⟨0, 0, 0x40, toWord, false, []⟩)] }
    s.cmd? 0 = some f ∧ Sparse.find? s.flats 7 = some ⟨0, 0, 0x40, toWord, false, []⟩ ∧
    ({ s with tiers := [t] } : State).tiers.find? (fun x => x.id == 9) = some t ∧
    ({ copying [c] [] with tiers := [{ t with op := 0 }] } : State).cmds.find? (fun x => x.role == .tier 9) = some c := by decide

/-- A sequence that something else holds too, at 0x40, with a copy of its page or its flattening at work. -/
def tiering (role : CopyRole) (op : Nat) : State := { copying [{ copyCmd .running 0 0 0 with role := role }] [(0x40, ⟨.seq { seq0 with refs := 2 }, false⟩)] with
  flats := [(7, ⟨0x40, 0, 0x80, toWord, false, []⟩)], tiers := [⟨9, { toWord with who := some ⟨0, 0, 0, 0⟩ }, 0x40, 0, op, 0x100000⟩] }

theorem wit_SequenceAndAttentionSteps_tiers :
    let s := tiering (.tier 9) 0
    s.seq? 0x40 = some { seq0 with refs := 2 } ∧ 1 < ({ seq0 with refs := 2 } : Seq).refs ∧ (0x40 : Nat) ≠ 7 ∧
    (s.tiers.find? (fun x => x.id == 9)).map (·.op) = some 0 ∧ ((tiering (.tier 9) 2).tiers.find? (fun x => x.id == 9)).map (·.op) = some 2 ∧
    (s.tiers.find? (fun x => x.id == 9)).bind (fun t => t.msg.who) = some ⟨0, 0, 0, 0⟩ ∧
    (tiering (.flatten 7) 0).seq? 0x40 = some { seq0 with refs := 2 } := by decide

theorem wit_SequenceAndAttentionSteps_moved :
    ∃ s1 e n, (tiering (.tier 9) 0).copyPairs 0 0 [(.ok 0x1000, [.ok 0x2000])] = (s1, e, n) ∧ e = 0 := ⟨_, _, _, rfl, by decide⟩

/-- A request for positions 0 to 7 of the sequence at 0x2000, f32 queries and outputs, e4m3 rows of 64 elements. -/
def attn0 (extra : Nat) (run : Bool) (hold : Option Nat) : AttnReq := ⟨4, ⟨0, 0, 0, 0⟩, some 1,
  BitVec.ofNat 1024 (0x2000 + 8 * 2 ^ 96 + 0x100 * 2 ^ 192 + 8 * 2 ^ 456 + 5 * 2 ^ 460 + 5 * 2 ^ 480 + 8 * 2 ^ 640 + extra), run, hold, 0, 0⟩

theorem wit_SequenceAndAttentionSteps_attention :
    let q := attn0 0 false none
    let s (q : AttnReq) := { copying [] [(0x2000, ⟨.seq seq0, false⟩)] with attns := [q] }
    (s q).attns.filter (fun y => quadOf y.who.core == 0) = [q] ∧ q.running = false ∧ (s q).releasedFor q.who q.after = true ∧ q.badArg = false ∧ ((s q).attnSeq q).toOption = some (0x2000, seq0) ∧
    (s q).attnCheck q 0x2000 seq0 = 0 ∧ (s q).attnCheck (attn0 (8 * 2 ^ 96) false none) 0x2000 seq0 ≠ 0 ∧
    (({ copying [] [] with attns := [q] } : State).attnSeq q).toOption = none ∧ (attn0 (2 ^ 704) false none).badArg = true ∧
    (s (attn0 0 true (some 0x2000))).attns.find? (fun y => quadOf y.who.core == 0 && y.running) = some (attn0 0 true (some 0x2000)) ∧
    (s q).seq? 0x2000 = some seq0 := by decide

theorem wit_SyncObjectRules_ring :
    let r (t : RTag) (d : Nat) : Ring := ⟨8, [⟨t, d, none⟩], 0, 0, none, false, none, []⟩
    (r .empty 0).slots[(r .empty 0).pnext]? = some ⟨.empty, 0, none⟩ ∧ (r .full 8).slots[(r .full 8).pnext]? = some ⟨.full, 8, none⟩ ∧
    (r .filling 4).slots[0]? = some ⟨.filling, 4, none⟩ ∧ 4 + 3 < (r .filling 4).expect ∧ 4 + 4 = (r .filling 4).expect ∧ (r .filling 4).expect < 4 + 5 ∧
    (r .filling 4).poison = none ∧ ({ r .filling 4 with poison := some (1, 1) } : Ring).poison ≠ none := by decide

theorem wit_SyncObjectRules_phaser : both1.arrived = false ∧ both1.pending = false ∧ ({ both1 with arrived := true } : Member).early = false ∧
    ({ both1 with pending := true, early := true } : Member).early = true := by decide

theorem wit_SyncObjectRules_reserve :
    let s := copying [] [(0x40, ⟨.seq seq0, false⟩)]
    let q (r : Nat) := { seq0 with rlen := r }
    paModule toWord.addr = s.modid ∧ s.seq? toWord.addr = some seq0 ∧ s.poisoned toWord.addr = false ∧ seq0.released = false ∧
    256 < (257 : Word).toNat ∧ 0 < (256 : Word).toNat ∧ (256 : Word).toNat ≤ 256 ∧ 256 < (q 9).rlen - (q 9).clen + (256 : Word).toNat ∧
    (q 8).rlen - (q 8).clen + (256 : Word).toNat ≤ 256 ∧ ({ q 8 with npages := 0 } : Seq).capacity < (q 8).rlen + (256 : Word).toNat ∧
    (q 8).rlen + (256 : Word).toNat ≤ (q 8).capacity := by decide

theorem wit_ModuleSteps_registers :
    State.reset.answers = true ∧ State.reset.mss.mbcmd.getLsbD 63 = false ∧ (0x8000000000000001 : Word).getLsbD 63 = true ∧
    1 ≤ (0x8000000000000001 : Word).toNat % 256 ∧ (0x800000000000000C : Word).toNat % 256 ≤ 12 ∧ State.reset.xregs.busy = false ∧
    State.reset.holdsTranslations = false ∧ (0x10020 + 0x40 * 63 : Nat) = 0x10FE0 := by decide

/-- A page fault of core 0's slice that the host has been told. -/
theorem wit_ModuleSteps_faults :
    let f : FaultRec := ⟨7, 0, 0, 0, 0, 0x40000, true⟩
    let s : State := { core0 (fun k => { k with run := some { run0 false with leave := some (.pageFault 7) } }) with faults := [f] }
    s.faults.find? (fun g => g.token == (7 : Word).setWidth 32 && g.written && s.waitsFor g) = some f ∧
    s.faults.find? (fun g => g.token == (8 : Word).setWidth 32 && g.written && s.waitsFor g) = none ∧ (7 : Word).getLsbD 32 = false ∧ 0 ∈ s.members 0 0 ∧
    (s.core 0).run = some { run0 false with leave := some (.pageFault 7) } ∧ s.answers = true ∧ s.hostUp = true := by decide

theorem wit_ModuleSteps_tlb :
    let e : TlbEntry := ⟨5, false, 0x7⟩
    (5 * 2 ^ 16 : Word).toNat / 2 ^ 16 % 2 ^ 41 = e.unit ∧ e.big = false ∧ e.unit < (6 * 2 ^ 16 : Word).toNat / 2 ^ 16 % 2 ^ 41 ∧
    (3 * 2 ^ 16 + 1 : Word).toNat / 2 ^ 16 % 2 ^ 41 + (3 * 2 ^ 16 + 1 : Word).toNat % 2 ^ 16 < e.unit ∧ (5 * 2 ^ 16 : Word).getLsbD 63 = false := by decide

theorem wit_ModuleSteps_scrub : Config.fuse 5 ≤ Config.fuse 5 ∧ 40959 ∉ State.reset.lost ∧ 40959 ∉ State.reset.bch ∧
    (36864 ∈ ({ State.reset with bch := [36864] } : State).bch) ∧ 36863 ∈ ({ State.reset with bch := [36863] } : State).bch :=
  ⟨Nat.le_refl _, by decide, by decide, by decide, by decide⟩

theorem wit_ModuleSteps_islands :
    let s (i : Nat) (x : Island) : State := { State.reset with islands := [(i, x)], ns := 300000 }
    let i := (s 511 ⟨.idle, 0, none, false⟩).island 511
    ((s 0 ⟨.run, 0, some (.off, 5), false⟩).island 0).going = some (.off, 5) ∧ State.reset.awake 511 = true ∧ State.reset.quadTaken 511 = false ∧
    i.st = .idle ∧ i.going = none ∧ (State.reset.die (islandDie 511)).cfg.evtcfg.toNat % 2 ^ 16 ≠ 0xFFFF ∧
    i.since + 1000 * ((State.reset.die (islandDie 511)).cfg.evtcfg.toNat % 2 ^ 16) ≤ 300000 ∧ (s 511 ⟨.idle, 0, none, false⟩).mayLower 511 = true ∧
    (s 639 ⟨.idle, 0, none, false⟩).mayLower 639 = true := by decide

theorem wit_ModuleSteps_islands_off :
    let s (i : Nat) : State := { State.reset with islands := [(i, ⟨.retain, 0, none, false⟩)], ns := 300000 }
    let us := (State.reset.die 0).cfg.evtcfg.toNat / 2 ^ 16 % 2 ^ 16
    ((s 0).island 0).st = .retain ∧ us ≠ 0xFFFF ∧ 0 + 1000 * us ≤ (s 0).ns ∧ (s 0).mayLower 0 = true ∧ (s 639).mayLower 639 = true ∧
    (State.reset.die 0).cfg.evtcfg.toNat / 2 ^ 32 % 2 = 0 ∧ ((s 639).die (islandDie 639)).cfg.evtcfg.toNat / 2 ^ 32 % 2 = 0 := by decide

theorem wit_ModuleSteps_uncore :
    let off (i : Nat) : Nat × Island := (i, ⟨.off, 0, none, false⟩)
    let s : State := { State.reset with islands := (List.range 8).map off }
    s.awake 512 = true ∧ s.uncoreBusy 0 = false ∧
    (let s : State := { State.reset with islands := (List.range 4).map (fun c => off (512 + 60 + c)) }
     s.awake 639 = true ∧ ∀ c, c < 4 → (s.island (512 + ((639 - 576) / 4 * 4 + c))).st ≠ .run) := by decide

theorem wit_ModuleSteps_power :
    State.reset.frozenPower = false ∧ State.reset.mss.boot ≠ .deepOff ∧ ({ State.reset with frozenPower := true } : State).frozenPower = true ∧
    State.reset.memOk ∧ rangeOf 0x100000000000 = .mram ∧ rangeOf 0x100200000000 = .tile ∧ rangeOf 0 = .dram ∧
    ({ State.reset with mss := { State.reset.mss with boot := .deepOff } } : State).mss.boot = .deepOff ∧
    ({ State.reset with mss := { State.reset.mss with boot := .booting } } : State).mss.boot = .booting :=
  ⟨by decide, by decide, by decide, ⟨by decide, by decide⟩, by decide, by decide, by decide, rfl, rfl⟩
/-! ## Hypotheses met: the mailbox, the Cuff, attestation, links -/

/-- The module with command `code` in the mailbox and its argument bytes. -/
def cmd0 (code : Nat) (buf : Sparse Byte) (f : Mss → Mss) : State := { State.reset with
  mss := f { State.reset.mss with mbcmd := BitVec.ofNat 64 (2 ^ 63 + code), boot := .running, exporting := none, buf := buf } }

theorem wit_MailboxCommands_commanded (c : Nat) (b : Sparse Byte) : Commanded (cmd0 c b id) c := ⟨rfl, rfl, rfl⟩

theorem wit_MailboxCommands_minimal :
    let s := cmd0 12 [] (fun m => { m with boot := .minimal 1 })
    s.mss.boot = .minimal 1 ∧ s.mss.exporting = none ∧ s.mss.mbcmd = BitVec.ofNat 64 (2 ^ 63 + 12) ∧
    ((12, Instr.deepOff) : Nat × Instr) ∈ [(1, Instr.restore), (12, .deepOff)] := by decide

theorem wit_MailboxCommands_restore :
    State.reset.mss.restorePending = false ∧
    (let s : State := { cmd0 1 [] (fun m => { m with restorePending := true }) with saved := some ⟨[], [], [], []⟩ }
     s.saved = some ⟨[], [], [], []⟩ ∧ s.mss.restorePending = true ∧ Commanded s 1) := ⟨rfl, rfl, rfl, rfl, rfl, rfl⟩

/-- An established session of id 5, and a buffer that proves it over its first `n` bytes. -/
def session5 : Spdm := ⟨5, 1, true, 0⟩
def signedBuf (base : Sparse Byte) (n : Nat) : Sparse Byte :=
  Mem.writes base n (hmac384 (hkdfExpand (beBytes 48 session5.ems.toNat) brxCmd 48) (Mem.reads base 0 n))
def proving (code : Nat) (base : Sparse Byte) (n : Nat) : State :=
  cmd0 code (signedBuf base n) (fun m => { m with sessions := [session5] })

theorem reads_writes_self (m : Sparse Byte) (a : Nat) (bs : List Byte) (h : Memory.wf m = true) : Mem.reads (Mem.writes m a bs) a bs.length = bs := by
  induction bs generalizing m a with
  | nil => rfl
  | cons b bs ih =>
    have hw := Mem.write_wf m a b h
    have h0 : Mem.read (Mem.writes (Mem.write m a b) (a + 1) bs) a = b := by
      rw [Mem.read_writes _ _ _ _ hw (Or.inl (by omega)), Mem.read_write m a a b h, if_pos rfl]
    have h1 := ih (Mem.write m a b) (a + 1) hw
    unfold Mem.reads at h1 ⊢
    simp only [Mem.writes, List.length_cons, List.range_succ_eq_map, List.map_cons, List.map_map, Nat.add_zero, h0]
    congr 1
    refine Eq.trans (List.map_congr_left ?_) h1
    intro k _
    simp only [Function.comp, Nat.succ_eq_add_one]
    congr 1; omega

theorem reads_writes_below (m : Sparse Byte) (a c n : Nat) (bs : List Byte) (h : Memory.wf m = true) (hc : c + n ≤ a) :
    Mem.reads (Mem.writes m a bs) c n = Mem.reads m c n := by
  unfold Mem.reads
  refine List.map_congr_left ?_
  intro k hk
  have := List.mem_range.1 hk
  exact Mem.read_writes m a (c + k) bs h (Or.inl (by omega))

theorem setNth_length {α : Type} (l : List α) (n : Nat) (x : α) : (setNth l n x).length = l.length := by
  induction l generalizing n with
  | nil => rfl
  | cons y l ih => cases n with
    | zero => rfl
    | succ n => exact congrArg Nat.succ (ih n)

theorem shaStep_length (v : List Word) (w : Word) (h : v.length = 8) : (shaStep v w).length = 8 := by
  simp [shaStep, setNth_length, h]

theorem shaAbsorb_length (c : List Nat) (h : List Word) (b : List Byte) (h8 : h.length = 8) : (shaAbsorb c h b).length = 8 := by
  have steps (ws : List Word) : ∀ v : List Word, v.length = 8 → (ws.foldl shaStep v).length = 8 := by
    induction ws with
    | nil => exact fun _ hv => hv
    | cons w ws ih => exact fun v hv => ih _ (shaStep_length v w hv)
  simp [shaAbsorb, h8, steps]

theorem shaWords_length (ws : List Word) : (ws.flatMap (fun w => beBytes 8 w.toNat)).length = 8 * ws.length := by
  have one (w : Word) : (beBytes 8 w.toNat).length = 8 := by simp [beBytes, leBytes]
  induction ws with
  | nil => rfl
  | cons w ws ih => rw [List.flatMap_cons, List.length_append, ih, one, List.length_cons]; omega

theorem sha384_length (b : List Byte) : (sha384 b).length = 48 := by
  have blocks (f : Nat → List Byte) (c : List Nat) (is : List Nat) : ∀ h : List Word, h.length = 8 →
      (is.foldl (fun h i => shaAbsorb c h (f i)) h).length = 8 := by
    induction is with
    | nil => exact fun _ hh => hh
    | cons i is ih => exact fun h hh => ih _ (shaAbsorb_length c h (f i) hh)
  have seed : (shaSeed.map (BitVec.ofNat 64)).length = 8 := by decide
  unfold sha384
  simp only [List.length_take, shaWords_length]
  rw [blocks (fun i => ((shaFill b).drop (128 * i)).take 128) shaConstants _ _ seed]
  rfl

/-- What a proving buffer proves, and what its first bytes read as. -/
theorem proving_proven (code : Nat) (base : Sparse Byte) (n : Nat) (hw : Memory.wf base = true) (h4 : 4 ≤ n)
    (h5 : leNat (Mem.reads base 0 4) = 5) : (proving code base n).proven n = some session5 := by
  have hr : Mem.reads (signedBuf base n) 0 n = Mem.reads base 0 n := reads_writes_below _ _ _ _ _ hw (by omega)
  have ha : (proving code base n).arg 0 4 = 5 := by
    show leNat (Mem.reads (signedBuf base n) 0 4) = 5
    rw [signedBuf, reads_writes_below _ _ _ _ _ hw (by omega), h5]
  have hh : Mem.reads (signedBuf base n) n 48 = hmac384 (hkdfExpand (beBytes 48 session5.ems.toNat) brxCmd 48) (Mem.reads base 0 n) := by
    have hl : (hmac384 (hkdfExpand (beBytes 48 session5.ems.toNat) brxCmd 48) (Mem.reads base 0 n)).length = 48 := sha384_length _
    have h2 := reads_writes_self base n (hmac384 (hkdfExpand (beBytes 48 session5.ems.toNat) brxCmd 48) (Mem.reads base 0 n)) hw
    rw [hl] at h2
    exact h2
  have hf : (proving code base n).mss.sessions.find? (fun x => x.established && x.id.toNat == (proving code base n).arg 0 4) = some session5 := by
    rw [ha]; rfl
  unfold State.proven
  rw [hf]
  show (if hmac384 _ (Mem.reads (signedBuf base n) 0 n) = Mem.reads (signedBuf base n) n 48 then some session5 else none) = some session5
  rw [hr, hh, if_pos rfl]

theorem proving_arg (code : Nat) (base : Sparse Byte) (n a k : Nat) (hw : Memory.wf base = true) (h : a + k ≤ n) :
    Mem.reads (proving code base n).mss.buf a k = Mem.reads base a k := reads_writes_below base n a k _ hw h

/-- Session 5, and the good record at 0x40. -/
def launchBuf : Sparse Byte := Mem.writes [(0, 5)] 0x40 (leBytes 256 goodRecord.toNat)

theorem wit_MailboxCommands_launch :
    Commanded (proving 3 launchBuf 0x140) 3 ∧ (proving 3 launchBuf 0x140).proven 0x140 = some session5 ∧ (cmd0 3 [] id).proven 0x140 = none ∧
    (proving 3 launchBuf 0x140).mss.logRoom logPriv = true ∧ (proving 3 launchBuf 0x140).frozenPower = false ∧
    (proving 3 launchBuf 0x140).kidRoom ≠ none ∧ recCheck (BitVec.ofNat 2048 (leNat (Mem.reads (proving 3 launchBuf 0x140).mss.buf 0x40 256))) = none := by
  refine ⟨⟨rfl, rfl, rfl⟩, proving_proven 3 launchBuf 0x140 (by decide) (by decide) (by decide), rfl, by decide, rfl, by decide, ?_⟩
  rw [proving_arg 3 launchBuf 0x140 0x40 256 (by decide) (by decide)]
  decide

/-- 64 KiB of DRAM at 0 to be sealed. -/
theorem wit_MailboxCommands_seal :
    let s := cmd0 4 (Mem.writes (Mem.writes [] 8 (leBytes 8 0x10000)) 0x10 [1]) id
    let pa := leNat (Mem.reads s.mss.buf 0 8)
    let n := leNat (Mem.reads s.mss.buf 8 8)
    pa % 0x10000 = 0 ∧ n % 0x10000 = 0 ∧ 0 < n ∧ pa < 2 ^ 52 ∧ paModule pa = s.modid ∧ paLocal pa + n ≤ 0x018000000000 ∧ s.mss.logRoom logSeal = true := by
  decide

/-- A sealed block of core 0's MRAM to be exported, and the export at work with or without tokens. -/
theorem wit_MailboxCommands_export :
    let s : State := { cmd0 5 (Mem.writes (Mem.writes [] 0 (leBytes 8 0x100000000000)) 8 (leBytes 8 4096)) id with floors := [(0, 0)] }
    let pa := leNat (Mem.reads s.mss.buf 0 8)
    let n := leNat (Mem.reads s.mss.buf 8 8)
    let e : Export := ⟨0x100000000000, 0, 8192⟩
    let at_ (t : Nat) : State := { State.reset with
      mss := { State.reset.mss with mbcmd := BitVec.ofNat 64 (2 ^ 63 + 5), exporting := some e, tokens := t, burst := 4096, rate := 0, frac := 0 } }
    (pa % 4096 = 0 ∧ n % 4096 = 0 ∧ 0 < n ∧ n ≤ 2 ^ 46 ∧ pa < 2 ^ 52 ∧ s.mss.logRoom logExport = true) ∧
    (∀ j, j < n / 4096 → s.inGlove (pa + 4096 * j) = true ∧ s.blockValid (pa + 4096 * j) = true) ∧
    4096 ≤ ((at_ 4096).mss.accrue 0).tokens ∧ ((at_ 4095).mss.accrue 0).tokens < 4096 ∧ (at_ 4096).hostUp = true ∧ e.left > 4096 ∧
    ({ e with left := 4096 } : Export).left ≤ 4096 := by decide

theorem wit_MailboxCommands_log :
    let s := cmd0 6 [(0, 1), (8, 2)] (fun m => { m with logHead := 3 })
    let t := cmd0 7 [(0, 2)] (fun m => { m with ckRead := 2 })
    s.mss.logFloor ≤ leNat (Mem.reads s.mss.buf 0 8) ∧ leNat (Mem.reads s.mss.buf 0 8) + leNat (Mem.reads s.mss.buf 8 8) ≤ s.mss.logHead ∧ s.memOk ∧
    leNat (Mem.reads t.mss.buf 0 8) ≤ t.mss.ckRead ∧ Memory.wf s.mss.buf = true := ⟨by decide, by decide, ⟨by decide, by decide⟩, by decide, by decide⟩

/-- An import of 4 KiB into core 2047 at the end of its MRAM. -/
def importBuf : Sparse Byte := Mem.writes (Mem.writes (Mem.writes [(0, 5)] 4 (leBytes 2 2047)) 8 (leBytes 4 0x3FF000)) 0xC (leBytes 4 0x1000)

theorem wit_MailboxCommands_import :
    (cmd0 10 [] id).proven 0x20 = none ∧ (cmd0 11 [] id).proven 8 = none ∧ (proving 10 importBuf 0x20).proven 0x20 = some session5 ∧
    leNat (Mem.reads (proving 10 importBuf 0x20).mss.buf 4 2) = 2047 ∧ leNat (Mem.reads (proving 10 importBuf 0x20).mss.buf 6 2) = 0 ∧
    leNat (Mem.reads (proving 10 importBuf 0x20).mss.buf 8 4) = 0x3FF000 ∧ leNat (Mem.reads (proving 10 importBuf 0x20).mss.buf 0xC 4) = 0x1000 ∧
    Sparse.find? (proving 10 importBuf 0x20).mss.imports 0 = none := by
  refine ⟨rfl, rfl, proving_proven 10 importBuf 0x20 (by decide) (by decide) (by decide), ?_, ?_, ?_, ?_, by decide⟩ <;>
    (rw [proving_arg 10 importBuf 0x20 _ _ (by decide) (by decide)]; decide)

theorem wit_MailboxCommands_close :
    let i : Import := ⟨5, 0, 0, 4096, 0, [], 0, 0⟩
    let s : State := proving 11 [(0, 5)] 8
    let s : State := { s with mss := { s.mss with imports := [(0, i)] } }
    Sparse.find? s.mss.imports 0 = some i ∧ i.spdm = session5.id ∧ s.mss.logRoom logAbort = true ∧ (proving 11 [(0, 5)] 8).proven 8 = some session5 ∧
    leNat (Mem.reads (proving 11 [(0, 5)] 8).mss.buf 5 3) = 0 ∧ leNat (Mem.reads (proving 11 [(0, 5)] 8).mss.buf 4 1) = 0 := by
  refine ⟨by decide, rfl, by decide, proving_proven 11 _ 8 (by decide) (by decide) (by decide), ?_, ?_⟩ <;>
    (rw [proving_arg 11 [(0, 5)] 8 _ _ (by decide) (by decide)]; decide)

theorem wit_MailboxCommands_deepOff :
    (∀ q, q < 64 → ((cmd0 12 [] id).queue q).qcfg.getLsbD 0 = false) ∧ (cmd0 12 [] id).kernels = [] ∧ (cmd0 12 [] id).mss.restorePending = false := by decide

/-- Attestation after the three agreeing messages, with a session that is open or established. -/
def attesting (est : Bool) : State := { State.reset with
  about := { State.reset.about with n := 5, ok := est }
  mss := { State.reset.mss with boot := .running, transcript := [0x84, 0xE1, 0xE3], sessions := [⟨5, 1, est, 0⟩] } }

theorem wit_AttestationMessages :
    (attesting true).answers = true ∧ (0x84 : Byte) ∈ (attesting true).mss.transcript ∧ (0xE1 : Byte) ∈ (attesting true).mss.transcript ∧
    (0xE3 : Byte) ∈ (attesting true).mss.transcript ∧ (0x84 : Byte) ∉ State.reset.mss.transcript ∧ (0xE1 : Byte) ∉ State.reset.mss.transcript ∧
    (∃ x ∈ (attesting false).mss.sessions, x.id = BitVec.ofNat 32 (attesting false).about.n ∧ x.established = false) ∧
    (∃ x ∈ (attesting true).mss.sessions, x.id = BitVec.ofNat 32 (attesting true).about.n ∧ x.established = true) := by decide

theorem wit_CuffLinksAndPod :
    ({ State.reset with mss := { State.reset.mss with rate := 1, burst := 1 } } : State).mss.rate = 1 ∧ (1 : Word).toNat % 2 ^ 32 = 1 ∧
    (0x1000000000 : Word).toNat % 2 ^ 32 < 1 ∧
    State.reset.kernels = [] ∧ State.reset.objs = [] ∧ State.reset.msgs = [] ∧ State.reset.cmds = [] ∧ State.reset.modid ≠ 63 ∧
    400 ≤ (told { State.reset.about with n := 3600, quad := 511 }).about.n ∧ 3600 % 100 = 0 ∧ (410 : Nat) % 100 ≠ 0 := by decide

/-- An instruction of a group and its next state. -/
theorem wit_GroupsHoldTheirEffects :
    (encode (addX 1 .i0)).isSome = true ∧ (∃ t, exec (addX 1 .i0) (withW []) = .next t) := ⟨by decide, ⟨_, rfl⟩⟩
/-! ## Words written out from the encoding tables decode (05 R99, R110 and the tables of 03, 07, 09, 10, 11, 13, 15, 16, 19) -/

/-- Formats A, V and M of 05 R99. -/
def fA (w op d a b m : Nat) : W32 := BitVec.ofNat 32 (w * 2 ^ 31 + op * 2 ^ 24 + d * 2 ^ 18 + a * 2 ^ 12 + b * 2 ^ 6 + m)
def fV (w op d a b t p : Nat) : W32 := BitVec.ofNat 32 (w * 2 ^ 31 + op * 2 ^ 24 + d * 2 ^ 18 + a * 2 ^ 12 + b * 2 ^ 6 + t * 2 ^ 2 + p)
def fM (w op ac a b t m : Nat) : W32 := BitVec.ofNat 32 (w * 2 ^ 31 + op * 2 ^ 24 + ac * 2 ^ 20 + a * 2 ^ 14 + b * 2 ^ 8 + t * 2 ^ 4 + m)

/-- Whether each word decodes in the slot to the instruction beside it. -/
def reads (s : Slot) (l : List (W32 × Option W32 × Instr)) : Bool := l.all (fun p => (decodeWord s p.1 p.2.1).toOption == some p.2.2)

/-- 07 R145 to R166, 05 R112, R113. -/
theorem test_decode_c : reads .c (
    [(fA 0 0x00 0 0 0 0, none, .cNop), (fA 1 0x01 0 0 1 0, some 0xFFFFFFF0, .br ⟨.w1, 0xFFFFFFF0⟩), (fA 1 0x02 0 17 0 0, some 0x20, .brt (.flag 1) ⟨.w0, 0x20⟩),
     (fA 1 0x03 0 1 0 0, some 0x20, .brf (.own 1) ⟨.w0, 0x20⟩), (fA 1 0x04 0 0 0 0, some 0x40, .call ⟨.w0, 0x40⟩), (fA 0 0x05 0 0 0 0, none, .ret),
     (fA 0 0x06 0 4 5 0, none, .jmpi (.own 4) (.op (.own 5))), (fA 1 0x06 0 4 2 0, some 64, .jmpi (.own 4) (.lit ⟨.w2, 64⟩)),
     (fA 1 0x07 0 60 0 5, some 0x1A, .loop (.imm 5) ⟨.w0, 0x1A⟩), (fA 1 0x07 0 1 0 0, some 0x1A, .loop (.reg (.own 1)) ⟨.w0, 0x1A⟩)] ++
    [(fA 0 0x08 0 0 0 6, none, .lbrk 6), (fA 0 0x09 0 0 0 0, none, .lcont), (fA 0 0x0A 3 0 0 (1 * 8 + 3), none, .lrd (.own 3) 1 .index),
     (fA 0 0x0B 0 4 0 (1 * 8 + 2), none, .lwr (.own 4) 1 .count), (fA 0 0x0C 0 0 0 0, none, .yield), (fA 0 0x0D 0 0 0 0, none, .exit),
     (fA 0 0x0D 0 2 0 1, none, .exitK (.own 2)), (fA 1 0x0E 0 0 0 0, some 0x85, .trap 0x85), (fA 0 0x0F 0 0 0 0, none, .eret),
     (fA 0 0x10 0 0 0 0, none, .ckpt), (fA 0 0x10 0 2 0 1, none, .ckptT (.own 2)), (fA 0 0x10 0 0 0 2, none, .ckptL)] ++
    [(fA 0 0x11 1 0 0 0x10, none, .rdsys (.own 1) 0x10), (fA 0 0x12 0 2 0 0x10, none, .wrsys (.own 2) 0x10),
     (fA 0 0x13 21 5 0 3, none, .cXcp ⟨.ls, 21, .own 5⟩), (fA 1 0x14 1 0 2 0, some 3, .cMovl (.own 1) ⟨.w2, 3⟩),
     (fA 0 0x15 18 1 52 0, none, .cAdd ⟨.flag 2, .own 1, .op (.loopIx 4)⟩), (fA 0 0x16 17 18 19 2, none, .fop 1 (.and (.flag 2) (.flag 3))),
     (fA 0 0x16 16 0 0 0, none, .fop 0 .set), (fA 0 0x16 16 18 0 4, none, .fop 0 (.not (.flag 2)))]) = true := by decide

/-- 07 R168: the two-operand rows with their opcodes, in widths 1 and 2. -/
theorem test_decode_integer_rows :
    (([(0x01, Instr.add), (0x02, .sub), (0x03, .mul), (0x04, .mulhs), (0x05, .mulhu), (0x06, .divs), (0x07, .divu), (0x08, .rems),
       (0x09, .remu), (0x0A, .and), (0x0B, .or), (0x0C, .xor), (0x0D, .andn)] ++
      [(0x0E, Instr.shl), (0x0F, .shr), (0x10, .sar), (0x11, .ror), (0x12, .min), (0x13, .max), (0x14, .minu), (0x15, .maxu), (0x1C, .clmul),
       (0x1D, .clmulh), (0x25, .adds)]).all (fun p => reads .i1 [(fA 0 p.1 2 31 57 0x10, none, p.2 ⟨.i1, .s32, .own 2, .own 31, .op (.tileIx 3)⟩),
        (fA 1 p.1 60 61 1 0x20, some 9, p.2 ⟨.i1, .z32, .zero, .slotId, .lit ⟨.w1, 9⟩⟩)])) = true ∧
    ([(0x16, Instr.abs), (0x17, .clz), (0x18, .ctz), (0x19, .popc), (0x20, .mov), (0x26, .bswap)].all (fun p =>
      reads .i0 [(fA 0 p.1 3 62 0 0x20, none, p.2 ⟨.i0, .z32, .own 3, .reuseA⟩)])) = true ∧
    ([(0x1A, Instr.bfx), (0x1B, .bfi), (0x23, .lea)].all (fun p =>
      reads .i0 [(fA 1 p.1 3 4 0 0, some 0x2204, p.2 ⟨.i0, .own 3, .own 4, .lit ⟨.w0, 0x2204⟩⟩)])) = true := by decide

theorem test_decode_integer : reads .i0 [(fA 0 0x00 0 0 0 0, none, .iNop .i0), (fA 0 0x1E 3 5 4 0x0A, none, .cmp .i0 .w64 .lt (.flag 3) (.own 5) (.op (.own 4))),
    (fA 1 0x1E 5 1 0 0x27, some 0, .cmp .i0 .z32 .ntst (.reg (.own 5)) (.own 1) (.lit ⟨.w0, 0⟩)), (fA 0 0x1F 4 1 2 5, none, .sel .i0 .w64 5 (.own 4) (.own 1) (.own 2)),
    (fA 1 0x21 1 0 1 0, some 0xFFFFFFFF, .movl .i0 (.own 1) ⟨.w1, 0xFFFFFFFF⟩), (fA 1 0x22 1 0 0 0, some 7, .movh .i0 (.own 1) 7),
    (fA 0 0x24 2 2 0 7, none, .xcp .i0 ⟨.en, 2, .own 2⟩), (fA 0 0x27 1 2 3 0x20, none, .crc32c true ⟨.i0, .own 1, .own 2, .op (.own 3)⟩),
    (fA 0 0x27 1 2 3 0, none, .crc32c false ⟨.i0, .own 1, .own 2, .op (.own 3)⟩)] = true := by decide

/-- 09 R225 to R230. -/
theorem test_decode_ls : reads .ls (
    [(fA 0 0x00 0 0 0 0, none, .lsNop), (fA 0 0x01 3 2 60 3, none, .ld .x64 (.own 3) (.own 2) (.op .zero)), (fA 1 0x01 3 1 0 1, some 6, .ld .u16 (.own 3) (.own 1) (.lit ⟨.w0, 6⟩)),
     (fA 0 0x01 3 1 2 6, none, .ld .i32 (.own 3) (.own 1) (.op (.own 2))), (fA 1 0x02 4 1 0 2, some 8, .st .b4 (.own 4) (.own 1) (.lit ⟨.w0, 8⟩)),
     (fA 0 0x02 33 1 60 3, none, .st .b8 (.stream 1) (.own 1) (.op .zero)), (fA 0 0x03 3 1 2 1, none, .ldx .u16 (.own 3) (.own 1) (.own 2)),
     (fA 0 0x04 6 1 49 3, none, .stx .b8 (.own 6) (.own 1) (.loopIx 1)), (fA 0 0x05 2 3 4 0, none, .lsAdd ⟨.own 2, .own 3, .op (.own 4)⟩),
     (fA 0 0x06 0 60 0 0, none, .lsSub ⟨.own 0, .zero, .op (.own 0)⟩), (fA 1 0x07 2 3 0 0, some 4, .lsShl ⟨.own 2, .own 3, .lit ⟨.w0, 4⟩⟩),
     (fA 1 0x08 2 0 0 0, some 4, .lsMovl (.own 2) ⟨.w0, 4⟩), (fA 1 0x09 8 8 0 0, some 0x1FFFFF, .lsAnd ⟨.own 8, .own 8, .lit ⟨.w0, 0x1FFFFF⟩⟩)] ++
    [(fA 0 0x0A 3 3 0 1, none, .lsXcp ⟨.i0, 3, .own 3⟩), (fA 0 0x0B 34 0 5 7, none, .scfg 2 7 (.op (.own 5))), (fA 1 0x0C 34 1 0 0, some 0x240, .sldd 2 (.own 1) (.lit ⟨.w0, 0x240⟩)),
     (fA 0 0x0D 47 1 60 0, none, .sstd 15 (.own 1) (.op .zero)), (fA 0 0x0E 32 0 0 0, none, .srst 0), (fA 1 0x0F 33 0 0 0, some 8, .sadv 1 (.lit ⟨.w0, 8⟩)),
     (fA 0 0x10 3 33 0 0, none, .spos (.own 3) 1), (fA 0 0x11 0 0 0 0, none, .fence), (fA 0 0x12 0 0 0 3, none, .phase .die),
     (fA 0 0x13 0 1 2 5, none, .cflush .mod (.own 1) (.op (.own 2))), (fA 1 0x14 0 1 0 3, some 4096, .cinv .die (.own 1) (.lit ⟨.w0, 4096⟩)),
     (fA 1 0x15 0 1 0 1, some 512, .pref .l2 (.own 1) (.lit ⟨.w0, 512⟩)), (fA 1 0x16 0 1 0 0, some 64, .zfill (.own 1) (.lit ⟨.w0, 64⟩)),
     (fA 1 0x17 4 1 0 0, some 32, .ldp 2 (.own 1) (.lit ⟨.w0, 32⟩))]) = true := by decide

/-- 10 R242: rows with an element type or none, with and without b. -/
theorem test_decode_vector_rows :
    ([(0x01, Instr.vadd), (0x02, .vsub), (0x03, .vmul), (0x04, .vfma), (0x05, .vfms), (0x06, .vmin), (0x07, .vmax), (0x15, .vcmp)].all (fun p =>
      reads .va [(fV 0 p.1 2 33 61 5 3, none, p.2 ⟨.va, .f32, 3, .own 2, .stream 1, .op .slotId⟩)])) = true ∧
    ([(0x12, Instr.vshl), (0x13, .vshr), (0x14, .vsar), (0x26, .vidx)].all (fun p =>
      reads .vb [(fV 1 p.1 2 3 1 3 1, some 7, p.2 ⟨.vb, .i32, 1, .own 2, .own 3, .lit ⟨.w1, 7⟩⟩)])) = true ∧
    ([(0x0A, Instr.vrcp), (0x0B, .vrsq), (0x0C, .vexp2), (0x0D, .vlog2)].all (fun p =>
      reads .va [(fV 0 p.1 2 3 0 5 0, none, p.2 ⟨.va, 0, .own 2, .own 3⟩)])) = true ∧
    ([(0x0E, Instr.vand), (0x0F, .vor), (0x10, .vxor), (0x16, .vsel), (0x1A, .vshuf)].all (fun p =>
      reads .va [(fV 0 p.1 34 3 4 0 2, none, p.2 ⟨.va, 2, .stream 2, .own 3, .op (.own 4)⟩)])) = true := by decide

theorem test_decode_vector : reads .va (
    [(fV 0 0x00 0 0 0 0 0, none, .vnop .va), (fV 0 0x08 2 3 0 5 1, none, .vabs ⟨.va, .f32, 1, .own 2, .own 3⟩), (fV 0 0x09 2 3 0 3 0, none, .vneg ⟨.va, .i32, 0, .own 2, .own 3⟩),
     (fV 0 0x11 2 3 0 0 0, none, .vnot ⟨.va, 0, .own 2, .own 3⟩), (fV 0 0x17 2 3 (1 * 16 + 5) 6 0, none, .vcvt .tz .f32 ⟨.va, .bf16, 0, .own 2, .own 3⟩),
     (fV 0 0x18 2 3 4 0 1, none, .vpack 1 .va .i8 (.own 2) (.own 3) (.op (.own 4))), (fV 0 0x19 2 3 7 0xF 1, none, .vunpk 7 ⟨.va, .i4, 1, .own 2, .own 3⟩),
     (fV 0 0x1B 2 3 63 0 0, none, .vbcst 63 ⟨.va, 0, .own 2, .own 3⟩), (fV 0 0x1C 2 3 1 3 0, none, .vred .min ⟨.va, .i32, 0, .own 2, .own 3⟩),
     (fV 0 0x1D 2 3 5 4 0, none, .vscan .xor ⟨.va, .u32, 0, .own 2, .own 3⟩), (fV 0 0x1E 2 3 4 4 0, none, .vclmul ⟨.va, 0, .own 2, .own 3, .op (.own 4)⟩)] ++
    [(fV 0 0x1F 2 3 0 1 0, none, .vpopc ⟨.va, .u8, 0, .own 2, .own 3⟩), (fV 0 0x20 2 3 0 2 0, none, .vclz ⟨.va, .i16, 0, .own 2, .own 3⟩),
     (fV 1 0x21 2 0 2 0 1, some 0x7F, .vmovl .va 1 (.own 2) ⟨.w2, 0x7F⟩), (fV 0 0x22 5 3 63 1 0, none, .vxcp .va .i0 5 63 (.own 3)),
     (fV 0 0x22 31 3 0 5 0, none, .vxcp .va .vb 31 0 (.own 3)), (fV 0 0x23 1 3 (1 * 16 + 6) 3 2, none, .vpop (.all 6) .va .i32 2 1 (.own 3)),
     (fV 0 0x23 3 3 32 4 0, none, .vpop .nz .va .u32 0 3 (.own 3)), (fV 0 0x24 17 0 0 0 1, none, .vany .va 1 1), (fV 0 0x25 31 0 0 0 0, none, .vall .va 0 15),
     (fV 0 0x27 2 3 4 15 3, none, .vslide .va 63 (.own 2) (.own 3) (.op (.own 4))), (fV 0 0x28 2 3 4 0 0, none, .vdot ⟨.va, .i8, 0, .own 2, .own 3, .op (.own 4)⟩)] ++
    [(fV 0 0x29 2 3 0 0xF 0, none, .vsat ⟨.va, .i4, 0, .own 2, .own 3⟩), (fV 0 0x2A 2 3 4 5 0, none, .vexpm ⟨.va, 0, .own 2, .own 3, .op (.own 4)⟩),
     (fV 0 0x2B 2 3 3 6 0, none, .vround .dn ⟨.va, .bf16, 0, .own 2, .own 3⟩), (fV 0 0x2C 2 3 4 0xB 1, none, .vplj 1 .va .mxf6a (.own 2) (.own 3) (.own 4)),
     (fV 0 0x2D 2 3 1 0xC 1, none, .vpls 1 1 .va .mxf6b (.own 2) (.own 3)), (fV 0 0x2E 2 3 0 0 3, none, .vcomp ⟨.va, 3, .own 2, .own 3⟩)]) = true := by decide

/-- 11 R266. -/
theorem test_decode_mx : reads .mx (
    [(fM 0 0x00 0 0 0 0 0, none, .mxNop), (fM 0 0x01 1 33 34 0 0, none, .mma ⟨1, 1, 2, .i8, none⟩), (fM 1 0x02 15 32 47 6 0, some 64, .mmaz ⟨15, 0, 15, .bf16, some 64⟩),
     (fM 0 0x03 2 33 34 7 0, none, .mmag ⟨2, 1, 2, .f16, none⟩), (fM 0 0x04 3 0 0 0 2, none, .mzero 3 .binary), (fM 0 0x05 1 0 35 5 (4 + 1), none, .mnrm 1 3 .f32 true .tz none),
     (fM 1 0x05 1 0 35 0xE 0, some 0xFE, .mnrm 1 3 .d8 false .ne (some 0xFE)), (fM 1 0x05 1 0 0 0 8, some 0xFFF0, .mnrmAlign 1 0xFFF0),
     (fM 0 0x06 1 0 35 0 15, none, .mdrn 1 none 3 .i8 15), (fM 0 0x06 1 36 35 5 0, none, .mdrn 1 (some 4) 3 .f32 0)] ++
    [(fM 1 0x07 0 0 0 0 0, some 0x380, .mepi 0 0x380), (fM 0 0x08 1 0 0 0 0, none, .mchkOff 1), (fM 0 0x08 1 0 0 0 1, none, .mchkOn 1),
     (fM 1 0x09 1 0 0 0 0, some 0x100, .mld 1 0x100), (fM 1 0x0A 1 0 0 0 0, some 0x100, .mst 1 0x100), (fM 1 0x0B 1 0 0 0 0, some 5, .mregLo 1 5),
     (fM 1 0x0B 1 0 0 0 1, some 0x10, .mregHi 1 0x10), (fM 0 0x0C 1 0 0 0 15, none, .mstat 1 15)]) = true := by decide

/-- 13 R314, R329, 15 R358, R361, R362, R365. -/
theorem test_decode_en :
    ([(0x10, Instr.aadd), (0x11, .amin), (0x12, .amax), (0x13, .aand), (0x14, .aor), (0x15, .axor), (0x16, .aswp), (0x17, .acas)].all (fun p =>
      reads .en [(fA 0 p.1 2 1 3 (0 * 16 + 2 * 4 + 2), none, p.2 ⟨some 1, .own 1, .op (.own 3), .u64, .rel .mod⟩),
        (fA 1 p.1 60 48 0 (3 * 16), some 1, p.2 ⟨none, .loopIx 0, .lit ⟨.w0, 1⟩, .i32, .relaxed⟩)])) = true ∧
    ([(0x01, Instr.btc), (0x02, .btcm), (0x03, .btcg), (0x05, .racq), (0x38, .attn)].all (fun p =>
      reads .en [(fA 0 p.1 2 1 0 0, none, p.2 ⟨.own 2, .own 1⟩)])) = true ∧
    reads .en (
      [(fA 0 0x00 0 0 0 0, none, .enNop), (fA 0 0x04 4 1 3 1, none, .rinit true ⟨.own 4, .own 1, .op (.own 3)⟩), (fA 1 0x06 4 1 0 0, some 1, .rpub ⟨.own 4, .own 1, .lit ⟨.w0, 1⟩⟩),
       (fA 0 0x07 4 1 0 1, none, .await true ⟨.own 4, .own 1⟩), (fA 0 0x07 4 1 0 0, none, .await false ⟨.own 4, .own 1⟩), (fA 0 0x08 4 1 3 0, none, .rels ⟨.own 4, .own 1, .op (.own 3)⟩),
       (fA 0 0x09 60 1 3 0, none, .rpois ⟨.zero, .own 1, .op (.own 3)⟩), (fA 0 0x18 2 1 3 (2 * 16 + 3 * 4 + 3), none, .afadd (some 1) (.own 1) (.op (.own 3)) (.ar .pod))] ++
      [(fA 0 0x19 0 1 2 (3 * 16), none, .red .add .i32 .relaxed (.own 1) (.op (.own 2))), (fA 0 0x19 6 1 2 (2 * 16 + 2 * 4 + 2), none, .red .fadd .u32 (.rel .mod) (.own 1) (.op (.own 2))),
       (fA 0 0x1A 4 1 6 (3 * 4 + 2), none, .wmon 2 (.own 1) 3 false .ge .mod), (fA 0 0x1A 4 1 6 (32 + 1 * 4 + 3), none, .wmon 2 (.own 1) 3 true .ne .pod),
       (fA 1 0x1B 2 1 0 2, some 1, .sigdec (some 1) (.own 1) (.plain (.lit ⟨.w0, 1⟩)) .mod), (fA 0 0x1B 60 1 6 (4 + 2), none, .sigdec none (.own 1) (.err 3) .mod)]) = true := by decide

/-- 15 R373, R386, 16 R392, 03 R58, 19 R463, 05 R112, R113. -/
theorem test_decode_en_objects :
    ([(0x20, Instr.phnew), (0x21, .phreg), (0x22, .phdrop), (0x23, .phsig), (0x26, .phbyt), (0x28, .phpois)].all (fun p =>
      reads .en [(fA 1 p.1 6 1 0 0, some 9, p.2 ⟨.own 6, .own 1, .lit ⟨.w0, 9⟩⟩)])) = true ∧
    reads .en (
      [(fA 0 0x24 6 1 3 0, none, .phwait (.own 6) (.own 1) (.own 3)), (fA 0 0x25 6 1 3 0, none, .phsw (.own 6) (.own 1) (.own 3)), (fA 0 0x27 6 1 0 3, none, .phrd (some 3) (.own 1) 3),
       (fA 0 0x30 14 1 3 0, none, .sqnew (some 7) (.own 1) (.own 3)), (fA 1 0x31 2 1 0 0, some 1, .sqres ⟨some 1, .own 1, .lit ⟨.w0, 1⟩⟩),
       (fA 0 0x32 2 1 3 0, none, .sqcmt ⟨some 1, .own 1, .op (.own 3)⟩), (fA 0 0x33 60 1 0 0, none, .sqlen none (.own 1)), (fA 1 0x33 2 1 0 1, some 2, .sqlenH ⟨some 1, .own 1, .lit ⟨.w0, 2⟩⟩)] ++
      [(fA 0 0x34 2 1 3 0, none, .sqfork false (some 1) (.own 1) (.own 3)), (fA 0 0x34 2 1 3 2, none, .sqfork true (some 1) (.own 1) (.own 3)),
       (fA 0 0x34 2 1 3 1, none, .sqforkF false (some 1) (.own 1) (.own 3)), (fA 0 0x34 2 1 3 3, none, .sqforkF true (some 1) (.own 1) (.own 3)), (fA 0 0x35 2 1 0 0, none, .sqrel (some 1) (.own 1)),
       (fA 1 0x36 2 1 0 0, some 5, .sqmap ⟨some 1, .own 1, .lit ⟨.w0, 5⟩⟩), (fA 0 0x37 14 2 8 0, none, .sqtierMove (some 7) (.own 2) 4), (fA 0 0x37 14 2 8 1, none, .sqtierL3 (some 7) (.own 2) 4),
       (fA 0 0x37 14 2 8 2, none, .sqtierTile (some 7) (.own 2) 4), (fA 0 0x37 14 2 8 3, none, .sqtierUnstage (some 7) (.own 2) 4)] ++
      [(fA 0 0x40 2 1 0 0, none, .launch 2 (.own 1)), (fA 0 0x41 15 62 0 0, none, .launchw 15 .reuseA), (fA 0 0x42 2 1 0 0, none, .mupdWrite ⟨.own 2, .own 1⟩),
       (fA 0 0x42 2 1 0 1, none, .mupdCommit ⟨.own 2, .own 1⟩), (fA 0 0x42 2 1 0 2, none, .mupdAbort ⟨.own 2, .own 1⟩), (fA 0 0x43 3 1 0 1, none, .enXcp ⟨.i0, 3, .own 1⟩),
       (fA 1 0x44 2 0 0 0, some 7, .enMovl (.own 2) ⟨.w0, 7⟩), (fA 0 0x45 2 1 3 0, none, .enAdd ⟨.own 2, .own 1, .op (.own 3)⟩), (fA 1 0x46 2 1 0 0, some 18, .strg ⟨some 1, .own 1, .lit ⟨.w0, 18⟩⟩),
       (fA 1 0x46 2 1 0 1, some 0, .strgBar ⟨some 1, .own 1, .lit ⟨.w0, 0⟩⟩)]) = true := by decide

/-- Words the tables leave out: an unassigned opcode, a reserved field, a code outside a row's entries (05 R99, R105, R106, R109, R110). -/
theorem test_decode_refuses :
    let no (s : Slot) (w : W32) (l : Option W32) : Bool := (decodeWord s w l).toOption == none
    (no .c (fA 0 0x17 0 0 0 0) none && no .c (fA 0 0x05 0 1 0 0) none && no .en (fA 0 0x01 16 1 0 0) none && no .va (fV 0 0x0A 2 3 0 4 0) none &&
      no .i0 (fA 0 0x01 1 2 3 0x30) none && no .c (fA 1 0x07 0 1 0 5) (some 0x20) && no .c (fA 1 0x0E 0 0 0 0) (some 0x7F) && no .ls (fA 0 0x01 3 1 2 7) none &&
      no .mx (fM 1 0x01 1 33 34 0 0) (some 0) && no .en (fA 0 0x10 3 1 3 0) none && no .en (fA 0 0x10 2 1 3 1) none && no .va (fV 0 0x19 2 3 4 0 0) none) = true := by
  decide

/-- 07, second example: the bytes of `c.movl c1, #3` with STOP at 0x10_0000. -/
theorem test_decode_bundle : (decodeBundle 0x100000 [0x01, 0x01, 0x00, 0x00, 0x04, 0x94, 0x03, 0x00, 0x00, 0x00]).toOption =
    some ⟨0x100000, 10, ⟨false, false, 0, true, 1⟩, [(.c, .cMovl (.own 1) ⟨.w0, 3⟩)]⟩ := by decide
/-! ## Well-formedness refuses: one ill-formed term for each check -/

/-- No term of the list is well formed. -/
def allIll (l : List Instr) : Bool := l.all (fun i => !i.wf)

/-- 05 R105, R106, R109, 07, 09, 11: operands no slot has, numbers outside their range, types outside a row's set. -/
theorem test_wf_refuses :
    allIll ([.brt (.stream 0) ⟨.w0, 2⟩, .brf (.stream 0) ⟨.w0, 2⟩, .jmpi (.own 16) (.op .zero), .jmpi (.own 1) (.op (.stream 1)), .loop (.imm 0) ⟨.w0, 2⟩, .loop (.reg (.stream 1)) ⟨.w0, 2⟩,
      .lbrk 0, .lbrk 7, .lrd (.loopIx 1) 0 .index, .lrd (.own 1) 6 .index, .lwr (.own 1) 7 .count, .lwr (.stream 1) 0 .count, .exitK (.stream 0), .ckptT (.own 20),
      .wrsys (.stream 2) 0, .trap 0x7F, .rdsys .zero 0] ++
     [.cXcp ⟨.c, 1, .own 1⟩, .cMovl (.slotId) ⟨.w0, 1⟩, .cAdd ⟨.own 16, .own 1, .op .zero⟩, .fop 1 (.not (.stream 1)), .fop 1 (.and (.own 1) (.stream 1)),
      .add ⟨.i0, .w64, .flag 1, .own 1, .op .zero⟩, .add ⟨.i0, .w64, .own 1, .stream 1, .op .zero⟩, .add ⟨.i0, .w64, .own 1, .own 1, .op (.flag 1)⟩, .clz ⟨.i0, .w64, .loopIx 1, .own 1⟩,
      .bfx ⟨.i0, .own 1, .stream 1, .op .zero⟩, .cmp .i0 .w64 .eq (.reg .slotId) (.own 1) (.op .zero), .cmp .i0 .w64 .eq (.flag 1) (.stream 1) (.op .zero),
      .sel .i0 .w64 0 (.own 1) (.own 1) (.stream 0), .movl .i0 .reuseA ⟨.w0, 1⟩, .movh .i0 .slotId 1, .xcp .i1 ⟨.i1, 0, .own 1⟩, .xcp .i0 ⟨.en, 16, .own 1⟩, .xcp .i0 ⟨.mx, 16, .own 1⟩] ++
     [.ld .u8 (.stream 1) (.own 1) (.op .zero), .ld .u8 (.own 1) (.stream 1) (.op .zero), .st .b1 (.flag 1) (.own 1) (.op .zero), .st .b1 (.own 1) (.stream 1) (.op .zero),
      .ldx .u8 (.own 1) (.own 1) (.stream 1), .stx .b1 (.own 1) (.stream 1) (.own 1), .lsAdd ⟨.loopIx 1, .own 1, .op .zero⟩, .lsMovl .slotId ⟨.w0, 1⟩, .lsXcp ⟨.ls, 0, .own 1⟩,
      .scfg 0 0 (.op (.stream 1)), .sadv 0 (.op (.stream 1)), .sldd 0 (.stream 1) (.op .zero), .sstd 0 (.own 1) (.op (.stream 1)), .cflush .mod (.stream 1) (.op .zero),
      .cinv .mod (.own 1) (.op (.flag 1)), .pref .l1 (.stream 1) (.op .zero), .zfill (.stream 0) (.op .zero), .ldp 0 (.stream 1) (.op .zero), .spos (.stream 1) 0]) = true := by
  decide

/-- 10 R241, R242, R247, R253, R256, R257, 11 R266 to R268. -/
theorem test_wf_refuses_vector :
    allIll ([.vadd ⟨.va, .e4m3, 0, .own 1, .own 1, .op .zero⟩, .vadd ⟨.va, .f32, 0, .flag 1, .own 1, .op .zero⟩, .vadd ⟨.va, .f32, 0, .own 1, .flag 1, .op .zero⟩,
      .vfma ⟨.va, .f32, 0, .stream 1, .own 1, .op .zero⟩, .vfms ⟨.va, .f32, 0, .zero, .own 1, .op .zero⟩, .vabs ⟨.va, .u32, 0, .own 1, .own 1⟩, .vneg ⟨.va, .d8, 0, .own 1, .own 1⟩,
      .vrcp ⟨.va, 0, .loopIx 1, .own 1⟩, .vand ⟨.va, 0, .own 1, .flag 1, .op .zero⟩, .vshl ⟨.va, .f32, 0, .own 1, .own 1, .op .zero⟩, .vsar ⟨.va, .u32, 0, .own 1, .own 1, .op .zero⟩,
      .vcvt .ne .f32 ⟨.va, .f32, 0, .slotId, .own 1⟩, .vpack 0 .va .f32 (.own 1) (.own 1) (.op .zero), .vpack 2 .va .i8 (.own 1) (.own 1) (.op .zero),
      .vpack 0 .va .i8 (.stream 1) (.own 1) (.op .zero), .vunpk 4 ⟨.va, .i8, 0, .own 1, .own 1⟩, .vunpk 0 ⟨.va, .i32, 0, .own 1, .own 1⟩] ++
     [.vred .add ⟨.va, .i8, 0, .own 1, .own 1⟩, .vscan .xor ⟨.va, .f32, 0, .own 1, .own 1⟩, .vpopc ⟨.va, .f32, 0, .own 1, .own 1⟩, .vmovl .va 0 .slotId ⟨.w0, 0⟩, .vxcp .va .va 0 0 (.own 1),
      .vxcp .va .vb 0 1 (.own 1), .vxcp .va .en 16 0 (.own 1), .vxcp .va .i0 0 0 (.flag 1), .vpop .nz .va .f32 0 1 (.own 1), .vpop .nz .va .i8 0 0 (.own 1),
      .vidx ⟨.va, .i8, 0, .own 1, .own 1, .op .zero⟩, .vslide .va 0 (.flag 1) (.own 1) (.op .zero), .vdot ⟨.va, .i32, 0, .own 1, .own 1, .op .zero⟩, .vsat ⟨.va, .i32, 0, .own 1, .own 1⟩,
      .vround .ne ⟨.va, .i32, 0, .own 1, .own 1⟩, .vplj 0 .va .i8 (.own 1) (.own 1) (.own 1), .vpls 0 0 .va .mxf6a (.stream 1) (.own 1), .vcomp ⟨.va, 0, .own 1, .flag 1⟩] ++
     [.mma ⟨0, 0, 0, .i32, none⟩, .mmaz ⟨0, 0, 0, .i8, some 0⟩, .mnrm 0 0 .i8 false .ne none, .mnrm 0 0 .f32 false .ne (some 1), .mdrn 0 none 0 .mxf6a 0]) = true := by decide

/-- 03 R58, 13 R314, R329, 15 R358, R361, R362, R373, 16 R392, 19 R463. -/
theorem test_wf_refuses_engines :
    allIll ([.btc ⟨.own 16, .own 1⟩, .racq ⟨.own 1, .own 16⟩, .rinit false ⟨.own 1, .own 1, .op (.stream 1)⟩, .phnew ⟨.flag 1, .own 1, .op .zero⟩, .aadd ⟨none, .own 16, .op .zero, .u64, .relaxed⟩,
      .acas ⟨none, .own 1, .op (.flag 1), .u64, .relaxed⟩, .afadd none (.own 1) (.op (.own 16)) .relaxed, .red .fadd .u64 .relaxed (.own 1) (.op .zero), .red .add .u64 .relaxed (.stream 1) (.op .zero),
      .wmon 0 (.stream 1) 0 false .eq .mod, .sigdec none (.own 16) (.err 0) .mod, .sigdec none (.own 1) (.plain (.op (.own 16))) .mod, .phwait (.own 1) (.own 1) (.own 16),
      .phsw (.slotId) (.own 1) (.own 1), .phrd none (.stream 1) 0, .sqlen none (.own 16), .sqnew none (.own 1) (.own 16), .sqfork false none (.own 16) (.own 1), .sqforkF false none (.own 1) (.flag 1)] ++
     [.sqres ⟨none, .own 1, .op (.own 16)⟩, .strg ⟨none, .own 16, .op .zero⟩, .sqtierMove none (.own 16) 0, .sqrel none (.stream 1), .launch 0 .zero, .launchw 0 (.own 16), .mupdWrite ⟨.own 1, .flag 1⟩,
      .enXcp ⟨.en, 0, .own 1⟩, .enMovl (.own 16) ⟨.w0, 0⟩, .enAdd ⟨.own 1, .own 1, .op (.own 16)⟩]) = true := by decide
/-! ## Single steps, with results worked out from the rules -/

/-- The value the last write of an instruction leaves in its group. -/
def wrote (i : Instr) (s : State) : Option Word :=
  match exec i s with
  | .next t => match t.cur.grp.writes.getLast? with | some ⟨_, .word v, _, _⟩ => some v | _ => none
  | _ => none

/-- 07, first example: its starting registers. -/
def edges : State := core0 (fun k => { k with regs := { k.regs with
  x := [(1, 0x44), (4, 7), (5, 0xFFFFFFFFFFFFFFF9), (6, 0xFFFFFFFF80000000), (7, 0x7FFFFFFFFFFFFFF0), (8, 0xF50)] } })

theorem test_div_edges :
    wrote (.divs ⟨.i0, .w64, .own 10, .own 4, .op (.own 0)⟩) edges = some 0xFFFFFFFFFFFFFFFF ∧
    wrote (.divs ⟨.i0, .s32, .own 11, .own 6, .lit ⟨.w1, 0xFFFFFFFF⟩⟩) edges = some 0xFFFFFFFF80000000 ∧
    wrote (.divs ⟨.i0, .w64, .own 14, .own 5, .op (.own 0)⟩) edges = some 1 := by decide

theorem test_clmul_prefix : wrote (.clmul ⟨.i0, .w64, .own 2, .own 1, .lit ⟨.w1, 0xFFFFFFFF⟩⟩) edges = some 0x3C := by decide
theorem test_adds_saturates : wrote (.adds ⟨.i0, .w64, .own 12, .own 7, .lit ⟨.w0, 0x20⟩⟩) edges = some 0x7FFFFFFFFFFFFFFF := by decide
theorem test_bfx_signed : wrote (.bfx ⟨.i0, .own 13, .own 8, .lit ⟨.w0, 0x2204⟩⟩) edges = some 0xFFFFFFFFFFFFFFF5 := by decide
theorem test_cmp_flag : wrote (.cmp .i0 .w64 .lt (.flag 3) (.own 5) (.op (.own 4))) edges = some 1 := by decide

/-- 07 R167, R175: a 32-bit sum wraps and is extended as the width says; MOVH keeps the low half; LEA copies bit 56. -/
theorem test_widths :
    wrote (.add ⟨.i0, .s32, .own 1, .own 6, .lit ⟨.w0, 0x80000000⟩⟩) edges = some 0 ∧ wrote (.sub ⟨.i0, .z32, .own 1, .own 0, .lit ⟨.w0, 1⟩⟩) edges = some 0xFFFFFFFF ∧
    wrote (.movh .i0 (.own 1) 0x12) edges = some 0x1200000044 ∧ wrote (.lea ⟨.i0, .own 1, .own 0, .lit ⟨.w2, 0x01000000⟩⟩) edges = some 0xFF00000000000000 := by decide

/-- 10, example: the first lanes of the mask, its prefix XOR, and the XOR scan of the parities. -/
def quoted : State := core0 (fun k => { k with regs := { k.regs with
  va := [(1, BitVec.ofNat 2048 (0x110 + 4 * 2 ^ 32 + 0x20 * 2 ^ 64)), (3, BitVec.ofNat 2048 (2 ^ 32 + 2 ^ 64))] } })

def wroteVec (i : Instr) (s : State) : Option Nat :=
  match exec i s with
  | .next t => match t.cur.grp.writes.getLast? with | some ⟨_, .vec v _, _, _⟩ => some v.toNat | _ => none
  | _ => none

theorem test_vclmul_prefix : (wroteVec (.vclmul ⟨.va, 0, .own 2, .own 1, .lit ⟨.w0, 0xFFFFFFFF⟩⟩) quoted).map (fun v => v % 2 ^ 128) =
    some (0xF0 + 0xFFFFFFFC * 2 ^ 32 + 0xFFFFFFE0 * 2 ^ 64) := by decide
theorem test_vscan_parity : (wroteVec (.vscan .xor ⟨.va, .u32, 0, .own 4, .own 3⟩) quoted).map (fun v => v % 2 ^ 128) = some (2 ^ 32) := by decide

/-- 07 R158: the trap code is kept for the end of the group; 05 R110: NOP only passes. -/
theorem test_trap_waits : (match exec (.trap 0x85) edges with | .next t => t.cur.pc == edges.cur.pc && t.cur.grp.after.isSome | _ => false) = true := by decide
theorem test_nop : exec .cNop edges = .next edges := rfl

/-- 07 R146, R158: EXIT placed at the first fetch runs in the next step. -/
theorem test_step_exit : (match step (State.reset.withFetchWord 32 0x0D000000) with | .next t => t.cores != (State.reset.withFetchWord 32 0x0D000000).cores | _ => false) = true := by decide
end Sys2Proof.Tests
end

/-!
SUPPORT. The functions of the integer slots against the numbers and bits 07 R169 to R174 give them, each stated once for every width above 1,
and the two shapes of an integer instruction derived from them.
-/
namespace Sys2Proof.Laws.Integer

open Sys2Proof Sys2Proof.Machine Sys2Proof.Safety

/-! ## Sums, products, bitwise functions (07 R169) -/

theorem two_pow_cast_pos (n : Nat) : (0 : Int) < (2 ^ n : Nat) := Int.natCast_pos.2 (Nat.two_pow_pos n)

theorem two_pow_cast (n : Nat) : (2 ^ n : Int) = (2 ^ n : Nat) := (Int.natCast_pow 2 n).symm

theorem toNat_sub_int (n : Nat) (a b : BitVec n) : ((a - b).toNat : Int) = ((a.toNat : Int) - b.toNat) % (2 ^ n : Nat) := by
  have hb : b.toNat ≤ 2 ^ n := Nat.le_of_lt b.isLt
  have hshift : ((2 ^ n - b.toNat + a.toNat : Nat) : Int) = (a.toNat - b.toNat : Int) + (2 ^ n : Nat) := by omega
  rw [BitVec.toNat_sub, Int.natCast_emod, hshift, Int.add_emod_right]

theorem toNat_mulHighS (n : Nat) (a b : BitVec n) :
    ((mulHighS n a b).toNat : Int) = a.toInt * b.toInt / (2 ^ n : Nat) % (2 ^ n : Nat) := by
  rw [mulHighS, BitVec.toNat_ofInt, Int.toNat_of_nonneg (Int.emod_nonneg _ (Int.ne_of_gt (two_pow_cast_pos n)))]

theorem toNat_mulHighU (n : Nat) (a b : BitVec n) : (mulHighU n a b).toNat = a.toNat * b.toNat / 2 ^ n := by
  have hlt : a.toNat * b.toNat / 2 ^ n < 2 ^ n :=
    Nat.div_lt_of_lt_mul (Nat.mul_lt_mul'' a.isLt b.isLt)
  rw [mulHighU, BitVec.toNat_ofNat, Nat.mod_eq_of_lt hlt]

theorem getLsbD_andn (n : Nat) (a b : BitVec n) (k : Nat) (hk : k < n) :
    (a &&& ~~~b).getLsbD k = (a.getLsbD k && !b.getLsbD k) := by
  rw [BitVec.getLsbD_and, BitVec.getLsbD_not, decide_eq_true hk, Bool.true_and]

/-! ## Shifts (07 R169) -/

theorem toNat_shl (n : Nat) (a b : BitVec n) : (shl n a b).toNat = a.toNat * 2 ^ (b.toNat % n) % 2 ^ n := by
  rw [shl, BitVec.toNat_shiftLeft, Nat.shiftLeft_eq]

theorem toNat_shr (n : Nat) (a b : BitVec n) : (shr n a b).toNat = a.toNat / 2 ^ (b.toNat % n) := by
  rw [shr, BitVec.toNat_ushiftRight, Nat.shiftRight_eq_div_pow]

theorem toInt_sar (n : Nat) (a b : BitVec n) : (sar n a b).toInt = a.toInt / (2 ^ (b.toNat % n) : Nat) := by
  rw [sar, BitVec.toInt_sshiftRight, Int.shiftRight_eq_div_pow]

/-- The bits that leave on the right come back on the left, beside the ones that stay. -/
theorem toNat_ror (n : Nat) (hn : 1 < n) (a b : BitVec n) : (ror n a b).toNat =
    (a.toNat / 2 ^ (b.toNat % n) + a.toNat * 2 ^ (n - b.toNat % n)) % 2 ^ n := by
  have hs : b.toNat % n < n := Nat.mod_lt _ (by omega)
  generalize hk : b.toNat % n = k at hs
  have hsplit : 2 ^ n = 2 ^ (n - k) * 2 ^ k := by rw [← Nat.pow_add, Nat.sub_add_cancel (Nat.le_of_lt hs)]
  have hlow : a.toNat / 2 ^ k < 2 ^ (n - k) := Nat.div_lt_of_lt_mul (by rw [Nat.mul_comm, ← hsplit]; exact a.isLt)
  have hhigh : a.toNat * 2 ^ (n - k) % 2 ^ n = 2 ^ (n - k) * (a.toNat % 2 ^ k) := by
    rw [hsplit, Nat.mul_comm a.toNat, Nat.mul_mod_mul_left]
  have hsum : 2 ^ (n - k) * (a.toNat % 2 ^ k) + a.toNat / 2 ^ k < 2 ^ n :=
    calc 2 ^ (n - k) * (a.toNat % 2 ^ k) + a.toNat / 2 ^ k
      _ < 2 ^ (n - k) * (a.toNat % 2 ^ k) + 2 ^ (n - k) := Nat.add_lt_add_left hlow _
      _ = 2 ^ (n - k) * (a.toNat % 2 ^ k + 1) := (Nat.mul_add_one _ _).symm
      _ ≤ 2 ^ (n - k) * 2 ^ k := Nat.mul_le_mul_left _ (Nat.mod_lt _ (Nat.two_pow_pos k))
      _ = 2 ^ n := hsplit.symm
  have hstay : a.toNat / 2 ^ k % 2 ^ n = a.toNat / 2 ^ k :=
    Nat.mod_eq_of_lt (Nat.lt_of_le_of_lt (Nat.div_le_self _ _) a.isLt)
  calc (ror n a b).toNat
    _ = a.toNat / 2 ^ k ||| a.toNat * 2 ^ (n - k) % 2 ^ n := by
        rw [ror, hk, BitVec.toNat_or, BitVec.toNat_ushiftRight, BitVec.toNat_shiftLeft, Nat.shiftRight_eq_div_pow, Nat.shiftLeft_eq]
    _ = 2 ^ (n - k) * (a.toNat % 2 ^ k) + a.toNat / 2 ^ k := by rw [hhigh, Nat.or_comm, Nat.two_pow_add_eq_or_of_lt hlow]
    _ = (a.toNat / 2 ^ k + a.toNat * 2 ^ (n - k)) % 2 ^ n := by
        rw [Nat.add_mod, hhigh, hstay, Nat.add_comm (a.toNat / 2 ^ k), Nat.mod_eq_of_lt hsum]

/-! ## Extremes, absolute values, saturation (07 R169) -/

theorem toInt_minS (n : Nat) (a b : BitVec n) : (minS n a b).toInt = min a.toInt b.toInt := by
  rw [minS, Int.min_def, apply_ite BitVec.toInt]

theorem toInt_maxS (n : Nat) (a b : BitVec n) : (maxS n a b).toInt = max a.toInt b.toInt := by
  rw [maxS, Int.max_def, apply_ite BitVec.toInt]

theorem toNat_minU (n : Nat) (a b : BitVec n) : (minU n a b).toNat = min a.toNat b.toNat := by
  rw [minU, Nat.min_def, apply_ite BitVec.toNat]

theorem toNat_maxU (n : Nat) (a b : BitVec n) : (maxU n a b).toNat = max a.toNat b.toNat := by
  rw [maxU, Nat.max_def, apply_ite BitVec.toNat]

theorem toNat_absI (n : Nat) (a : BitVec n) : (absI n a a).toNat = a.toInt.natAbs % 2 ^ n := by
  have ha := a.isLt
  unfold absI
  split
  case isTrue hneg =>
    have habs : a.toInt.natAbs = 2 ^ n - a.toNat := by
      rw [BitVec.toInt_eq_toNat_cond] at hneg ⊢
      split at hneg <;> omega
    rw [BitVec.toNat_neg, habs]
  case isFalse hpos =>
    have habs : a.toInt.natAbs = a.toNat := by
      rw [BitVec.toInt_eq_toNat_cond] at hpos ⊢
      split at hpos <;> omega
    rw [habs, Nat.mod_eq_of_lt ha]

theorem clampInt_eq (x lo hi : Int) (h : lo ≤ hi) : clampInt x lo hi = max lo (min x hi) := by
  unfold clampInt
  split
  · omega
  · split <;> omega

theorem toInt_addSat (n : Nat) (hn : 1 < n) (a b : BitVec n) : (addSat n a b).toInt =
    max (-(2 ^ (n - 1) : Nat) : Int) (min (a.toInt + b.toInt) ((2 ^ (n - 1) : Nat) - 1)) := by
  have hpos := two_pow_cast_pos (n - 1)
  rw [addSat, clampInt_eq _ _ _ (by omega)]
  refine BitVec.toInt_ofInt_eq_self (by omega) ?_ ?_ <;> rw [two_pow_cast]
  · omega
  · omega

/-! ## Counts of bits (07 R169) -/

theorem countP_range_succ (p : Nat → Bool) (n : Nat) :
    (List.range (n + 1)).countP p = (List.range n).countP (fun i => p (i + 1)) + if p 0 = true then 1 else 0 := by
  rw [List.range_succ_eq_map, List.countP_cons, List.countP_map]
  rfl

theorem clzNat_le (n v : Nat) : clzNat n v ≤ n := by
  unfold clzNat
  split <;> omega

theorem testBit_above_clzNat (n v k : Nat) (hk : k < clzNat n v) : v.testBit (n - 1 - k) = false := by
  unfold clzNat at hk
  split at hk
  case isTrue h0 => rw [h0, Nat.zero_testBit]
  case isFalse h0 => exact Nat.testBit_lt_two_pow ((Nat.log2_lt h0).1 (by omega))

theorem testBit_at_clzNat (n v : Nat) (hv : v < 2 ^ n) (h : clzNat n v < n) : v.testBit (n - 1 - clzNat n v) = true := by
  unfold clzNat at h ⊢
  split at h
  case isTrue h0 => omega
  case isFalse h0 =>
    have hlog : v.log2 < n := (Nat.log2_lt h0).2 hv
    rw [if_neg h0, show n - 1 - (n - 1 - v.log2) = v.log2 by omega, Nat.testBit_log2 h0]

theorem ctzNat_le (n v : Nat) : ctzNat n v ≤ n := by
  induction n generalizing v with
  | zero => exact Nat.le_refl 0
  | succ n ih =>
    have := ih (v / 2)
    unfold ctzNat
    split <;> omega

theorem testBit_below_ctzNat (n v k : Nat) (hk : k < ctzNat n v) : v.testBit k = false := by
  induction n generalizing v k with
  | zero => exact absurd hk (Nat.not_lt_zero k)
  | succ n ih =>
    unfold ctzNat at hk
    split at hk
    case isTrue hodd => exact absurd hk (Nat.not_lt_zero k)
    case isFalse heven =>
      cases k with
      | zero => rw [Nat.testBit_zero, decide_eq_false heven]
      | succ k => rw [Nat.testBit_succ]; exact ih _ _ (by omega)

theorem testBit_at_ctzNat (n v : Nat) (h : ctzNat n v < n) : v.testBit (ctzNat n v) = true := by
  induction n generalizing v with
  | zero => exact absurd h (Nat.not_lt_zero _)
  | succ n ih =>
    unfold ctzNat at h ⊢
    split at h
    case isTrue hodd => rw [if_pos hodd, Nat.testBit_zero, decide_eq_true hodd]
    case isFalse heven => rw [if_neg heven, Nat.add_comm 1, Nat.testBit_succ]; exact ih _ (by omega)

theorem popNat_eq_countP (n v : Nat) : popNat n v = (List.range n).countP v.testBit := by
  induction n generalizing v with
  | zero => rfl
  | succ n ih =>
    have hbit : v % 2 = if v.testBit 0 = true then 1 else 0 := by
      rw [Nat.testBit_zero]
      rcases Nat.mod_two_eq_zero_or_one v with h | h <;> rw [h] <;> rfl
    have htail : (v / 2).testBit = fun i => v.testBit (i + 1) := funext fun i => (Nat.testBit_succ v i).symm
    rw [popNat, ih, htail, hbit, countP_range_succ, Nat.add_comm]

/-- A count of up to n fits into n bits. -/
theorem toNat_ofNat_le (n v : Nat) (h : v ≤ n) : (BitVec.ofNat n v).toNat = v := by
  rw [BitVec.toNat_ofNat, Nat.mod_eq_of_lt (Nat.lt_of_le_of_lt h Nat.lt_two_pow_self)]

theorem toNat_clzI (n : Nat) (a : BitVec n) : (clzI n a a).toNat = clzNat n a.toNat := toNat_ofNat_le n _ (clzNat_le n _)

theorem toNat_ctzI (n : Nat) (a : BitVec n) : (ctzI n a a).toNat = ctzNat n a.toNat := toNat_ofNat_le n _ (ctzNat_le n _)

/-- CLZ: a count of zeros from the top, ended by a one when it is below n. -/
theorem clzI_leading (n : Nat) (a : BitVec n) : (clzI n a a).toNat ≤ n ∧
    (∀ k, k < (clzI n a a).toNat → a.getLsbD (n - 1 - k) = false) ∧
    ((clzI n a a).toNat < n → a.getLsbD (n - 1 - (clzI n a a).toNat) = true) := by
  rw [toNat_clzI]
  exact ⟨clzNat_le n _, testBit_above_clzNat n _, testBit_at_clzNat n _ a.isLt⟩

/-- CTZ: a count of zeros from the bottom, ended by a one when it is below n. -/
theorem ctzI_trailing (n : Nat) (a : BitVec n) : (ctzI n a a).toNat ≤ n ∧
    (∀ k, k < (ctzI n a a).toNat → a.getLsbD k = false) ∧
    ((ctzI n a a).toNat < n → a.getLsbD (ctzI n a a).toNat = true) := by
  rw [toNat_ctzI]
  exact ⟨ctzNat_le n _, testBit_below_ctzNat n _, testBit_at_ctzNat n _⟩

theorem onesIn_eq_countP (n : Nat) (a : BitVec n) : onesIn n a = (List.range n).countP a.getLsbD :=
  List.countP_eq_length_filter.symm

theorem toNat_popcI (n : Nat) (a : BitVec n) : (popcI n a a).toNat = onesIn n a := by
  have hle : (List.range n).countP a.getLsbD ≤ n := Nat.le_trans List.countP_le_length (Nat.le_of_eq List.length_range)
  rw [onesIn_eq_countP, popcI, popNat_eq_countP]
  exact toNat_ofNat_le n _ hle

/-! ## Division (07 R170) -/

/-- Signed division with a divisor other than 0 is the library's, the overflowing pair among it. -/
theorem divS_of_ne_zero (n : Nat) (a b : BitVec n) (hb : b ≠ 0) : divS n a b = a.sdiv b := by
  rw [divS, if_neg hb, ← BitVec.toInt_inj, BitVec.toInt_ofInt, BitVec.toInt_sdiv]

/-- A signed remainder is the library's. -/
theorem remS_eq_srem (n : Nat) (a b : BitVec n) : remS n a b = a.srem b := by
  unfold remS
  split
  case isTrue hb => rw [hb]; exact BitVec.srem_zero.symm
  case isFalse hb =>
    rw [← BitVec.toInt_srem, BitVec.ofInt_toInt]

theorem toInt_intMin_of_one_lt {n : Nat} (hn : 1 < n) : (BitVec.intMin n).toInt = -(2 ^ (n - 1) : Nat) := by
  rw [BitVec.toInt_intMin, Nat.mod_eq_of_lt (Nat.pow_lt_pow_right (by omega) (by omega))]

theorem toInt_allOnes_of_one_lt {n : Nat} (hn : 1 < n) : (BitVec.allOnes n).toInt = -1 := by
  rw [BitVec.toInt_allOnes, if_pos (by omega)]

/-- The overflowing pair of 07 R170, as bit vectors. -/
theorem overflow_iff {n : Nat} (hn : 1 < n) (a b : BitVec n) :
    a.toInt = -(2 ^ (n - 1) : Nat) ∧ b.toInt = -1 ↔ a = BitVec.intMin n ∧ b = -1#n := by
  rw [← toInt_intMin_of_one_lt hn, ← toInt_allOnes_of_one_lt hn, BitVec.toInt_inj, BitVec.toInt_inj, BitVec.neg_one_eq_allOnes]

theorem toInt_divS (n : Nat) (hn : 1 < n) (a b : BitVec n) :
    if b = 0 then (divS n a b).toInt = (if 0 ≤ a.toInt then -1 else 1)
    else if a.toInt = -(2 ^ (n - 1) : Nat) ∧ b.toInt = -1 then divS n a b = a
    else (divS n a b).toInt = a.toInt.tdiv b.toInt := by
  split
  case isTrue hb =>
    rw [divS, if_pos hb, apply_ite BitVec.toInt, toInt_allOnes_of_one_lt hn]
    exact congrArg (ite _ _) (BitVec.toInt_one hn)
  case isFalse hb =>
    rw [divS_of_ne_zero n a b hb]
    simp only [overflow_iff hn]
    split
    case isTrue hover => rw [hover.1, hover.2, BitVec.intMin_sdiv_neg_one]
    case isFalse hfit => exact BitVec.toInt_sdiv_of_ne_or_ne a b (Decidable.not_and_iff_or_not.1 hfit)

theorem toInt_remS (n : Nat) (a b : BitVec n) :
    if b = 0 then remS n a b = a
    else if a.toInt = -(2 ^ (n - 1) : Nat) ∧ b.toInt = -1 then remS n a b = 0
    else (remS n a b).toInt = a.toInt - b.toInt * a.toInt.tdiv b.toInt := by
  split
  case isTrue hb => rw [remS, if_pos hb]
  case isFalse hb =>
    rw [remS_eq_srem]
    split
    case isTrue hover => rw [← BitVec.toInt_inj, BitVec.toInt_srem, hover.2, Int.tmod_neg, Int.tmod_one]; exact BitVec.toInt_zero.symm
    case isFalse => rw [BitVec.toInt_srem, Int.tmod_def]

theorem toNat_divU (n : Nat) (a b : BitVec n) :
    if b = 0 then (divU n a b).toNat = 2 ^ n - 1 else (divU n a b).toNat = a.toNat / b.toNat := by
  unfold divU
  split
  case isTrue => exact BitVec.toNat_allOnes
  case isFalse => rw [BitVec.toNat_ofNat, Nat.mod_eq_of_lt (Nat.lt_of_le_of_lt (Nat.div_le_self _ _) a.isLt)]

theorem toNat_remU (n : Nat) (a b : BitVec n) :
    if b = 0 then remU n a b = a else ((remU n a b).toNat : Int) = a.toNat - b.toNat * (a.toNat / b.toNat : Nat) := by
  unfold remU
  split
  case isTrue => rfl
  case isFalse =>
    rw [BitVec.toNat_ofNat, Nat.mod_eq_of_lt (Nat.lt_of_le_of_lt (Nat.mod_le _ _) a.isLt), Int.natCast_emod, Int.emod_def, Int.natCast_ediv]

/-! ## Carry-less products (07 R172) -/

/-- Whether an odd number of the places below n pass a test. -/
def oddCount (n : Nat) (p : Nat → Bool) : Bool := (List.range n).countP p % 2 == 1

theorem oddCount_succ (n : Nat) (p : Nat → Bool) : oddCount (n + 1) p = (p 0 ^^ oddCount n (fun i => p (i + 1))) := by
  rw [oddCount, oddCount, countP_range_succ]
  cases p 0 with
  | false => rw [Bool.false_xor]; rfl
  | true =>
    rw [if_pos rfl, Nat.add_mod]
    rcases Nat.mod_two_eq_zero_or_one ((List.range n).countP fun i => p (i + 1)) with h | h <;> rw [h] <;> rfl

/-- Place i of a pair that sums to j, with the other place shifted up by one, is place i + 1. -/
theorem testBit_two_mul_pair (a i j : Nat) :
    (decide (i ≤ j) && (2 * a).testBit (j - i)) = (decide (i + 1 ≤ j) && a.testBit (j - (i + 1))) := by
  have hpow : (2 * a).testBit (j - i) = (decide (1 ≤ j - i) && a.testBit (j - i - 1)) := by
    rw [Nat.mul_comm, ← Nat.testBit_mul_two_pow, Nat.pow_one]
  rw [hpow, ← Bool.and_assoc, ← Bool.decide_and, Nat.sub_sub]
  exact congrArg (· && _) (decide_eq_decide.2 (by omega))

/-- Bit j of the exclusive or of a's shifts by the set bits of b's low k. -/
theorem testBit_clmulNat (k a b j : Nat) :
    (clmulNat k a b).testBit j = oddCount k (fun i => decide (i ≤ j) && a.testBit (j - i) && b.testBit i) := by
  induction k generalizing a b with
  | zero => exact Nat.zero_testBit j
  | succ k ih =>
    have hfirst : (if b % 2 = 1 then a else 0).testBit j = (decide (0 ≤ j) && a.testBit (j - 0) && b.testBit 0) := by
      rw [decide_eq_true (Nat.zero_le j), Bool.true_and, Nat.sub_zero, Nat.testBit_zero]
      split
      case isTrue h => rw [decide_eq_true h, Bool.and_true]
      case isFalse h => rw [decide_eq_false h, Bool.and_false, Nat.zero_testBit]
    have hrest : (fun i => decide (i ≤ j) && (2 * a).testBit (j - i) && (b / 2).testBit i) =
        fun i => decide (i + 1 ≤ j) && a.testBit (j - (i + 1)) && b.testBit (i + 1) := by
      funext i
      rw [testBit_two_mul_pair, Nat.testBit_succ]
    rw [clmulNat, Nat.testBit_xor, hfirst, ih, oddCount_succ, hrest]

/-- A count does not change by places that fail the test. -/
theorem countP_range_add (p : Nat → Bool) (n d : Nat) (h : ∀ i, n ≤ i → p i = false) :
    (List.range (n + d)).countP p = (List.range n).countP p := by
  induction d with
  | zero => rfl
  | succ d ih =>
    rw [← Nat.add_assoc, List.range_succ, List.countP_append, ih, List.countP_singleton, h _ (Nat.le_add_right n d)]
    rfl

theorem countP_range_of_bounded (p : Nat → Bool) (n m : Nat) (hn : ∀ i, n ≤ i → p i = false) (hm : ∀ i, m ≤ i → p i = false) :
    (List.range n).countP p = (List.range m).countP p := by
  rw [← countP_range_add p n m hn, ← countP_range_add p m n hm, Nat.add_comm]

/-- Counting from the other end. -/
theorem countP_range_reflect (p : Nat → Bool) (k : Nat) :
    (List.range (k + 1)).countP p = (List.range (k + 1)).countP (fun i => p (k - i)) := by
  induction k with
  | zero => rfl
  | succ k ih =>
    rw [countP_range_succ (fun i => p (k + 1 - i)), List.range_succ (n := k + 1), List.countP_append, ih, List.countP_singleton]
    simp only [Nat.add_sub_add_right, Nat.sub_zero]

/-- The pairs of places that sum to k, told by either place: each is the other's partner. -/
theorem countP_pairs_comm (n k : Nat) (p q : Nat → Bool) (hp : ∀ i, n ≤ i → p i = false) (hq : ∀ i, n ≤ i → q i = false) :
    (List.range n).countP (fun i => decide (i ≤ k) && p i && q (k - i)) =
      (List.range n).countP (fun i => decide (i ≤ k) && p (k - i) && q i) := by
  have hbeyond (x : Bool) (i : Nat) (hi : k + 1 ≤ i) : (decide (i ≤ k) && x) = false := by
    rw [decide_eq_false (Nat.not_le.2 hi), Bool.false_and]
  rw [countP_range_of_bounded (fun i => decide (i ≤ k) && p i && q (k - i)) n (k + 1)
      (fun i hi => by rw [hp i hi, Bool.and_false, Bool.false_and])
      (fun i hi => by rw [Bool.and_assoc]; exact hbeyond _ i hi),
    countP_range_of_bounded (fun i => decide (i ≤ k) && p (k - i) && q i) n (k + 1)
      (fun i hi => by rw [hq i hi, Bool.and_false])
      (fun i hi => by rw [Bool.and_assoc]; exact hbeyond _ i hi),
    countP_range_reflect]
  refine List.countP_congr fun i hi => ?_
  have hle : i ≤ k := Nat.le_of_lt_succ (List.mem_range.1 hi)
  rw [Nat.sub_sub_self hle, decide_eq_true hle, decide_eq_true (Nat.sub_le k i)]

theorem clmulBit_eq_oddCount (n : Nat) (a b : BitVec n) (k : Nat) :
    clmulBit n a b k = oddCount n (fun i => decide (i ≤ k) && a.getLsbD i && b.getLsbD (k - i)) := by
  rw [clmulBit, oddCount, List.countP_eq_length_filter]

/-- The product of 07 R172 is told by the places of a, the one the model forms by the places of b. -/
theorem testBit_clmulNat_eq_clmulBit (n : Nat) (a b : BitVec n) (k : Nat) :
    (clmulNat n a.toNat b.toNat).testBit k = clmulBit n a b k := by
  rw [testBit_clmulNat, clmulBit_eq_oddCount]
  exact congrArg (fun m => m % 2 == 1) (countP_pairs_comm n k a.getLsbD b.getLsbD
    (fun i hi => BitVec.getLsbD_of_ge a i hi) (fun i hi => BitVec.getLsbD_of_ge b i hi)).symm

theorem getLsbD_clmulLo (n : Nat) (a b : BitVec n) (k : Nat) (hk : k < n) : (clmulLo n a b).getLsbD k = clmulBit n a b k := by
  rw [clmulLo, BitVec.getLsbD_ofNat, testBit_clmulNat_eq_clmulBit, decide_eq_true hk, Bool.true_and]

theorem getLsbD_clmulHi (n : Nat) (a b : BitVec n) (k : Nat) (hk : k < n) : (clmulHi n a b).getLsbD k = clmulBit n a b (k + n) := by
  rw [clmulHi, BitVec.getLsbD_ofNat, Nat.testBit_div_two_pow, testBit_clmulNat_eq_clmulBit, decide_eq_true hk, Bool.true_and]

/-- No two places below n sum to 2n − 1 or more. -/
theorem clmulBit_above (n : Nat) (a b : BitVec n) (k : Nat) (hk : 2 * n ≤ k + 1) : clmulBit n a b k = false := by
  have hnone : (List.range n).countP (fun i => decide (i ≤ k) && a.getLsbD i && b.getLsbD (k - i)) = 0 := by
    refine List.countP_eq_zero.2 fun i hi => ?_
    have hin : i < n := List.mem_range.1 hi
    rw [BitVec.getLsbD_of_ge b (k - i) (by omega), Bool.and_false]
    exact Bool.false_ne_true
  rw [clmulBit_eq_oddCount, oddCount, hnone]
  rfl

/-! ## Bit fields (07 R171) -/

theorem signedOf_mod (n v : Nat) : signedOf n (v % 2 ^ n) =
    if v % 2 ^ n < 2 ^ (n - 1) then ((v % 2 ^ n : Nat) : Int) else ((v % 2 ^ n : Nat) : Int) - (2 ^ n : Nat) := by
  simp only [signedOf, Nat.mod_mod]

/-- The field BFX takes, read as a signed number, fits 64 bits. -/
theorem toInt_bfxVal_signed (a b : Word) (h13 : b.getLsbD 13 = true) (hlen : 0 < bfLen b) :
    (bfxVal a b).toInt = if a.toNat / 2 ^ bfPos b % 2 ^ bfLen b < 2 ^ (bfLen b - 1)
      then ((a.toNat / 2 ^ bfPos b % 2 ^ bfLen b : Nat) : Int)
      else ((a.toNat / 2 ^ bfPos b % 2 ^ bfLen b : Nat) : Int) - (2 ^ bfLen b : Nat) := by
  have hle : 2 ^ (bfLen b - 1) ≤ 2 ^ 63 := Nat.pow_le_pow_right (by omega) (by unfold bfLen; omega)
  have hdouble : 2 ^ bfLen b = 2 * 2 ^ (bfLen b - 1) := by rw [← Nat.pow_succ', Nat.succ_eq_add_one, Nat.sub_add_cancel hlen]
  have hmod := Nat.mod_lt (a.toNat / 2 ^ bfPos b) (Nat.two_pow_pos (bfLen b))
  have hval : bfxVal a b = BitVec.ofInt 64 (signedOf (bfLen b) (a.toNat / 2 ^ bfPos b % 2 ^ bfLen b)) :=
    if_pos (by rw [h13, decide_eq_true hlen]; rfl)
  rw [hval, signedOf_mod]
  refine BitVec.toInt_ofInt_eq_self (by decide) ?_ ?_
  · split <;> omega
  · split <;> omega

theorem toNat_bfxVal_unsigned (a b : Word) (h : ¬(b.getLsbD 13 = true ∧ 0 < bfLen b)) :
    (bfxVal a b).toNat = a.toNat / 2 ^ bfPos b % 2 ^ bfLen b := by
  have hval : bfxVal a b = BitVec.ofNat 64 (a.toNat / 2 ^ bfPos b % 2 ^ bfLen b) := by
    refine if_neg fun hb => h ?_
    rwa [Bool.and_eq_true, decide_eq_true_iff] at hb
  have hlt : a.toNat / 2 ^ bfPos b % 2 ^ bfLen b < 2 ^ 64 :=
    Nat.lt_of_le_of_lt (Nat.mod_le _ _) (Nat.lt_of_le_of_lt (Nat.div_le_self _ _) a.isLt)
  rw [hval, BitVec.toNat_ofNat, Nat.mod_eq_of_lt hlt]

/-- The mask of BFI covers the places of its field. -/
theorem getLsbD_bfiMask (b : Word) (k : Nat) (hk : k < 64) :
    ((BitVec.ofNat 64 (2 ^ bfLen b - 1)) <<< bfPos b).getLsbD k = decide (bfPos b ≤ k ∧ k < bfPos b + bfLen b) := by
  rw [BitVec.getLsbD_shiftLeft, BitVec.getLsbD_ofNat, Nat.testBit_two_pow_sub_one, decide_eq_true hk,
    decide_eq_true (show k - bfPos b < 64 by omega), Bool.true_and, Bool.true_and, ← decide_not, ← Bool.decide_and]
  exact decide_eq_decide.2 (by omega)

theorem getLsbD_bfiVal (d a b : Word) (k : Nat) (hk : k < 64) : (bfiVal d a b).getLsbD k =
    if bfPos b ≤ k ∧ k < bfPos b + bfLen b then a.getLsbD (k - bfPos b) else d.getLsbD k := by
  rw [bfiVal, BitVec.getLsbD_or, BitVec.getLsbD_and, BitVec.getLsbD_and, BitVec.getLsbD_not, getLsbD_bfiMask b k hk,
    BitVec.getLsbD_shiftLeft, decide_eq_true hk, Bool.true_and, Bool.true_and]
  split
  case isTrue hin =>
    rw [decide_eq_true hin, decide_eq_false (Nat.not_lt.2 hin.1), Bool.not_true, Bool.and_false, Bool.false_or, Bool.not_false,
      Bool.true_and, Bool.and_true]
  case isFalse hout =>
    rw [decide_eq_false hout, Bool.not_false, Bool.and_true, Bool.and_false, Bool.or_false]

end Sys2Proof.Laws.Integer

/-!
PROOF. The integer slots (07 R167 to R174): the shape of an instruction of one result, and the statements about results settled from it.
-/
namespace Sys2Proof.Laws.Integer

open Sys2Proof Sys2Proof.Machine Sys2Proof.Safety

/-! ## From a function of n bits to an instruction -/

section Shapes

variable {f : (n : Nat) → BitVec n → BitVec n → BitVec n}

/-- A rule that a function meets at every width above 1 is met by the instruction's word at each of its widths. -/
theorem atWidth_meets {R : (n : Nat) → BitVec n → BitVec n → BitVec n → Prop} (h : ∀ n, 1 < n → ∀ a b, R n a b (f n a b))
    (w : Width) (a b : Word) : AtWidth w R a b (atWidth w f a b) := by
  cases w with
  | w64 => exact h 64 (by decide) a b
  | s32 => exact ⟨_, h 32 (by decide) _ _, rfl⟩
  | z32 => exact ⟨_, h 32 (by decide) _ _, rfl⟩

theorem atWidth_self (w : Width) (a : Word) : atWidth w f a a = atWidth w (fun n x _ => f n x x) a a := by cases w <;> rfl

theorem aluGives_of_iAlu {c : IArgs → Instr} {lat : Nat} {R : (n : Nat) → BitVec n → BitVec n → BitVec n → Prop}
    (hc : ∀ p s, exec (c p) s = iAlu p lat f s) (h : ∀ n, 1 < n → ∀ a b, R n a b (f n a b)) : AluGives c lat R :=
  fun p s => ⟨_, atWidth_meets h p.w _ _, (hc p s).trans (iTwo_next p.u p.d p.a p.b lat (atWidth p.w f) s)⟩

theorem unaryGives_of_iUnary {c : IUn → Instr} {lat : Nat} {R : (n : Nat) → BitVec n → BitVec n → Prop}
    (hc : ∀ p s, exec (c p) s = iUnary p lat f s) (h : ∀ n, 1 < n → ∀ a, R n a (f n a a)) : UnaryGives c lat R := by
  intro p s
  refine ⟨_, ?_, (hc p s).trans (iOne_next p.u p.d p.a lat (fun a => atWidth p.w f a a) s)⟩
  rw [atWidth_self]
  exact atWidth_meets (R := fun n a _ q => R n a q) (fun n hn a _ => h n hn a) p.w _ _

end Shapes

theorem wideGives_of_iTwo {c : IArgs64 → Instr} {lat : Nat} {f : Word → Word → Word → Word} {R : (d a b r : Word) → Prop}
    (hc : ∀ p s, exec (c p) s = iTwo p.u p.d p.a p.b lat (f (s.cur.oldD p.u p.d)) s) (h : ∀ d a b, R d a b (f d a b)) :
    WideGives c lat R :=
  fun p s => ⟨_, h _ _ _, (hc p s).trans (iTwo_next p.u p.d p.a p.b lat (f (s.cur.oldD p.u p.d)) s)⟩

/-! ## Conditions and selection (07 R173, R174) -/

theorem not_eq_true_iff (v : Bool) : (!v) = true ↔ ¬v = true := by
  cases v <;> decide

theorem condHolds_iff {n : Nat} (c : Cond) (a b : BitVec n) : condHolds c a b = true ↔ Holds c n a b := by
  cases c with
  | eq => exact beq_iff_eq
  | ne => exact bne_iff_ne
  | lt => exact BitVec.slt_iff_toInt_lt
  | ge => exact (not_eq_true_iff (a.slt b)).trans ((not_congr BitVec.slt_iff_toInt_lt).trans Int.not_lt)
  | ltu => exact BitVec.ult_iff_toNat_lt
  | geu => exact (not_eq_true_iff (a.ult b)).trans ((not_congr BitVec.ult_iff_toNat_lt).trans Nat.not_lt)
  | tst => exact bne_iff_ne
  | ntst => exact beq_iff_eq

theorem wext_boolWord_s32 (v : Bool) : wext .s32 (boolWord v) = if v then (1 : BitVec 32).signExtend 64 else 0 := by
  cases v <;> decide

theorem wext_boolWord_z32 (v : Bool) : wext .z32 (boolWord v) = boolWord v := by
  cases v <;> decide

/-- CMP into a register. -/
theorem cmp_reg_leaves (u : ISlot) (w : Width) (c : Cond) (r a : Opnd) (b : OpB) (s : State) :
    Leaves (.cmp u w c (.reg r) a b) s ((readBoth s.cur u.slot a b).push (destOf u.slot r)
      (.word (wext w (boolWord (condAt w c (wordOf s u.slot a) (wordOfB s u.slot b))))) (s.cur.cycle + 1)) := rfl

/-- CMP into a flag. -/
theorem cmp_flag_leaves (u : ISlot) (w : Width) (c : Cond) (n : BitVec 4) (a : Opnd) (b : OpB) (s : State) :
    Leaves (.cmp u w c (.flag n) a b) s ((readBoth s.cur u.slot a b).push (some (.f n.toNat))
      (.word (boolWord (condAt w c (wordOf s u.slot a) (wordOfB s u.slot b)))) (s.cur.cycle + 1)) := rfl

/-- SEL chooses by the flag as it stands at issue. -/
theorem sel_leaves (u : ISlot) (w : Width) (k : BitVec 4) (d a b : Opnd) (s : State) :
    Leaves (.sel u w k d a b) s ((readBoth s.cur u.slot a (.op b)).push (destOf u.slot d)
      (.word (wext w (if s.cur.regs.f.getLsbD k.toNat then wordOf s u.slot a else wordOf s u.slot b))) (s.cur.cycle + 1)) := rfl

/-- Choosing an operand and extending the choice is choosing at the width. -/
theorem wext_choice (w : Width) (sel : Bool) (a b : Word) :
    AtWidth w (fun _ x y q => q = if sel then x else y) a b (wext w (if sel then a else b)) := by
  cases w with
  | w64 => rfl
  | s32 => exact ⟨_, rfl, by cases sel <;> rfl⟩
  | z32 => exact ⟨_, rfl, by cases sel <;> rfl⟩

/-! ## The statements -/

/-- Settles O1: each result is the number or the bits 07 R169 gives, by the lemma about its function. -/
theorem integerArithmetic : Obligations.IntegerArithmetic := by
  unfold Obligations.IntegerArithmetic
  exact ⟨
    aluGives_of_iAlu (f := fun _ a b => a + b) (fun _ _ => rfl) fun _ _ => BitVec.toNat_add,
    aluGives_of_iAlu (f := fun _ a b => a - b) (fun _ _ => rfl) fun n _ => toNat_sub_int n,
    aluGives_of_iAlu (f := fun _ a b => a * b) (fun _ _ => rfl) fun _ _ => BitVec.toNat_mul,
    aluGives_of_iAlu (f := mulHighS) (fun _ _ => rfl) fun n _ => toNat_mulHighS n,
    aluGives_of_iAlu (f := mulHighU) (fun _ _ => rfl) fun n _ => toNat_mulHighU n,
    aluGives_of_iAlu (f := fun _ a b => a &&& b) (fun _ _ => rfl) fun _ _ _ _ _ _ => BitVec.getLsbD_and,
    aluGives_of_iAlu (f := fun _ a b => a ||| b) (fun _ _ => rfl) fun _ _ _ _ _ _ => BitVec.getLsbD_or,
    aluGives_of_iAlu (f := fun _ a b => a ^^^ b) (fun _ _ => rfl) fun _ _ _ _ _ _ => BitVec.getLsbD_xor,
    aluGives_of_iAlu (f := fun _ a b => a &&& ~~~b) (fun _ _ => rfl) fun n _ => getLsbD_andn n,
    aluGives_of_iAlu (f := shl) (fun _ _ => rfl) fun n _ => toNat_shl n,
    aluGives_of_iAlu (f := shr) (fun _ _ => rfl) fun n _ => toNat_shr n,
    aluGives_of_iAlu (f := sar) (fun _ _ => rfl) fun n _ => toInt_sar n,
    aluGives_of_iAlu (f := ror) (fun _ _ => rfl) toNat_ror,
    aluGives_of_iAlu (f := minS) (fun _ _ => rfl) fun n _ => toInt_minS n,
    aluGives_of_iAlu (f := maxS) (fun _ _ => rfl) fun n _ => toInt_maxS n,
    aluGives_of_iAlu (f := minU) (fun _ _ => rfl) fun n _ => toNat_minU n,
    aluGives_of_iAlu (f := maxU) (fun _ _ => rfl) fun n _ => toNat_maxU n,
    unaryGives_of_iUnary (f := absI) (fun _ _ => rfl) fun n _ => toNat_absI n,
    unaryGives_of_iUnary (f := clzI) (fun _ _ => rfl) fun n _ => clzI_leading n,
    unaryGives_of_iUnary (f := ctzI) (fun _ _ => rfl) fun n _ => ctzI_trailing n,
    unaryGives_of_iUnary (f := popcI) (fun _ _ => rfl) fun n _ => toNat_popcI n,
    aluGives_of_iAlu (f := addSat) (fun _ _ => rfl) toInt_addSat⟩

/-- Settles O2: quotients and remainders agree with truncating division, and the zero divisor has its own results. -/
theorem divisionResults : Obligations.DivisionResults := by
  unfold Obligations.DivisionResults
  exact ⟨
    aluGives_of_iAlu (f := divS) (fun _ _ => rfl) toInt_divS,
    aluGives_of_iAlu (f := divU) (fun _ _ => rfl) fun n _ => toNat_divU n,
    aluGives_of_iAlu (f := remS) (fun _ _ => rfl) fun n _ => toInt_remS n,
    aluGives_of_iAlu (f := remU) (fun _ _ => rfl) fun n _ => toNat_remU n⟩

/-- Settles O3: carry-less products and bit fields by the lemmas about their bits, CMP by destination and width, SEL by its choice. -/
theorem bitsAndSelection : Obligations.BitsAndSelection := by
  unfold Obligations.BitsAndSelection
  refine ⟨⟨?clmul, ?clmulh⟩, ⟨?bfx, ?bfi⟩, ?cmp, ?sel⟩
  case clmul => exact aluGives_of_iAlu (f := clmulLo) (fun _ _ => rfl) fun n _ => getLsbD_clmulLo n
  case clmulh =>
    refine aluGives_of_iAlu (f := clmulHi) (fun _ _ => rfl) fun n hn a b => ⟨?_, fun k hk => ?_⟩
    · rw [getLsbD_clmulHi n a b _ (by omega), clmulBit_above n a b _ (by omega)]
    · exact getLsbD_clmulHi n a b k (by omega)
  case bfx =>
    exact wideGives_of_iTwo (f := fun _ => bfxVal) (fun _ _ => rfl) fun _ a b =>
      ⟨fun h => toInt_bfxVal_signed a b h.1 h.2, toNat_bfxVal_unsigned a b⟩
  case bfi => exact wideGives_of_iTwo (f := bfiVal) (fun _ _ => rfl) getLsbD_bfiVal
  case cmp =>
    intro u w c d a b s
    refine ⟨condAt w c (wordOf s u.slot a) (wordOfB s u.slot b), ?_, ?_⟩
    · cases w with
      | w64 => exact condHolds_iff c _ _
      | s32 => exact condHolds_iff c _ _
      | z32 => exact condHolds_iff c _ _
    · cases d with
      | flag n => exact cmp_flag_leaves u w c n a b s
      | reg r =>
        have h := cmp_reg_leaves u w c r a b s
        cases w with
        | w64 => exact h
        | s32 => rwa [wext_boolWord_s32] at h
        | z32 => rwa [wext_boolWord_z32] at h
  case sel =>
    intro u w k d a b s
    exact ⟨_, wext_choice w (s.cur.regs.f.getLsbD k.toNat) _ _, sel_leaves u w k d a b s⟩

end Sys2Proof.Laws.Integer

/-!
PROOF. The control transfers of the C slot (07 R146, R147).
-/
namespace Sys2Proof.Laws.Control

open Sys2Proof Sys2Proof.Machine Sys2Proof.Safety

/-- The current core after a conditional branch has read its condition and its offset. -/
def testedBranch (s : State) (cond : Opnd) (off : Lit) : Core := readLit (readA s.cur .c cond) .c off

theorem branchIf_next (want : Bool) (cond : Opnd) (off : Lit) (s : State) :
    branchIf want cond off s = .next (s.setCur (if (wordOf s .c cond != 0) = want
      then (testedBranch s cond off).leaveBy (.goto (s.cur.branchTarget off)) else testedBranch s cond off)) := rfl

/-- A conditional branch whose condition is as wanted goes to its target. -/
theorem branchIf_taken {want : Bool} {cond : Opnd} {s : State} (h : (wordOf s .c cond != 0) = want) (off : Lit) :
    branchIf want cond off s =
      .next (s.setCur ((testedBranch s cond off).leaveBy (.goto (s.cur.branchTarget off)))) := by
  rw [branchIf_next, if_pos h]

/-- A conditional branch whose condition is not as wanted leaves the end of the group as it is. -/
theorem branchIf_passed {want : Bool} {cond : Opnd} {s : State} (h : (wordOf s .c cond != 0) = !want) (off : Lit) :
    branchIf want cond off s = .next (s.setCur (testedBranch s cond off)) := by
  rw [branchIf_next, if_neg (by cases want <;> rw [h] <;> decide)]

/-- Settles O4: the transfers without a condition by what they do in every state, BRT and BRF by whether the condition is as wanted. -/
theorem controlTransfers : Obligations.ControlTransfers := by
  unfold Obligations.ControlTransfers
  intro s off cond a b
  refine ⟨?br, ?brtTaken, ?brtPassed, ?brfTaken, ?brfPassed, ?call, ?ret, ?jmpi⟩
  case br => rfl
  case brtTaken => exact fun h => branchIf_taken (bne_iff_ne.2 h) off
  case brtPassed => exact fun h => branchIf_passed (bne_eq_false_iff_eq.2 h) off
  case brfTaken => exact fun h => branchIf_taken (bne_eq_false_iff_eq.2 h) off
  case brfPassed => exact fun h => branchIf_passed (bne_iff_ne.2 h) off
  case call => rfl
  case ret => rfl
  case jmpi => rfl

end Sys2Proof.Laws.Control
